-- ==== Sys2Proof/Word.lean ====
section
/-!
DEFINITION. Word.lean: the plain types of HUFF: bytes, words, bus addresses, stream tokens, tree nodes and code
entries (spec/00_scope.md R9, R11, R13; spec/10_state.md R52, R55, R56).
-/

namespace Sys2Proof

/-- A symbol or a stream byte: 8 bits (00_scope.md R9, SYMBOLS and the stream data width). -/
abbrev Byte := BitVec 8

/-- A register word: 32 bits (00_scope.md R9, CSR data width). -/
abbrev Word := BitVec 32

/-- A byte address of the register space: 16 bits (20_memory.md R80). -/
abbrev Addr := BitVec 16

/-- A tree weight: WEIGHT_W = 40 bits (00_scope.md R9). -/
abbrev Weight := BitVec 40

/-- An arena index: 9 bits (10_state.md R55). -/
abbrev NodeIdx := BitVec 9

/-- A token of the IN port: a byte, or End (00_scope.md R13, 20_memory.md R86). -/
inductive InTok where
  | byte (b : Byte)
  | eos
  deriving DecidableEq, Repr, Inhabited

/-- A token of the OUT port: a byte, End or Abort (20_memory.md R87). -/
inductive OutTok where
  | byte (b : Byte)
  | eos
  | abort
  deriving DecidableEq, Repr, Inhabited

/-- One entry of the arena TREE: a leaf with its symbol, or an internal node with the indices of its two children;
each carries a weight (10_state.md R55). -/
inductive Node where
  | leaf (symbol : Byte) (weight : Weight)
  | internal (left right : NodeIdx) (weight : Weight)
  deriving DecidableEq, Repr, Inhabited

/-- One entry of the table CODE: LEN, 8 bits, and BITS, CODE_MAX = 255 bits, BITS[0] being the branch at the root
(10_state.md R56). -/
structure CodeEntry where
  len : BitVec 8
  bits : BitVec 255
  deriving DecidableEq, Repr, Inhabited

end Sys2Proof
end

