-- ==== Sys2Proof/Syntax.lean ====
section
/-!
DEFINITION. Syntax.lean: the 18 commands of HUFF-CMD 1.0, one constructor per row of spec/opcode_table.json
(spec/30_encoding.md R121).
-/

namespace Sys2Proof

/-- A command. Only PACK_BITS has an operand field, its bit count N (30_encoding.md R120, R122); every other operand
is state, named in the command's own rule. -/
inductive Instr where
  /-- NOP, 40_command.md R177. -/
  | nop
  /-- PACK_BIT, 41_bitio.md R210. -/
  | packBit
  /-- PACK_BYTE, 41_bitio.md R211. -/
  | packByte
  /-- PACK_BITS, 41_bitio.md R212: the low `n` bits of ARG. -/
  | packBits (n : Nat)
  /-- FLUSH, 41_bitio.md R213. -/
  | flush
  /-- UNPACK_BIT, 41_bitio.md R214. -/
  | unpackBit
  /-- UNPACK_BYTE, 41_bitio.md R215. -/
  | unpackByte
  /-- UNPACK_RESET, 40_command.md R178. -/
  | unpackReset
  /-- LOAD, 42_frequency.md R240. -/
  | load
  /-- COUNT, 42_frequency.md R241. -/
  | count
  /-- BUILD, 43_tree_builder.md R260. -/
  | build
  /-- GENCODE, 44_code_table.md R280. -/
  | gencode
  /-- EMIT, 44_code_table.md R282. -/
  | emit
  /-- SERIALIZE, 45_tree_serializer.md R300. -/
  | serialize
  /-- DESERIALIZE, 45_tree_serializer.md R301. -/
  | deserialize
  /-- ENCODE, 46_encoder.md R320. -/
  | encode
  /-- DECODE, 47_decoder.md R345. -/
  | decode
  /-- WALK, 47_decoder.md R343. -/
  | walk
  deriving DecidableEq, Repr

end Sys2Proof
end

