-- ==== Sys2Proof/WellFormed.lean ====
section
/-!
DEFINITION. WellFormed.lean: which commands a command word can spell (spec/30_encoding.md R120, R122).
-/

namespace Sys2Proof

/-- A command fits its word. The one operand field, N of PACK_BITS, is an unsigned 8-bit value (R120, R122). That
N > 32 ends in BAD_ARG is no matter of form: such a word is legal (R123) and the command runs into its own check. -/
def Instr.wellFormed : Instr → Bool
  | .packBits n => decide (n < 256)
  | .nop | .packBit | .packByte | .flush | .unpackBit | .unpackByte | .unpackReset => true
  | .load | .count | .build | .gencode | .emit | .serialize | .deserialize => true
  | .encode | .decode | .walk => true

end Sys2Proof
end

