-- ==== Sys2Proof/Decode.lean ====
section
/-!
DEFINITION. Decode.lean: from the bytes of a command word to a command, total and rejecting by name, and back
(spec/30_encoding.md R120 to R125; byte order: spec/20_memory.md R85).
-/

namespace Sys2Proof

/-- Why bytes are no command. `short` is about the byte list alone: a command is exactly one 32-bit word (R125). -/
inductive Reject where
  /-- Fewer than four bytes. -/
  | short
  /-- RSV, bits [31:16], is not 0 (R120, R123). -/
  | reservedBits
  /-- OPC is a reserved opcode (R121, R124). -/
  | reservedOpcode
  /-- N, bits [15:8], is not 0 and OPC is not 0x12 (R120, R123). -/
  | nonzeroN
  deriving DecidableEq, Repr

/-- The OPC field, bits [7:0] (R120). -/
def fieldOpc (w : Word) : Byte := w.extractLsb' 0 8

/-- The N field, bits [15:8] (R120). -/
def fieldN (w : Word) : Byte := w.extractLsb' 8 8

/-- The RSV field, bits [31:16] (R120). -/
def fieldRsv (w : Word) : BitVec 16 := w.extractLsb' 16 16

/-- The opcode map (R121): OPC to the command, given N. Every value not listed is reserved (R124). -/
def opcodeMap (opc : Byte) (n : Nat) : Option Instr :=
  match opc.toNat with
  | 0x00 => some .nop
  | 0x10 => some .packBit
  | 0x11 => some .packByte
  | 0x12 => some (.packBits n)
  | 0x13 => some .flush
  | 0x14 => some .unpackBit
  | 0x15 => some .unpackByte
  | 0x16 => some .unpackReset
  | 0x20 => some .load
  | 0x21 => some .count
  | 0x30 => some .build
  | 0x40 => some .gencode
  | 0x41 => some .emit
  | 0x50 => some .serialize
  | 0x51 => some .deserialize
  | 0x60 => some .encode
  | 0x70 => some .decode
  | 0x71 => some .walk
  | _ => none

/-- The decoding procedure (R123), its checks in the rule's order. -/
def decodeWord (w : Word) : Except Reject Instr :=
  if fieldRsv w ≠ 0 then .error .reservedBits
  else match opcodeMap (fieldOpc w) (fieldN w).toNat with
    | none => .error .reservedOpcode
    | some i => if fieldOpc w ≠ 0x12 ∧ fieldN w ≠ 0 then .error .nonzeroN else .ok i

/-- A word from its four bytes, byte 0 in bits [7:0] (20_memory.md R85). -/
def wordOfBytes (b0 b1 b2 b3 : Byte) : Word := b3 ++ b2 ++ b1 ++ b0

/-- The four bytes of a word, byte k being bits [8k+7:8k] (20_memory.md R85). -/
def bytesOfWord (w : Word) : List Byte :=
  [w.extractLsb' 0 8, w.extractLsb' 8 8, w.extractLsb' 16 8, w.extractLsb' 24 8]

/-- The decoder on bytes: the first command and the bytes after it (R125: always four bytes). -/
def decodeBytes : List Byte → Except Reject (Instr × List Byte)
  | b0 :: b1 :: b2 :: b3 :: rest =>
    match decodeWord (wordOfBytes b0 b1 b2 b3) with
    | .ok i => .ok (i, rest)
    | .error r => .error r
  | _ => .error .short

/-- The OPC of each command (R121). -/
def opcodeOf : Instr → Byte
  | .nop => 0x00
  | .packBit => 0x10
  | .packByte => 0x11
  | .packBits _ => 0x12
  | .flush => 0x13
  | .unpackBit => 0x14
  | .unpackByte => 0x15
  | .unpackReset => 0x16
  | .load => 0x20
  | .count => 0x21
  | .build => 0x30
  | .gencode => 0x40
  | .emit => 0x41
  | .serialize => 0x50
  | .deserialize => 0x51
  | .encode => 0x60
  | .decode => 0x70
  | .walk => 0x71

/-- The N of each command: 0 but for PACK_BITS (R120). -/
def countField : Instr → Nat
  | .packBits n => n
  | _ => 0

/-- The command word of a well-formed command (R120): RSV = 0, N, OPC. -/
def encodeWord (i : Instr) : Word := (0 : BitVec 16) ++ BitVec.ofNat 8 (countField i) ++ opcodeOf i

/-- The bytes of a command's word (R125, 20_memory.md R85). -/
def encodeBytes (i : Instr) : List Byte := bytesOfWord (encodeWord i)

/-- The word whose low `nbits` bits are those of `w`, every bit above being 0. -/
def tableWord (nbits w : Nat) : Word := BitVec.ofNat 32 (w % 2 ^ nbits)

/-- The command the decoder reads from a table row's bits, laid out as four bytes; none where it rejects them. -/
def decodeTableWord (nbits w : Nat) : Option Instr :=
  match decodeBytes (bytesOfWord (tableWord nbits w)) with
  | .ok (i, _) => some i
  | .error _ => none

end Sys2Proof
end

