-- ==== Sys2Proof/Config.lean ====
section
/-!
DEFINITION. Config.lean: what is fixed for the machine, and the free values (spec/00_scope.md R1, R8 to R10;
spec/93_implementation_defined.md). The parameter N_MAX is a field of State, so that every statement ranges over it
(notes/assumptions/1.md).
-/

namespace Sys2Proof.Config

/-- The identification word (00_scope.md R1, 10_state.md R33). -/
def idWord : Word := 0x48460100#32

/-- RAW_THRESHOLD (00_scope.md R9): ENCODE goes raw below this many bytes. -/
def rawThreshold : Nat := 8

/-- SYMBOLS (00_scope.md R9). -/
def symbols : Nat := 256

/-- PACKN_MAX (00_scope.md R9): the largest N a PACK_BITS accepts. -/
def packnMax : Nat := 32

/-- NODE_MAX (00_scope.md R9): the arena's entries. -/
def nodeMax : Nat := 511

/-- The value of N_MAX that `State.reset` starts from: the one the spec's vectors use (00_scope.md R10).
DESIGN CHOICE, notes/assumptions/1.md. -/
def nMaxReset : Word := 65536#32

/-- How many core steps the core is granted when no host action is coming (weak fairness, 00_scope.md R16).
DESIGN CHOICE, notes/assumptions/3.md. -/
def fairTurn : Nat := 18446744073709551616

/-- FREE VALUE. The draws of 93_implementation_defined.md U1 to U5: the n-th draw. Nothing constrains it
(notes/assumptions/4.md). -/
opaque freeWord : Nat → Word

/-- FREE VALUE. A byte of BUF that nothing has written (93_implementation_defined.md U6), and the symbol of a
single-symbol frame whose FREQ is empty, which no run reaches (notes/assumptions/5.md). -/
opaque freeByte : Nat → Byte

/-- FREE VALUE. An entry of TREE that nothing has written (93_implementation_defined.md U4;
notes/assumptions/5.md). -/
opaque freeNode : Nat → Node

end Sys2Proof.Config
end

