-- ==== Sys2Proof/Machine/State.lean ====
section
/-!
DEFINITION. Machine/State.lean: every piece of state the spec gives HUFF (spec/10_state.md), as plain data, the
reasons a step could stop, and the machine after reset (spec/10_state.md R61, spec/70_reset_and_hazards.md R400).
-/

namespace Sys2Proof.Machine

/-- Why the machine could stop with a fault. It has no constructor: HUFF takes no traps and nothing stops it; an
error ends the running command and is recorded in STATUS (60_exceptions.md R371, R378), and a bus ERR is a response
(20_memory.md R83). Safe: there is no stop that the hardware lacks. -/
inductive Fault : Type
  deriving DecidableEq, Repr

/-- Why the model gives no meaning to a command. -/
inductive Refusal where
  /-- Raised by an arm of `exec` whose command has no meaning in the model yet; no arm raises it now. Safe. -/
  | notModelled (mnemonic : String)
  deriving DecidableEq, Repr

/-- The error codes of STATUS.ERRCODE (60_exceptions.md R370); the reserved codes 0x0A to 0xFF have no name because
they are never written. -/
inductive ErrCode where
  | none | illegalCmd | badArg | sequence | inputOverflow | degenerate | noCode | truncated | badMode | treeOverflow
  deriving DecidableEq, Repr

/-- The sequencer phases of STATUS.PHASE (10_state.md R36); 15 has no name because it is never read. -/
inductive Phase where
  | idle | control | load | count | build | gencode | header | serialize | deserialize | emit | walk | rawBody
  | singleBody | finish | drain
  deriving DecidableEq, Repr

/-- How many children of a node GENCODE's walk has visited (44_code_table.md R280: 0, 1 or 2). -/
inductive Visited where
  | zero | one | two
  deriving DecidableEq, Repr

/-- An entry of BUILD's priority structure: (WEIGHT, SEQ), SEQ being the arena index (10_state.md R57,
43_tree_builder.md R260). -/
structure QEntry where
  weight : Weight
  seq : NodeIdx
  deriving DecidableEq, Repr

/-- An entry of DESERIALIZE's pending-parent stack: an internal node that still lacks a child, and whether its left
child is linked (45_tree_serializer.md R301). -/
structure Pending where
  node : NodeIdx
  leftLinked : Bool
  deriving DecidableEq, Repr

/-- The answer of readBits (41_bitio.md R205): all n bits, or k bits and then NA. -/
inductive ReadResult where
  | ok (v : Word)
  | na (v : Word) (k : Nat)
  deriving DecidableEq, Repr

/-- What the sequencer still has to do, one entry per line or loop of the pseudocode of 40_command.md to
47_decoder.md. A task takes one core step; a loop puts itself back. The working storage of 10_state.md R57 stands in
the tasks of the loops that use it. -/
inductive Task where
  /-- Set STATUS.PHASE. -/
  | enter (p : Phase)
  /-- writeBits in progress: the bits still to write, first first (41_bitio.md R202). -/
  | put (bits : List Bool)
  /-- flush() (41_bitio.md R203). -/
  | flush
  /-- The packer commands' result: the Byte tokens appended (41_bitio.md R210 to R213). -/
  | retPushed
  /-- OutWrite of one token (00_scope.md R13). -/
  | out (t : OutTok)
  /-- "repeat n times: OutWrite(Byte(b))" (47_decoder.md R345). -/
  | outRepeat (b : Byte) (n : Nat)
  /-- readBits in progress: n bits asked, k read, their value (41_bitio.md R205). -/
  | get (n k : Nat) (v : Word)
  /-- The readBit() of UNPACK_BIT and WALK: NA at once when RD_EOS = 1 (41_bitio.md R214, 47_decoder.md R343). -/
  | askBit
  /-- The readBits(8) of UNPACK_BYTE: when RD_EOS = 1 it reads the bits held and no token (41_bitio.md R215, 10_state.md
  R60 (b)). -/
  | askByte
  /-- UNPACK_BIT's result from the bit read (41_bitio.md R214). -/
  | retBit
  /-- UNPACK_BYTE's result from the bits read (41_bitio.md R215). -/
  | retByte
  /-- Drain() (41_bitio.md R208). -/
  | drain
  /-- UNPACK_RESET's body (40_command.md R178). -/
  | unpackReset
  /-- LOAD's first line (42_frequency.md R240). -/
  | load
  /-- LOAD's loop. -/
  | loadLoop
  /-- LOAD's discarding of an overlong stream. -/
  | loadDiscard
  /-- COUNT's body (42_frequency.md R241). -/
  | count
  /-- BUILD up to the leaves (43_tree_builder.md R260). -/
  | build
  /-- BUILD's merging loop: the priority structure Q and the next arena index k. -/
  | buildMerge (q : List QEntry) (k : Nat)
  /-- GENCODE up to its loop (44_code_table.md R280). -/
  | gencode
  /-- GENCODE's loop: the stack S (top first), the path p (root branch first) and the leaves counted. -/
  | gencodeWalk (stack : List (NodeIdx × Visited)) (path : List Bool) (leaves : Nat)
  /-- EMIT's first line (44_code_table.md R282). -/
  | emit
  /-- EMIT's loop: the next index j and the bits counted. -/
  | emitLoop (j bits : Nat)
  /-- SERIALIZE's first line (45_tree_serializer.md R300). -/
  | serialize
  /-- SERIALIZE's loop: the stack S (top first) and the bits counted. -/
  | serializeWalk (stack : List NodeIdx) (bits : Nat)
  /-- DESERIALIZE up to its loop (45_tree_serializer.md R301). -/
  | deserialize
  /-- DESERIALIZE after a tag bit was asked: the stack P (top first). -/
  | deserTag (pending : List Pending)
  /-- DESERIALIZE after a leaf's symbol was asked: the stack P and the leaf's index k. -/
  | deserSymbol (pending : List Pending) (k : Nat)
  /-- WALK's first line (47_decoder.md R343). -/
  | walk
  /-- WALK after a bit was asked: the cursor x and the symbols counted. -/
  | walkBit (x : NodeIdx) (cnt : Nat)
  /-- ENCODE's first two lines (46_encoder.md R320). -/
  | encodeInit
  /-- ENCODE's choice of the framing mode. -/
  | encodeMode
  /-- ENCODE's Huffman header, once the tree and the codes are made. -/
  | encodeHeader
  /-- ENCODE's end: flush, End, and T as the result. -/
  | encodeFinish (total : Nat)
  /-- DECODE's first lines (47_decoder.md R345). -/
  | decodeInit
  /-- DECODE after the mode tag was asked. -/
  | decodeTag
  /-- DECODE's raw loop after a byte was asked: the bytes counted. -/
  | decodeRaw (cnt : Nat)
  /-- DECODE after the single symbol was asked. -/
  | decodeSymbol
  /-- DECODE after the repeat count was asked: the symbol. -/
  | decodeCount (symbol : Byte)
  /-- DECODE after the meaningful-bit field was asked. -/
  | decodeMb
  /-- DECODE's `finish:` after WALK, whose count is the body's value. -/
  | decodeWalked
  /-- DECODE's `finish:`: Drain, End, and cnt as the result. -/
  | decodeFinish (cnt : Nat)
  /-- The value the body returns. -/
  | setRet (n : Nat)
  /-- The completion step of a command that raised an error (60_exceptions.md R371). -/
  | fail (c : ErrCode)
  deriving DecidableEq, Repr

/-- The sequencer's position (10_state.md R31): idle, a command started and not yet checked (40_command.md R171), or
a command running, with the tasks left; no task left means the body has returned (R180). STATUS.BUSY is read from
this field: the block is busy exactly when it is not idle (R170). -/
inductive Seq where
  | idle
  | start
  | run (tasks : List Task)
  deriving DecidableEq, Repr

/-- CTRL's stored bits (10_state.md R34). SRST has no storage. -/
structure CtrlReg where
  ieDone : Bool
  ieErr : Bool
  deriving DecidableEq, Repr

/-- STATUS but for BUSY (10_state.md R35, R58). -/
structure StatusReg where
  done : Bool
  error : Bool
  errcode : ErrCode
  phase : Phase
  bufValid : Bool
  freqValid : Bool
  treeValid : Bool
  codeValid : Bool
  deriving DecidableEq, Repr

/-- IRQ_PEND (10_state.md R37). -/
structure IrqPendReg where
  doneP : Bool
  errP : Bool
  deriving DecidableEq, Repr

/-- MODE (10_state.md R43). -/
structure ModeReg where
  tag : BitVec 2
  valid : Bool
  mb : BitVec 4
  deriving DecidableEq, Repr

/-- UNPK_CFG, which is also the unpacker's limit (10_state.md R44, R51). -/
structure UnpkCfgReg where
  limitEn : Bool
  limitMb : BitVec 4
  deriving DecidableEq, Repr

/-- TREE_INFO (10_state.md R46). -/
structure TreeInfoReg where
  root : NodeIdx
  nodes : BitVec 10
  rootLeaf : Bool
  deriving DecidableEq, Repr

/-- The packer's bit buffer, WR_ACC and WR_FILL (10_state.md R47, R49). -/
structure Packer where
  acc : Byte
  fill : BitVec 4
  deriving DecidableEq, Repr

/-- The unpacker's bit buffer, RD_ACC, RD_FILL and RD_EOS (10_state.md R48, R50). -/
structure Unpacker where
  acc : Byte
  fill : BitVec 4
  eos : Bool
  deriving DecidableEq, Repr

/-- The shape of a bus access (20_memory.md R83): a full 32-bit word, or any narrower, wider or partial one. -/
inductive Access where
  | word
  | other
  deriving DecidableEq, Repr

/-- One action of the host agent (20_memory.md R80, R98; 70_reset_and_hazards.md R400). -/
inductive HostAct where
  /-- MemRead. -/
  | read (access : Access) (a : Addr)
  /-- MemWrite. -/
  | write (access : Access) (a : Addr) (v : Word)
  /-- Push one token on IN. -/
  | push (t : InTok)
  /-- Pop one token from OUT. -/
  | pop
  /-- Assert the power-on reset. -/
  | powerOn
  deriving DecidableEq, Repr

/-- What an action of the host answered. -/
inductive HostResp where
  | readOk (v : Word)
  | readErr (v : Word)
  | writeOk
  | writeErr
  | pushed
  | popped (t : OutTok)
  /-- OUT held no token. -/
  | popEmpty
  | resetDone
  deriving DecidableEq, Repr

/-- A sparse table: the listed keys with their values, keys strictly rising (`storeWf` in Machine/Ops.lean says the
canonical form). -/
abbrev Store (α : Type) := List (Nat × α)

/-- A byte memory: pairs of an address and a byte. -/
abbrev Memory := List Host.Cell

/-- The state of HUFF, and of the host that drives it. -/
structure State where
  /-- The parameter N_MAX, constant in a run; CAPACITY reads it (00_scope.md R10, 10_state.md R45). -/
  nMax : Word
  /-- CTRL (R34). -/
  ctrl : CtrlReg
  /-- STATUS but for BUSY (R35). -/
  status : StatusReg
  /-- IRQ_PEND (R37). -/
  irqPend : IrqPendReg
  /-- CMD (R38). -/
  cmd : Word
  /-- ARG (R39). -/
  arg : Word
  /-- RESULT (R40). -/
  result : Word
  /-- IN_LEN (R41). -/
  inLen : Word
  /-- NDIST (R42). -/
  ndist : BitVec 9
  /-- MODE (R43). -/
  mode : ModeReg
  /-- UNPK_CFG (R44, R51). -/
  unpk : UnpkCfgReg
  /-- TREE_INFO (R46). -/
  treeInfo : TreeInfoReg
  /-- WR_ACC and WR_FILL (R49). -/
  wr : Packer
  /-- RD_ACC, RD_FILL and RD_EOS (R50). -/
  rd : Unpacker
  /-- The lookahead register: LA_VALID is whether a token is there, LA_TOK the token (R52). -/
  la : Option InTok
  /-- BUF (R53): the bytes written, by index. -/
  buf : Memory
  /-- FREQ (R54): the counters that are not 0, by symbol. -/
  freq : Store Word
  /-- TREE (R55): the entries written, by index. -/
  tree : Store Node
  /-- CODE (R56): the entries that differ from the cleared entry, by symbol. -/
  code : Store CodeEntry
  /-- The IN port: tokens pushed and not yet taken, oldest first (20_memory.md R86). -/
  inp : List InTok
  /-- The OUT port: tokens appended and not yet popped, oldest first (20_memory.md R87). -/
  out : List OutTok
  /-- The sequencer's position (R31), and with it STATUS.BUSY. -/
  seq : Seq
  /-- The model's own: what the running body returns (40_command.md R180). -/
  ret : Option Word
  /-- The model's own: the answer of the last readBits. -/
  got : ReadResult
  /-- The model's own: Byte tokens the packer appended since the command started. -/
  pushed : Nat
  /-- The model's own: free draws made so far. -/
  draws : Nat
  /-- The model's own: the host's coming actions, each with the core steps granted after it. -/
  agenda : List (HostAct × Nat)
  /-- The model's own: what the host was answered, oldest first. -/
  log : List HostResp
  /-- The model's own: core steps left before the host's next action. -/
  turn : Nat
  deriving DecidableEq, Repr

/-- The machine right after power-on reset (10_state.md R61, 70_reset_and_hazards.md R400). BUF, TREE and CODE list
nothing: their contents are unspecified and no rule reads them. -/
def State.reset : State where
  nMax := Config.nMaxReset
  ctrl := { ieDone := false, ieErr := false }
  status :=
    { done := false, error := false, errcode := .none, phase := .idle,
      bufValid := false, freqValid := false, treeValid := false, codeValid := false }
  irqPend := { doneP := false, errP := false }
  cmd := 0
  arg := 0
  result := 0
  inLen := 0
  ndist := 0
  mode := { tag := 0, valid := false, mb := 0 }
  unpk := { limitEn := false, limitMb := 8 }
  treeInfo := { root := 0, nodes := 0, rootLeaf := false }
  wr := { acc := 0, fill := 0 }
  rd := { acc := 0, fill := 0, eos := false }
  la := none
  buf := []
  freq := []
  tree := []
  code := []
  inp := []
  out := []
  seq := .idle
  ret := none
  got := .ok 0
  pushed := 0
  draws := 0
  agenda := []
  log := []
  turn := Config.fairTurn

end Sys2Proof.Machine
end

