-- ==== Sys2Proof/Machine/Ops.lean ====
section
/-!
DEFINITION. Machine/Ops.lean: the named operations over the memories, the streams and the registers, the start of a
command and its two completions, and the resets (spec/10_state.md; spec/20_memory.md; spec/40_command.md R171, R172;
spec/41_bitio.md R207; spec/60_exceptions.md R371, R372; spec/70_reset_and_hazards.md R400, R401).
-/

namespace Sys2Proof.Machine

/-! ### Sparse tables -/

/-- The value listed under a key. -/
def storeGet {α : Type} : Store α → Nat → Option α
  | [], _ => none
  | (k, v) :: rest, a => if k = a then some v else storeGet rest a

/-- List a value under a key, keeping the keys rising. -/
def storePut {α : Type} : Store α → Nat → α → Store α
  | [], a, v => [(a, v)]
  | (k, w) :: rest, a, v =>
    if a < k then (a, v) :: (k, w) :: rest
    else if k = a then (a, v) :: rest
    else (k, w) :: storePut rest a v

/-- Unlist a key. -/
def storeErase {α : Type} (m : Store α) (a : Nat) : Store α := m.filter (fun p => decide (p.1 ≠ a))

/-- Write a value. `d` is what an unlisted key reads as, if it reads as anything: writing that unlists the key. -/
def storeWrite {α : Type} [DecidableEq α] (d : Option α) (m : Store α) (a : Nat) (v : α) : Store α :=
  if d = some v then storeErase m a else storePut m a v

/-- The canonical form: keys strictly rising, and no value that an unlisted key reads as. -/
abbrev storeWf {α : Type} [DecidableEq α] (d : Option α) (m : Store α) : Prop :=
  m.Pairwise (fun x y => x.1 < y.1) ∧ ∀ p ∈ m, d ≠ some p.2

/-- The canonical form of BUF, where an unlisted byte reads as no value. -/
abbrev Memory.wf (m : Memory) : Prop := storeWf none m

/-! ### Bits -/

/-- Assign bit `i` of a value (00_scope.md R11: `v[i] <- b`). -/
def setBitAt {w : Nat} (v : BitVec w) (i : Nat) (b : Bool) : BitVec w :=
  if b then v ||| BitVec.twoPow w i else v &&& ~~~(BitVec.twoPow w i)

/-- The low `n` bits of a value, bit 0 first: the order of every field on the wire (41_bitio.md R202,
20_memory.md R91). -/
def bitsOf {w : Nat} (n : Nat) (v : BitVec w) : List Bool := (List.range n).map (fun i => v.getLsbD i)

/-- The value whose bit i is the i-th of the bits given (44_code_table.md R281). -/
def valueOfBits (w : Nat) (bits : List Bool) : BitVec w :=
  match bits with
  | [] => 0
  | b :: rest => (valueOfBits w rest <<< 1) ||| (BitVec.ofBool b).setWidth w

/-! ### The internal memories (10_state.md R53 to R56) -/

/-- BUF[j]. A byte nothing has written is a free value (93_implementation_defined.md U6). -/
def bufAt (s : State) (j : Nat) : Byte := (storeGet s.buf j).getD (Config.freeByte j)

/-- BUF[j] <- b. -/
def writeBuf (j : Nat) (b : Byte) (s : State) : State := { s with buf := storeWrite none s.buf j b }

/-- FREQ[a] in a table. -/
def freqGet (f : Store Word) (a : Nat) : Word := (storeGet f a).getD 0

/-- FREQ[a] <- v in a table. -/
def freqSet (f : Store Word) (a : Nat) (v : Word) : Store Word := storeWrite (some 0) f a v

/-- The symbols s with FREQ[s] ≠ 0, ascending. -/
def presentSymbols (f : Store Word) : List Nat :=
  (List.range Config.symbols).filter (fun a => decide (freqGet f a ≠ 0))

/-- |{ s : FREQ[s] ≠ 0 }| (42_frequency.md R241, 43_tree_builder.md R260). -/
def distinctCount (f : Store Word) : Nat := (presentSymbols f).length

/-- TREE[i]. An entry nothing has written is a free value (93_implementation_defined.md U4). -/
def nodeAt (s : State) (i : Nat) : Node := (storeGet s.tree i).getD (Config.freeNode i)

/-- TREE[i] <- n. -/
def writeNode (i : Nat) (n : Node) (s : State) : State := { s with tree := storeWrite none s.tree i n }

/-- KIND = LEAF. -/
def isLeaf : Node → Bool
  | .leaf _ _ => true
  | .internal _ _ _ => false

/-- WEIGHT. -/
def nodeWeight : Node → Weight
  | .leaf _ w => w
  | .internal _ _ w => w

/-- The cleared entry of CODE: LEN 0, BITS 0 (44_code_table.md R280). -/
def clearedEntry : CodeEntry := { len := 0, bits := 0 }

/-- CODE[a] in a table. -/
def codeGet (c : Store CodeEntry) (a : Nat) : CodeEntry := (storeGet c a).getD clearedEntry

/-- CODE[a] <- e. -/
def writeCode (a : Nat) (e : CodeEntry) (s : State) : State :=
  { s with code := storeWrite (some clearedEntry) s.code a e }

/-! ### The stream ports and the lookahead (41_bitio.md R207) -/

/-- InRead(): the lookahead's token first, else the IN port's; none is a hold. -/
def inRead (s : State) : Option (InTok × State) :=
  match s.la with
  | some t => some (t, { s with la := none })
  | none =>
    match s.inp with
    | [] => none
    | t :: rest => some (t, { s with inp := rest })

/-- InPeek(): the next token, moved into the lookahead if that is empty; none is a hold. -/
def inPeek (s : State) : Option (InTok × State) :=
  match s.la with
  | some t => some (t, s)
  | none =>
    match s.inp with
    | [] => none
    | t :: rest => some (t, { s with inp := rest, la := some t })

/-- OutWrite(tok): always enabled (00_scope.md R16). -/
def outWrite (t : OutTok) (s : State) : State := { s with out := s.out ++ [t] }

/-! ### The sequencer's task list -/

/-- Put tasks before those that are left. -/
def pushTasks (ts : List Task) (s : State) : State :=
  match s.seq with
  | .run rest => { s with seq := .run (ts ++ rest) }
  | _ => { s with seq := .run ts }

/-- STATUS.PHASE <- p (10_state.md R36). -/
def setPhase (p : Phase) (s : State) : State := { s with status := { s.status with phase := p } }

/-- The value the body returns. -/
def setRet (n : Nat) (s : State) : State := { s with ret := some (BitVec.ofNat 32 n) }

/-- What a task does in its core step. -/
inductive TaskResult where
  /-- No step is enabled: a token is needed and none is there (00_scope.md R13). -/
  | hold
  /-- The step is taken. -/
  | ok (s : State)
  /-- `raise Error(c)` (00_scope.md R14). -/
  | err (c : ErrCode) (s : State)
  deriving Repr

/-! ### Start and completion -/

/-- The start of a command but for CMD <- w (40_command.md R171). -/
def startCommand (s : State) : State :=
  { s with
    seq := .start
    status := { s.status with done := false, error := false, errcode := .none, phase := .control } }

/-- The working fields of a command, emptied: they mean nothing between commands (93_implementation_defined.md U7). -/
def clearWorking (s : State) : State := { s with ret := none, got := .ok 0, pushed := 0 }

/-- The success outcome: complete_success(r) with r = `ret` (60_exceptions.md R372, 40_command.md R172). -/
def completeSuccess (s : State) : State :=
  clearWorking
    { s with
      seq := .idle
      status := { s.status with phase := .idle, done := true, error := false, errcode := .none }
      result := s.ret.getD s.result
      irqPend := { s.irqPend with doneP := true } }

/-- HUFF's one exception-like event, taken here for every error: complete_error(c) (60_exceptions.md R371,
40_command.md R172). RESULT is unchanged. -/
def completeError (c : ErrCode) (s : State) : State :=
  clearWorking
    { s with
      seq := .idle
      status := { s.status with phase := .idle, done := true, error := true, errcode := c }
      irqPend := { s.irqPend with errP := true } }

/-! ### Resets -/

/-- The state change of a reset that both resets share: every piece of state takes its value of 10_state.md R61, but
for the two ports; N_MAX is no state, and the model's own account of the host goes on. -/
def resetCore (s : State) : State :=
  { State.reset with
    nMax := s.nMax
    inp := s.inp
    out := s.out
    draws := s.draws
    agenda := s.agenda
    log := s.log
    turn := s.turn }

/-- The soft reset: the ports keep their tokens, the lookahead's token is discarded (70_reset_and_hazards.md R401). -/
def softReset (s : State) : State := resetCore s

/-- The power-on reset: the ports are empty as well (70_reset_and_hazards.md R400). -/
def powerOnReset (s : State) : State := { resetCore s with inp := [], out := [] }

end Sys2Proof.Machine
end

