-- ==== Sys2Proof/Machine/Flags.lean ====
section
/-!
DEFINITION. Machine/Flags.lean: the flags of STATUS and IRQ_PEND, the codes of their fields, and the irq line
(spec/10_state.md R35 to R37, R58, R59; spec/60_exceptions.md R370, R376). HUFF has no condition codes.
-/

namespace Sys2Proof.Machine

/-- STATUS.BUSY (10_state.md R35): a command is running. -/
def busy (s : State) : Bool :=
  match s.seq with
  | .idle => false
  | .start => true
  | .run _ => true

/-- The value of an error code (60_exceptions.md R370). -/
def errNumber : ErrCode → BitVec 8
  | .none => 0x00
  | .illegalCmd => 0x01
  | .badArg => 0x02
  | .sequence => 0x03
  | .inputOverflow => 0x04
  | .degenerate => 0x05
  | .noCode => 0x06
  | .truncated => 0x07
  | .badMode => 0x08
  | .treeOverflow => 0x09

/-- The value of a phase (10_state.md R36). -/
def phaseNumber : Phase → BitVec 4
  | .idle => 0
  | .control => 1
  | .load => 2
  | .count => 3
  | .build => 4
  | .gencode => 5
  | .header => 6
  | .serialize => 7
  | .deserialize => 8
  | .emit => 9
  | .walk => 10
  | .rawBody => 11
  | .singleBody => 12
  | .finish => 13
  | .drain => 14

/-- The phases a running command can take (10_state.md R36): CONTROL while it is checked, then those of its body. -/
def phasesOf : Instr → List Phase
  | .nop | .packBit | .packByte | .packBits _ | .flush | .unpackBit | .unpackByte | .unpackReset => [.control]
  | .load => [.control, .load]
  | .count => [.control, .count]
  | .build => [.control, .build]
  | .gencode => [.control, .gencode]
  | .emit => [.control, .emit]
  | .serialize => [.control, .serialize]
  | .deserialize => [.control, .deserialize]
  | .walk => [.control, .walk]
  | .encode =>
    [.control, .load, .count, .build, .gencode, .header, .serialize, .emit, .rawBody, .finish]
  | .decode => [.control, .header, .deserialize, .walk, .rawBody, .singleBody, .finish, .drain]

/-- BUF_VALID <- b. -/
def setBufValid (b : Bool) (s : State) : State := { s with status := { s.status with bufValid := b } }

/-- FREQ_VALID <- b. -/
def setFreqValid (b : Bool) (s : State) : State := { s with status := { s.status with freqValid := b } }

/-- TREE_VALID <- b. -/
def setTreeValid (b : Bool) (s : State) : State := { s with status := { s.status with treeValid := b } }

/-- CODE_VALID <- b. -/
def setCodeValid (b : Bool) (s : State) : State := { s with status := { s.status with codeValid := b } }

/-- The irq line (60_exceptions.md R376), a function of the state. -/
def irqLine (s : State) : Bool := (s.irqPend.doneP && s.ctrl.ieDone) || (s.irqPend.errP && s.ctrl.ieErr)

end Sys2Proof.Machine
end

