-- ==== Sys2Proof/Machine/Packer.lean ====
section
/-!
DEFINITION. Machine/Packer.lean: the packer's primitives, writeBit, writeBits and flush (spec/41_bitio.md R200 to
R203).
-/

namespace Sys2Proof.Machine

/-- Append one completed byte to OUT and count it. -/
def pushByte (b : Byte) (s : State) : State := { outWrite (.byte b) s with pushed := s.pushed + 1 }

/-- writeBit(b) (R200): the bit goes to WR_ACC[WR_FILL]; the eighth pushes the byte and empties the buffer. -/
def writeBit (b : Bool) (s : State) : State :=
  let acc := setBitAt s.wr.acc s.wr.fill.toNat b
  let fill := s.wr.fill + 1
  if fill = 8 then { pushByte acc s with wr := { acc := 0, fill := 0 } }
  else { s with wr := { acc := acc, fill := fill } }

/-- writeBits in one go, for the laws: one writeBit per bit, in order (R201, R202). The machine takes one bit per
core step (`taskPut`). -/
def writeBits : List Bool → State → State
  | [], s => s
  | b :: bs, s => writeBits bs (writeBit b s)

/-- One step of writeBits (R202): one bit, and the rest is left to do. -/
def taskPut (bits : List Bool) (s : State) : TaskResult :=
  match bits with
  | [] => .ok s
  | b :: bs => .ok (pushTasks [.put bs] (writeBit b s))

/-- flush() (R203): a partial byte is pushed, its bits at and above the fill count being 0 already. -/
def flushPacker (s : State) : State :=
  if s.wr.fill = 0 then s else { pushByte s.wr.acc s with wr := { acc := 0, fill := 0 } }

end Sys2Proof.Machine
end

