-- ==== Sys2Proof/Machine/CodeUnit.lean ====
section
/-!
DEFINITION. Machine/CodeUnit.lean: the bodies of GENCODE and EMIT (spec/44_code_table.md R280 to R282).
-/

namespace Sys2Proof.Machine

/-- GENCODE up to its loop (R280). -/
def taskGencode (s : State) : TaskResult :=
  let s1 := setCodeValid false (setPhase .gencode s)
  if isLeaf (nodeAt s s.treeInfo.root.toNat) then .err .degenerate s1
  else .ok (pushTasks [.gencodeWalk [(s.treeInfo.root, .zero)] [] 0] { s1 with code := [] })

/-- The entry a path makes (R280, R281): its length, and its branches with the root branch in bit 0. -/
def entryOfPath (path : List Bool) : CodeEntry :=
  { len := BitVec.ofNat 8 path.length, bits := valueOfBits 255 path }

/-- The path after a pop: its last branch is dropped unless the stack is empty (R280). -/
def pathAfterPop (stack : List (NodeIdx × Visited)) (path : List Bool) : List Bool :=
  if stack.isEmpty then path else path.dropLast

/-- One round of GENCODE's loop (R280), the top of the stack first in the list. -/
def taskGencodeWalk (stack : List (NodeIdx × Visited)) (path : List Bool) (leaves : Nat) (s : State) :
    TaskResult :=
  match stack with
  | [] => .ok (setRet leaves (setCodeValid true s))
  | (x, c) :: rest =>
    match nodeAt s x.toNat with
    | .leaf sym _ =>
      .ok (pushTasks [.gencodeWalk rest (pathAfterPop rest path) (leaves + 1)]
        (writeCode sym.toNat (entryOfPath path) s))
    | .internal l r _ =>
      match c with
      | .zero =>
        .ok (pushTasks [.gencodeWalk ((l, .zero) :: (x, .one) :: rest) (path ++ [false]) leaves] s)
      | .one =>
        .ok (pushTasks [.gencodeWalk ((r, .zero) :: (x, .two) :: rest) (path ++ [true]) leaves] s)
      | .two => .ok (pushTasks [.gencodeWalk rest (pathAfterPop rest path) leaves] s)

/-- EMIT's first line (R282). -/
def taskEmit (s : State) : TaskResult := .ok (pushTasks [.emitLoop 0 0] (setPhase .emit s))

/-- The bits of a code, BITS[0] first (R281, 30_encoding.md R146). -/
def codeBits (e : CodeEntry) : List Bool := bitsOf e.len.toNat e.bits

/-- One round of EMIT's loop (R282): the code of BUF[j] is written, or NO_CODE is raised. -/
def taskEmitLoop (j bits : Nat) (s : State) : TaskResult :=
  if s.inLen.toNat ≤ j then .ok (setRet bits s)
  else
    let e := codeGet s.code (bufAt s j).toNat
    if e.len = 0 then .err .noCode s
    else .ok (pushTasks [.put (codeBits e), .emitLoop (j + 1) (bits + e.len.toNat)] s)

end Sys2Proof.Machine
end

