-- ==== Sys2Proof/Machine/FrequencyUnit.lean ====
section
/-!
DEFINITION. Machine/FrequencyUnit.lean: the bodies of LOAD and COUNT (spec/42_frequency.md R240, R241).
-/

namespace Sys2Proof.Machine

/-- LOAD's first line (R240). -/
def taskLoad (s : State) : TaskResult :=
  .ok (pushTasks [.loadLoop] { setBufValid false (setPhase .load s) with inLen := 0 })

/-- One round of LOAD's loop (R240): End ends it; a byte is stored, unless BUF is full, when the rest of the stream
is discarded. -/
def taskLoadLoop (s : State) : TaskResult :=
  match inRead s with
  | none => .hold
  | some (.eos, s') => .ok (setRet s'.inLen.toNat (setBufValid true s'))
  | some (.byte b, s') =>
    if s'.inLen = s'.nMax then .ok (pushTasks [.loadDiscard] s')
    else .ok (pushTasks [.loadLoop] { writeBuf s'.inLen.toNat b s' with inLen := s'.inLen + 1 })

/-- One round of LOAD's discarding of an overlong stream; at its End INPUT_OVERFLOW is raised (R240). -/
def taskLoadDiscard (s : State) : TaskResult :=
  match inRead s with
  | none => .hold
  | some (.eos, s') => .err .inputOverflow s'
  | some (.byte _, s') => .ok (pushTasks [.loadDiscard] s')

/-- FREQ[b] <- FREQ[b] + 1. It never wraps in COUNT (42_frequency.md R242). -/
def bumpFreq (f : Store Word) (b : Byte) : Store Word := freqSet f b.toNat (freqGet f b.toNat + 1)

/-- The table COUNT makes of BUF[0..n-1]: one forward pass from all counters 0 (R241). -/
def countedFreq (s : State) (n : Nat) : Store Word :=
  (List.range n).foldl (fun f j => bumpFreq f (bufAt s j)) []

/-- COUNT's body (R241). -/
def taskCount (s : State) : TaskResult :=
  let freq := countedFreq s s.inLen.toNat
  let n := distinctCount freq
  .ok (setRet n (setFreqValid true { setPhase .count s with freq := freq, ndist := BitVec.ofNat 9 n }))

end Sys2Proof.Machine
end

