-- ==== Sys2Proof/Machine/Unpacker.lean ====
section
/-!
DEFINITION. Machine/Unpacker.lean: the unpacker's primitives, readBit, readBits, Drain and the restart
(spec/41_bitio.md R204 to R208; spec/47_decoder.md R341; spec/40_command.md R178).
-/

namespace Sys2Proof.Machine

/-- What one step of readBit comes to. -/
inductive BitStep where
  /-- A token is needed and none is there. -/
  | hold
  /-- A byte was taken from IN; the bit is delivered in the next step. -/
  | again (s : State)
  /-- NA. -/
  | na (s : State)
  /-- A bit. -/
  | bit (b : Bool) (s : State)
  deriving Repr

/-- The next bit to deliver, RD_ACC[8 - RD_FILL] (10_state.md R50). -/
def nextHeld (s : State) : Bool := s.rd.acc.getLsbD (8 - s.rd.fill.toNat)

/-- RD_FILL <- RD_FILL - 1 (41_bitio.md R204). -/
def dropHeld (s : State) : State := { s with rd := { s.rd with fill := s.rd.fill - 1 } }

/-- Deliver the next bit (41_bitio.md R204). -/
def deliverBit (s : State) : BitStep := .bit (nextHeld s) (dropHeld s)

/-- One step of readBit() (41_bitio.md R204). With RD_FILL = 0 it is NA once RD_EOS = 1, and takes a token from IN
before; otherwise it delivers the next bit, after the peek the limit asks for at a position i ≥ LIMIT_MB (47_decoder.md
R341). -/
def readBitStep (s : State) : BitStep :=
  if s.rd.fill = 0 then
    if s.rd.eos then .na s
    else
      match inRead s with
      | none => .hold
      | some (.eos, s') => .na { s' with rd := { s'.rd with eos := true } }
      | some (.byte b, s') => .again { s' with rd := { s'.rd with acc := b, fill := 8 } }
  else if s.unpk.limitEn ∧ s.unpk.limitMb.toNat ≤ 8 - s.rd.fill.toNat then
    match inPeek s with
    | none => .hold
    | some (.eos, s') => .na s'
    | some (.byte _, s') => deliverBit s'
  else deliverBit s

/-- One step of readBits(n) (41_bitio.md R205): k bits are read and v holds them in its low bits. -/
def taskGet (n k : Nat) (v : Word) (s : State) : TaskResult :=
  if n ≤ k then .ok { s with got := .ok v }
  else
    match readBitStep s with
    | .hold => .hold
    | .again s' => .ok (pushTasks [.get n k v] s')
    | .na s' => .ok { s' with got := .na v k }
    | .bit b s' => .ok (pushTasks [.get n (k + 1) (setBitAt v k b)] s')

/-- The readBit() of UNPACK_BIT and WALK: when RD_EOS = 1 it is NA at once, whatever RD_FILL (10_state.md R60 (b),
41_bitio.md R214, 47_decoder.md R343; notes/assumptions/19.md). -/
def taskAskBit (s : State) : TaskResult :=
  if s.rd.eos then .ok { s with got := .na 0 0 } else taskGet 1 0 0 s

/-- No bit held can be read: there is none, or the limit stops the next one (41_bitio.md R204, 47_decoder.md R341). -/
def noneHeld (s : State) : Bool :=
  decide (s.rd.fill = 0) || (s.unpk.limitEn && decide (s.unpk.limitMb.toNat ≤ 8 - s.rd.fill.toNat))

/-- n more bits of readBits (41_bitio.md R205) where no token is to be read any more: the bits held, then NA. -/
def takeHeld : Nat → Nat → Word → State → ReadResult × State
  | 0, _, v, s => (.ok v, s)
  | n + 1, k, v, s =>
    if noneHeld s then (.na v k, s) else takeHeld n (k + 1) (setBitAt v k (nextHeld s)) (dropHeld s)

/-- The readBits(8) of UNPACK_BYTE. When RD_EOS = 1 it reads the bits held, which R204 delivers, and no token, not even
for the limit's peek: R60 (b) gives NA then whatever the host pushes, so the command neither holds nor takes a token's word
for it, and a bit held at i ≥ LIMIT_MB is NA (47_decoder.md R341; notes/assumptions/19.md). -/
def taskAskByte (s : State) : TaskResult :=
  if s.rd.eos then
    let r := takeHeld 8 0 0 s
    .ok { r.2 with got := r.1 }
  else taskGet 8 0 0 s

/-- One step of Drain() (41_bitio.md R208): RD_ACC and RD_FILL are left as they are. -/
def taskDrain (s : State) : TaskResult :=
  if s.rd.eos then .ok s
  else
    match inRead s with
    | none => .hold
    | some (.eos, s') => .ok { s' with rd := { s'.rd with eos := true } }
    | some (.byte _, s') => .ok (pushTasks [.drain] s')

/-- The restart of the unpacker (40_command.md R178, 47_decoder.md R345): the lookahead is kept. -/
def restartUnpacker (s : State) : State :=
  { s with
    rd := { acc := 0, fill := 0, eos := false }
    unpk := { limitEn := false, limitMb := 8 } }

/-- NA as a result (41_bitio.md R214): bit 31. -/
def naWord : Nat := 0x80000000

/-- UNPACK_BIT's result (41_bitio.md R214). -/
def bitResult : ReadResult → Nat
  | .ok v => v.toNat
  | .na _ _ => naWord

/-- UNPACK_BYTE's result (41_bitio.md R215): the byte, or NA with k in bits [11:8] and the partial value. -/
def byteResult : ReadResult → Nat
  | .ok v => v.toNat
  | .na v k => naWord ||| (k <<< 8) ||| v.toNat

end Sys2Proof.Machine
end

