-- ==== Sys2Proof/Machine/SerialUnit.lean ====
section
/-!
DEFINITION. Machine/SerialUnit.lean: the bodies of SERIALIZE and DESERIALIZE (spec/45_tree_serializer.md R300, R301).
-/

namespace Sys2Proof.Machine

/-- SERIALIZE's first line (R300). -/
def taskSerialize (s : State) : TaskResult :=
  .ok (pushTasks [.serializeWalk [s.treeInfo.root] 0] (setPhase .serialize s))

/-- The bits of a leaf: 0, then its symbol (30_encoding.md R145). -/
def leafBits (sym : Byte) : List Bool := false :: bitsOf 8 sym

/-- One round of SERIALIZE's loop (R300): preorder, the left subtree first. -/
def taskSerializeWalk (stack : List NodeIdx) (bits : Nat) (s : State) : TaskResult :=
  match stack with
  | [] => .ok (setRet bits s)
  | x :: rest =>
    match nodeAt s x.toNat with
    | .leaf sym _ => .ok (pushTasks [.put (leafBits sym), .serializeWalk rest (bits + 9)] s)
    | .internal l r _ => .ok (pushTasks [.put [true], .serializeWalk (l :: r :: rest) (bits + 1)] s)

/-- Ask for the next tag bit. -/
def askTag (pending : List Pending) (s : State) : State := pushTasks [.get 1 0 0, .deserTag pending] s

/-- DESERIALIZE up to its loop (R301). -/
def taskDeserialize (s : State) : TaskResult :=
  .ok (askTag []
    { setTreeValid false (setPhase .deserialize s) with
      treeInfo := { root := 0, nodes := 0, rootLeaf := false } })

/-- TREE[q].LEFT <- k. KIND does not change. -/
def setLeft (k : NodeIdx) : Node → Node
  | .internal _ r w => .internal k r w
  | .leaf sym w => .leaf sym w

/-- TREE[q].RIGHT <- k. KIND does not change. -/
def setRight (k : NodeIdx) : Node → Node
  | .internal l _ w => .internal l k w
  | .leaf sym w => .leaf sym w

/-- Link node k under the top of the stack P (R301): its left child first, then its right, which ends its wait. -/
def linkChild (pending : List Pending) (k : Nat) (s : State) : List Pending × State :=
  match pending with
  | [] => ([], s)
  | p :: rest =>
    let i := p.node.toNat
    if p.leftLinked then (rest, writeNode i (setRight (BitVec.ofNat 9 k) (nodeAt s i)) s)
    else ({ p with leftLinked := true } :: rest, writeNode i (setLeft (BitVec.ofNat 9 k) (nodeAt s i)) s)

/-- The end of one node of DESERIALIZE's loop (R301): the tree is complete when no parent waits. -/
def deserNext (pending : List Pending) (s : State) : TaskResult :=
  if pending.isEmpty then .ok (setRet s.treeInfo.nodes.toNat (setTreeValid true s))
  else .ok (askTag pending s)

/-- DESERIALIZE with a tag bit read (R301): the count is checked after the bit, then the node is allocated; a leaf's
symbol is asked for, an internal node is linked and waits for its children. -/
def taskDeserTag (pending : List Pending) (s : State) : TaskResult :=
  match s.got with
  | .na _ _ => .err .truncated s
  | .ok v =>
    let k := s.treeInfo.nodes.toNat
    if k = Config.nodeMax then .err .treeOverflow s
    else
      let s1 : State := { s with treeInfo := { s.treeInfo with nodes := s.treeInfo.nodes + 1 } }
      if v.getLsbD 0 then
        let linked := linkChild pending k (writeNode k (.internal 0 0 0) s1)
        deserNext ({ node := BitVec.ofNat 9 k, leftLinked := false } :: linked.1) linked.2
      else .ok (pushTasks [.get 8 0 0, .deserSymbol pending k] s1)

/-- DESERIALIZE with a leaf's symbol read (R301). -/
def taskDeserSymbol (pending : List Pending) (k : Nat) (s : State) : TaskResult :=
  match s.got with
  | .na _ _ => .err .truncated s
  | .ok v =>
    let s1 := writeNode k (.leaf (v.setWidth 8) 0) s
    let s2 : State := if k = 0 then { s1 with treeInfo := { s1.treeInfo with rootLeaf := true } } else s1
    let linked := linkChild pending k s2
    deserNext linked.1 linked.2

end Sys2Proof.Machine
end

