-- ==== Sys2Proof/Machine/TreeUnit.lean ====
section
/-!
DEFINITION. Machine/TreeUnit.lean: the body of BUILD (spec/43_tree_builder.md R260, R261).
-/

namespace Sys2Proof.Machine

/-- Whether `a` is extracted before `b`: by WEIGHT, and among equal weights by SEQ (R261). -/
def extractedBefore (a b : QEntry) : Bool :=
  decide (a.weight < b.weight) || (decide (a.weight = b.weight) && decide (a.seq < b.seq))

/-- extract_min(Q) (R260): the entry of least (WEIGHT, SEQ), and the others. -/
def extractMin : List QEntry → Option (QEntry × List QEntry)
  | [] => none
  | e :: es =>
    match extractMin es with
    | none => some (e, [])
    | some (m, rest) => if extractedBefore m e then some (m, e :: rest) else some (e, es)

/-- The leaves of the symbols given, from arena index k on (R260): the arena entries and their priority entries. -/
def leavesFrom (f : Store Word) : List Nat → Nat → List (Nat × Node) × List QEntry
  | [], _ => ([], [])
  | a :: as, k =>
    let w := (freqGet f a).setWidth 40
    let rest := leavesFrom f as (k + 1)
    ((k, .leaf (BitVec.ofNat 8 a) w) :: rest.1, { weight := w, seq := BitVec.ofNat 9 k } :: rest.2)

/-- Write a list of arena entries, in order. -/
def writeNodes : List (Nat × Node) → State → State
  | [], s => s
  | (i, n) :: rest, s => writeNodes rest (writeNode i n s)

/-- BUILD up to its merging loop (R260): NDIST, the check for two symbols, the leaves in ascending symbol order. -/
def taskBuild (s : State) : TaskResult :=
  let n := distinctCount s.freq
  let s1 : State := { setTreeValid false (setPhase .build s) with ndist := BitVec.ofNat 9 n }
  if n < 2 then .err .degenerate s1
  else
    let made := leavesFrom s.freq (presentSymbols s.freq) 0
    .ok (pushTasks [.buildMerge made.2 n] (writeNodes made.1 s1))

/-- BUILD's last lines (R260): the root is the only entry of Q, and k entries were allocated. -/
def finishBuild (root : NodeIdx) (k : Nat) (s : State) : State :=
  setRet root.toNat
    (setTreeValid true
      { s with treeInfo := { root := root, nodes := BitVec.ofNat 10 k, rootLeaf := false } })

/-- One round of BUILD's merging loop (R260): the two least entries become the children of a new node, the first
extracted being the left one. An empty Q, which no run reaches, has no root and is DEGENERATE
(notes/assumptions/11.md). -/
def taskBuildMerge (q : List QEntry) (k : Nat) (s : State) : TaskResult :=
  match extractMin q with
  | none => .err .degenerate s
  | some (a, q1) =>
    match extractMin q1 with
    | none => .ok (finishBuild a.seq k s)
    | some (b, q2) =>
      let w := a.weight + b.weight
      .ok (pushTasks [.buildMerge ({ weight := w, seq := BitVec.ofNat 9 k } :: q2) (k + 1)]
        (writeNode k (.internal a.seq b.seq w) s))

end Sys2Proof.Machine
end

