-- ==== Sys2Proof/Machine/EncoderUnit.lean ====
section
/-!
DEFINITION. Machine/EncoderUnit.lean: what ENCODE does itself between the bodies it invokes (spec/46_encoder.md R320
to R325; the frame: spec/30_encoding.md R140 to R144).
-/

namespace Sys2Proof.Machine

/-- ENCODE's first two lines (R320): a fresh write session, MODE cleared. -/
def taskEncodeInit (s : State) : TaskResult :=
  .ok { s with wr := { acc := 0, fill := 0 }, mode := { tag := 0, valid := false, mb := 0 } }

/-- MODE.TAG <- tag; MODE.VALID <- 1. -/
def setMode (tag : BitVec 2) (s : State) : State := { s with mode := { s.mode with tag := tag, valid := true } }

/-- The bytes BUF[0..n-1]. -/
def bufBytes (s : State) (n : Nat) : List Byte := (List.range n).map (bufAt s)

/-- writeByte of each byte, in order: the bits (41_bitio.md R201). -/
def bytesBits (bs : List Byte) : List Bool := bs.flatMap (fun b => bitsOf 8 b)

/-- The only symbol with FREQ[s] ≠ 0 (R320); with no such symbol, which no run reaches here, a free value. -/
def onlySymbol (f : Store Word) : Byte :=
  match presentSymbols f with
  | a :: _ => BitVec.ofNat 8 a
  | [] => Config.freeByte 0

/-- The raw frame (R322): the tag is written in phase HEADER, the bytes in RAW_BODY. -/
def encodeRaw (n : Nat) (s : State) : State :=
  pushTasks
    [.enter .header, .put (bitsOf 2 (0 : BitVec 2)), .enter .rawBody, .put (bytesBits (bufBytes s n)),
      .encodeFinish (2 + 8 * n)]
    (setMode 0 s)

/-- The single-symbol frame (R323). -/
def encodeSingle (s : State) : State :=
  pushTasks
    [.enter .header,
      .put (bitsOf 2 (1 : BitVec 2) ++ bitsOf 8 (onlySymbol s.freq) ++ bitsOf 32 s.inLen),
      .encodeFinish 42]
    (setMode 1 s)

/-- The Huffman frame (R324): the tree and the codes first, then the header that needs them. -/
def encodeHuffman (s : State) : State :=
  pushTasks [.build, .gencode, .encodeHeader] (setMode 2 s)

/-- The choice of the framing mode (R321): raw first, whatever NDIST is. -/
def taskEncodeMode (s : State) : TaskResult :=
  let n := s.inLen.toNat
  if n < Config.rawThreshold then .ok (encodeRaw n s)
  else if s.ndist = 1 then .ok (encodeSingle s)
  else .ok (encodeHuffman s)

/-- D: the sum over s of FREQ[s] · CODE[s].LEN (R320, 44_code_table.md R284). -/
def codeTotal (s : State) : Nat :=
  ((List.range Config.symbols).map (fun a => (freqGet s.freq a).toNat * (codeGet s.code a).len.toNat)).sum

/-- T of a Huffman frame: 2 + 3 + (10L - 1) + D with L = NDIST (R320). -/
def huffmanTotal (s : State) : Nat := 2 + 3 + (10 * s.ndist.toNat - 1) + codeTotal s

/-- mb - 1, where mb = ((T - 1) mod 8) + 1 (R325). -/
def mbField (total : Nat) : BitVec 3 := BitVec.ofNat 3 ((total - 1) % 8)

/-- mb, 1 to 8, from the 3-bit field (30_encoding.md R144). -/
def mbOfField (f : BitVec 3) : BitVec 4 := f.setWidth 4 + 1

/-- ENCODE's Huffman header, and the tree and the codes after it (R320). -/
def taskEncodeHeader (s : State) : TaskResult :=
  let total := huffmanTotal s
  let f := mbField total
  .ok (pushTasks
    [.enter .header, .put (bitsOf 2 (2 : BitVec 2) ++ bitsOf 3 f), .serialize, .emit, .encodeFinish total]
    { s with mode := { s.mode with mb := mbOfField f } })

/-- ENCODE's end (R320): flush, OutWrite(End), and T mod 2^32 as the result. -/
def taskEncodeFinish (total : Nat) (s : State) : TaskResult :=
  .ok (pushTasks [.enter .finish, .flush, .out .eos, .setRet total] s)

end Sys2Proof.Machine
end

