-- ==== Sys2Proof/Machine/DecoderUnit.lean ====
section
/-!
DEFINITION. Machine/DecoderUnit.lean: the body of WALK and what DECODE does itself between the bodies it invokes
(spec/47_decoder.md R341 to R348).
-/

namespace Sys2Proof.Machine

/-- Ask for the next code bit. -/
def askBit (x : NodeIdx) (cnt : Nat) (s : State) : State := pushTasks [.askBit, .walkBit x cnt] s

/-- WALK's first lines (R343). -/
def taskWalk (s : State) : TaskResult :=
  if isLeaf (nodeAt s s.treeInfo.root.toNat) then .err .degenerate (setPhase .walk s)
  else .ok (askBit s.treeInfo.root 0 (setPhase .walk s))

/-- WALK with a bit read (R343): NA ends it at the root and is TRUNCATED elsewhere; a bit moves the cursor, and a
leaf's symbol is emitted. A cursor on a leaf, which no run reaches, is DEGENERATE as at the start
(notes/assumptions/11.md). -/
def taskWalkBit (x : NodeIdx) (cnt : Nat) (s : State) : TaskResult :=
  match s.got with
  | .na _ _ => if x = s.treeInfo.root then .ok (setRet cnt s) else .err .truncated s
  | .ok v =>
    match nodeAt s x.toNat with
    | .leaf _ _ => .err .degenerate s
    | .internal l r _ =>
      let y := if v.getLsbD 0 then r else l
      match nodeAt s y.toNat with
      | .leaf sym _ => .ok (askBit s.treeInfo.root (cnt + 1) (outWrite (.byte sym) s))
      | .internal _ _ _ => .ok (askBit y cnt s)

/-- DECODE's first lines (R345): a fresh unpacker that keeps the lookahead, MODE cleared, the tag asked for. -/
def taskDecodeInit (s : State) : TaskResult :=
  .ok (pushTasks [.get 2 0 0, .decodeTag]
    { restartUnpacker (setPhase .header s) with mode := { tag := 0, valid := false, mb := 0 } })

/-- Ask for the next raw byte. -/
def askRaw (cnt : Nat) (s : State) : State := pushTasks [.get 8 0 0, .decodeRaw cnt] s

/-- DECODE with the tag read (R345, R346): an empty stream ends it, one bit alone is TRUNCATED, tag 3 is BAD_MODE. -/
def taskDecodeTag (s : State) : TaskResult :=
  match s.got with
  | .na _ k => if k = 0 then .ok (pushTasks [.decodeFinish 0] s) else .err .truncated s
  | .ok v =>
    let tag := v.setWidth 2
    let s1 := setMode tag s
    if tag = 3 then .err .badMode s1
    else if tag = 0 then .ok (askRaw 0 (setPhase .rawBody s1))
    else if tag = 1 then .ok (pushTasks [.get 8 0 0, .decodeSymbol] s1)
    else .ok (pushTasks [.get 3 0 0, .decodeMb] s1)

/-- DECODE's raw loop with a byte read (R345): a partial byte is the end, its bits are padding. -/
def taskDecodeRaw (cnt : Nat) (s : State) : TaskResult :=
  match s.got with
  | .na _ _ => .ok (pushTasks [.decodeFinish cnt] s)
  | .ok v => .ok (askRaw (cnt + 1) (outWrite (.byte (v.setWidth 8)) s))

/-- DECODE with the single symbol read (R345). -/
def taskDecodeSymbol (s : State) : TaskResult :=
  match s.got with
  | .na _ _ => .err .truncated s
  | .ok v => .ok (pushTasks [.get 32 0 0, .decodeCount (v.setWidth 8)] s)

/-- DECODE with the repeat count read (R345): the symbol that many times. -/
def taskDecodeCount (symbol : Byte) (s : State) : TaskResult :=
  match s.got with
  | .na _ _ => .err .truncated s
  | .ok v => .ok (pushTasks [.enter .singleBody, .outRepeat symbol v.toNat, .decodeFinish v.toNat] s)

/-- One round of "repeat n times: OutWrite(Byte(b))" (R345). -/
def taskOutRepeat (b : Byte) (n : Nat) (s : State) : TaskResult :=
  match n with
  | 0 => .ok s
  | m + 1 => .ok (pushTasks [.outRepeat b m] (outWrite (.byte b) s))

/-- DECODE with the meaningful-bit field read (R345): MODE.MB and the limit, then the tree and the walk. -/
def taskDecodeMb (s : State) : TaskResult :=
  match s.got with
  | .na _ _ => .err .truncated s
  | .ok v =>
    let mb := mbOfField (v.setWidth 3)
    .ok (pushTasks [.deserialize, .walk, .decodeWalked]
      { s with mode := { s.mode with mb := mb }, unpk := { limitEn := true, limitMb := mb } })

/-- DECODE's `finish:` (R345): Drain, OutWrite(End), and cnt mod 2^32 as the result. -/
def taskDecodeFinish (cnt : Nat) (s : State) : TaskResult :=
  .ok (pushTasks [.enter .drain, .drain, .enter .finish, .out .eos, .setRet cnt] s)

/-- DECODE's `finish:` after WALK, whose count is the result (R345). -/
def taskDecodeWalked (s : State) : TaskResult :=
  .ok (pushTasks [.decodeFinish (s.ret.getD 0).toNat] s)

end Sys2Proof.Machine
end

