-- ==== Sys2Proof/Machine/Operands.lean ====
section
/-!
DEFINITION. Machine/Operands.lean: every operand form of a command (spec/30_encoding.md R122), and the checks made
before a body runs (spec/40_command.md R176). The operands are ARG's low bits; nothing is sign-extended, scaled or
shifted.
-/

namespace Sys2Proof.Machine

/-- PACK_BIT's operand, ARG[0] (R122), as the bits it writes. -/
def argBit (s : State) : List Bool := bitsOf 1 s.arg

/-- PACK_BYTE's operand, ARG[7:0] (R122), as the bits it writes. -/
def argByte (s : State) : List Bool := bitsOf 8 s.arg

/-- PACK_BITS's operand, ARG[N-1:0], empty when N = 0 (R122), as the bits it writes. -/
def argBits (n : Nat) (s : State) : List Bool := bitsOf n s.arg

/-- No check: the command has no operand limit and no prerequisite. -/
def checkNone (_ : State) : Option ErrCode := none

/-- Check 2 of R176: N ≤ 32 (PACKN_MAX), else BAD_ARG. -/
def checkCount (n : Nat) (_ : State) : Option ErrCode := if n ≤ Config.packnMax then none else some .badArg

/-- Check 3 of R176: a prerequisite flag is 1, else SEQUENCE. -/
def checkFlag (flag : Bool) : Option ErrCode := if flag then none else some .sequence

/-- COUNT's prerequisite (R176). -/
def checkBuf (s : State) : Option ErrCode := checkFlag s.status.bufValid

/-- BUILD's prerequisite (R176). -/
def checkFreq (s : State) : Option ErrCode := checkFlag s.status.freqValid

/-- The prerequisite of GENCODE, SERIALIZE and WALK (R176). -/
def checkTree (s : State) : Option ErrCode := checkFlag s.status.treeValid

/-- EMIT's prerequisites (R176). -/
def checkBufCode (s : State) : Option ErrCode := checkFlag (s.status.bufValid && s.status.codeValid)

end Sys2Proof.Machine
end

