-- ==== Sys2Proof/Machine/Sequencer.lean ====
section
/-!
DEFINITION. Machine/Sequencer.lean: the sequencer: what a task does, one core step, and the core's turn
(spec/40_command.md R176, R180, R181; spec/00_scope.md R16; spec/60_exceptions.md R371, R372).
-/

namespace Sys2Proof.Machine

/-- What a command is made of: its check before the body (R176), its body as tasks, ARG being read now (R180,
20_memory.md R96), and its error path (60_exceptions.md R371). -/
structure Command where
  check : State → Option ErrCode
  body : State → List Task
  onError : List Task

/-- One task's core step. `s` has the task already taken off the sequencer's list. -/
def runTask (t : Task) (s : State) : TaskResult :=
  match t with
  | .enter p => .ok (setPhase p s)
  | .put bits => taskPut bits s
  | .flush => .ok (flushPacker s)
  | .retPushed => .ok (setRet s.pushed s)
  | .out tok => .ok (outWrite tok s)
  | .outRepeat b n => taskOutRepeat b n s
  | .get n k v => taskGet n k v s
  | .askBit => taskAskBit s
  | .askByte => taskAskByte s
  | .retBit => .ok (setRet (bitResult s.got) s)
  | .retByte => .ok (setRet (byteResult s.got) s)
  | .drain => taskDrain s
  | .unpackReset => .ok (restartUnpacker s)
  | .load => taskLoad s
  | .loadLoop => taskLoadLoop s
  | .loadDiscard => taskLoadDiscard s
  | .count => taskCount s
  | .build => taskBuild s
  | .buildMerge q k => taskBuildMerge q k s
  | .gencode => taskGencode s
  | .gencodeWalk stack path leaves => taskGencodeWalk stack path leaves s
  | .emit => taskEmit s
  | .emitLoop j bits => taskEmitLoop j bits s
  | .serialize => taskSerialize s
  | .serializeWalk stack bits => taskSerializeWalk stack bits s
  | .deserialize => taskDeserialize s
  | .deserTag pending => taskDeserTag pending s
  | .deserSymbol pending k => taskDeserSymbol pending k s
  | .walk => taskWalk s
  | .walkBit x cnt => taskWalkBit x cnt s
  | .encodeInit => taskEncodeInit s
  | .encodeMode => taskEncodeMode s
  | .encodeHeader => taskEncodeHeader s
  | .encodeFinish total => taskEncodeFinish total s
  | .decodeInit => taskDecodeInit s
  | .decodeTag => taskDecodeTag s
  | .decodeRaw cnt => taskDecodeRaw cnt s
  | .decodeSymbol => taskDecodeSymbol s
  | .decodeCount symbol => taskDecodeCount symbol s
  | .decodeMb => taskDecodeMb s
  | .decodeWalked => taskDecodeWalked s
  | .decodeFinish cnt => taskDecodeFinish cnt s
  | .setRet n => .ok (setRet n s)
  | .fail c => .ok (completeError c s)

/-- The checks of R176, then the body's tasks (R180). A failing check completes the command at once (R179). -/
def beginCommand (c : Command) (s : State) : State :=
  match c.check s with
  | some e => completeError e s
  | none => { clearWorking s with seq := .run (c.body s) }

/-- The sequencer after `raise Error(e)`: the error path, then the completion (60_exceptions.md R371). -/
def raiseError (c : Command) (e : ErrCode) (s : State) : State :=
  { s with seq := .run (c.onError ++ [.fail e]) }

/-- One core step of the command `c` (00_scope.md R16); none when no step is enabled: idle, or holding on IN. -/
def coreStep (c : Command) (s : State) : Option State :=
  match s.seq with
  | .idle => none
  | .start => some (beginCommand c s)
  | .run [] => some (completeSuccess s)
  | .run (t :: ts) =>
    match runTask t { s with seq := .run ts } with
    | .hold => none
    | .ok s' => some s'
    | .err e s' => some (raiseError c e s')

/-- At most `n` core steps, ending earlier when none is enabled. -/
def coreRun : Nat → Command → State → State
  | 0, _, s => s
  | n + 1, c, s =>
    match coreStep c s with
    | none => s
    | some s' => coreRun n c s'

/-- A command asked for while the block is idle is started first (notes/assumptions/10.md); the machine's step asks
only for the command that CMD started. -/
def wake (s : State) : State :=
  match s.seq with
  | .idle => startCommand s
  | .start => s
  | .run _ => s

/-- The core's turn on a command: the `turn` core steps it is granted, or fewer when it completes or holds. -/
def runCommand (c : Command) (s : State) : Host.Outcome State Fault Refusal :=
  .next { coreRun s.turn c (wake s) with turn := 0 }

end Sys2Proof.Machine
end

