-- ==== Sys2Proof/Machine/Control.lean ====
section
/-!
DEFINITION. Machine/Control.lean: the commands of the interface itself, NOP and UNPACK_RESET, and the outcome of an
illegal word (spec/40_command.md R177 to R179).
-/

namespace Sys2Proof.Machine

/-- NOP (R177): the body returns nothing; it still completes with DONE and DONE_P. -/
def cmdNop : Command := { check := checkNone, body := fun _ => [], onError := [] }

/-- NOP's meaning. -/
def execNop (s : State) : Host.Outcome State Fault Refusal := runCommand cmdNop s

/-- UNPACK_RESET (R178): the unpacker restarts and keeps the lookahead; nothing is returned. -/
def cmdUnpackReset : Command := { check := checkNone, body := fun _ => [.unpackReset], onError := [] }

/-- UNPACK_RESET's meaning. -/
def execUnpackReset (s : State) : Host.Outcome State Fault Refusal := runCommand cmdUnpackReset s

/-- The core's turn on a word that is no command (R179): the first check fails, in one core step; no body runs. -/
def illegalTurn (s : State) : State := { completeError .illegalCmd s with turn := 0 }

end Sys2Proof.Machine
end

