-- ==== Sys2Proof/Machine/Bus.lean ====
section
/-!
DEFINITION. Machine/Bus.lean: the host's side: the register words, the address map, reads, writes, pushes, pops and
resets, and whose turn it is (spec/10_state.md R32 to R48, R54 to R56; spec/20_memory.md R80 to R88, R93, R98;
spec/40_command.md R171 to R175; spec/70_reset_and_hazards.md R400 to R402).
-/

namespace Sys2Proof.Machine

/-! ### Register words -/

/-- A field at its place in a register word. -/
def field {w : Nat} (v : BitVec w) (lo : Nat) : Word := v.setWidth 32 <<< lo

/-- A one-bit field at its place. -/
def flag (b : Bool) (lo : Nat) : Word := field (BitVec.ofBool b) lo

/-- CTRL as read (10_state.md R34): SRST reads 0. -/
def ctrlWord (s : State) : Word := flag s.ctrl.ieDone 1 ||| flag s.ctrl.ieErr 2

/-- STATUS as held (10_state.md R35). -/
def statusWord (s : State) : Word :=
  flag (busy s) 0 ||| flag s.status.done 1 ||| flag s.status.error 2 ||| field (errNumber s.status.errcode) 8
    ||| field (phaseNumber s.status.phase) 16 ||| flag s.status.bufValid 20 ||| flag s.status.freqValid 21
    ||| flag s.status.treeValid 22 ||| flag s.status.codeValid 23

/-- IRQ_PEND as read (10_state.md R37). -/
def irqPendWord (s : State) : Word := flag s.irqPend.doneP 0 ||| flag s.irqPend.errP 1

/-- NDIST as held (10_state.md R42). -/
def ndistWord (s : State) : Word := field s.ndist 0

/-- MODE as held (10_state.md R43). -/
def modeWord (s : State) : Word := field s.mode.tag 0 ||| flag s.mode.valid 8 ||| field s.mode.mb 16

/-- UNPK_CFG as held (10_state.md R44). -/
def unpkCfgWord (s : State) : Word := flag s.unpk.limitEn 0 ||| field s.unpk.limitMb 4

/-- TREE_INFO as held (10_state.md R46). -/
def treeInfoWord (s : State) : Word :=
  field s.treeInfo.root 0 ||| field s.treeInfo.nodes 16 ||| flag s.treeInfo.rootLeaf 31

/-- WR_STATE as held (10_state.md R47). -/
def wrStateWord (s : State) : Word := field s.wr.acc 0 ||| field s.wr.fill 8

/-- LA_END (10_state.md R48). -/
def laEnd : Option InTok → Bool
  | some .eos => true
  | some (.byte _) => false
  | none => false

/-- LA_BYTE (10_state.md R48). -/
def laByte : Option InTok → Byte
  | some (.byte b) => b
  | some .eos => 0
  | none => 0

/-- RD_STATE as held (10_state.md R48). -/
def rdStateWord (s : State) : Word :=
  field s.rd.acc 0 ||| field s.rd.fill 8 ||| flag s.rd.eos 12 ||| flag s.la.isSome 13 ||| flag (laEnd s.la) 14
    ||| field (laByte s.la) 16

/-- DESC, word 0 of a TREE entry (10_state.md R55). -/
def descWord : Node → Word
  | .leaf sym _ => field sym 0
  | .internal l r _ => field l 0 ||| field r 16 ||| flag true 31

/-- Word k of a defined TREE entry (10_state.md R55). -/
def nodeWord (n : Node) (k : Nat) : Word :=
  match k with
  | 0 => descWord n
  | 1 => (nodeWeight n).setWidth 32
  | 2 => ((nodeWeight n).extractLsb' 32 8).setWidth 32
  | _ => 0

/-- Word k of a defined CODE entry (10_state.md R56). -/
def codeWord (e : CodeEntry) (k : Nat) : Word :=
  if k = 0 then field e.len 0
  else if k ≤ 8 then e.bits.extractLsb' (32 * (k - 1)) 32
  else 0

/-! ### The address map (20_memory.md R81) -/

/-- The registers, in offset order (10_state.md R32). -/
inductive Reg where
  | id | ctrl | status | irqPend | cmd | arg | result | inLen | ndist | mode | unpkCfg | capacity | treeInfo | wrState
  | rdState
  deriving DecidableEq, Repr

/-- What stands at a word address. -/
inductive Loc where
  | reg (r : Reg)
  | freq (s : Nat)
  | tree (i k : Nat)
  | code (s k : Nat)
  | unmapped
  deriving DecidableEq, Repr

/-- The registers by word offset (10_state.md R32). -/
def regTable : List Reg :=
  [.id, .ctrl, .status, .irqPend, .cmd, .arg, .result, .inLen, .ndist, .mode, .unpkCfg, .capacity, .treeInfo,
    .wrState, .rdState]

/-- The address map (R81), for word addresses. -/
def locate (a : Addr) : Loc :=
  let n := a.toNat
  if n < 0x3C then
    match regTable[n / 4]? with
    | some r => .reg r
    | none => .unmapped
  else if 0x400 ≤ n ∧ n < 0x800 then .freq ((n - 0x400) / 4)
  else if 0x2000 ≤ n ∧ n < 0x3FF0 then .tree ((n - 0x2000) / 16) ((n - 0x2000) / 4 % 4)
  else if 0x4000 ≤ n ∧ n < 0x8000 then .code ((n - 0x4000) / 64) ((n - 0x4000) / 4 % 16)
  else .unmapped

/-- The only legal access (20_memory.md R83): a full word at an address with A[1:0] = 00. -/
def legalAccess (access : Access) (a : Addr) : Bool := decide (access = .word) && decide (a.toNat % 4 = 0)

/-! ### Reads -/

/-- What a read returns: a value, or a free draw brought into the register's shape. -/
inductive Reading where
  | fixed (v : Word)
  | drawn (shape : Word → Word)

/-- The phases the command in CMD can take; an illegal word's checks run in CONTROL (10_state.md R36). -/
def runningPhases (s : State) : List Phase :=
  match decodeWord s.cmd with
  | .ok i => phasesOf i
  | .error _ => [.control]

/-- STATUS read while busy, from a draw (40_command.md R175): BUSY 1, DONE, ERROR, ERRCODE 0, PHASE one of the running
command's phases, each validity flag 0 or 1. -/
def busyStatus (s : State) (w : Word) : Word :=
  let phases := runningPhases s
  let p := phases.getD ((w.setWidth 20).toNat % phases.length) .control
  flag true 0 ||| field (phaseNumber p) 16 ||| (w &&& 0x00F00000)

/-- A draw whose reserved bits are 0 (40_command.md R175): `mask` has 1 at the register's bits. -/
def maskedDraw (mask : Word) : Reading := .drawn (fun w => w &&& mask)

/-- A register read while idle (10_state.md R33 to R48). -/
def readRegIdle (r : Reg) (s : State) : Word :=
  match r with
  | .id => Config.idWord
  | .ctrl => ctrlWord s
  | .status => statusWord s
  | .irqPend => irqPendWord s
  | .cmd => s.cmd
  | .arg => s.arg
  | .result => s.result
  | .inLen => s.inLen
  | .ndist => ndistWord s
  | .mode => modeWord s
  | .unpkCfg => unpkCfgWord s
  | .capacity => s.nMax
  | .treeInfo => treeInfoWord s
  | .wrState => wrStateWord s
  | .rdState => rdStateWord s

/-- A register read while busy (40_command.md R175). -/
def readRegBusy (r : Reg) (s : State) : Reading :=
  match r with
  | .id => .fixed Config.idWord
  | .ctrl => .fixed (ctrlWord s)
  | .status => .drawn (busyStatus s)
  | .irqPend => .fixed (irqPendWord s)
  | .cmd => .fixed s.cmd
  | .arg => .fixed s.arg
  | .result => .fixed s.result
  | .inLen => maskedDraw 0xFFFFFFFF
  | .ndist => maskedDraw 0x000001FF
  | .mode => maskedDraw 0x000F0103
  | .unpkCfg => maskedDraw 0x000000F1
  | .capacity => .fixed s.nMax
  | .treeInfo => maskedDraw 0x83FF01FF
  | .wrState => maskedDraw 0x00000FFF
  | .rdState => maskedDraw 0x00FF7FFF

/-- A window word of CODE that holds no state reads 0 (10_state.md R56: words 9 to 15). -/
def codeWindow (k : Nat) (r : Reading) : Reading := if k ≤ 8 then r else .fixed 0

/-- What a legal read of a location returns while idle (20_memory.md R82; 10_state.md R54 to R56): an undefined entry
is a draw (93_implementation_defined.md U4, U5). -/
def readIdle (l : Loc) (s : State) : Reading :=
  match l with
  | .reg r => .fixed (readRegIdle r s)
  | .freq a => .fixed (freqGet s.freq a)
  | .tree i k =>
    if s.status.treeValid ∧ i < s.treeInfo.nodes.toNat then .fixed (nodeWord (nodeAt s i) k) else .drawn id
  | .code a k =>
    codeWindow k (if s.status.codeValid then .fixed (codeWord (codeGet s.code a) k) else .drawn id)
  | .unmapped => .fixed 0

/-- What a legal read of a location returns while busy (40_command.md R175). -/
def readBusy (l : Loc) (s : State) : Reading :=
  match l with
  | .reg r => readRegBusy r s
  | .freq _ => .drawn id
  | .tree _ _ => .drawn id
  | .code _ k => codeWindow k (.drawn id)
  | .unmapped => .fixed 0

/-- The reading of a legal read. -/
def readingAt (l : Loc) (s : State) : Reading := if busy s then readBusy l s else readIdle l s

/-- Turn a reading into a word: a draw takes the next free value. -/
def takeReading (r : Reading) (s : State) : Word × State :=
  match r with
  | .fixed v => (v, s)
  | .drawn shape => (shape (Config.freeWord s.draws), { s with draws := s.draws + 1 })

/-- MemRead (20_memory.md R80, R83): an illegal access answers ERR with a draw. -/
def busRead (access : Access) (a : Addr) (s : State) : HostResp × State :=
  if legalAccess access a then
    let r := takeReading (readingAt (locate a) s) s
    (.readOk r.1, r.2)
  else
    let r := takeReading (.drawn id) s
    (.readErr r.1, r.2)

/-! ### Writes -/

/-- A write of CTRL, at any time (10_state.md R34). -/
def writeCtrl (v : Word) (s : State) : State :=
  if v.getLsbD 0 then softReset s else { s with ctrl := { ieDone := v.getLsbD 1, ieErr := v.getLsbD 2 } }

/-- A write of IRQ_PEND, at any time (10_state.md R37): a 1 clears. -/
def writeIrqPend (v : Word) (s : State) : State :=
  { s with irqPend := { doneP := s.irqPend.doneP && !v.getLsbD 0, errP := s.irqPend.errP && !v.getLsbD 1 } }

/-- A write of UNPK_CFG while idle (10_state.md R44): LIMIT_MB keeps its value unless 1 to 8 is written. -/
def writeUnpkCfg (v : Word) (s : State) : State :=
  let mb : BitVec 4 := v.extractLsb' 4 4
  { s with
    unpk :=
      { limitEn := v.getLsbD 0
        limitMb := if 1 ≤ mb.toNat ∧ mb.toNat ≤ 8 then mb else s.unpk.limitMb } }

/-- A write of CMD while idle (40_command.md R171): every word starts a command, legal or not. -/
def writeCmd (v : Word) (s : State) : State := startCommand { s with cmd := v }

/-- A write of a FREQ window word while idle (42_frequency.md R243): NDIST is not updated. -/
def writeFreq (a : Nat) (v : Word) (s : State) : State :=
  setFreqValid true { s with freq := freqSet s.freq a v }

/-- A legal write while idle; a write to anything read-only or unmapped is ignored (20_memory.md R82). -/
def writeIdle (l : Loc) (v : Word) (s : State) : State :=
  match l with
  | .reg .ctrl => writeCtrl v s
  | .reg .irqPend => writeIrqPend v s
  | .reg .cmd => writeCmd v s
  | .reg .arg => { s with arg := v }
  | .reg .unpkCfg => writeUnpkCfg v s
  | .freq a => writeFreq a v s
  | _ => s

/-- A legal write while busy (40_command.md R173, R174): only CTRL and IRQ_PEND act. -/
def writeBusy (l : Loc) (v : Word) (s : State) : State :=
  match l with
  | .reg .ctrl => writeCtrl v s
  | .reg .irqPend => writeIrqPend v s
  | _ => s

/-- MemWrite (20_memory.md R80, R83): an illegal access answers ERR and changes nothing. -/
def busWrite (access : Access) (a : Addr) (v : Word) (s : State) : HostResp × State :=
  if legalAccess access a then
    (.writeOk, if busy s then writeBusy (locate a) v s else writeIdle (locate a) v s)
  else (.writeErr, s)

/-! ### The host's actions -/

/-- Pop OUT (20_memory.md R87). -/
def popOut (s : State) : HostResp × State :=
  match s.out with
  | [] => (.popEmpty, s)
  | t :: rest => (.popped t, { s with out := rest })

/-- One action of the host: its answer and its effect (20_memory.md R98). -/
def hostAct (a : HostAct) (s : State) : HostResp × State :=
  match a with
  | .read access addr => busRead access addr s
  | .write access addr v => busWrite access addr v s
  | .push t => (.pushed, { s with inp := s.inp ++ [t] })
  | .pop => popOut s
  | .powerOn => (.resetDone, powerOnReset s)

/-! ### Whose turn it is (20_memory.md R93) -/

/-- The core has the turn: a command is running and core steps are left (notes/assumptions/3.md). -/
def coreTurn (s : State) : Bool := busy s && decide (s.turn ≠ 0)

/-- The command that CMD holds (30_encoding.md R123, 20_memory.md R96). -/
def fetch (s : State) : Except Reject Instr := decodeWord s.cmd

/-- The host's turn: its next action, after which the core is granted the action's core steps. With no action coming,
a running command is granted a fresh turn (weak fairness, 00_scope.md R16), and an idle block does nothing
(60_exceptions.md R385). -/
def hostTurn (s : State) : State :=
  match s.agenda with
  | (a, k) :: rest =>
    let r := hostAct a { s with agenda := rest }
    { r.2 with log := r.2.log ++ [r.1], turn := k }
  | [] => if busy s then { s with turn := Config.fairTurn } else s

/-- A command placed as CMD's write would place it, the core having the turn. -/
def placeCommand (w : Word) (s : State) : State :=
  { writeCmd w s with turn := Config.fairTurn }

end Sys2Proof.Machine
end

