-- ==== Sys2Proof/Machine/Bitio.lean ====
section
/-!
DEFINITION. Machine/Bitio.lean: the commands of the bit packer and unpacker (spec/41_bitio.md R210 to R215).
-/

namespace Sys2Proof.Machine

/-- PACK_BIT (R210): writeBit(ARG[0]); the result is the bytes pushed, 0 or 1. -/
def cmdPackBit : Command :=
  { check := checkNone, body := fun s => [.put (argBit s), .retPushed], onError := [] }

/-- PACK_BIT's meaning. -/
def execPackBit (s : State) : Host.Outcome State Fault Refusal := runCommand cmdPackBit s

/-- PACK_BYTE (R211): writeByte(ARG[7:0]); the result is the bytes pushed, 1. -/
def cmdPackByte : Command :=
  { check := checkNone, body := fun s => [.put (argByte s), .retPushed], onError := [] }

/-- PACK_BYTE's meaning. -/
def execPackByte (s : State) : Host.Outcome State Fault Refusal := runCommand cmdPackByte s

/-- PACK_BITS (R212): writeBits(ARG, N), after the check N ≤ 32; the result is the bytes pushed. -/
def cmdPackBits (n : Nat) : Command :=
  { check := checkCount n, body := fun s => [.put (argBits n s), .retPushed], onError := [] }

/-- PACK_BITS's meaning. -/
def execPackBits (n : Nat) (s : State) : Host.Outcome State Fault Refusal := runCommand (cmdPackBits n) s

/-- FLUSH (R213): flush(); the result is the bytes emitted, 0 or 1. -/
def cmdFlush : Command := { check := checkNone, body := fun _ => [.flush, .retPushed], onError := [] }

/-- FLUSH's meaning. -/
def execFlush (s : State) : Host.Outcome State Fault Refusal := runCommand cmdFlush s

/-- UNPACK_BIT (R214): readBit(); NA is a result. -/
def cmdUnpackBit : Command := { check := checkNone, body := fun _ => [.askBit, .retBit], onError := [] }

/-- UNPACK_BIT's meaning. -/
def execUnpackBit (s : State) : Host.Outcome State Fault Refusal := runCommand cmdUnpackBit s

/-- UNPACK_BYTE (R215): readBits(8); a partial byte is a result. -/
def cmdUnpackByte : Command := { check := checkNone, body := fun _ => [.askByte, .retByte], onError := [] }

/-- UNPACK_BYTE's meaning. -/
def execUnpackByte (s : State) : Host.Outcome State Fault Refusal := runCommand cmdUnpackByte s

end Sys2Proof.Machine
end

