-- ==== Sys2Proof/Machine/CodeTable.lean ====
section
/-!
DEFINITION. Machine/CodeTable.lean: the commands of the code-table ROM generator and the code emitter
(spec/44_code_table.md R280, R282).
-/

namespace Sys2Proof.Machine

/-- GENCODE (R280): CODE from TREE; it needs TREE_VALID. -/
def cmdGencode : Command := { check := checkTree, body := fun _ => [.gencode], onError := [] }

/-- GENCODE's meaning. -/
def execGencode (s : State) : Host.Outcome State Fault Refusal := runCommand cmdGencode s

/-- EMIT (R282): the code of every byte of BUF; it needs BUF_VALID and CODE_VALID. -/
def cmdEmit : Command := { check := checkBufCode, body := fun _ => [.emit], onError := [] }

/-- EMIT's meaning. -/
def execEmit (s : State) : Host.Outcome State Fault Refusal := runCommand cmdEmit s

end Sys2Proof.Machine
end

