-- ==== Sys2Proof/Machine/Decoder.lean ====
section
/-!
DEFINITION. Machine/Decoder.lean: the commands DECODE and WALK (spec/47_decoder.md R343, R345).
-/

namespace Sys2Proof.Machine

/-- DECODE (R345): header, tree, codes, Drain, End; its error path drains the stream and appends Abort
(60_exceptions.md R371). -/
def cmdDecode : Command :=
  { check := checkNone
    body := fun _ => [.decodeInit]
    onError := [.enter .drain, .drain, .enter .finish, .out .abort] }

/-- DECODE's meaning. -/
def execDecode (s : State) : Host.Outcome State Fault Refusal := runCommand cmdDecode s

/-- WALK (R343): code bits through TREE; it needs TREE_VALID. -/
def cmdWalk : Command := { check := checkTree, body := fun _ => [.walk], onError := [] }

/-- WALK's meaning. -/
def execWalk (s : State) : Host.Outcome State Fault Refusal := runCommand cmdWalk s

end Sys2Proof.Machine
end

