-- ==== Sys2Proof/Machine/Encoder.lean ====
section
/-!
DEFINITION. Machine/Encoder.lean: the command ENCODE (spec/46_encoder.md R320).
-/

namespace Sys2Proof.Machine

/-- ENCODE (R320): it invokes LOAD and COUNT, chooses the mode and writes the frame; its error path appends Abort
(60_exceptions.md R371). -/
def cmdEncode : Command :=
  { check := checkNone
    body := fun _ => [.encodeInit, .load, .count, .encodeMode]
    onError := [.enter .finish, .out .abort] }

/-- ENCODE's meaning. -/
def execEncode (s : State) : Host.Outcome State Fault Refusal := runCommand cmdEncode s

end Sys2Proof.Machine
end

