-- ==== Sys2Proof/Machine/Frequency.lean ====
section
/-!
DEFINITION. Machine/Frequency.lean: the commands of the input buffer and the frequency accumulator
(spec/42_frequency.md R240, R241).
-/

namespace Sys2Proof.Machine

/-- LOAD (R240): the current IN stream, through its End, into BUF. -/
def cmdLoad : Command := { check := checkNone, body := fun _ => [.load], onError := [] }

/-- LOAD's meaning. -/
def execLoad (s : State) : Host.Outcome State Fault Refusal := runCommand cmdLoad s

/-- COUNT (R241): FREQ and NDIST from BUF; it needs BUF_VALID. -/
def cmdCount : Command := { check := checkBuf, body := fun _ => [.count], onError := [] }

/-- COUNT's meaning. -/
def execCount (s : State) : Host.Outcome State Fault Refusal := runCommand cmdCount s

end Sys2Proof.Machine
end

