-- ==== Sys2Proof/Machine/TreeBuilder.lean ====
section
/-!
DEFINITION. Machine/TreeBuilder.lean: the command of the priority-queue tree builder (spec/43_tree_builder.md R260).
-/

namespace Sys2Proof.Machine

/-- BUILD (R260): TREE from FREQ; it needs FREQ_VALID. -/
def cmdBuild : Command := { check := checkFreq, body := fun _ => [.build], onError := [] }

/-- BUILD's meaning. -/
def execBuild (s : State) : Host.Outcome State Fault Refusal := runCommand cmdBuild s

end Sys2Proof.Machine
end

