-- ==== Sys2Proof/Machine/TreeSerializer.lean ====
section
/-!
DEFINITION. Machine/TreeSerializer.lean: the commands of the tree shape serializer and deserializer
(spec/45_tree_serializer.md R300, R301).
-/

namespace Sys2Proof.Machine

/-- SERIALIZE (R300): the tree's preorder bits into the packer; it needs TREE_VALID. -/
def cmdSerialize : Command := { check := checkTree, body := fun _ => [.serialize], onError := [] }

/-- SERIALIZE's meaning. -/
def execSerialize (s : State) : Host.Outcome State Fault Refusal := runCommand cmdSerialize s

/-- DESERIALIZE (R301): TREE from the unpacker's bits. -/
def cmdDeserialize : Command := { check := checkNone, body := fun _ => [.deserialize], onError := [] }

/-- DESERIALIZE's meaning. -/
def execDeserialize (s : State) : Host.Outcome State Fault Refusal := runCommand cmdDeserialize s

end Sys2Proof.Machine
end

