-- ==== Sys2Proof/Machine/Dispatch.lean ====
section
/-!
DEFINITION. Machine/Dispatch.lean: the meaning of each command (spec/30_encoding.md R121).
-/

namespace Sys2Proof.Machine

open Sys2Proof

def exec (i : Instr) (s : State) : Host.Outcome State Fault Refusal :=
  match i with
  | .nop => Sys2Proof.Machine.execNop s
  | .packBit => Sys2Proof.Machine.execPackBit s
  | .packByte => Sys2Proof.Machine.execPackByte s
  | .packBits n => Sys2Proof.Machine.execPackBits n s
  | .flush => Sys2Proof.Machine.execFlush s
  | .unpackBit => Sys2Proof.Machine.execUnpackBit s
  | .unpackByte => Sys2Proof.Machine.execUnpackByte s
  | .unpackReset => Sys2Proof.Machine.execUnpackReset s
  | .load => Sys2Proof.Machine.execLoad s
  | .count => Sys2Proof.Machine.execCount s
  | .build => Sys2Proof.Machine.execBuild s
  | .gencode => Sys2Proof.Machine.execGencode s
  | .emit => Sys2Proof.Machine.execEmit s
  | .serialize => Sys2Proof.Machine.execSerialize s
  | .deserialize => Sys2Proof.Machine.execDeserialize s
  | .encode => Sys2Proof.Machine.execEncode s
  | .decode => Sys2Proof.Machine.execDecode s
  | .walk => Sys2Proof.Machine.execWalk s

end Sys2Proof.Machine
end

