-- ==== Sys2Proof/Machine/Step.lean ====
section
/-!
DEFINITION. Machine/Step.lean: one step of the machine: the core's turn on the command in CMD, or the host's turn
(spec/20_memory.md R93; spec/40_command.md R180).
-/

namespace Sys2Proof.Machine

/-- One step. On the core's turn the command in CMD runs; a word that is no command ends with ILLEGAL_CMD
(40_command.md R179). Otherwise the host has the turn. -/
def step (s : State) : Host.Outcome State Fault Refusal :=
  if coreTurn s then
    match fetch s with
    | .ok i => exec i s
    | .error _ => .next (illegalTurn s)
  else .next (hostTurn s)

/-- `s` with a command placed in CMD and started, so that the next step runs it. HUFF fetches nothing: a command
comes to run by the host's write of CMD (notes/assumptions/7.md). -/
def State.withFetchWord (s : State) (nbits w : Nat) : State := placeCommand (tableWord nbits w) s

end Sys2Proof.Machine
end

