-- ==== Sys2Proof/Safety.lean ====
section
/-!
DEFINITION. Safety.lean: the terms the statements use: a completed command, the packer's and the unpacker's bit
sequences, the shape of a tree, which tasks belong to a command, and the invariant of the machine
(spec/10_state.md R49 to R58; spec/30_encoding.md R140 to R148; spec/41_bitio.md R200 to R209).
-/

namespace Sys2Proof.Machine

/-! ### A command's turn and its outcome -/

/-- CMD has started a command and no core step of it is taken yet (40_command.md R171). -/
abbrev Started (s : State) : Prop := s.seq = .start

/-- Core steps enough for any command that finds its tokens in IN (the model's schedule, notes/assumptions/3.md). -/
def stepBound (s : State) : Nat := 2 ^ 60 + 64 * s.inp.length

/-- The core is granted enough steps for the whole command. -/
abbrev FullTurn (s : State) : Prop := stepBound s ≤ s.turn

/-- The state after a command that left `s` and returned `r` has completed (60_exceptions.md R372), its turn over. -/
def succeeded (r : Option Word) (s : State) : State :=
  { s with
    seq := .idle
    status := { s.status with done := true, error := false, errcode := .none, phase := .idle }
    result := r.getD s.result
    irqPend := { s.irqPend with doneP := true }
    ret := none
    got := .ok 0
    pushed := 0
    turn := 0 }

/-- The state after a command that left `s` has ended with error `c` (60_exceptions.md R371), its turn over. -/
def failed (c : ErrCode) (s : State) : State :=
  { s with
    seq := .idle
    status := { s.status with done := true, error := true, errcode := c, phase := .idle }
    irqPend := { s.irqPend with errP := true }
    ret := none
    got := .ok 0
    pushed := 0
    turn := 0 }

/-- A count as RESULT holds it, mod 2^32 (10_state.md R40). -/
abbrev counted (n : Nat) : Option Word := some (BitVec.ofNat 32 n)

/-! ### The packer as a bit sequence -/

/-- R49: the fill count is at most 7 and the bits at and above it are 0. -/
abbrev PackerWf (p : Packer) : Prop := p.fill.toNat ≤ 7 ∧ p.acc >>> p.fill.toNat = 0

/-- The bits the packer holds, in write order (R49). -/
def pendingBits (p : Packer) : List Bool := bitsOf p.fill.toNat p.acc

/-- The packer that holds the given bits. -/
def packerOf (bits : List Bool) : Packer :=
  { acc := valueOfBits 8 bits, fill := BitVec.ofNat 4 bits.length }

/-- The whole bytes of a bit sequence, LSB first (20_memory.md R89, R90). -/
def wholeBytes : List Bool → List Byte
  | b0 :: b1 :: b2 :: b3 :: b4 :: b5 :: b6 :: b7 :: rest =>
    valueOfBits 8 [b0, b1, b2, b3, b4, b5, b6, b7] :: wholeBytes rest
  | _ => []

/-- The bits left over after the whole bytes. -/
def restBits : List Bool → List Bool
  | _ :: _ :: _ :: _ :: _ :: _ :: _ :: _ :: rest => restBits rest
  | bits => bits

/-- Bytes as OUT tokens. -/
abbrev outBytes (bs : List Byte) : List OutTok := bs.map .byte

/-- Bytes as IN tokens. -/
abbrev inBytes (bs : List Byte) : List InTok := bs.map .byte

/-- How many bytes writing `bits` pushes. -/
def packedCount (bits : List Bool) (s : State) : Nat := (wholeBytes (pendingBits s.wr ++ bits)).length

/-- The packer and OUT after `bits` are written: the pending bits and the new ones, cut into bytes. -/
def packed (bits : List Bool) (s : State) : State :=
  { s with
    out := s.out ++ outBytes (wholeBytes (pendingBits s.wr ++ bits))
    wr := packerOf (restBits (pendingBits s.wr ++ bits)) }

/-- The bytes of a frame of the given bits: padded with zeros to whole bytes (30_encoding.md R147). -/
def frameBytes (bits : List Bool) : List Byte :=
  wholeBytes (bits ++ List.replicate ((8 - bits.length % 8) % 8) false)

/-- The bits of bytes, in stream order (20_memory.md R90). -/
def byteBits (bs : List Byte) : List Bool := bs.flatMap (bitsOf 8)

/-! ### The unpacker as a bit sequence -/

/-- The tokens the core reads next: the lookahead's, then the IN port's (41_bitio.md R207). -/
def ahead (s : State) : List InTok := s.la.toList ++ s.inp

/-- Deliver the next bit of the byte held, after the limit's peek (41_bitio.md R204, its second half). -/
def readHeld (s : State) : Option (Option Bool × State) :=
  let i := 8 - s.rd.fill.toNat
  let took : State → Option Bool × State := fun t =>
    (some (t.rd.acc.getLsbD i), { t with rd := { t.rd with fill := t.rd.fill - 1 } })
  if s.unpk.limitEn = true ∧ s.unpk.limitMb.toNat ≤ i then
    match inPeek s with
    | none => none
    | some (.eos, t) => some (none, t)
    | some (.byte _, t) => some (took t)
  else some (took s)

/-- readBit() as one function (41_bitio.md R204): none is a hold, (none, _) is NA. -/
def readBit (s : State) : Option (Option Bool × State) :=
  if s.rd.fill = 0 then
    if s.rd.eos then some (none, s)
    else
      match inRead s with
      | none => none
      | some (.eos, t) => some (none, { t with rd := { t.rd with eos := true } })
      | some (.byte b, t) => readHeld { t with rd := { t.rd with acc := b, fill := 8 } }
  else readHeld s

/-- readBits(n) as one function (41_bitio.md R205), from k bits already read with value v. -/
def readBitsFrom : Nat → Nat → Word → State → Option (ReadResult × State)
  | 0, _, v, s => some (.ok v, s)
  | n + 1, k, v, s =>
    match readBit s with
    | none => none
    | some (none, t) => some (.na v k, t)
    | some (some b, t) => readBitsFrom n (k + 1) (if b then v ||| BitVec.twoPow 32 k else v) t

/-- readBits(n) (41_bitio.md R205). -/
def readBits (n : Nat) (s : State) : Option (ReadResult × State) := readBitsFrom n 0 0 s

/-- The genuine bits of a stream's remaining tokens, up to its End; none if the End is not there yet
(47_decoder.md R341). -/
def genuineTokens (u : UnpkCfgReg) : List InTok → Option (List Bool)
  | [] => none
  | .eos :: _ => some []
  | .byte b :: rest =>
    match genuineTokens u rest with
    | none => none
    | some more =>
      if u.limitEn = true ∧ rest.head? = some .eos then some ((bitsOf 8 b).take u.limitMb.toNat)
      else some (bitsOf 8 b ++ more)

/-- The bits left of the byte held, for a byte that is the last of its stream or not (47_decoder.md R341). -/
def heldBits (final : Bool) (s : State) : List Bool :=
  let bits := bitsOf 8 s.rd.acc
  (if s.unpk.limitEn = true ∧ final = true then bits.take s.unpk.limitMb.toNat else bits).drop (8 - s.rd.fill.toNat)

/-- Delivering every bit held takes a peek at the next token (41_bitio.md R204). -/
def heldNeedsPeek (s : State) : Bool := s.unpk.limitEn && decide (s.rd.fill ≠ 0) && decide (s.unpk.limitMb.toNat < 8)

/-- The genuine bits that readBit delivers before NA: those left of the byte held, then, while RD_EOS = 0, those of the
tokens ahead; none if a token that decides it is not there yet (41_bitio.md R204; 47_decoder.md R341). -/
def genuineBits (s : State) : Option (List Bool) :=
  let held := heldBits (decide ((ahead s).head? = some .eos)) s
  if s.rd.eos = true then if heldNeedsPeek s = true ∧ ahead s = [] then none else some held
  else
    match genuineTokens s.unpk (ahead s) with
    | none => none
    | some more => some (held ++ more)

/-- The next readBit needs a token: a byte, or the limit's peek (41_bitio.md R204). -/
def bitNeedsToken (s : State) : Bool :=
  if s.rd.fill = 0 then !s.rd.eos else s.unpk.limitEn && decide (s.unpk.limitMb.toNat ≤ 8 - s.rd.fill.toNat)

/-- The task's next core step needs a token of IN or the lookahead (00_scope.md R13): LOAD's loops (42_frequency.md
R240), Drain (41_bitio.md R208), and readBit (R204), which UNPACK_BIT, WALK and UNPACK_BYTE ask for only while
RD_EOS = 0. -/
def needsToken (k : Task) (s : State) : Bool :=
  match k with
  | .loadLoop | .loadDiscard => true
  | .drain => !s.rd.eos
  | .get n k _ => decide (k < n) && bitNeedsToken s
  | .askBit | .askByte => !s.rd.eos && bitNeedsToken s
  | _ => false

/-- The core holds (00_scope.md R13): the task at the head needs a token, and none is ahead. -/
def Holds (s : State) : Prop := ∃ k ks, s.seq = .run (k :: ks) ∧ needsToken k s = true ∧ ahead s = []

/-! ### Trees -/

/-- A prefix tree without its arena (30_encoding.md R145). -/
inductive Shape where
  | leaf (sym : Byte)
  | node (l r : Shape)
  deriving DecidableEq, Repr

/-- The serialized tree (30_encoding.md R145): '1' left right, or '0' and the symbol. -/
def Shape.bits : Shape → List Bool
  | .leaf sym => false :: bitsOf 8 sym
  | .node l r => true :: (l.bits ++ r.bits)

/-- The number of nodes. -/
def Shape.nodes : Shape → Nat
  | .leaf _ => 1
  | .node l r => 1 + l.nodes + r.nodes

/-- The number of leaves. -/
def Shape.leaves : Shape → Nat
  | .leaf _ => 1
  | .node l r => l.leaves + r.leaves

/-- The leaves in preorder, each with its path from the root, 0 for left and 1 for right (10_state.md R56). -/
def Shape.paths : Shape → List (Byte × List Bool)
  | .leaf sym => [(sym, [])]
  | .node l r =>
    l.paths.map (fun p => (p.1, false :: p.2)) ++ r.paths.map (fun p => (p.1, true :: p.2))

/-- Whether the tree is a single leaf. -/
def Shape.single : Shape → Bool
  | .leaf _ => true
  | .node _ _ => false

/-- The path of a symbol's last leaf in preorder (44_code_table.md R281). -/
def Shape.lastPath (sh : Shape) (a : Byte) : Option (List Bool) :=
  ((sh.paths.filter (fun p => decide (p.1 = a))).map Prod.snd).getLast?

/-- The code entry GENCODE makes for a symbol: its last leaf's path, or the cleared entry (44_code_table.md R280). -/
def Shape.entry (sh : Shape) (a : Byte) : CodeEntry :=
  match sh.lastPath a with
  | some p => entryOfPath p
  | none => clearedEntry

/-- The tree that an arena holds at an index, if every entry below is written; `fuel` bounds its height. -/
def shapeOf : Nat → Store Node → Nat → Option Shape
  | 0, _, _ => none
  | fuel + 1, tree, x =>
    match storeGet tree x with
    | none => none
    | some (.leaf sym _) => some (.leaf sym)
    | some (.internal l r _) =>
      match shapeOf fuel tree l.toNat, shapeOf fuel tree r.toNat with
      | some a, some b => some (.node a b)
      | _, _ => none

/-- The tree TREE holds at TREE_INFO.ROOT (10_state.md R46, R55). -/
def treeShape (s : State) : Option Shape := shapeOf Config.nodeMax s.tree s.treeInfo.root.toNat

/-- A node of a serialized tree as DESERIALIZE reads it: none is an internal node, a symbol is a leaf
(30_encoding.md R145). -/
def tagBits : Option Byte → List Bool
  | none => [true]
  | some sym => false :: bitsOf 8 sym

/-- The bits of nodes in preorder. -/
def nodesBits (ns : List (Option Byte)) : List Bool := ns.flatMap tagBits

/-- The nodes, in preorder, with `gaps` children still to come, leave a child to come after each of them: they begin a
tree and do not complete it. -/
def unfinished : Nat → List (Option Byte) → Bool
  | gaps, [] => gaps != 0
  | gaps, none :: ns => gaps != 0 && unfinished (gaps + 1) ns
  | gaps, some _ :: ns => gaps != 0 && unfinished (gaps - 1) ns

/-- The children of an arena entry. -/
def childrenOf (tree : Store Node) (i : Nat) : List Nat :=
  match storeGet tree i with
  | some (.internal l r _) => [l.toNat, r.toNat]
  | some (.leaf _ _) => []
  | none => []

/-- The weight of an arena entry, 0 where none is written. -/
def weightAt (tree : Store Node) (i : Nat) : Nat := ((storeGet tree i).map (fun n => (nodeWeight n).toNat)).getD 0

/-- Entry i is extracted before entry j: less (WEIGHT, SEQ), SEQ being the index (43_tree_builder.md R260, R261). -/
def keyBefore (tree : Store Node) (i j : Nat) : Prop :=
  weightAt tree i < weightAt tree j ∨ (weightAt tree i = weightAt tree j ∧ i < j)

/-- The entries below index i that are no child of an entry below i: what BUILD's priority structure holds when it
makes entry i (43_tree_builder.md R260). -/
def rootsBelow (tree : Store Node) (i : Nat) : List Nat :=
  (List.range i).filter (fun j => !((List.range i).flatMap (childrenOf tree)).contains j)

/-- The arena BUILD makes of a frequency table with L symbols present (43_tree_builder.md R260 to R263): the leaves in
ascending symbol order; then L - 1 internal nodes, the children of each the two least by (WEIGHT, index) among the
entries below it that are no child yet, the least to the left, its weight their sum; and every entry but the last a
child exactly once. -/
structure BuiltTree (f : Store Word) (tree : Store Node) : Prop where
  leaves : ∀ i a, (presentSymbols f)[i]? = some a →
    storeGet tree i = some (.leaf (BitVec.ofNat 8 a) ((freqGet f a).setWidth 40))
  merged : ∀ i, distinctCount f ≤ i → i < 2 * distinctCount f - 1 →
    ∃ l r w,
      storeGet tree i = some (.internal l r w) ∧
      w.toNat = weightAt tree l.toNat + weightAt tree r.toNat ∧
      l.toNat ∈ rootsBelow tree i ∧ r.toNat ∈ rootsBelow tree i ∧ keyBefore tree l.toNat r.toNat ∧
      ∀ j ∈ rootsBelow tree i, j ≠ l.toNat → j ≠ r.toNat → keyBefore tree r.toNat j
  childOnce :
    ((List.range (2 * distinctCount f - 1)).flatMap (childrenOf tree)).Perm (List.range (2 * distinctCount f - 2))

/-! ### The codec's data -/

/-- The distinct bytes of an input. -/
def distinctBytes (x : List Byte) : Nat := x.dedup.length

/-- The bits a coded input takes through a tree: each byte's path (46_encoder.md R324). -/
def codedBits (sh : Shape) (x : List Byte) : List Bool := x.flatMap (fun b => (sh.lastPath b).getD [])

/-- T of a Huffman frame (46_encoder.md R320). -/
def frameTotal (sh : Shape) (x : List Byte) : Nat := 5 + sh.bits.length + (codedBits sh x).length

/-- The bits of a Huffman frame before its padding (30_encoding.md R143). -/
def huffmanFrame (sh : Shape) (x : List Byte) : List Bool :=
  [false, true] ++ bitsOf 3 (BitVec.ofNat 3 ((frameTotal sh x - 1) % 8)) ++ sh.bits ++ codedBits sh x

/-- The bits of a raw frame before its padding (30_encoding.md R141). -/
def rawFrame (x : List Byte) : List Bool := [false, false] ++ byteBits x

/-- The bits of a single-symbol frame before its padding (30_encoding.md R142). -/
def singleFrame (sym : Byte) (c : Nat) : List Bool :=
  [true, false] ++ bitsOf 8 sym ++ bitsOf 32 (BitVec.ofNat 32 c)

/-- The bits of a stream's bytes with the last byte cut to its mb meaningful bits (47_decoder.md R341). -/
def limitedBits (mb : Nat) (x : List Byte) : List Bool :=
  byteBits x.dropLast ++ (byteBits x.getLast?.toList).take mb

/-! ### Which tasks belong to a command -/

/-- A task that LOAD, COUNT, BUILD, GENCODE, SERIALIZE or EMIT puts on the sequencer's list. -/
def encodeUnitTask : Task → Bool
  | .load | .loadLoop | .loadDiscard | .count | .build | .buildMerge _ _ | .gencode | .gencodeWalk _ _ _ => true
  | .serialize | .serializeWalk _ _ | .emit | .emitLoop _ _ | .put _ => true
  | _ => false

/-- Whether a task can stand on the sequencer's list while a command runs. -/
def ownTask : Instr → Task → Bool
  | .nop, _ => false
  | .packBit, t | .packByte, t | .packBits _, t =>
    match t with
    | .put _ | .retPushed => true
    | _ => false
  | .flush, t =>
    match t with
    | .flush | .retPushed => true
    | _ => false
  | .unpackBit, t =>
    match t with
    | .get _ _ _ | .askBit | .retBit => true
    | _ => false
  | .unpackByte, t =>
    match t with
    | .get _ _ _ | .askByte | .retByte => true
    | _ => false
  | .unpackReset, t =>
    match t with
    | .unpackReset => true
    | _ => false
  | .load, t =>
    match t with
    | .load | .loadLoop | .loadDiscard | .fail _ => true
    | _ => false
  | .count, t =>
    match t with
    | .count => true
    | _ => false
  | .build, t =>
    match t with
    | .build | .buildMerge _ _ | .fail _ => true
    | _ => false
  | .gencode, t =>
    match t with
    | .gencode | .gencodeWalk _ _ _ | .fail _ => true
    | _ => false
  | .emit, t =>
    match t with
    | .emit | .emitLoop _ _ | .put _ | .fail _ => true
    | _ => false
  | .serialize, t =>
    match t with
    | .serialize | .serializeWalk _ _ | .put _ => true
    | _ => false
  | .deserialize, t =>
    match t with
    | .deserialize | .deserTag _ | .deserSymbol _ _ | .get _ _ _ | .fail _ => true
    | _ => false
  | .walk, t =>
    match t with
    | .walk | .walkBit _ _ | .get _ _ _ | .askBit | .fail _ => true
    | _ => false
  | .encode, t =>
    match t with
    | .encodeInit | .encodeMode | .encodeHeader | .encodeFinish _ | .enter _ | .flush | .out _ | .setRet _ => true
    | .fail _ => true
    | t => encodeUnitTask t
  | .decode, t =>
    match t with
    | .decodeInit | .decodeTag | .decodeRaw _ | .decodeSymbol | .decodeCount _ | .decodeMb | .decodeWalked => true
    | .decodeFinish _ | .enter _ | .drain | .out _ | .outRepeat _ _ | .setRet _ | .fail _ | .get _ _ _ | .askBit => true
    | .deserialize | .deserTag _ | .deserSymbol _ _ | .walk | .walkBit _ _ => true
    | _ => false

/-- The sequencer is at a point of the command `i`: not begun, or with tasks of `i` left. -/
def Runs (i : Instr) (s : State) : Prop :=
  match s.seq with
  | .idle => True
  | .start => True
  | .run ts => ∀ t ∈ ts, ownTask i t = true

/-! ### The end token of ENCODE and DECODE (60_exceptions.md R373) -/

/-- The task stands for the rest of an ENCODE's or DECODE's body through its End or Abort, or is that token. -/
def carriesEnd : Task → Bool
  | .encodeMode | .encodeHeader | .encodeFinish _ | .decodeInit | .decodeTag | .decodeRaw _ | .decodeSymbol => true
  | .decodeCount _ | .decodeMb | .decodeWalked | .decodeFinish _ | .out .eos | .out .abort => true
  | _ => false

/-- The task is the completion step of an error. -/
def isFail : Task → Bool
  | .fail _ => true
  | _ => false

/-- What is left of the body once the end token is appended: the value after End, the completion after Abort. -/
def afterEnd : Task → List Task → Bool
  | .out .eos, [.setRet _] => true
  | .out .eos, _ => false
  | .out .abort, [.fail _] => true
  | .out .abort, _ => false
  | _, ts => ts.isEmpty

/-- The tasks append one end token, and nothing is left after it but the completion. -/
def endsOnce : List Task → Bool
  | [] => false
  | t :: ts => if carriesEnd t then afterEnd t ts else !isFail t && endsOnce ts

/-- The end token is appended, and only the completion is left. -/
def ended : List Task → Bool
  | [] | [.setRet _] | [.fail _] => true
  | _ => false

/-- The running ENCODE or DECODE has not appended its end token yet. -/
def endToCome (s : State) : Bool :=
  match s.seq with
  | .idle => false
  | .start => true
  | .run ts => endsOnce ts

/-- The running ENCODE or DECODE appends one end token, or has appended it. -/
def OneEnd (s : State) : Prop :=
  match s.seq with
  | .idle => True
  | .start => True
  | .run ts => endsOnce ts = true ∨ ended ts = true

/-- The command has ended with an error, or its error completion is what is left. -/
def endsInError (s : State) : Bool :=
  match s.seq with
  | .idle => s.status.error
  | .start => false
  | .run ts => ts.any isFail

/-- The fields every command's turn writes: BUSY's and PHASE's home, the outcome's fields of STATUS and IRQ_PEND, and
the model's working fields. `t` differs from `s` there at most. -/
def sharedFrame (s t : State) : State :=
  { s with
    seq := t.seq
    status :=
      { s.status with done := t.status.done, error := t.status.error, errcode := t.status.errcode,
                      phase := t.status.phase }
    irqPend := t.irqPend
    ret := t.ret
    got := t.got
    pushed := t.pushed
    turn := t.turn }

/-! ### The invariant of the machine -/

/-- The data of a task stay within the arena (10_state.md R55, R57), and an error has a code. -/
def TaskOk : Task → Prop
  | .buildMerge q k => q ≠ [] ∧ k + q.length ≤ 512 ∧ ∀ e ∈ q, e.seq.toNat < 511
  | .deserTag pending => ∀ p ∈ pending, p.node.toNat < 511
  | .deserSymbol pending k => k < 511 ∧ ∀ p ∈ pending, p.node.toNat < 511
  | .fail c => c ≠ .none
  | _ => True

/-- Every task left is within its bounds. -/
def SeqOk (s : State) : Prop :=
  match s.seq with
  | .idle => True
  | .start => True
  | .run ts => ∀ t ∈ ts, TaskOk t

/-- A tree that DESERIALIZE has begun: a gap is a child still to come (45_tree_serializer.md R301). -/
inductive Partial where
  | gap
  | leaf (sym : Byte)
  | node (l r : Partial)
  deriving DecidableEq, Repr

/-- The number of nodes allocated. -/
def Partial.nodes : Partial → Nat
  | .gap => 0
  | .leaf _ => 1
  | .node l r => 1 + l.nodes + r.nodes

/-- No child is to come. -/
def Partial.whole : Partial → Bool
  | .gap => false
  | .leaf _ => true
  | .node l r => l.whole && r.whole

/-- Nodes come in preorder: a right child comes only after the whole left subtree. -/
def Partial.preorder : Partial → Bool
  | .gap => true
  | .leaf _ => true
  | .node l r => if r = .gap then l.preorder else l.whole && r.preorder

/-- The pending-parent stack, top first, of a tree laid out in preorder from index i. -/
def Partial.pending : Partial → Nat → List Pending
  | .gap, _ => []
  | .leaf _, _ => []
  | .node l r, i =>
    if r = .gap then l.pending (i + 1) ++ [{ node := BitVec.ofNat 9 i, leftLinked := decide (l ≠ .gap) }]
    else r.pending (i + 1 + l.nodes)

/-- The arena holds the nodes in preorder from index i, each linked to the children that have come. -/
def Partial.laidOut (tree : Store Node) : Partial → Nat → Prop
  | .gap, _ => True
  | .leaf sym, i => ∃ w, storeGet tree i = some (.leaf sym w)
  | .node l r, i =>
    (∃ a b w, storeGet tree i = some (.internal a b w) ∧ (l ≠ .gap → a.toNat = i + 1) ∧
      (r ≠ .gap → b.toNat = i + 1 + l.nodes)) ∧
    l.laidOut tree (i + 1) ∧ r.laidOut tree (i + 1 + l.nodes)

/-- DESERIALIZE has allocated k nodes of a tree it has not completed, and `pending` is its stack
(45_tree_serializer.md R301). -/
def Deserializing (s : State) (pending : List Pending) (k : Nat) : Prop :=
  s.treeInfo.root = 0 ∧ s.treeInfo.rootLeaf = false ∧
  ∃ p : Partial, p.preorder = true ∧ p.whole = false ∧ p.nodes = k ∧ p.pending 0 = pending ∧ p.laidOut s.tree 0

/-- The number of nodes of the tree at an arena index, 0 where there is none. -/
def nodesAt (tree : Store Node) (i : Nat) : Nat := ((shapeOf Config.nodeMax tree i).map Shape.nodes).getD 0

/-- BUILD has allocated k entries, each above its children, and the trees in its priority structure are made of all of
them (43_tree_builder.md R260). -/
def Merging (tree : Store Node) (q : List QEntry) (k : Nat) : Prop :=
  2 ≤ k ∧ (∀ i, i < k → (storeGet tree i).isSome = true ∧ ∀ c ∈ childrenOf tree i, c < i) ∧
  (∀ e ∈ q, e.seq.toNat < k) ∧ (q.map (fun e => nodesAt tree e.seq.toNat)).sum = k

/-- A task that makes TREE, or comes to one that does. -/
def makesTree : Task → Bool
  | .build | .buildMerge _ _ | .deserialize | .deserTag _ | .deserSymbol _ _ => true
  | .encodeMode | .decodeInit | .decodeTag | .decodeMb => true
  | _ => false

/-- While a task is in the midst of making TREE, TREE_VALID is 0 and the arena holds what the task has made
(10_state.md R58). -/
def TreeTaskOk (s : State) : Task → Prop
  | .buildMerge q k => s.status.treeValid = false ∧ Merging s.tree q k
  | .deserTag pending => s.status.treeValid = false ∧ Deserializing s pending s.treeInfo.nodes.toNat
  | .deserSymbol pending k =>
    s.status.treeValid = false ∧ s.treeInfo.nodes.toNat = k + 1 ∧ Deserializing s pending k
  | _ => True

/-- The tasks left that make TREE. -/
def treeTasks (s : State) : List Task :=
  match s.seq with
  | .idle => []
  | .start => []
  | .run ts => ts.filter makesTree

/-- What TREE_VALID means (10_state.md R35, R46, R55, R58): TREE holds a complete tree at ROOT, of NODES nodes, and
ROOT_LEAF says whether it is a leaf. One task at most makes TREE. -/
structure TreeOk (s : State) : Prop where
  valid : s.status.treeValid = true →
    ∃ sh : Shape, treeShape s = some sh ∧ sh.nodes ≤ 511 ∧ s.treeInfo.nodes.toNat = sh.nodes ∧
      s.treeInfo.rootLeaf = sh.single
  single : (treeTasks s).length ≤ 1
  making : ∀ t ∈ treeTasks s, TreeTaskOk s t

/-- The internal memories are in canonical form and within their sizes (10_state.md R53 to R56), and BUF holds what
LOAD stored. -/
structure MemoriesOk (s : State) : Prop where
  buf : Memory.wf s.buf
  bufRange : ∀ p ∈ s.buf, p.1 < s.nMax.toNat
  bufStored : ∀ j, j < s.inLen.toNat → (storeGet s.buf j).isSome = true
  freq : storeWf (some (0 : Word)) s.freq
  freqRange : ∀ p ∈ s.freq, p.1 < 256
  tree : storeWf (none : Option Node) s.tree
  treeRange : ∀ p ∈ s.tree, p.1 < 511
  code : storeWf (some clearedEntry) s.code
  codeRange : ∀ p ∈ s.code, p.1 < 256

/-- The registers stay within what the spec says of them (10_state.md R41, R42, R44, R46, R49, R50; 00_scope.md
R10). -/
structure RegistersOk (s : State) : Prop where
  nMax : 8 ≤ s.nMax.toNat
  inLen : s.inLen.toNat ≤ s.nMax.toNat
  ndist : s.ndist.toNat ≤ 256
  limitMb : 1 ≤ s.unpk.limitMb.toNat ∧ s.unpk.limitMb.toNat ≤ 8
  mb : s.mode.mb.toNat ≤ 8
  nodes : s.treeInfo.nodes.toNat ≤ 511
  packer : PackerWf s.wr
  rdFill : s.rd.fill.toNat ≤ 8

/-- STATUS is consistent (10_state.md R35; 40_command.md R171, R172, R175; 60_exceptions.md R371, R372). -/
structure StatusOk (s : State) : Prop where
  busyClear : busy s = true → s.status.done = false ∧ s.status.error = false
  idlePhase : busy s = false → s.status.phase = .idle
  errorCode : s.status.error = true ↔ s.status.errcode ≠ .none
  errorDone : s.status.error = true → s.status.done = true

/-- The invariant of the machine: what every step keeps. -/
structure Inv (s : State) : Prop where
  memories : MemoriesOk s
  registers : RegistersOk s
  status : StatusOk s
  tasks : SeqOk s
  tree : TreeOk s

end Sys2Proof.Machine
end

