-- ==== Sys2Proof/Certificates/Slice0/Obligations.lean ====
section
/-!
DEFINITION. Certificates/Slice0/Obligations.lean: the statements about HUFF, from the numbered rules of spec/.
-/

open Sys2Proof Sys2Proof.Machine

/-! ### Encoding -/

/-- 30_encoding.md R120, R121, R123, R125: the word of every well-formed command decodes to it, as the first four
bytes of any byte list; no operand value is lost. -/
def Obligations.DecodeOfEncode : Prop :=
  ∀ (i : Instr) (rest : List Byte), i.wellFormed = true → decodeBytes (encodeBytes i ++ rest) = .ok (i, rest)

/-- 30_encoding.md R120, R121, R123: a word that decodes is the word of the command it decodes to, so each command has
one word. -/
def Obligations.EncodeOfDecode : Prop :=
  ∀ (w : Word) (i : Instr), decodeWord w = .ok i → i.wellFormed = true ∧ encodeWord i = w

/-- 30_encoding.md R120: a word is legal when OPC is one of the opcodes of R121, RSV = 0, and N = 0 unless
OPC = 0x12; every other word is illegal. -/
def Obligations.LegalWordsAreTheTables : Prop :=
  ∀ w : Word,
    (∃ i, decodeWord w = .ok i) ↔
      (w.extractLsb' 0 8).toNat ∈
          [0x00, 0x10, 0x11, 0x12, 0x13, 0x14, 0x15, 0x16, 0x20, 0x21, 0x30, 0x40, 0x41, 0x50, 0x51, 0x60, 0x70, 0x71] ∧
        w.extractLsb' 16 16 = 0 ∧ (w.extractLsb' 0 8 ≠ 0x12 → w.extractLsb' 8 8 = 0)

/-- 30_encoding.md R121: words written out from the opcode map and the format of R120 decode to their commands. -/
def Obligations.SpecWordsDecode : Prop :=
  decodeWord 0b00000000000000000000000000000000#32 = .ok .nop ∧
  decodeWord 0b00000000000000000000000000010000#32 = .ok .packBit ∧
  decodeWord 0b00000000000000000000001100010010#32 = .ok (.packBits 3) ∧
  decodeWord 0b00000000000000000000000000100001#32 = .ok .count ∧
  decodeWord 0b00000000000000000000000000110000#32 = .ok .build ∧
  decodeWord 0b00000000000000000000000001000000#32 = .ok .gencode ∧
  decodeWord 0b00000000000000000000000001010001#32 = .ok .deserialize ∧
  decodeWord 0b00000000000000000000000001100000#32 = .ok .encode ∧
  decodeWord 0b00000000000000000000000001110001#32 = .ok .walk

/-! ### The command interface -/

/-- 40_command.md R180 (with 20_memory.md R96): while a command runs and the core has the turn, a step is the meaning
of the command that CMD holds. Otherwise the host has the turn (20_memory.md R93): a step is its next action, whose
answer is recorded and after which the core is granted the action's core steps; with no action coming a running command
is granted more core steps, and an idle block stays as it is (60_exceptions.md R385). Whose turn it is, is the model's
own schedule (notes/assumptions/2.md, 3.md, 9.md). -/
def Obligations.StepRunsDecodedCommand : Prop :=
  (∀ (s : State) (i : Instr),
    busy s = true → s.turn ≠ 0 → decodeWord s.cmd = .ok i → step s = exec i s) ∧
  (∀ s : State, busy s = false ∨ s.turn = 0 →
    (∀ (a : HostAct) (k : Nat) (rest : List (HostAct × Nat)), s.agenda = (a, k) :: rest →
      step s =
        .next
          { (hostAct a { s with agenda := rest }).2 with
            log := s.log ++ [(hostAct a { s with agenda := rest }).1], turn := k }) ∧
    (s.agenda = [] → busy s = true → step s = .next { s with turn := Config.fairTurn }) ∧
    (s.agenda = [] → busy s = false → step s = .next s))

/-- 40_command.md R179: an illegal word's command completes in one step with ERRCODE = ILLEGAL_CMD; nothing but STATUS
and IRQ_PEND changes (and the model's own turn and working fields). -/
def Obligations.IllegalWordCompletes : Prop :=
  ∀ (s : State) (r : Reject),
    busy s = true → s.turn ≠ 0 → decodeWord s.cmd = .error r → step s = .next (failed .illegalCmd s)

/-- 40_command.md R171: a CMD write while idle stores the word and starts a command. -/
def Obligations.CmdWriteStartsCommand : Prop :=
  ∀ (s : State) (w : Word), busy s = false →
    busWrite .word 0x010 w s =
      (.writeOk,
        { s with
          cmd := w
          seq := .start
          status := { s.status with done := false, error := false, errcode := .none, phase := .control } })

/-- 40_command.md R173 and R174: while BUSY = 1, a write anywhere but CTRL and IRQ_PEND changes nothing. -/
def Obligations.WritesWhileBusyIgnored : Prop :=
  ∀ (s : State) (access : Access) (a : Addr) (v : Word),
    busy s = true → a ≠ 0x004 → a ≠ 0x00C → (busWrite access a v s).2 = s

/-- 10_state.md R34, R37, R39 and R44: what a host write of CTRL (SRST 0) and IRQ_PEND does at any time, and of ARG and
UNPK_CFG while idle; 60_exceptions.md R376: the irq line, which clearing both pending bits drops. -/
def Obligations.HostRegisterWrites : Prop :=
  ∀ (s : State) (v : Word),
    (v.getLsbD 0 = false →
      busWrite .word 0x004 v s = (.writeOk, { s with ctrl := { ieDone := v.getLsbD 1, ieErr := v.getLsbD 2 } })) ∧
    busWrite .word 0x00C v s =
      (.writeOk,
        { s with irqPend := { doneP := s.irqPend.doneP && !v.getLsbD 0, errP := s.irqPend.errP && !v.getLsbD 1 } }) ∧
    (busy s = false → busWrite .word 0x014 v s = (.writeOk, { s with arg := v })) ∧
    (busy s = false →
      busWrite .word 0x028 v s =
        (.writeOk,
          { s with
            unpk :=
              { limitEn := v.getLsbD 0
                limitMb := if 1 ≤ (v.extractLsb' 4 4).toNat ∧ (v.extractLsb' 4 4).toNat ≤ 8
                  then v.extractLsb' 4 4 else s.unpk.limitMb } })) ∧
    irqLine s = ((s.irqPend.doneP && s.ctrl.ieDone) || (s.irqPend.errP && s.ctrl.ieErr)) ∧
    irqLine (busWrite .word 0x00C 3 s).2 = false

/-- 70_reset_and_hazards.md R400 and R401: a CTRL write with bit 0 = 1, at any time, and the power-on reset set every
piece of state that 10_state.md R61 gives a value to that value; the soft reset keeps the ports' tokens, the power-on
reset empties them. The model's choice, not the spec's: BUF, TREE and CODE, which R61 leaves unspecified, list nothing
again (notes/assumptions/15.md, DEDUCED, with 5.md), and N_MAX and the model's own draws, agenda, log and turn go on
(15.md, DESIGN CHOICE). -/
def Obligations.Resets : Prop :=
  ∀ (s : State) (v : Word),
    (v.getLsbD 0 = true →
      busWrite .word 0x004 v s =
        (.writeOk,
          { State.reset with
            nMax := s.nMax, inp := s.inp, out := s.out, draws := s.draws, agenda := s.agenda, log := s.log
            turn := s.turn })) ∧
    hostAct .powerOn s =
      (.resetDone,
        { State.reset with
          nMax := s.nMax, draws := s.draws, agenda := s.agenda, log := s.log, turn := s.turn })

/-- 10_state.md R32 to R48: the fifteen registers read their reset values after reset (CAPACITY's 65536 is the model's
choice of N_MAX, notes/assumptions/1.md); while idle each reads its fields at the bit positions of its rule, the most
significant written first, reserved bits 0, and changes nothing; and the values of ERRCODE (60_exceptions.md R370) and
of PHASE. -/
def Obligations.ResetRegisterValues : Prop :=
  (∀ p ∈ ([(0x000, 0x48460100), (0x004, 0), (0x008, 0), (0x00C, 0), (0x010, 0), (0x014, 0), (0x018, 0), (0x01C, 0),
      (0x020, 0), (0x024, 0), (0x028, 0x80), (0x02C, 65536), (0x030, 0), (0x034, 0), (0x038, 0)] : List (Addr × Word)),
    busRead .word p.1 State.reset = (.readOk p.2, State.reset)) ∧
  (∀ s : State, busy s = false →
    busRead .word 0x000 s = (.readOk 0x48460100, s) ∧
    busRead .word 0x004 s = (.readOk (0#29 ++ BitVec.ofBool s.ctrl.ieErr ++ BitVec.ofBool s.ctrl.ieDone ++ 0#1), s) ∧
    busRead .word 0x008 s =
      (.readOk
        (0#8 ++ BitVec.ofBool s.status.codeValid ++ BitVec.ofBool s.status.treeValid
          ++ BitVec.ofBool s.status.freqValid ++ BitVec.ofBool s.status.bufValid ++ phaseNumber s.status.phase
          ++ errNumber s.status.errcode ++ 0#5 ++ BitVec.ofBool s.status.error ++ BitVec.ofBool s.status.done ++ 0#1),
        s) ∧
    busRead .word 0x00C s = (.readOk (0#30 ++ BitVec.ofBool s.irqPend.errP ++ BitVec.ofBool s.irqPend.doneP), s) ∧
    busRead .word 0x010 s = (.readOk s.cmd, s) ∧
    busRead .word 0x014 s = (.readOk s.arg, s) ∧
    busRead .word 0x018 s = (.readOk s.result, s) ∧
    busRead .word 0x01C s = (.readOk s.inLen, s) ∧
    busRead .word 0x020 s = (.readOk (0#23 ++ s.ndist), s) ∧
    busRead .word 0x024 s =
      (.readOk (0#12 ++ s.mode.mb ++ 0#7 ++ BitVec.ofBool s.mode.valid ++ 0#6 ++ s.mode.tag), s) ∧
    busRead .word 0x028 s = (.readOk (0#24 ++ s.unpk.limitMb ++ 0#3 ++ BitVec.ofBool s.unpk.limitEn), s) ∧
    busRead .word 0x02C s = (.readOk s.nMax, s) ∧
    busRead .word 0x030 s =
      (.readOk (BitVec.ofBool s.treeInfo.rootLeaf ++ 0#5 ++ s.treeInfo.nodes ++ 0#7 ++ s.treeInfo.root), s) ∧
    busRead .word 0x034 s = (.readOk (0#20 ++ s.wr.fill ++ s.wr.acc), s) ∧
    (s.la = none →
      busRead .word 0x038 s = (.readOk (0#19 ++ BitVec.ofBool s.rd.eos ++ s.rd.fill ++ s.rd.acc), s)) ∧
    (s.la = some .eos →
      busRead .word 0x038 s = (.readOk (0#17 ++ 1#1 ++ 1#1 ++ BitVec.ofBool s.rd.eos ++ s.rd.fill ++ s.rd.acc), s)) ∧
    (∀ b : Byte, s.la = some (.byte b) →
      busRead .word 0x038 s =
        (.readOk (0#8 ++ b ++ 0#1 ++ 0#1 ++ 1#1 ++ BitVec.ofBool s.rd.eos ++ s.rd.fill ++ s.rd.acc), s))) ∧
  [ErrCode.none, .illegalCmd, .badArg, .sequence, .inputOverflow, .degenerate, .noCode, .truncated, .badMode,
    .treeOverflow].map errNumber = [0x00, 0x01, 0x02, 0x03, 0x04, 0x05, 0x06, 0x07, 0x08, 0x09] ∧
  [Phase.idle, .control, .load, .count, .build, .gencode, .header, .serialize, .deserialize, .emit, .walk, .rawBody,
    .singleBody, .finish, .drain].map phaseNumber = [0, 1, 2, 3, 4, 5, 6, 7, 8, 9, 10, 11, 12, 13, 14]

/-! ### The bus -/

/-- 20_memory.md R83: an access that is no full word at an aligned address answers ERR and changes no state, its read
data being a free draw; a full aligned word answers OK. R84: no read of any kind changes state (the model counts its
draws, notes/assumptions/4.md). -/
def Obligations.IllegalAccessAndReadsChangeNothing : Prop :=
  (∀ (s : State) (access : Access) (a : Addr) (v : Word), access ≠ .word ∨ a.toNat % 4 ≠ 0 →
    busWrite access a v s = (.writeErr, s) ∧
    busRead access a s = (.readErr (Config.freeWord s.draws), { s with draws := s.draws + 1 })) ∧
  (∀ (s : State) (a : Addr) (v : Word), a.toNat % 4 = 0 →
    (busWrite .word a v s).1 = .writeOk ∧ ∃ w, (busRead .word a s).1 = .readOk w) ∧
  (∀ (s : State) (access : Access) (a : Addr),
    (busRead access a s).2 = s ∨ (busRead access a s).2 = { s with draws := s.draws + 1 })

/-- 20_memory.md R81 and R82: an aligned read of an unmapped address returns 0 and a write to one is ignored, both with
OK; a write to a read-only register or window is ignored with OK. -/
def Obligations.UnmappedAndReadOnlyLocations : Prop :=
  ∀ (s : State) (a : Addr) (v : Word), a.toNat % 4 = 0 →
    ((0x003C ≤ a.toNat ∧ a.toNat < 0x0400) ∨ (0x0800 ≤ a.toNat ∧ a.toNat < 0x2000) ∨
        (0x3FF0 ≤ a.toNat ∧ a.toNat < 0x4000) ∨ 0x8000 ≤ a.toNat →
      busRead .word a s = (.readOk 0, s) ∧ busWrite .word a v s = (.writeOk, s)) ∧
    (a.toNat ∈ [0x000, 0x008, 0x018, 0x01C, 0x020, 0x024, 0x02C, 0x030, 0x034, 0x038] ∨
        (0x2000 ≤ a.toNat ∧ a.toNat < 0x3FF0) ∨ (0x4000 ≤ a.toNat ∧ a.toNat < 0x8000) →
      busWrite .word a v s = (.writeOk, s))

/-- 40_command.md R175: while BUSY = 1, ID, CTRL, IRQ_PEND, CMD, ARG, RESULT and CAPACITY read their current values, with
the bit positions of 10_state.md R34 and R37 written out; STATUS reads BUSY = 1, DONE = ERROR = 0, ERRCODE 0, reserved
bits 0, a draw for each validity flag and one of the running command's phases; every other register reads a draw whose
reserved bits are 0, and a window word a draw (CODE words 9 to 15 read 0, notes/assumptions/13.md). The model's choice,
not the spec's: the form of a draw, the next free value, counted (notes/assumptions/4.md), and the list of phases a
command can take (14.md, DEDUCED). -/
def Obligations.BusyReadsOfDefinedRegisters : Prop :=
  ∀ s : State, busy s = true →
    let drawn : State := { s with draws := s.draws + 1 }
    let d : Word := Config.freeWord s.draws
    busRead .word 0x000 s = (.readOk 0x48460100, s) ∧
    busRead .word 0x004 s = (.readOk (0#29 ++ BitVec.ofBool s.ctrl.ieErr ++ BitVec.ofBool s.ctrl.ieDone ++ 0#1), s) ∧
    busRead .word 0x00C s = (.readOk (0#30 ++ BitVec.ofBool s.irqPend.errP ++ BitVec.ofBool s.irqPend.doneP), s) ∧
    busRead .word 0x010 s = (.readOk s.cmd, s) ∧
    busRead .word 0x014 s = (.readOk s.arg, s) ∧
    busRead .word 0x018 s = (.readOk s.result, s) ∧
    busRead .word 0x02C s = (.readOk s.nMax, s) ∧
    (∃ w : Word, busRead .word 0x008 s = (.readOk w, drawn) ∧
      w &&& 0xFF00FFFF = 1 ∧ w &&& 0x00F00000 = d &&& 0x00F00000 ∧
      ∃ p ∈ runningPhases s, w.extractLsb' 16 4 = phaseNumber p) ∧
    busRead .word 0x01C s = (.readOk d, drawn) ∧
    busRead .word 0x020 s = (.readOk (d &&& 0x000001FF), drawn) ∧
    busRead .word 0x024 s = (.readOk (d &&& 0x000F0103), drawn) ∧
    busRead .word 0x028 s = (.readOk (d &&& 0x000000F1), drawn) ∧
    busRead .word 0x030 s = (.readOk (d &&& 0x83FF01FF), drawn) ∧
    busRead .word 0x034 s = (.readOk (d &&& 0x00000FFF), drawn) ∧
    busRead .word 0x038 s = (.readOk (d &&& 0x00FF7FFF), drawn) ∧
    (∀ a : Addr, a.toNat % 4 = 0 →
      (0x0400 ≤ a.toNat ∧ a.toNat < 0x0800) ∨ (0x2000 ≤ a.toNat ∧ a.toNat < 0x3FF0) →
      busRead .word a s = (.readOk d, drawn)) ∧
    (∀ a k : Nat, a < 256 → k < 16 →
      busRead .word (BitVec.ofNat 16 (0x4000 + 64 * a + 4 * k)) s =
        if k ≤ 8 then (.readOk d, drawn) else (.readOk 0, s))

/-- 40_command.md R175: what a read made while BUSY = 1 returns does not depend on the command's progress: two busy
states that agree on the registers R175 calls defined, and on the draws made so far, answer every read alike. -/
def Obligations.BusyReadsTellNothing : Prop :=
  ∀ (s t : State) (access : Access) (a : Addr),
    busy s = true → busy t = true →
    s.ctrl = t.ctrl → s.irqPend = t.irqPend → s.cmd = t.cmd → s.arg = t.arg → s.result = t.result → s.nMax = t.nMax →
    s.draws = t.draws →
    (busRead access a s).1 = (busRead access a t).1

/-- 42_frequency.md R243: while idle, a write of FREQ window word a sets FREQ[a] and FREQ_VALID, and nothing else: NDIST
and every other counter keep their values; the word reads back. -/
def Obligations.FreqWindowWrite : Prop :=
  ∀ (s : State) (a : Nat) (v : Word), busy s = false → a < 256 →
    ∃ f : Store Word,
      busWrite .word (BitVec.ofNat 16 (0x0400 + 4 * a)) v s =
        (.writeOk, { s with freq := f, status := { s.status with freqValid := true } }) ∧
      freqGet f a = v ∧ (∀ b, b ≠ a → freqGet f b = freqGet s.freq b) ∧
      busRead .word (BitVec.ofNat 16 (0x0400 + 4 * a)) { s with freq := f } = (.readOk v, { s with freq := f })

/-- 10_state.md R55 and R56: the words of a defined TREE entry and of a defined CODE entry, read while idle; and of an
undefined one (93_implementation_defined.md U4, U5; 70_reset_and_hazards.md R404), with TREE_VALID = 0 or i ≥ NODES, or with
CODE_VALID = 0: such a read is OK and returns a draw, but CODE words 9 to 15 still read 0. The model's choice, not the
spec's: the form of a draw, the next free value, counted (notes/assumptions/4.md), over all 32 bits of words 0 to 8 of
CODE and of the four words of TREE (13.md, DEDUCED). -/
def Obligations.TreeAndCodeWindowWords : Prop :=
  (∀ (s : State) (i : Nat) (n : Node), busy s = false → s.status.treeValid = true → i < s.treeInfo.nodes.toNat →
    i < 511 → storeGet s.tree i = some n →
    let base := 0x2000 + 16 * i
    (∀ sym w, n = .leaf sym w → busRead .word (BitVec.ofNat 16 base) s = (.readOk (sym.setWidth 32), s)) ∧
    (∀ l r w, n = .internal l r w →
      busRead .word (BitVec.ofNat 16 base) s =
        (.readOk (0x80000000 ||| (r.setWidth 32 <<< 16) ||| l.setWidth 32), s)) ∧
    busRead .word (BitVec.ofNat 16 (base + 4)) s = (.readOk ((nodeWeight n).extractLsb' 0 32), s) ∧
    busRead .word (BitVec.ofNat 16 (base + 8)) s =
      (.readOk (((nodeWeight n).extractLsb' 32 8).setWidth 32), s) ∧
    busRead .word (BitVec.ofNat 16 (base + 12)) s = (.readOk 0, s)) ∧
  (∀ (s : State) (a k : Nat), busy s = false → s.status.codeValid = true → a < 256 → k < 16 →
    let addr := BitVec.ofNat 16 (0x4000 + 64 * a + 4 * k)
    let e := codeGet s.code a
    (k = 0 → busRead .word addr s = (.readOk (e.len.setWidth 32), s)) ∧
    (1 ≤ k → k ≤ 8 → busRead .word addr s = (.readOk (e.bits.extractLsb' (32 * k - 32) 32), s)) ∧
    (9 ≤ k → busRead .word addr s = (.readOk 0, s))) ∧
  (∀ (s : State) (i k : Nat), busy s = false → s.status.treeValid = false ∨ s.treeInfo.nodes.toNat ≤ i → i < 511 →
    k < 4 →
    busRead .word (BitVec.ofNat 16 (0x2000 + 16 * i + 4 * k)) s =
      (.readOk (Config.freeWord s.draws), { s with draws := s.draws + 1 })) ∧
  (∀ (s : State) (a k : Nat), busy s = false → s.status.codeValid = false → a < 256 → k < 16 →
    busRead .word (BitVec.ofNat 16 (0x4000 + 64 * a + 4 * k)) s =
      if k ≤ 8 then (.readOk (Config.freeWord s.draws), { s with draws := s.draws + 1 }) else (.readOk 0, s))

/-! ### The commands of the interface and of bit I/O -/

/-- 40_command.md R177 and R178: NOP completes and changes nothing but STATUS and IRQ_PEND; UNPACK_RESET restarts the
unpacker and the limit, keeps the lookahead, and leaves RESULT. -/
def Obligations.NopAndUnpackReset : Prop :=
  (∀ s : State, Started s → 2 ≤ s.turn → exec .nop s = .next (succeeded none s)) ∧
  (∀ s : State, Started s → 3 ≤ s.turn →
    exec .unpackReset s =
      .next (succeeded none
        { s with rd := { acc := 0, fill := 0, eos := false }, unpk := { limitEn := false, limitMb := 8 } }))

/-- 41_bitio.md R210: PACK_BIT writes ARG[0]; RESULT is the number of bytes pushed. -/
def Obligations.PackBitWrites : Prop :=
  ∀ s : State, Started s → PackerWf s.wr → 5 ≤ s.turn →
    exec .packBit s = .next (succeeded (counted (packedCount [s.arg.getLsbD 0] s)) (packed [s.arg.getLsbD 0] s))

/-- 41_bitio.md R211: PACK_BYTE writes ARG[7:0]: with k bits pending the pushed byte holds them in bits [k-1:0] and
v[7-k:0] above, v[7:8-k] remain pending, and RESULT is 1. -/
def Obligations.PackByteWrites : Prop :=
  ∀ s : State, Started s → PackerWf s.wr → 12 ≤ s.turn →
    let v : Byte := s.arg.setWidth 8
    let k := s.wr.fill.toNat
    exec .packByte s =
      .next (succeeded (counted 1)
        { s with
          out := s.out ++ [.byte (s.wr.acc ||| (v <<< k))]
          wr := { acc := v >>> (8 - k), fill := s.wr.fill } })

/-- 41_bitio.md R212: PACK_BITS with N ≤ 32 writes ARG[N-1:0], bit 0 first; RESULT is the number of bytes pushed. -/
def Obligations.PackBitsWrites : Prop :=
  ∀ (s : State) (n : Nat), Started s → PackerWf s.wr → n ≤ 32 → n + 4 ≤ s.turn →
    exec (.packBits n) s =
      .next (succeeded (counted (packedCount ((List.range n).map s.arg.getLsbD) s))
        (packed ((List.range n).map s.arg.getLsbD) s))

/-- 41_bitio.md R213: FLUSH pushes the partial byte and empties the packer, RESULT 1; with nothing pending it emits
nothing, RESULT 0. -/
def Obligations.FlushEmits : Prop :=
  ∀ s : State, Started s → 4 ≤ s.turn →
    exec .flush s =
      if s.wr.fill = 0 then .next (succeeded (counted 0) s)
      else .next (succeeded (counted 1)
        { s with out := s.out ++ [.byte s.wr.acc], wr := { acc := 0, fill := 0 } })

/-- 40_command.md R176, checks 2 and 3: PACK_BITS with N > 32 ends with BAD_ARG, and a command whose prerequisite flag
is 0 ends with SEQUENCE, before any step of the body. -/
def Obligations.ChecksBeforeTheBody : Prop :=
  ∀ s : State, Started s → 1 ≤ s.turn →
    (∀ n, 32 < n → exec (.packBits n) s = .next (failed .badArg s)) ∧
    (s.status.bufValid = false → exec .count s = .next (failed .sequence s)) ∧
    (s.status.freqValid = false → exec .build s = .next (failed .sequence s)) ∧
    (s.status.treeValid = false →
      exec .gencode s = .next (failed .sequence s) ∧ exec .serialize s = .next (failed .sequence s) ∧
      exec .walk s = .next (failed .sequence s)) ∧
    (s.status.bufValid = false ∨ s.status.codeValid = false → exec .emit s = .next (failed .sequence s))

/-- 41_bitio.md R214 with R204: UNPACK_BIT returns what readBit() returns, a bit or 0x8000_0000 for NA. Once RD_EOS = 1 it
returns NA at once and changes no unpacker state, with bits held or without (10_state.md R60 (b); 20_memory.md R88;
notes/assumptions/19.md, DEDUCED). While RD_EOS = 0 it holds, and stays busy, where readBit needs a token and none is
ahead: with RD_FILL = 0, or for the limit's peek (00_scope.md R13). -/
def Obligations.UnpackBitReads : Prop :=
  (∀ (s t : State) (r : Option Bool), Started s → 6 ≤ s.turn → s.rd.eos = false → readBit s = some (r, t) →
    exec .unpackBit s =
      .next (succeeded
        (some (match r with
          | none => 0x80000000
          | some false => 0
          | some true => 1)) t)) ∧
  (∀ s : State, Started s → 6 ≤ s.turn → s.rd.eos = true →
    exec .unpackBit s = .next (succeeded (some 0x80000000) s)) ∧
  (∀ s : State, Started s → 6 ≤ s.turn → s.rd.eos = false → readBit s = none →
    ∃ t : State, exec .unpackBit s = .next t ∧ busy t = true ∧ Holds t ∧ t.result = s.result) ∧
  (∀ s : State, s.rd.eos = false → ahead s = [] →
    s.rd.fill = 0 ∨ (s.unpk.limitEn = true ∧ s.unpk.limitMb.toNat ≤ 8 - s.rd.fill.toNat) → readBit s = none)

/-- 41_bitio.md R215 with R205: UNPACK_BYTE returns what readBits(8) returns: the byte, or 0x8000_0000, the number k of
bits obtained in bits [11:8], and their value. When RD_EOS = 1 it obtains the bits held, reads no token and returns NA
(20_memory.md R88; 10_state.md R60 (b)); with the limit on, those at i < LIMIT_MB (47_decoder.md R341;
notes/assumptions/19.md, DEDUCED). While RD_EOS = 0 it holds, and stays busy, where readBits(8) needs a token and none is
ahead (00_scope.md R13). -/
def Obligations.UnpackByteReads : Prop :=
  (∀ (s t : State) (v : Word), Started s → 20 ≤ s.turn → s.rd.eos = false ∨ s.unpk.limitEn = false →
    readBits 8 s = some (.ok v, t) →
    exec .unpackByte s = .next (succeeded (some v) t)) ∧
  (∀ (s t : State) (v : Word) (k : Nat), Started s → 20 ≤ s.turn → s.rd.eos = false ∨ s.unpk.limitEn = false →
    readBits 8 s = some (.na v k, t) →
    exec .unpackByte s =
      .next (succeeded (some (0x80000000 ||| (BitVec.ofNat 32 k <<< 8) ||| v)) t)) ∧
  (∀ s : State, Started s → 20 ≤ s.turn → s.rd.eos = true → s.rd.fill.toNat ≤ 7 →
    let held := heldBits true s
    exec .unpackByte s =
      .next (succeeded
        (some (0x80000000 ||| (BitVec.ofNat 32 held.length <<< 8) ||| valueOfBits 32 held))
        { s with rd := { s.rd with fill := s.rd.fill - BitVec.ofNat 4 held.length } })) ∧
  (∀ s : State, Started s → 20 ≤ s.turn → s.rd.eos = false → readBits 8 s = none →
    ∃ t : State, exec .unpackByte s = .next t ∧ busy t = true ∧ Holds t ∧ t.result = s.result) ∧
  (∀ (s : State) (b : Byte) (rest : List InTok),
    s.rd.fill = 0 → s.rd.eos = false → s.unpk.limitEn = false → ahead s = .byte b :: rest →
    readBits 8 s =
      some (.ok (b.setWidth 32), { s with rd := { acc := b, fill := 0, eos := false }, la := none, inp := rest }))

/-! ### LOAD and COUNT -/

/-- 42_frequency.md R240: LOAD stores a stream of at most N_MAX bytes, taking its tokens through End and no further. -/
def Obligations.LoadStoresTheStream : Prop :=
  ∀ (s : State) (x : List Byte) (rest : List InTok),
    Started s → FullTurn s → ahead s = inBytes x ++ .eos :: rest → x.length ≤ s.nMax.toNat →
    ∃ m : Memory,
      exec .load s =
        .next (succeeded (counted x.length)
          { s with
            buf := m, inLen := BitVec.ofNat 32 x.length, la := none, inp := rest
            status := { s.status with bufValid := true } }) ∧
      (∀ j, j < x.length → storeGet m j = x[j]?) ∧ (∀ j, x.length ≤ j → storeGet m j = storeGet s.buf j)

/-- 42_frequency.md R240: a longer stream is drained through its End and ends with INPUT_OVERFLOW; IN_LEN = N_MAX and
BUF holds the first N_MAX bytes. -/
def Obligations.LoadOverflows : Prop :=
  ∀ (s : State) (x : List Byte) (rest : List InTok),
    Started s → FullTurn s → ahead s = inBytes x ++ .eos :: rest → s.nMax.toNat < x.length →
    ∃ m : Memory,
      exec .load s =
        .next (failed .inputOverflow
          { s with
            buf := m, inLen := s.nMax, la := none, inp := rest
            status := { s.status with bufValid := false } }) ∧
      (∀ j, j < s.nMax.toNat → storeGet m j = x[j]?) ∧ (∀ j, s.nMax.toNat ≤ j → storeGet m j = storeGet s.buf j)

/-- 42_frequency.md R241 (and R242: no counter wraps): COUNT sets FREQ to the tally of BUF[0..IN_LEN-1] and NDIST and
RESULT to the number of symbols that occur. -/
def Obligations.CountTallies : Prop :=
  ∀ s : State, Started s → 3 ≤ s.turn → s.status.bufValid = true →
    ∃ f : Store Word,
      exec .count s =
        .next (succeeded (counted (distinctBytes (bufBytes s s.inLen.toNat)))
          { s with
            freq := f, ndist := BitVec.ofNat 9 (distinctBytes (bufBytes s s.inLen.toNat))
            status := { s.status with freqValid := true } }) ∧
      ∀ a : Byte, (freqGet f a.toNat).toNat = (bufBytes s s.inLen.toNat).count a

/-! ### BUILD, GENCODE and EMIT -/

/-- 43_tree_builder.md R260 to R263: BUILD on L ≥ 2 symbols makes the arena of the greedy merge (`BuiltTree`): the L
leaves in ascending symbol order, then L - 1 internal nodes, each made of the two entries extract_min takes, the least
by (WEIGHT, SEQ) among those that are no child yet, the first extracted to the left, with the exact sum of their
weights, every node but the root being a child once. TREE then holds a tree of 2L - 1 nodes at ROOT; root, NODES, NDIST
and RESULT are as the rule says, entries beyond keep their values, and the root's weight is the sum of FREQ. -/
def Obligations.BuildMakesATree : Prop :=
  ∀ (s : State) (n : Nat), Started s → FullTurn s → s.status.freqValid = true →
    n = distinctCount s.freq → 2 ≤ n →
    ∃ (t : State) (sh : Shape),
      exec .build s = .next t ∧
      t = succeeded (counted (2 * n - 2))
        { s with
          tree := t.tree, ndist := BitVec.ofNat 9 n
          treeInfo := { root := BitVec.ofNat 9 (2 * n - 2), nodes := BitVec.ofNat 10 (2 * n - 1), rootLeaf := false }
          status := { s.status with treeValid := true } } ∧
      BuiltTree s.freq t.tree ∧
      treeShape t = some sh ∧ sh.nodes = 2 * n - 1 ∧
      (sh.paths.map (fun p => p.1.toNat)).Perm (presentSymbols s.freq) ∧
      (∀ i, 2 * n - 1 ≤ i → storeGet t.tree i = storeGet s.tree i) ∧
      weightAt t.tree (2 * n - 2) = ((presentSymbols s.freq).map (fun a => (freqGet s.freq a).toNat)).sum

/-- 43_tree_builder.md R260, R261: extract_min takes the entry of least (WEIGHT, SEQ) and leaves the others. -/
def Obligations.ExtractMinTakesTheLeast : Prop :=
  ∀ (q rest : List QEntry) (m : QEntry), extractMin q = some (m, rest) →
    q.Perm (m :: rest) ∧
    ∀ e ∈ rest, m.weight.toNat < e.weight.toNat ∨ (m.weight = e.weight ∧ m.seq.toNat ≤ e.seq.toNat)

/-- 43_tree_builder.md R260, 44_code_table.md R280, 47_decoder.md R343: BUILD below two symbols ends with DEGENERATE,
NDIST written and TREE and TREE_INFO unchanged; GENCODE and WALK on a leaf root end with DEGENERATE, and GENCODE leaves
CODE unchanged and CODE_VALID 0. -/
def Obligations.DegenerateInputs : Prop :=
  ∀ s : State, Started s → 3 ≤ s.turn →
    (s.status.freqValid = true → distinctCount s.freq < 2 →
      exec .build s =
        .next (failed .degenerate
          { s with
            ndist := BitVec.ofNat 9 (distinctCount s.freq), status := { s.status with treeValid := false } })) ∧
    (s.status.treeValid = true → (∃ sym w, storeGet s.tree s.treeInfo.root.toNat = some (.leaf sym w)) →
      exec .gencode s = .next (failed .degenerate { s with status := { s.status with codeValid := false } }) ∧
      exec .walk s = .next (failed .degenerate s))

/-- 44_code_table.md R280, R281: GENCODE on a tree of at least two leaves writes every symbol's entry: its last leaf's
path, the root branch in bit 0, or the cleared entry; RESULT is the number of leaves. -/
def Obligations.GencodeWritesThePaths : Prop :=
  ∀ (s : State) (sh : Shape), Started s → FullTurn s → s.status.treeValid = true →
    treeShape s = some sh → sh.single = false → sh.nodes ≤ 511 →
    ∃ cd : Store CodeEntry,
      exec .gencode s =
        .next (succeeded (counted sh.leaves) { s with code := cd, status := { s.status with codeValid := true } }) ∧
      ∀ a : Byte, codeGet cd a.toNat = sh.entry a

/-- 44_code_table.md R283: after GENCODE on any tree of at least two leaves every leaf's symbol has a code of at least
one bit, and no code is a prefix of another symbol's code. The core steps are granted by the hypothesis (R16's weak
fairness, notes/assumptions/3.md). -/
def Obligations.CodesArePrefixFree : Prop :=
  ∀ (s : State) (sh : Shape), Started s → FullTurn s → s.status.treeValid = true →
    treeShape s = some sh → sh.single = false → sh.nodes ≤ 511 →
    ∃ t : State,
      exec .gencode s = .next t ∧ t.status.codeValid = true ∧
      (∀ p ∈ sh.paths, 1 ≤ (codeGet t.code p.1.toNat).len.toNat) ∧
      ∀ a b : Byte, a ≠ b →
        (codeGet t.code a.toNat).len ≠ 0 → (codeGet t.code b.toNat).len ≠ 0 →
        ¬ codeBits (codeGet t.code a.toNat) <+: codeBits (codeGet t.code b.toNat)

/-- 44_code_table.md R282: EMIT writes the code of every byte of BUF in order, BITS[0] first; RESULT is the number of
bits mod 2^32. -/
def Obligations.EmitWritesTheCodes : Prop :=
  ∀ s : State, Started s → FullTurn s → PackerWf s.wr → s.status.bufValid = true → s.status.codeValid = true →
    (∀ b ∈ bufBytes s s.inLen.toNat, (codeGet s.code b.toNat).len ≠ 0) →
    let bits := (bufBytes s s.inLen.toNat).flatMap (fun b => codeBits (codeGet s.code b.toNat))
    exec .emit s = .next (succeeded (counted bits.length) (packed bits s))

/-- 44_code_table.md R282: at a byte without a code EMIT ends with NO_CODE; the codes before it stay written. -/
def Obligations.EmitStopsWithoutACode : Prop :=
  ∀ (s : State) (pre post : List Byte) (b : Byte), Started s → FullTurn s → PackerWf s.wr →
    s.status.bufValid = true → s.status.codeValid = true →
    bufBytes s s.inLen.toNat = pre ++ b :: post →
    (∀ c ∈ pre, (codeGet s.code c.toNat).len ≠ 0) → (codeGet s.code b.toNat).len = 0 →
    exec .emit s =
      .next (failed .noCode (packed (pre.flatMap (fun c => codeBits (codeGet s.code c.toNat))) s))

/-! ### SERIALIZE, DESERIALIZE and WALK -/

/-- 45_tree_serializer.md R300 with 30_encoding.md R145: SERIALIZE writes the tree's preorder bits; RESULT is their
number, 10L - 1. -/
def Obligations.SerializeWritesTheTree : Prop :=
  ∀ (s : State) (sh : Shape), Started s → FullTurn s → PackerWf s.wr → s.status.treeValid = true →
    treeShape s = some sh → sh.nodes ≤ 511 →
    exec .serialize s = .next (succeeded (counted (10 * sh.leaves - 1)) (packed sh.bits s))

/-- 45_tree_serializer.md R301: DESERIALIZE rebuilds the tree whose serialized form the unpacker's genuine bits begin
with, from index 0 and with every left child at the next index (preorder), weights 0, and reads no further; every
entry beyond it keeps its value. -/
def Obligations.DeserializeRebuildsTheTree : Prop :=
  ∀ (s : State) (sh : Shape) (more : List Bool), Started s → FullTurn s → s.rd.eos = false → s.rd.fill.toNat ≤ 8 →
    genuineBits s = some (sh.bits ++ more) → sh.nodes ≤ 511 →
    ∃ t : State,
      exec .deserialize s = .next t ∧
      t = succeeded (counted sh.nodes)
        { s with
          rd := t.rd, la := t.la, inp := t.inp, tree := t.tree
          treeInfo := { root := 0, nodes := BitVec.ofNat 10 sh.nodes, rootLeaf := sh.single }
          status := { s.status with treeValid := true } } ∧
      treeShape t = some sh ∧ (∀ i n, storeGet t.tree i = some n → i < sh.nodes → nodeWeight n = 0) ∧
      (∀ i l r w, i < sh.nodes → storeGet t.tree i = some (.internal l r w) → l.toNat = i + 1) ∧
      (∀ i, sh.nodes ≤ i → storeGet t.tree i = storeGet s.tree i) ∧ genuineBits t = some more

/-- 45_tree_serializer.md R301 (with 60_exceptions.md R374): where the genuine bits are those of nodes that do not
complete a tree, and then stop, or stop inside a leaf's symbol, DESERIALIZE ends with TRUNCATED, NODES the number of
nodes allocated, a leaf cut short counted; where 511 nodes do not complete a tree and another tag bit follows, 0 or 1,
with TREE_OVERFLOW, 511 nodes allocated and no bit read beyond that tag; TREE_VALID is 0, ROOT 0 and ROOT_LEAF 0. With
RD_EOS = 1 the genuine bits are those held (41_bitio.md R204): they are read, and no token is consumed (20_memory.md R88),
though the limit may peek at one; with none held it ends with TRUNCATED at once. -/
def Obligations.DeserializeErrors : Prop :=
  ∀ (s : State), Started s → FullTurn s →
    (∀ (ns : List (Option Byte)) (cut : List Bool), s.rd.fill.toNat ≤ 8 →
      unfinished 1 ns = true → genuineBits s = some (nodesBits ns ++ cut) →
      (cut = [] ∧ ns.length ≤ 511) ∨ (cut.head? = some false ∧ cut.length < 9 ∧ ns.length ≤ 510) →
      ∃ t : State,
        exec .deserialize s = .next t ∧
        t = failed .truncated
          { s with
            rd := t.rd, la := t.la, inp := t.inp, tree := t.tree
            treeInfo :=
              { root := 0, nodes := BitVec.ofNat 10 (ns.length + if cut = [] then 0 else 1), rootLeaf := false }
            status := { s.status with treeValid := false } } ∧
        (t.rd.eos = true ∨ t.la = some .eos) ∧
        (s.rd.eos = true →
          t.rd = { s.rd with fill := s.rd.fill - BitVec.ofNat 4 (nodesBits ns ++ cut).length } ∧ ahead t = ahead s ∧
          (s.unpk.limitEn = false → t.la = s.la ∧ t.inp = s.inp))) ∧
    (∀ (ns : List (Option Byte)) (tag : Bool) (more : List Bool), s.rd.eos = false → s.rd.fill.toNat ≤ 8 →
      unfinished 1 ns = true → ns.length = 511 → genuineBits s = some (nodesBits ns ++ tag :: more) →
      ∃ t : State,
        exec .deserialize s = .next t ∧
        t = failed .treeOverflow
          { s with
            rd := t.rd, la := t.la, inp := t.inp, tree := t.tree
            treeInfo := { root := 0, nodes := 511, rootLeaf := false }
            status := { s.status with treeValid := false } } ∧
        genuineBits t = some more) ∧
    (s.rd.eos = true → s.rd.fill = 0 →
      exec .deserialize s =
        .next (failed .truncated
          { s with
            treeInfo := { root := 0, nodes := 0, rootLeaf := false }
            status := { s.status with treeValid := false } }))

/-- 45_tree_serializer.md R303: SERIALIZE from an empty packer, FLUSH, and DESERIALIZE of the bytes by an empty
unpacker give a tree of the same shape and symbols, its root at index 0. -/
def Obligations.TreeRoundTrip : Prop :=
  ∀ (s : State) (sh : Shape) (k : Nat), Started s → FullTurn s → s.wr = { acc := 0, fill := 0 } →
    s.status.treeValid = true → treeShape s = some sh → sh.nodes ≤ 511 → 4 ≤ k →
    ∃ (t t2 : State) (y : List Byte),
      exec .serialize s = .next t ∧ exec .flush { startCommand t with turn := k } = .next t2 ∧
      t2.out = s.out ++ outBytes y ∧
      ∀ (u : State) (rest : List InTok),
        Started u → FullTurn u → u.rd.fill = 0 → u.rd.eos = false → u.unpk.limitEn = false →
        ahead u = inBytes y ++ .eos :: rest →
        ∃ v : State,
          exec .deserialize u = .next v ∧ busy v = false ∧ v.status.error = false ∧ v.status.treeValid = true ∧
          treeShape v = some sh ∧
          v.treeInfo = { root := 0, nodes := BitVec.ofNat 10 sh.nodes, rootLeaf := sh.single }

/-- 47_decoder.md R343: WALK on genuine bits that are a sequence of leaf paths emits those leaves' symbols and returns
their number; with RD_EOS = 1 it returns 0 at once and reads nothing (R343, 20_memory.md R88; notes/assumptions/19.md,
DEDUCED). -/
def Obligations.WalkEmitsTheSymbols : Prop :=
  ∀ (s : State) (sh : Shape), Started s → FullTurn s → s.status.treeValid = true →
    treeShape s = some sh → sh.single = false → sh.nodes ≤ 511 →
    (∀ ys : List (Byte × List Bool), (∀ y ∈ ys, y ∈ sh.paths) → s.rd.eos = false → s.rd.fill.toNat ≤ 8 →
      genuineBits s = some (ys.flatMap Prod.snd) →
      ∃ t : State,
        exec .walk s = .next t ∧
        t = succeeded (counted ys.length)
          { s with rd := t.rd, la := t.la, inp := t.inp, out := s.out ++ outBytes (ys.map Prod.fst) } ∧
        (t.rd.eos = true ∨ t.la = some .eos)) ∧
    (s.rd.eos = true →
      exec .walk s = .next (succeeded (counted 0) s))

/-- 47_decoder.md R343, R344: genuine bits that stop inside a leaf path end WALK with TRUNCATED; the symbols before it
stay in OUT. -/
def Obligations.WalkTruncates : Prop :=
  ∀ (s : State) (sh : Shape) (ys : List (Byte × List Bool)) (p : Byte × List Bool) (q : List Bool),
    Started s → FullTurn s → s.status.treeValid = true →
    treeShape s = some sh → sh.single = false → sh.nodes ≤ 511 → (∀ y ∈ ys, y ∈ sh.paths) → p ∈ sh.paths →
    q <+: p.2 → q ≠ p.2 → q ≠ [] → s.rd.eos = false → s.rd.fill.toNat ≤ 8 →
    genuineBits s = some (ys.flatMap Prod.snd ++ q) →
    ∃ t : State,
      exec .walk s = .next t ∧
      t = failed .truncated
        { s with rd := t.rd, la := t.la, inp := t.inp, out := s.out ++ outBytes (ys.map Prod.fst) }

/-! ### ENCODE -/

/-- 46_encoder.md R320, R321, R322: an input of fewer than 8 bytes gives the raw frame, whatever its symbols; BUF holds
the input and FREQ its tally. -/
def Obligations.EncodeRawFrame : Prop :=
  ∀ (s : State) (x : List Byte) (rest : List InTok),
    Started s → FullTurn s → ahead s = inBytes x ++ .eos :: rest → x.length < 8 → x.length ≤ s.nMax.toNat →
    ∃ (m : Memory) (f : Store Word),
      exec .encode s =
        .next (succeeded (counted (2 + 8 * x.length))
          { s with
            buf := m, inLen := BitVec.ofNat 32 x.length, la := none, inp := rest
            freq := f, ndist := BitVec.ofNat 9 (distinctBytes x)
            mode := { tag := 0, valid := true, mb := 0 }, wr := { acc := 0, fill := 0 }
            out := s.out ++ outBytes (frameBytes (rawFrame x)) ++ [.eos]
            status := { s.status with bufValid := true, freqValid := true } }) ∧
      (∀ j, j < x.length → storeGet m j = x[j]?) ∧ (∀ j, x.length ≤ j → storeGet m j = storeGet s.buf j) ∧
      ∀ a : Byte, (freqGet f a.toNat).toNat = x.count a

/-- 46_encoder.md R320, R321, R323: at least 8 equal bytes give the single-symbol frame, T = 42; BUF holds the input and
FREQ its tally. -/
def Obligations.EncodeSingleFrame : Prop :=
  ∀ (s : State) (sym : Byte) (c : Nat) (rest : List InTok),
    Started s → FullTurn s → ahead s = inBytes (List.replicate c sym) ++ .eos :: rest → 8 ≤ c → c ≤ s.nMax.toNat →
    ∃ (m : Memory) (f : Store Word),
      exec .encode s =
        .next (succeeded (counted 42)
          { s with
            buf := m, inLen := BitVec.ofNat 32 c, la := none, inp := rest, freq := f, ndist := 1
            mode := { tag := 1, valid := true, mb := 0 }, wr := { acc := 0, fill := 0 }
            out := s.out ++ outBytes (frameBytes (singleFrame sym c)) ++ [.eos]
            status := { s.status with bufValid := true, freqValid := true } }) ∧
      (∀ j, j < c → storeGet m j = some sym) ∧ (∀ j, c ≤ j → storeGet m j = storeGet s.buf j) ∧
      ∀ a : Byte, (freqGet f a.toNat).toNat = if a = sym then c else 0

/-- 46_encoder.md R320, R321, R324, R325: at least 8 bytes of at least two symbols give the Huffman frame of the tree
that BUILD makes of their tally, with one leaf for each symbol that occurs; TREE and CODE hold that tree and its codes,
BUF holds the input and FREQ its tally. -/
def Obligations.EncodeHuffmanFrame : Prop :=
  ∀ (s : State) (x : List Byte) (rest : List InTok),
    Started s → FullTurn s → ahead s = inBytes x ++ .eos :: rest → 8 ≤ x.length → x.length ≤ s.nMax.toNat →
    2 ≤ distinctBytes x →
    ∃ (sh : Shape) (m : Memory) (f : Store Word) (tr : Store Node) (cd : Store CodeEntry),
      exec .encode s =
        .next (succeeded (counted (frameTotal sh x))
          { s with
            buf := m, inLen := BitVec.ofNat 32 x.length, la := none, inp := rest
            freq := f, ndist := BitVec.ofNat 9 (distinctBytes x), tree := tr, code := cd
            treeInfo :=
              { root := BitVec.ofNat 9 (2 * distinctBytes x - 2)
                nodes := BitVec.ofNat 10 (2 * distinctBytes x - 1), rootLeaf := false }
            mode := { tag := 2, valid := true, mb := BitVec.ofNat 4 ((frameTotal sh x - 1) % 8 + 1) }
            wr := { acc := 0, fill := 0 }
            out := s.out ++ outBytes (frameBytes (huffmanFrame sh x)) ++ [.eos]
            status :=
              { s.status with bufValid := true, freqValid := true, treeValid := true, codeValid := true } }) ∧
      shapeOf Config.nodeMax tr (2 * distinctBytes x - 2) = some sh ∧ BuiltTree f tr ∧
      (sh.paths.map Prod.fst).Perm x.dedup ∧ (∀ a : Byte, codeGet cd a.toNat = sh.entry a) ∧
      (∀ j, j < x.length → storeGet m j = x[j]?) ∧ (∀ j, x.length ≤ j → storeGet m j = storeGet s.buf j) ∧
      ∀ a : Byte, (freqGet f a.toNat).toNat = x.count a

/-- 46_encoder.md R320 with 42_frequency.md R240 and 60_exceptions.md R371: an input of more than N_MAX bytes ends
ENCODE with INPUT_OVERFLOW; its OUT stream is Abort alone, the packer emptied and MODE 0; BUF holds the first N_MAX
bytes, and FREQ and NDIST keep their values. -/
def Obligations.EncodeOverflows : Prop :=
  ∀ (s : State) (x : List Byte) (rest : List InTok),
    Started s → FullTurn s → ahead s = inBytes x ++ .eos :: rest → s.nMax.toNat < x.length →
    ∃ m : Memory,
      exec .encode s =
        .next (failed .inputOverflow
          { s with
            buf := m, inLen := s.nMax, la := none, inp := rest
            mode := { tag := 0, valid := false, mb := 0 }, wr := { acc := 0, fill := 0 }
            out := s.out ++ [.abort]
            status := { s.status with bufValid := false } }) ∧
      (∀ j, j < s.nMax.toNat → storeGet m j = x[j]?) ∧ (∀ j, s.nMax.toNat ≤ j → storeGet m j = storeGet s.buf j)

/-! ### DECODE -/

/-- 47_decoder.md R345: a stream whose first two bits are tag 0 decodes to the whole bytes of the bits after them; a
partial byte is padding. -/
def Obligations.DecodeRawFrame : Prop :=
  ∀ (s : State) (x : List Byte) (rest : List InTok) (bits : List Bool) (last : Byte),
    Started s → FullTurn s → ahead s = inBytes x ++ .eos :: rest → byteBits x = [false, false] ++ bits →
    x.getLast? = some last →
    exec .decode s =
      .next (succeeded (counted (wholeBytes bits).length)
        { s with
          rd := { acc := last, fill := 0, eos := true }, unpk := { limitEn := false, limitMb := 8 }
          mode := { tag := 0, valid := true, mb := 0 }, la := none, inp := rest
          out := s.out ++ outBytes (wholeBytes bits) ++ [.eos] })

/-- 47_decoder.md R345: a stream that begins with tag 1, a symbol and a 32-bit count decodes to the symbol that many
times; what follows is drained and ignored. -/
def Obligations.DecodeSingleFrame : Prop :=
  ∀ (s : State) (x : List Byte) (rest : List InTok) (sym : Byte) (c : Word) (more : List Bool),
    Started s → FullTurn s → ahead s = inBytes x ++ .eos :: rest →
    byteBits x = [true, false] ++ bitsOf 8 sym ++ bitsOf 32 c ++ more →
    ∃ acc : Byte,
      exec .decode s =
        .next (succeeded (some c)
          { s with
            rd := { acc := acc, fill := 6, eos := true }, unpk := { limitEn := false, limitMb := 8 }
            mode := { tag := 1, valid := true, mb := 0 }, la := none, inp := rest
            out := s.out ++ List.replicate c.toNat (.byte sym) ++ [.eos] })

/-- 47_decoder.md R345 with R341: a stream of tag 2, a meaningful-bit field, a serialized tree of at least two leaves and
leaf paths up to its last genuine bit decodes to those leaves' symbols; TREE holds that tree, its root at index 0. -/
def Obligations.DecodeHuffmanFrame : Prop :=
  ∀ (s : State) (x : List Byte) (rest : List InTok) (f : BitVec 3) (sh : Shape) (ys : List (Byte × List Bool)),
    Started s → FullTurn s → ahead s = inBytes x ++ .eos :: rest →
    (byteBits x).take 5 = [false, true] ++ bitsOf 3 f →
    (limitedBits (f.toNat + 1) x).drop 5 = sh.bits ++ ys.flatMap Prod.snd →
    sh.single = false → sh.nodes ≤ 511 → (∀ y ∈ ys, y ∈ sh.paths) →
    ∃ (tr : Store Node) (rd : Unpacker),
      exec .decode s =
        .next (succeeded (counted ys.length)
          { s with
            rd := rd, unpk := { limitEn := true, limitMb := BitVec.ofNat 4 (f.toNat + 1) }
            mode := { tag := 2, valid := true, mb := BitVec.ofNat 4 (f.toNat + 1) }, la := none, inp := rest
            tree := tr
            treeInfo := { root := 0, nodes := BitVec.ofNat 10 sh.nodes, rootLeaf := false }
            out := s.out ++ outBytes (ys.map Prod.fst) ++ [.eos]
            status := { s.status with treeValid := true } }) ∧
      rd.eos = true ∧ shapeOf Config.nodeMax tr 0 = some sh

/-- 47_decoder.md R345, R346, R348: the empty stream decodes to nothing with success; every malformed stream is drained
and ends with Abort: tag 3 with BAD_MODE; a single-symbol frame of fewer than 42 bits with TRUNCATED; a Huffman frame
whose tree is one leaf with DEGENERATE, whose genuine bits stop inside the tree, or inside a code after the symbols
before it are written, with TRUNCATED, and whose tree has a 512th node with TREE_OVERFLOW. -/
def Obligations.DecodeEmptyAndMalformed : Prop :=
  ∀ (s : State) (x : List Byte) (rest : List InTok),
    Started s → FullTurn s → ahead s = inBytes x ++ .eos :: rest →
    (x = [] →
      exec .decode s =
        .next (succeeded (counted 0)
          { s with
            rd := { acc := 0, fill := 0, eos := true }, unpk := { limitEn := false, limitMb := 8 }
            mode := { tag := 0, valid := false, mb := 0 }, la := none, inp := rest, out := s.out ++ [.eos] })) ∧
    (∀ bits, byteBits x = [true, true] ++ bits →
      ∃ rd : Unpacker,
        exec .decode s =
          .next (failed .badMode
            { s with
              rd := rd, unpk := { limitEn := false, limitMb := 8 }
              mode := { tag := 3, valid := true, mb := 0 }, la := none, inp := rest
              out := s.out ++ [.abort] })) ∧
    (∀ bits, byteBits x = [true, false] ++ bits → bits.length < 40 →
      ∃ rd : Unpacker,
        exec .decode s =
          .next (failed .truncated
            { s with
              rd := rd, unpk := { limitEn := false, limitMb := 8 }
              mode := { tag := 1, valid := true, mb := 0 }, la := none, inp := rest
              out := s.out ++ [.abort] })) ∧
    (∀ f : BitVec 3, (byteBits x).take 5 = [false, true] ++ bitsOf 3 f →
      let bits := (limitedBits (f.toNat + 1) x).drop 5
      let read : Unpacker → Store Node → TreeInfoReg → Bool → List Byte → State := fun rd tr info valid ys =>
        { s with
          rd := rd, unpk := { limitEn := true, limitMb := BitVec.ofNat 4 (f.toNat + 1) }
          mode := { tag := 2, valid := true, mb := BitVec.ofNat 4 (f.toNat + 1) }, la := none, inp := rest
          tree := tr, treeInfo := info, out := s.out ++ outBytes ys ++ [.abort]
          status := { s.status with treeValid := valid } }
      (∀ (sym : Byte) (more : List Bool), bits = false :: bitsOf 8 sym ++ more →
        ∃ (rd : Unpacker) (tr : Store Node),
          exec .decode s =
            .next (failed .degenerate (read rd tr { root := 0, nodes := 1, rootLeaf := true } true [])) ∧
          storeGet tr 0 = some (.leaf sym 0) ∧ rd.eos = true) ∧
      (∀ (ns : List (Option Byte)) (cut : List Bool), unfinished 1 ns = true → bits = nodesBits ns ++ cut →
        (cut = [] ∧ ns.length ≤ 511) ∨ (cut.head? = some false ∧ cut.length < 9 ∧ ns.length ≤ 510) →
        ∃ (rd : Unpacker) (tr : Store Node),
          exec .decode s =
            .next (failed .truncated
              (read rd tr
                { root := 0, nodes := BitVec.ofNat 10 (ns.length + if cut = [] then 0 else 1), rootLeaf := false }
                false [])) ∧
          rd.eos = true) ∧
      (∀ (ns : List (Option Byte)) (tag : Bool) (more : List Bool),
        unfinished 1 ns = true → ns.length = 511 → bits = nodesBits ns ++ tag :: more →
        ∃ (rd : Unpacker) (tr : Store Node),
          exec .decode s =
            .next (failed .treeOverflow (read rd tr { root := 0, nodes := 511, rootLeaf := false } false [])) ∧
          rd.eos = true) ∧
      (∀ (sh : Shape) (ys : List (Byte × List Bool)) (p : Byte × List Bool) (q : List Bool),
        sh.single = false → sh.nodes ≤ 511 → (∀ y ∈ ys, y ∈ sh.paths) → p ∈ sh.paths → q <+: p.2 → q ≠ p.2 → q ≠ [] →
        bits = sh.bits ++ ys.flatMap Prod.snd ++ q →
        ∃ (rd : Unpacker) (tr : Store Node),
          exec .decode s =
            .next (failed .truncated
              (read rd tr { root := 0, nodes := BitVec.ofNat 10 sh.nodes, rootLeaf := false } true
                (ys.map Prod.fst))) ∧
          shapeOf Config.nodeMax tr 0 = some sh ∧ rd.eos = true))

/-- 47_decoder.md R342: every DECODE consumes its input stream through its End token and no further, whatever the
outcome. The core steps are granted by the hypothesis (R16's weak fairness, notes/assumptions/3.md). -/
def Obligations.DecodeConsumesItsStream : Prop :=
  ∀ (s : State) (x : List Byte) (rest : List InTok),
    Started s → FullTurn s → ahead s = inBytes x ++ .eos :: rest →
    ∃ t : State, exec .decode s = .next t ∧ busy t = false ∧ t.status.done = true ∧ t.la = none ∧ t.inp = rest

/-- 47_decoder.md R349: DECODE of what ENCODE writes gives the input back, for every input of at most N_MAX bytes, in
all three modes. The core steps are granted by the hypotheses (R16's weak fairness, notes/assumptions/3.md). -/
def Obligations.RoundTrip : Prop :=
  ∀ (s : State) (x : List Byte) (rest : List InTok),
    Started s → FullTurn s → ahead s = inBytes x ++ .eos :: rest → x.length ≤ s.nMax.toNat →
    ∃ (t : State) (y : List Byte),
      exec .encode s = .next t ∧ busy t = false ∧ t.status.error = false ∧
      t.out = s.out ++ outBytes y ++ [.eos] ∧
      ∀ (u : State) (more : List InTok), Started u → FullTurn u → ahead u = inBytes y ++ .eos :: more →
        ∃ v : State,
          exec .decode u = .next v ∧ busy v = false ∧ v.status.error = false ∧
          v.out = u.out ++ outBytes x ++ [.eos] ∧ v.result = BitVec.ofNat 32 x.length

/-! ### Invariants and whole-machine rules -/

/-- 10_state.md R61: the invariant holds after reset. -/
def Obligations.InvAtReset : Prop := Inv State.reset

/-- 10_state.md R35, R41 to R50, R53 to R56; 40_command.md R172: from every state that meets the invariant, a step
gives a state that meets it: memories in canonical form and within their sizes, registers within their ranges, the
packer's bits above its fill 0, STATUS consistent, and with TREE_VALID = 1 a complete tree of at most 511 nodes in TREE,
its root at ROOT, NODES its number of nodes and ROOT_LEAF whether it is a leaf (R58); so the statements that take such a
tree as given hold in every state of the invariant in which 40_command.md R176 admits the command. -/
def Obligations.InvKeptByStep : Prop :=
  ∀ s t : State, Inv s → step s = .next t → Inv t

/-- 00_scope.md R16, R13, 20_memory.md R86, R87: a core step makes at most one stream transfer, takes tokens only from
the front of IN and appends only at the back of OUT. The core has no step exactly when it is idle or holds: the task at
its head needs a token and none is ahead (41_bitio.md R204, R207; 70_reset_and_hazards.md R410); a turn then leaves the
command as it is. A core step that does not hold is the same whether a token is pushed at the back of IN before it or
after it (20_memory.md R93, R98). A turn of m + n core steps is a turn of m and, the command still running, one of n: it
goes on where it stopped, and once the command has completed the rest of a turn does nothing (notes/assumptions/3.md for
turns). The host pushes at the back of IN and pops the front of OUT, and no bus access of its own moves a token of either
port (an empty OUT answers popEmpty, notes/assumptions/8.md). -/
def Obligations.OneTransferPerCoreStep : Prop :=
  (∀ (c : Command) (s : State),
    (∀ t : State, coreStep c s = some t →
      (t.inp = s.inp ∧ t.out = s.out) ∨
      (t.out = s.out ∧ ∃ tok, s.inp = tok :: t.inp) ∨
      (t.inp = s.inp ∧ ∃ tok, t.out = s.out ++ [tok])) ∧
    (coreStep c s = none ↔ s.seq = .idle ∨ Holds s) ∧
    (∀ (t : State) (tok : InTok), coreStep c s = some t →
      coreStep c { s with inp := s.inp ++ [tok] } = some { t with inp := t.inp ++ [tok] })) ∧
  (∀ (i : Instr) (s : State), Holds s → exec i s = .next { s with turn := 0 }) ∧
  (∀ (i : Instr) (s t : State) (m n : Nat), exec i { s with turn := m } = .next t →
    (busy t = true → exec i { s with turn := m + n } = exec i { t with turn := n }) ∧
    (busy t = false → exec i { s with turn := m + n } = .next t)) ∧
  (∀ (s : State) (tok : InTok), hostAct (.push tok) s = (.pushed, { s with inp := s.inp ++ [tok] })) ∧
  (∀ (s : State) (tok : OutTok) (rest : List OutTok), s.out = tok :: rest →
    hostAct .pop s = (.popped tok, { s with out := rest })) ∧
  (∀ s : State, s.out = [] → hostAct .pop s = (.popEmpty, s)) ∧
  (∀ (s : State) (access : Access) (a : Addr) (v : Word),
    (busRead access a s).2.inp = s.inp ∧ (busRead access a s).2.out = s.out ∧
    (busWrite access a v s).2.inp = s.inp ∧ (busWrite access a v s).2.out = s.out)

/-- 60_exceptions.md R373, for every turn of a command, from its start or from any point of it: a turn of ENCODE or
DECODE appends Byte tokens and then, if the end token was to come before it and is not after it, exactly one End, or
Abort if the command ends in error; a turn after the end token appends nothing; that one token is to come at the start,
that it is appended by the completion, and whether it was Abort, is kept from turn to turn (`OneEnd`, `endToCome`,
`endsInError`). No other command's turn appends End or Abort. -/
def Obligations.EndAndAbortTokens : Prop :=
  (∀ (i : Instr) (s t : State), i = .encode ∨ i = .decode → busy s = true → Runs i s → OneEnd s →
    exec i s = .next t →
    OneEnd t ∧
    (∃ bs : List Byte,
      t.out = s.out ++ outBytes bs ++
        (if endToCome s = true ∧ endToCome t = false then [if endsInError t = true then .abort else .eos] else [])) ∧
    (endToCome s = false → t.out = s.out ∧ endToCome t = false ∧ endsInError t = endsInError s)) ∧
  (∀ s : State, Started s → OneEnd s ∧ endToCome s = true) ∧
  (∀ s : State, busy s = false → endToCome s = false ∧ endsInError s = s.status.error) ∧
  (∀ (i : Instr) (s t : State), i ≠ .encode → i ≠ .decode → Runs i s → exec i s = .next t →
    ∃ bs : List Byte, t.out = s.out ++ outBytes bs)

/-- 10_state.md R58: a validity flag changes in a command's turn only if it is the flag's producer, run alone or within
ENCODE or DECODE; in the host's turn only FREQ_VALID changes, to 1, by a write to the FREQ window while idle, and a
reset clears all four. -/
def Obligations.FlagsChangeOnlyByProducers : Prop :=
  (∀ (i : Instr) (s t : State), Runs i s → exec i s = .next t →
    (i ≠ .load → i ≠ .encode → t.status.bufValid = s.status.bufValid) ∧
    (i ≠ .count → i ≠ .encode → t.status.freqValid = s.status.freqValid) ∧
    (i ≠ .build → i ≠ .deserialize → i ≠ .encode → i ≠ .decode → t.status.treeValid = s.status.treeValid) ∧
    (i ≠ .gencode → i ≠ .encode → t.status.codeValid = s.status.codeValid)) ∧
  (∀ (a : HostAct) (s : State),
    let t := (hostAct a s).2
    let resets := a = .powerOn ∨ ∃ v : Word, a = .write .word 0x004 v ∧ v.getLsbD 0 = true
    let writesFreq := busy s = false ∧
      ∃ (addr : Addr) (v : Word),
        a = .write .word addr v ∧ addr.toNat % 4 = 0 ∧ 0x0400 ≤ addr.toNat ∧ addr.toNat < 0x0800
    (resets → t.status.bufValid = false ∧ t.status.freqValid = false ∧ t.status.treeValid = false ∧
      t.status.codeValid = false) ∧
    (writesFreq → t.status.freqValid = true) ∧
    (¬ resets → ¬ writesFreq → t.status.freqValid = s.status.freqValid) ∧
    (¬ resets → t.status.bufValid = s.status.bufValid ∧ t.status.treeValid = s.status.treeValid ∧
      t.status.codeValid = s.status.codeValid))

/-! ### Frames -/

/-- What NOP, UNPACK_RESET, PACK_BIT, PACK_BYTE, PACK_BITS, FLUSH, EMIT and SERIALIZE leave unchanged (40_command.md
R177, R178; 41_bitio.md R210 to R213; 44_code_table.md R282; 45_tree_serializer.md R300): all four memories, IN and the
lookahead, and every register but those named; NOP and UNPACK_RESET leave RESULT. -/
def Obligations.PackerCommandsFrame : Prop :=
  (∀ s t : State, Runs .nop s → exec .nop s = .next t →
    Runs .nop t ∧ t = { sharedFrame s t with result := t.result }) ∧
  (∀ s t : State, Runs .unpackReset s → exec .unpackReset s = .next t →
    Runs .unpackReset t ∧ t = { sharedFrame s t with result := t.result, rd := t.rd, unpk := t.unpk }) ∧
  (∀ (i : Instr) (s t : State), i = .nop ∨ i = .unpackReset → Started s → exec i s = .next t → t.result = s.result) ∧
  (∀ (i : Instr) (s t : State),
    i ∈ [.packBit, .packByte, .flush, .emit, .serialize] ∨ (∃ n, i = .packBits n) → Runs i s → exec i s = .next t →
    Runs i t ∧ t = { sharedFrame s t with result := t.result, wr := t.wr, out := t.out })

/-- What UNPACK_BIT, UNPACK_BYTE and WALK leave unchanged (41_bitio.md R214, R215; 47_decoder.md R343): all four
memories, the packer, the limit and every register but RESULT and the unpacker's; only WALK writes OUT. -/
def Obligations.UnpackerCommandsFrame : Prop :=
  (∀ (i : Instr) (s t : State), i = .unpackBit ∨ i = .unpackByte → Runs i s → exec i s = .next t →
    Runs i t ∧ t = { sharedFrame s t with result := t.result, rd := t.rd, la := t.la, inp := t.inp }) ∧
  (∀ s t : State, Runs .walk s → exec .walk s = .next t →
    Runs .walk t ∧
      t = { sharedFrame s t with result := t.result, rd := t.rd, la := t.la, inp := t.inp, out := t.out })

/-- What LOAD, COUNT, BUILD and GENCODE leave unchanged (42_frequency.md R240, R241; 43_tree_builder.md R260;
44_code_table.md R280): OUT, the packer, the unpacker, and every memory but the one the command makes; LOAD stores only
below IN_LEN, and a completed BUILD only below NODES. -/
def Obligations.TableCommandsFrame : Prop :=
  (∀ s t : State, Runs .load s → exec .load s = .next t →
    Runs .load t ∧
      t = { sharedFrame s t with
            result := t.result, buf := t.buf, inLen := t.inLen, la := t.la, inp := t.inp
            status := { (sharedFrame s t).status with bufValid := t.status.bufValid } }) ∧
  (∀ s t : State, Started s → exec .load s = .next t → 2 ≤ s.turn →
    ∀ j, t.inLen.toNat ≤ j → storeGet t.buf j = storeGet s.buf j) ∧
  (∀ s t : State, Runs .count s → exec .count s = .next t →
    Runs .count t ∧
      t = { sharedFrame s t with
            result := t.result, freq := t.freq, ndist := t.ndist
            status := { (sharedFrame s t).status with freqValid := t.status.freqValid } }) ∧
  (∀ s t : State, Runs .build s → exec .build s = .next t →
    Runs .build t ∧
      t = { sharedFrame s t with
            result := t.result, tree := t.tree, ndist := t.ndist, treeInfo := t.treeInfo
            status := { (sharedFrame s t).status with treeValid := t.status.treeValid } }) ∧
  (∀ s t : State, Runs .gencode s → exec .gencode s = .next t →
    Runs .gencode t ∧
      t = { sharedFrame s t with
            result := t.result, code := t.code
            status := { (sharedFrame s t).status with codeValid := t.status.codeValid } }) ∧
  (∀ s t : State, Started s → exec .build s = .next t → busy t = false →
    ∀ j, t.treeInfo.nodes.toNat ≤ j → storeGet t.tree j = storeGet s.tree j)

/-- What DESERIALIZE, ENCODE and DECODE leave unchanged (45_tree_serializer.md R301; 46_encoder.md R320; 47_decoder.md
R345): DESERIALIZE, DECODE and a completed ENCODE write TREE only below NODES, and ENCODE writes BUF only below IN_LEN;
DESERIALIZE writes no OUT; ENCODE does not touch the unpacker; DECODE does not touch the packer, BUF, FREQ or CODE.
CTRL, CMD, ARG and N_MAX are never written. -/
def Obligations.CodecCommandsFrame : Prop :=
  (∀ s t : State, Runs .deserialize s → exec .deserialize s = .next t →
    Runs .deserialize t ∧
      t = { sharedFrame s t with
            result := t.result, rd := t.rd, la := t.la, inp := t.inp, tree := t.tree, treeInfo := t.treeInfo
            status := { (sharedFrame s t).status with treeValid := t.status.treeValid } }) ∧
  (∀ s t : State, Started s → exec .deserialize s = .next t → 2 ≤ s.turn →
    ∀ j, t.treeInfo.nodes.toNat ≤ j → storeGet t.tree j = storeGet s.tree j) ∧
  (∀ s t : State, Runs .encode s → exec .encode s = .next t →
    Runs .encode t ∧
      t = { sharedFrame s t with
            result := t.result, wr := t.wr, mode := t.mode, buf := t.buf, inLen := t.inLen, la := t.la, inp := t.inp
            freq := t.freq, ndist := t.ndist, tree := t.tree, treeInfo := t.treeInfo, code := t.code, out := t.out
            status :=
              { (sharedFrame s t).status with
                bufValid := t.status.bufValid, freqValid := t.status.freqValid, treeValid := t.status.treeValid
                codeValid := t.status.codeValid } }) ∧
  (∀ s t : State, Runs .decode s → exec .decode s = .next t →
    Runs .decode t ∧
      t = { sharedFrame s t with
            result := t.result, rd := t.rd, la := t.la, inp := t.inp, unpk := t.unpk, mode := t.mode, tree := t.tree
            treeInfo := t.treeInfo, out := t.out
            status := { (sharedFrame s t).status with treeValid := t.status.treeValid } }) ∧
  (∀ s t : State, Started s → exec .encode s = .next t → 3 ≤ s.turn →
    ∀ j, t.inLen.toNat ≤ j → storeGet t.buf j = storeGet s.buf j) ∧
  (∀ s t : State, Started s → exec .encode s = .next t → busy t = false →
    ∀ j, t.treeInfo.nodes.toNat ≤ j → storeGet t.tree j = storeGet s.tree j) ∧
  (∀ s t : State, Started s → exec .decode s = .next t →
    ∀ j, t.treeInfo.nodes.toNat ≤ j → storeGet t.tree j = storeGet s.tree j)
end

