-- ==== Sys2Proof/Laws/State.lean ====
section
/-!
SUPPORT. Laws/State.lean: beside State, one lemma per field per update, so that no later proof unfolds a record
update; the task list's update has a lemma for each shape of the sequencer.
-/

namespace Sys2Proof.Machine

variable (s : State)

/-! `outWrite` -/

@[simp] theorem outWrite_nMax (t : OutTok) : (outWrite t s).nMax = s.nMax := rfl
@[simp] theorem outWrite_ctrl (t : OutTok) : (outWrite t s).ctrl = s.ctrl := rfl
@[simp] theorem outWrite_status (t : OutTok) : (outWrite t s).status = s.status := rfl
@[simp] theorem outWrite_irqPend (t : OutTok) : (outWrite t s).irqPend = s.irqPend := rfl
@[simp] theorem outWrite_cmd (t : OutTok) : (outWrite t s).cmd = s.cmd := rfl
@[simp] theorem outWrite_arg (t : OutTok) : (outWrite t s).arg = s.arg := rfl
@[simp] theorem outWrite_result (t : OutTok) : (outWrite t s).result = s.result := rfl
@[simp] theorem outWrite_inLen (t : OutTok) : (outWrite t s).inLen = s.inLen := rfl
@[simp] theorem outWrite_ndist (t : OutTok) : (outWrite t s).ndist = s.ndist := rfl
@[simp] theorem outWrite_mode (t : OutTok) : (outWrite t s).mode = s.mode := rfl
@[simp] theorem outWrite_unpk (t : OutTok) : (outWrite t s).unpk = s.unpk := rfl
@[simp] theorem outWrite_treeInfo (t : OutTok) : (outWrite t s).treeInfo = s.treeInfo := rfl
@[simp] theorem outWrite_wr (t : OutTok) : (outWrite t s).wr = s.wr := rfl
@[simp] theorem outWrite_rd (t : OutTok) : (outWrite t s).rd = s.rd := rfl
@[simp] theorem outWrite_la (t : OutTok) : (outWrite t s).la = s.la := rfl
@[simp] theorem outWrite_buf (t : OutTok) : (outWrite t s).buf = s.buf := rfl
@[simp] theorem outWrite_freq (t : OutTok) : (outWrite t s).freq = s.freq := rfl
@[simp] theorem outWrite_tree (t : OutTok) : (outWrite t s).tree = s.tree := rfl
@[simp] theorem outWrite_code (t : OutTok) : (outWrite t s).code = s.code := rfl
@[simp] theorem outWrite_inp (t : OutTok) : (outWrite t s).inp = s.inp := rfl
@[simp] theorem outWrite_out (t : OutTok) : (outWrite t s).out = s.out ++ [t] := rfl
@[simp] theorem outWrite_seq (t : OutTok) : (outWrite t s).seq = s.seq := rfl
@[simp] theorem outWrite_ret (t : OutTok) : (outWrite t s).ret = s.ret := rfl
@[simp] theorem outWrite_got (t : OutTok) : (outWrite t s).got = s.got := rfl
@[simp] theorem outWrite_pushed (t : OutTok) : (outWrite t s).pushed = s.pushed := rfl
@[simp] theorem outWrite_draws (t : OutTok) : (outWrite t s).draws = s.draws := rfl
@[simp] theorem outWrite_agenda (t : OutTok) : (outWrite t s).agenda = s.agenda := rfl
@[simp] theorem outWrite_log (t : OutTok) : (outWrite t s).log = s.log := rfl
@[simp] theorem outWrite_turn (t : OutTok) : (outWrite t s).turn = s.turn := rfl

/-! `setPhase` -/

@[simp] theorem setPhase_nMax (p : Phase) : (setPhase p s).nMax = s.nMax := rfl
@[simp] theorem setPhase_ctrl (p : Phase) : (setPhase p s).ctrl = s.ctrl := rfl
@[simp] theorem setPhase_status (p : Phase) : (setPhase p s).status = { s.status with phase := p } := rfl
@[simp] theorem setPhase_irqPend (p : Phase) : (setPhase p s).irqPend = s.irqPend := rfl
@[simp] theorem setPhase_cmd (p : Phase) : (setPhase p s).cmd = s.cmd := rfl
@[simp] theorem setPhase_arg (p : Phase) : (setPhase p s).arg = s.arg := rfl
@[simp] theorem setPhase_result (p : Phase) : (setPhase p s).result = s.result := rfl
@[simp] theorem setPhase_inLen (p : Phase) : (setPhase p s).inLen = s.inLen := rfl
@[simp] theorem setPhase_ndist (p : Phase) : (setPhase p s).ndist = s.ndist := rfl
@[simp] theorem setPhase_mode (p : Phase) : (setPhase p s).mode = s.mode := rfl
@[simp] theorem setPhase_unpk (p : Phase) : (setPhase p s).unpk = s.unpk := rfl
@[simp] theorem setPhase_treeInfo (p : Phase) : (setPhase p s).treeInfo = s.treeInfo := rfl
@[simp] theorem setPhase_wr (p : Phase) : (setPhase p s).wr = s.wr := rfl
@[simp] theorem setPhase_rd (p : Phase) : (setPhase p s).rd = s.rd := rfl
@[simp] theorem setPhase_la (p : Phase) : (setPhase p s).la = s.la := rfl
@[simp] theorem setPhase_buf (p : Phase) : (setPhase p s).buf = s.buf := rfl
@[simp] theorem setPhase_freq (p : Phase) : (setPhase p s).freq = s.freq := rfl
@[simp] theorem setPhase_tree (p : Phase) : (setPhase p s).tree = s.tree := rfl
@[simp] theorem setPhase_code (p : Phase) : (setPhase p s).code = s.code := rfl
@[simp] theorem setPhase_inp (p : Phase) : (setPhase p s).inp = s.inp := rfl
@[simp] theorem setPhase_out (p : Phase) : (setPhase p s).out = s.out := rfl
@[simp] theorem setPhase_seq (p : Phase) : (setPhase p s).seq = s.seq := rfl
@[simp] theorem setPhase_ret (p : Phase) : (setPhase p s).ret = s.ret := rfl
@[simp] theorem setPhase_got (p : Phase) : (setPhase p s).got = s.got := rfl
@[simp] theorem setPhase_pushed (p : Phase) : (setPhase p s).pushed = s.pushed := rfl
@[simp] theorem setPhase_draws (p : Phase) : (setPhase p s).draws = s.draws := rfl
@[simp] theorem setPhase_agenda (p : Phase) : (setPhase p s).agenda = s.agenda := rfl
@[simp] theorem setPhase_log (p : Phase) : (setPhase p s).log = s.log := rfl
@[simp] theorem setPhase_turn (p : Phase) : (setPhase p s).turn = s.turn := rfl

/-! `setRet` -/

@[simp] theorem setRet_nMax (n : Nat) : (setRet n s).nMax = s.nMax := rfl
@[simp] theorem setRet_ctrl (n : Nat) : (setRet n s).ctrl = s.ctrl := rfl
@[simp] theorem setRet_status (n : Nat) : (setRet n s).status = s.status := rfl
@[simp] theorem setRet_irqPend (n : Nat) : (setRet n s).irqPend = s.irqPend := rfl
@[simp] theorem setRet_cmd (n : Nat) : (setRet n s).cmd = s.cmd := rfl
@[simp] theorem setRet_arg (n : Nat) : (setRet n s).arg = s.arg := rfl
@[simp] theorem setRet_result (n : Nat) : (setRet n s).result = s.result := rfl
@[simp] theorem setRet_inLen (n : Nat) : (setRet n s).inLen = s.inLen := rfl
@[simp] theorem setRet_ndist (n : Nat) : (setRet n s).ndist = s.ndist := rfl
@[simp] theorem setRet_mode (n : Nat) : (setRet n s).mode = s.mode := rfl
@[simp] theorem setRet_unpk (n : Nat) : (setRet n s).unpk = s.unpk := rfl
@[simp] theorem setRet_treeInfo (n : Nat) : (setRet n s).treeInfo = s.treeInfo := rfl
@[simp] theorem setRet_wr (n : Nat) : (setRet n s).wr = s.wr := rfl
@[simp] theorem setRet_rd (n : Nat) : (setRet n s).rd = s.rd := rfl
@[simp] theorem setRet_la (n : Nat) : (setRet n s).la = s.la := rfl
@[simp] theorem setRet_buf (n : Nat) : (setRet n s).buf = s.buf := rfl
@[simp] theorem setRet_freq (n : Nat) : (setRet n s).freq = s.freq := rfl
@[simp] theorem setRet_tree (n : Nat) : (setRet n s).tree = s.tree := rfl
@[simp] theorem setRet_code (n : Nat) : (setRet n s).code = s.code := rfl
@[simp] theorem setRet_inp (n : Nat) : (setRet n s).inp = s.inp := rfl
@[simp] theorem setRet_out (n : Nat) : (setRet n s).out = s.out := rfl
@[simp] theorem setRet_seq (n : Nat) : (setRet n s).seq = s.seq := rfl
@[simp] theorem setRet_ret (n : Nat) : (setRet n s).ret = some (BitVec.ofNat 32 n) := rfl
@[simp] theorem setRet_got (n : Nat) : (setRet n s).got = s.got := rfl
@[simp] theorem setRet_pushed (n : Nat) : (setRet n s).pushed = s.pushed := rfl
@[simp] theorem setRet_draws (n : Nat) : (setRet n s).draws = s.draws := rfl
@[simp] theorem setRet_agenda (n : Nat) : (setRet n s).agenda = s.agenda := rfl
@[simp] theorem setRet_log (n : Nat) : (setRet n s).log = s.log := rfl
@[simp] theorem setRet_turn (n : Nat) : (setRet n s).turn = s.turn := rfl

/-! `setBufValid` -/

@[simp] theorem setBufValid_nMax (b : Bool) : (setBufValid b s).nMax = s.nMax := rfl
@[simp] theorem setBufValid_ctrl (b : Bool) : (setBufValid b s).ctrl = s.ctrl := rfl
@[simp] theorem setBufValid_status (b : Bool) : (setBufValid b s).status = { s.status with bufValid := b } := rfl
@[simp] theorem setBufValid_irqPend (b : Bool) : (setBufValid b s).irqPend = s.irqPend := rfl
@[simp] theorem setBufValid_cmd (b : Bool) : (setBufValid b s).cmd = s.cmd := rfl
@[simp] theorem setBufValid_arg (b : Bool) : (setBufValid b s).arg = s.arg := rfl
@[simp] theorem setBufValid_result (b : Bool) : (setBufValid b s).result = s.result := rfl
@[simp] theorem setBufValid_inLen (b : Bool) : (setBufValid b s).inLen = s.inLen := rfl
@[simp] theorem setBufValid_ndist (b : Bool) : (setBufValid b s).ndist = s.ndist := rfl
@[simp] theorem setBufValid_mode (b : Bool) : (setBufValid b s).mode = s.mode := rfl
@[simp] theorem setBufValid_unpk (b : Bool) : (setBufValid b s).unpk = s.unpk := rfl
@[simp] theorem setBufValid_treeInfo (b : Bool) : (setBufValid b s).treeInfo = s.treeInfo := rfl
@[simp] theorem setBufValid_wr (b : Bool) : (setBufValid b s).wr = s.wr := rfl
@[simp] theorem setBufValid_rd (b : Bool) : (setBufValid b s).rd = s.rd := rfl
@[simp] theorem setBufValid_la (b : Bool) : (setBufValid b s).la = s.la := rfl
@[simp] theorem setBufValid_buf (b : Bool) : (setBufValid b s).buf = s.buf := rfl
@[simp] theorem setBufValid_freq (b : Bool) : (setBufValid b s).freq = s.freq := rfl
@[simp] theorem setBufValid_tree (b : Bool) : (setBufValid b s).tree = s.tree := rfl
@[simp] theorem setBufValid_code (b : Bool) : (setBufValid b s).code = s.code := rfl
@[simp] theorem setBufValid_inp (b : Bool) : (setBufValid b s).inp = s.inp := rfl
@[simp] theorem setBufValid_out (b : Bool) : (setBufValid b s).out = s.out := rfl
@[simp] theorem setBufValid_seq (b : Bool) : (setBufValid b s).seq = s.seq := rfl
@[simp] theorem setBufValid_ret (b : Bool) : (setBufValid b s).ret = s.ret := rfl
@[simp] theorem setBufValid_got (b : Bool) : (setBufValid b s).got = s.got := rfl
@[simp] theorem setBufValid_pushed (b : Bool) : (setBufValid b s).pushed = s.pushed := rfl
@[simp] theorem setBufValid_draws (b : Bool) : (setBufValid b s).draws = s.draws := rfl
@[simp] theorem setBufValid_agenda (b : Bool) : (setBufValid b s).agenda = s.agenda := rfl
@[simp] theorem setBufValid_log (b : Bool) : (setBufValid b s).log = s.log := rfl
@[simp] theorem setBufValid_turn (b : Bool) : (setBufValid b s).turn = s.turn := rfl

/-! `setFreqValid` -/

@[simp] theorem setFreqValid_nMax (b : Bool) : (setFreqValid b s).nMax = s.nMax := rfl
@[simp] theorem setFreqValid_ctrl (b : Bool) : (setFreqValid b s).ctrl = s.ctrl := rfl
@[simp] theorem setFreqValid_status (b : Bool) : (setFreqValid b s).status = { s.status with freqValid := b } := rfl
@[simp] theorem setFreqValid_irqPend (b : Bool) : (setFreqValid b s).irqPend = s.irqPend := rfl
@[simp] theorem setFreqValid_cmd (b : Bool) : (setFreqValid b s).cmd = s.cmd := rfl
@[simp] theorem setFreqValid_arg (b : Bool) : (setFreqValid b s).arg = s.arg := rfl
@[simp] theorem setFreqValid_result (b : Bool) : (setFreqValid b s).result = s.result := rfl
@[simp] theorem setFreqValid_inLen (b : Bool) : (setFreqValid b s).inLen = s.inLen := rfl
@[simp] theorem setFreqValid_ndist (b : Bool) : (setFreqValid b s).ndist = s.ndist := rfl
@[simp] theorem setFreqValid_mode (b : Bool) : (setFreqValid b s).mode = s.mode := rfl
@[simp] theorem setFreqValid_unpk (b : Bool) : (setFreqValid b s).unpk = s.unpk := rfl
@[simp] theorem setFreqValid_treeInfo (b : Bool) : (setFreqValid b s).treeInfo = s.treeInfo := rfl
@[simp] theorem setFreqValid_wr (b : Bool) : (setFreqValid b s).wr = s.wr := rfl
@[simp] theorem setFreqValid_rd (b : Bool) : (setFreqValid b s).rd = s.rd := rfl
@[simp] theorem setFreqValid_la (b : Bool) : (setFreqValid b s).la = s.la := rfl
@[simp] theorem setFreqValid_buf (b : Bool) : (setFreqValid b s).buf = s.buf := rfl
@[simp] theorem setFreqValid_freq (b : Bool) : (setFreqValid b s).freq = s.freq := rfl
@[simp] theorem setFreqValid_tree (b : Bool) : (setFreqValid b s).tree = s.tree := rfl
@[simp] theorem setFreqValid_code (b : Bool) : (setFreqValid b s).code = s.code := rfl
@[simp] theorem setFreqValid_inp (b : Bool) : (setFreqValid b s).inp = s.inp := rfl
@[simp] theorem setFreqValid_out (b : Bool) : (setFreqValid b s).out = s.out := rfl
@[simp] theorem setFreqValid_seq (b : Bool) : (setFreqValid b s).seq = s.seq := rfl
@[simp] theorem setFreqValid_ret (b : Bool) : (setFreqValid b s).ret = s.ret := rfl
@[simp] theorem setFreqValid_got (b : Bool) : (setFreqValid b s).got = s.got := rfl
@[simp] theorem setFreqValid_pushed (b : Bool) : (setFreqValid b s).pushed = s.pushed := rfl
@[simp] theorem setFreqValid_draws (b : Bool) : (setFreqValid b s).draws = s.draws := rfl
@[simp] theorem setFreqValid_agenda (b : Bool) : (setFreqValid b s).agenda = s.agenda := rfl
@[simp] theorem setFreqValid_log (b : Bool) : (setFreqValid b s).log = s.log := rfl
@[simp] theorem setFreqValid_turn (b : Bool) : (setFreqValid b s).turn = s.turn := rfl

/-! `setTreeValid` -/

@[simp] theorem setTreeValid_nMax (b : Bool) : (setTreeValid b s).nMax = s.nMax := rfl
@[simp] theorem setTreeValid_ctrl (b : Bool) : (setTreeValid b s).ctrl = s.ctrl := rfl
@[simp] theorem setTreeValid_status (b : Bool) : (setTreeValid b s).status = { s.status with treeValid := b } := rfl
@[simp] theorem setTreeValid_irqPend (b : Bool) : (setTreeValid b s).irqPend = s.irqPend := rfl
@[simp] theorem setTreeValid_cmd (b : Bool) : (setTreeValid b s).cmd = s.cmd := rfl
@[simp] theorem setTreeValid_arg (b : Bool) : (setTreeValid b s).arg = s.arg := rfl
@[simp] theorem setTreeValid_result (b : Bool) : (setTreeValid b s).result = s.result := rfl
@[simp] theorem setTreeValid_inLen (b : Bool) : (setTreeValid b s).inLen = s.inLen := rfl
@[simp] theorem setTreeValid_ndist (b : Bool) : (setTreeValid b s).ndist = s.ndist := rfl
@[simp] theorem setTreeValid_mode (b : Bool) : (setTreeValid b s).mode = s.mode := rfl
@[simp] theorem setTreeValid_unpk (b : Bool) : (setTreeValid b s).unpk = s.unpk := rfl
@[simp] theorem setTreeValid_treeInfo (b : Bool) : (setTreeValid b s).treeInfo = s.treeInfo := rfl
@[simp] theorem setTreeValid_wr (b : Bool) : (setTreeValid b s).wr = s.wr := rfl
@[simp] theorem setTreeValid_rd (b : Bool) : (setTreeValid b s).rd = s.rd := rfl
@[simp] theorem setTreeValid_la (b : Bool) : (setTreeValid b s).la = s.la := rfl
@[simp] theorem setTreeValid_buf (b : Bool) : (setTreeValid b s).buf = s.buf := rfl
@[simp] theorem setTreeValid_freq (b : Bool) : (setTreeValid b s).freq = s.freq := rfl
@[simp] theorem setTreeValid_tree (b : Bool) : (setTreeValid b s).tree = s.tree := rfl
@[simp] theorem setTreeValid_code (b : Bool) : (setTreeValid b s).code = s.code := rfl
@[simp] theorem setTreeValid_inp (b : Bool) : (setTreeValid b s).inp = s.inp := rfl
@[simp] theorem setTreeValid_out (b : Bool) : (setTreeValid b s).out = s.out := rfl
@[simp] theorem setTreeValid_seq (b : Bool) : (setTreeValid b s).seq = s.seq := rfl
@[simp] theorem setTreeValid_ret (b : Bool) : (setTreeValid b s).ret = s.ret := rfl
@[simp] theorem setTreeValid_got (b : Bool) : (setTreeValid b s).got = s.got := rfl
@[simp] theorem setTreeValid_pushed (b : Bool) : (setTreeValid b s).pushed = s.pushed := rfl
@[simp] theorem setTreeValid_draws (b : Bool) : (setTreeValid b s).draws = s.draws := rfl
@[simp] theorem setTreeValid_agenda (b : Bool) : (setTreeValid b s).agenda = s.agenda := rfl
@[simp] theorem setTreeValid_log (b : Bool) : (setTreeValid b s).log = s.log := rfl
@[simp] theorem setTreeValid_turn (b : Bool) : (setTreeValid b s).turn = s.turn := rfl

/-! `setCodeValid` -/

@[simp] theorem setCodeValid_nMax (b : Bool) : (setCodeValid b s).nMax = s.nMax := rfl
@[simp] theorem setCodeValid_ctrl (b : Bool) : (setCodeValid b s).ctrl = s.ctrl := rfl
@[simp] theorem setCodeValid_status (b : Bool) : (setCodeValid b s).status = { s.status with codeValid := b } := rfl
@[simp] theorem setCodeValid_irqPend (b : Bool) : (setCodeValid b s).irqPend = s.irqPend := rfl
@[simp] theorem setCodeValid_cmd (b : Bool) : (setCodeValid b s).cmd = s.cmd := rfl
@[simp] theorem setCodeValid_arg (b : Bool) : (setCodeValid b s).arg = s.arg := rfl
@[simp] theorem setCodeValid_result (b : Bool) : (setCodeValid b s).result = s.result := rfl
@[simp] theorem setCodeValid_inLen (b : Bool) : (setCodeValid b s).inLen = s.inLen := rfl
@[simp] theorem setCodeValid_ndist (b : Bool) : (setCodeValid b s).ndist = s.ndist := rfl
@[simp] theorem setCodeValid_mode (b : Bool) : (setCodeValid b s).mode = s.mode := rfl
@[simp] theorem setCodeValid_unpk (b : Bool) : (setCodeValid b s).unpk = s.unpk := rfl
@[simp] theorem setCodeValid_treeInfo (b : Bool) : (setCodeValid b s).treeInfo = s.treeInfo := rfl
@[simp] theorem setCodeValid_wr (b : Bool) : (setCodeValid b s).wr = s.wr := rfl
@[simp] theorem setCodeValid_rd (b : Bool) : (setCodeValid b s).rd = s.rd := rfl
@[simp] theorem setCodeValid_la (b : Bool) : (setCodeValid b s).la = s.la := rfl
@[simp] theorem setCodeValid_buf (b : Bool) : (setCodeValid b s).buf = s.buf := rfl
@[simp] theorem setCodeValid_freq (b : Bool) : (setCodeValid b s).freq = s.freq := rfl
@[simp] theorem setCodeValid_tree (b : Bool) : (setCodeValid b s).tree = s.tree := rfl
@[simp] theorem setCodeValid_code (b : Bool) : (setCodeValid b s).code = s.code := rfl
@[simp] theorem setCodeValid_inp (b : Bool) : (setCodeValid b s).inp = s.inp := rfl
@[simp] theorem setCodeValid_out (b : Bool) : (setCodeValid b s).out = s.out := rfl
@[simp] theorem setCodeValid_seq (b : Bool) : (setCodeValid b s).seq = s.seq := rfl
@[simp] theorem setCodeValid_ret (b : Bool) : (setCodeValid b s).ret = s.ret := rfl
@[simp] theorem setCodeValid_got (b : Bool) : (setCodeValid b s).got = s.got := rfl
@[simp] theorem setCodeValid_pushed (b : Bool) : (setCodeValid b s).pushed = s.pushed := rfl
@[simp] theorem setCodeValid_draws (b : Bool) : (setCodeValid b s).draws = s.draws := rfl
@[simp] theorem setCodeValid_agenda (b : Bool) : (setCodeValid b s).agenda = s.agenda := rfl
@[simp] theorem setCodeValid_log (b : Bool) : (setCodeValid b s).log = s.log := rfl
@[simp] theorem setCodeValid_turn (b : Bool) : (setCodeValid b s).turn = s.turn := rfl

/-! `setMode` -/

@[simp] theorem setMode_nMax (g : BitVec 2) : (setMode g s).nMax = s.nMax := rfl
@[simp] theorem setMode_ctrl (g : BitVec 2) : (setMode g s).ctrl = s.ctrl := rfl
@[simp] theorem setMode_status (g : BitVec 2) : (setMode g s).status = s.status := rfl
@[simp] theorem setMode_irqPend (g : BitVec 2) : (setMode g s).irqPend = s.irqPend := rfl
@[simp] theorem setMode_cmd (g : BitVec 2) : (setMode g s).cmd = s.cmd := rfl
@[simp] theorem setMode_arg (g : BitVec 2) : (setMode g s).arg = s.arg := rfl
@[simp] theorem setMode_result (g : BitVec 2) : (setMode g s).result = s.result := rfl
@[simp] theorem setMode_inLen (g : BitVec 2) : (setMode g s).inLen = s.inLen := rfl
@[simp] theorem setMode_ndist (g : BitVec 2) : (setMode g s).ndist = s.ndist := rfl
@[simp] theorem setMode_mode (g : BitVec 2) : (setMode g s).mode = { s.mode with tag := g, valid := true } := rfl
@[simp] theorem setMode_unpk (g : BitVec 2) : (setMode g s).unpk = s.unpk := rfl
@[simp] theorem setMode_treeInfo (g : BitVec 2) : (setMode g s).treeInfo = s.treeInfo := rfl
@[simp] theorem setMode_wr (g : BitVec 2) : (setMode g s).wr = s.wr := rfl
@[simp] theorem setMode_rd (g : BitVec 2) : (setMode g s).rd = s.rd := rfl
@[simp] theorem setMode_la (g : BitVec 2) : (setMode g s).la = s.la := rfl
@[simp] theorem setMode_buf (g : BitVec 2) : (setMode g s).buf = s.buf := rfl
@[simp] theorem setMode_freq (g : BitVec 2) : (setMode g s).freq = s.freq := rfl
@[simp] theorem setMode_tree (g : BitVec 2) : (setMode g s).tree = s.tree := rfl
@[simp] theorem setMode_code (g : BitVec 2) : (setMode g s).code = s.code := rfl
@[simp] theorem setMode_inp (g : BitVec 2) : (setMode g s).inp = s.inp := rfl
@[simp] theorem setMode_out (g : BitVec 2) : (setMode g s).out = s.out := rfl
@[simp] theorem setMode_seq (g : BitVec 2) : (setMode g s).seq = s.seq := rfl
@[simp] theorem setMode_ret (g : BitVec 2) : (setMode g s).ret = s.ret := rfl
@[simp] theorem setMode_got (g : BitVec 2) : (setMode g s).got = s.got := rfl
@[simp] theorem setMode_pushed (g : BitVec 2) : (setMode g s).pushed = s.pushed := rfl
@[simp] theorem setMode_draws (g : BitVec 2) : (setMode g s).draws = s.draws := rfl
@[simp] theorem setMode_agenda (g : BitVec 2) : (setMode g s).agenda = s.agenda := rfl
@[simp] theorem setMode_log (g : BitVec 2) : (setMode g s).log = s.log := rfl
@[simp] theorem setMode_turn (g : BitVec 2) : (setMode g s).turn = s.turn := rfl

/-! `writeBuf` -/

@[simp] theorem writeBuf_nMax (j : Nat) (b : Byte) : (writeBuf j b s).nMax = s.nMax := rfl
@[simp] theorem writeBuf_ctrl (j : Nat) (b : Byte) : (writeBuf j b s).ctrl = s.ctrl := rfl
@[simp] theorem writeBuf_status (j : Nat) (b : Byte) : (writeBuf j b s).status = s.status := rfl
@[simp] theorem writeBuf_irqPend (j : Nat) (b : Byte) : (writeBuf j b s).irqPend = s.irqPend := rfl
@[simp] theorem writeBuf_cmd (j : Nat) (b : Byte) : (writeBuf j b s).cmd = s.cmd := rfl
@[simp] theorem writeBuf_arg (j : Nat) (b : Byte) : (writeBuf j b s).arg = s.arg := rfl
@[simp] theorem writeBuf_result (j : Nat) (b : Byte) : (writeBuf j b s).result = s.result := rfl
@[simp] theorem writeBuf_inLen (j : Nat) (b : Byte) : (writeBuf j b s).inLen = s.inLen := rfl
@[simp] theorem writeBuf_ndist (j : Nat) (b : Byte) : (writeBuf j b s).ndist = s.ndist := rfl
@[simp] theorem writeBuf_mode (j : Nat) (b : Byte) : (writeBuf j b s).mode = s.mode := rfl
@[simp] theorem writeBuf_unpk (j : Nat) (b : Byte) : (writeBuf j b s).unpk = s.unpk := rfl
@[simp] theorem writeBuf_treeInfo (j : Nat) (b : Byte) : (writeBuf j b s).treeInfo = s.treeInfo := rfl
@[simp] theorem writeBuf_wr (j : Nat) (b : Byte) : (writeBuf j b s).wr = s.wr := rfl
@[simp] theorem writeBuf_rd (j : Nat) (b : Byte) : (writeBuf j b s).rd = s.rd := rfl
@[simp] theorem writeBuf_la (j : Nat) (b : Byte) : (writeBuf j b s).la = s.la := rfl
@[simp] theorem writeBuf_buf (j : Nat) (b : Byte) : (writeBuf j b s).buf = storeWrite none s.buf j b := rfl
@[simp] theorem writeBuf_freq (j : Nat) (b : Byte) : (writeBuf j b s).freq = s.freq := rfl
@[simp] theorem writeBuf_tree (j : Nat) (b : Byte) : (writeBuf j b s).tree = s.tree := rfl
@[simp] theorem writeBuf_code (j : Nat) (b : Byte) : (writeBuf j b s).code = s.code := rfl
@[simp] theorem writeBuf_inp (j : Nat) (b : Byte) : (writeBuf j b s).inp = s.inp := rfl
@[simp] theorem writeBuf_out (j : Nat) (b : Byte) : (writeBuf j b s).out = s.out := rfl
@[simp] theorem writeBuf_seq (j : Nat) (b : Byte) : (writeBuf j b s).seq = s.seq := rfl
@[simp] theorem writeBuf_ret (j : Nat) (b : Byte) : (writeBuf j b s).ret = s.ret := rfl
@[simp] theorem writeBuf_got (j : Nat) (b : Byte) : (writeBuf j b s).got = s.got := rfl
@[simp] theorem writeBuf_pushed (j : Nat) (b : Byte) : (writeBuf j b s).pushed = s.pushed := rfl
@[simp] theorem writeBuf_draws (j : Nat) (b : Byte) : (writeBuf j b s).draws = s.draws := rfl
@[simp] theorem writeBuf_agenda (j : Nat) (b : Byte) : (writeBuf j b s).agenda = s.agenda := rfl
@[simp] theorem writeBuf_log (j : Nat) (b : Byte) : (writeBuf j b s).log = s.log := rfl
@[simp] theorem writeBuf_turn (j : Nat) (b : Byte) : (writeBuf j b s).turn = s.turn := rfl

/-! `writeNode` -/

@[simp] theorem writeNode_nMax (i : Nat) (n : Node) : (writeNode i n s).nMax = s.nMax := rfl
@[simp] theorem writeNode_ctrl (i : Nat) (n : Node) : (writeNode i n s).ctrl = s.ctrl := rfl
@[simp] theorem writeNode_status (i : Nat) (n : Node) : (writeNode i n s).status = s.status := rfl
@[simp] theorem writeNode_irqPend (i : Nat) (n : Node) : (writeNode i n s).irqPend = s.irqPend := rfl
@[simp] theorem writeNode_cmd (i : Nat) (n : Node) : (writeNode i n s).cmd = s.cmd := rfl
@[simp] theorem writeNode_arg (i : Nat) (n : Node) : (writeNode i n s).arg = s.arg := rfl
@[simp] theorem writeNode_result (i : Nat) (n : Node) : (writeNode i n s).result = s.result := rfl
@[simp] theorem writeNode_inLen (i : Nat) (n : Node) : (writeNode i n s).inLen = s.inLen := rfl
@[simp] theorem writeNode_ndist (i : Nat) (n : Node) : (writeNode i n s).ndist = s.ndist := rfl
@[simp] theorem writeNode_mode (i : Nat) (n : Node) : (writeNode i n s).mode = s.mode := rfl
@[simp] theorem writeNode_unpk (i : Nat) (n : Node) : (writeNode i n s).unpk = s.unpk := rfl
@[simp] theorem writeNode_treeInfo (i : Nat) (n : Node) : (writeNode i n s).treeInfo = s.treeInfo := rfl
@[simp] theorem writeNode_wr (i : Nat) (n : Node) : (writeNode i n s).wr = s.wr := rfl
@[simp] theorem writeNode_rd (i : Nat) (n : Node) : (writeNode i n s).rd = s.rd := rfl
@[simp] theorem writeNode_la (i : Nat) (n : Node) : (writeNode i n s).la = s.la := rfl
@[simp] theorem writeNode_buf (i : Nat) (n : Node) : (writeNode i n s).buf = s.buf := rfl
@[simp] theorem writeNode_freq (i : Nat) (n : Node) : (writeNode i n s).freq = s.freq := rfl
@[simp] theorem writeNode_tree (i : Nat) (n : Node) : (writeNode i n s).tree = storeWrite none s.tree i n := rfl
@[simp] theorem writeNode_code (i : Nat) (n : Node) : (writeNode i n s).code = s.code := rfl
@[simp] theorem writeNode_inp (i : Nat) (n : Node) : (writeNode i n s).inp = s.inp := rfl
@[simp] theorem writeNode_out (i : Nat) (n : Node) : (writeNode i n s).out = s.out := rfl
@[simp] theorem writeNode_seq (i : Nat) (n : Node) : (writeNode i n s).seq = s.seq := rfl
@[simp] theorem writeNode_ret (i : Nat) (n : Node) : (writeNode i n s).ret = s.ret := rfl
@[simp] theorem writeNode_got (i : Nat) (n : Node) : (writeNode i n s).got = s.got := rfl
@[simp] theorem writeNode_pushed (i : Nat) (n : Node) : (writeNode i n s).pushed = s.pushed := rfl
@[simp] theorem writeNode_draws (i : Nat) (n : Node) : (writeNode i n s).draws = s.draws := rfl
@[simp] theorem writeNode_agenda (i : Nat) (n : Node) : (writeNode i n s).agenda = s.agenda := rfl
@[simp] theorem writeNode_log (i : Nat) (n : Node) : (writeNode i n s).log = s.log := rfl
@[simp] theorem writeNode_turn (i : Nat) (n : Node) : (writeNode i n s).turn = s.turn := rfl

/-! `writeCode` -/

@[simp] theorem writeCode_nMax (a : Nat) (e : CodeEntry) : (writeCode a e s).nMax = s.nMax := rfl
@[simp] theorem writeCode_ctrl (a : Nat) (e : CodeEntry) : (writeCode a e s).ctrl = s.ctrl := rfl
@[simp] theorem writeCode_status (a : Nat) (e : CodeEntry) : (writeCode a e s).status = s.status := rfl
@[simp] theorem writeCode_irqPend (a : Nat) (e : CodeEntry) : (writeCode a e s).irqPend = s.irqPend := rfl
@[simp] theorem writeCode_cmd (a : Nat) (e : CodeEntry) : (writeCode a e s).cmd = s.cmd := rfl
@[simp] theorem writeCode_arg (a : Nat) (e : CodeEntry) : (writeCode a e s).arg = s.arg := rfl
@[simp] theorem writeCode_result (a : Nat) (e : CodeEntry) : (writeCode a e s).result = s.result := rfl
@[simp] theorem writeCode_inLen (a : Nat) (e : CodeEntry) : (writeCode a e s).inLen = s.inLen := rfl
@[simp] theorem writeCode_ndist (a : Nat) (e : CodeEntry) : (writeCode a e s).ndist = s.ndist := rfl
@[simp] theorem writeCode_mode (a : Nat) (e : CodeEntry) : (writeCode a e s).mode = s.mode := rfl
@[simp] theorem writeCode_unpk (a : Nat) (e : CodeEntry) : (writeCode a e s).unpk = s.unpk := rfl
@[simp] theorem writeCode_treeInfo (a : Nat) (e : CodeEntry) : (writeCode a e s).treeInfo = s.treeInfo := rfl
@[simp] theorem writeCode_wr (a : Nat) (e : CodeEntry) : (writeCode a e s).wr = s.wr := rfl
@[simp] theorem writeCode_rd (a : Nat) (e : CodeEntry) : (writeCode a e s).rd = s.rd := rfl
@[simp] theorem writeCode_la (a : Nat) (e : CodeEntry) : (writeCode a e s).la = s.la := rfl
@[simp] theorem writeCode_buf (a : Nat) (e : CodeEntry) : (writeCode a e s).buf = s.buf := rfl
@[simp] theorem writeCode_freq (a : Nat) (e : CodeEntry) : (writeCode a e s).freq = s.freq := rfl
@[simp] theorem writeCode_tree (a : Nat) (e : CodeEntry) : (writeCode a e s).tree = s.tree := rfl
@[simp] theorem writeCode_code (a : Nat) (e : CodeEntry) :
    (writeCode a e s).code = storeWrite (some clearedEntry) s.code a e := rfl
@[simp] theorem writeCode_inp (a : Nat) (e : CodeEntry) : (writeCode a e s).inp = s.inp := rfl
@[simp] theorem writeCode_out (a : Nat) (e : CodeEntry) : (writeCode a e s).out = s.out := rfl
@[simp] theorem writeCode_seq (a : Nat) (e : CodeEntry) : (writeCode a e s).seq = s.seq := rfl
@[simp] theorem writeCode_ret (a : Nat) (e : CodeEntry) : (writeCode a e s).ret = s.ret := rfl
@[simp] theorem writeCode_got (a : Nat) (e : CodeEntry) : (writeCode a e s).got = s.got := rfl
@[simp] theorem writeCode_pushed (a : Nat) (e : CodeEntry) : (writeCode a e s).pushed = s.pushed := rfl
@[simp] theorem writeCode_draws (a : Nat) (e : CodeEntry) : (writeCode a e s).draws = s.draws := rfl
@[simp] theorem writeCode_agenda (a : Nat) (e : CodeEntry) : (writeCode a e s).agenda = s.agenda := rfl
@[simp] theorem writeCode_log (a : Nat) (e : CodeEntry) : (writeCode a e s).log = s.log := rfl
@[simp] theorem writeCode_turn (a : Nat) (e : CodeEntry) : (writeCode a e s).turn = s.turn := rfl

/-! `pushByte` -/

@[simp] theorem pushByte_nMax (b : Byte) : (pushByte b s).nMax = s.nMax := rfl
@[simp] theorem pushByte_ctrl (b : Byte) : (pushByte b s).ctrl = s.ctrl := rfl
@[simp] theorem pushByte_status (b : Byte) : (pushByte b s).status = s.status := rfl
@[simp] theorem pushByte_irqPend (b : Byte) : (pushByte b s).irqPend = s.irqPend := rfl
@[simp] theorem pushByte_cmd (b : Byte) : (pushByte b s).cmd = s.cmd := rfl
@[simp] theorem pushByte_arg (b : Byte) : (pushByte b s).arg = s.arg := rfl
@[simp] theorem pushByte_result (b : Byte) : (pushByte b s).result = s.result := rfl
@[simp] theorem pushByte_inLen (b : Byte) : (pushByte b s).inLen = s.inLen := rfl
@[simp] theorem pushByte_ndist (b : Byte) : (pushByte b s).ndist = s.ndist := rfl
@[simp] theorem pushByte_mode (b : Byte) : (pushByte b s).mode = s.mode := rfl
@[simp] theorem pushByte_unpk (b : Byte) : (pushByte b s).unpk = s.unpk := rfl
@[simp] theorem pushByte_treeInfo (b : Byte) : (pushByte b s).treeInfo = s.treeInfo := rfl
@[simp] theorem pushByte_wr (b : Byte) : (pushByte b s).wr = s.wr := rfl
@[simp] theorem pushByte_rd (b : Byte) : (pushByte b s).rd = s.rd := rfl
@[simp] theorem pushByte_la (b : Byte) : (pushByte b s).la = s.la := rfl
@[simp] theorem pushByte_buf (b : Byte) : (pushByte b s).buf = s.buf := rfl
@[simp] theorem pushByte_freq (b : Byte) : (pushByte b s).freq = s.freq := rfl
@[simp] theorem pushByte_tree (b : Byte) : (pushByte b s).tree = s.tree := rfl
@[simp] theorem pushByte_code (b : Byte) : (pushByte b s).code = s.code := rfl
@[simp] theorem pushByte_inp (b : Byte) : (pushByte b s).inp = s.inp := rfl
@[simp] theorem pushByte_out (b : Byte) : (pushByte b s).out = s.out ++ [.byte b] := rfl
@[simp] theorem pushByte_seq (b : Byte) : (pushByte b s).seq = s.seq := rfl
@[simp] theorem pushByte_ret (b : Byte) : (pushByte b s).ret = s.ret := rfl
@[simp] theorem pushByte_got (b : Byte) : (pushByte b s).got = s.got := rfl
@[simp] theorem pushByte_pushed (b : Byte) : (pushByte b s).pushed = s.pushed + 1 := rfl
@[simp] theorem pushByte_draws (b : Byte) : (pushByte b s).draws = s.draws := rfl
@[simp] theorem pushByte_agenda (b : Byte) : (pushByte b s).agenda = s.agenda := rfl
@[simp] theorem pushByte_log (b : Byte) : (pushByte b s).log = s.log := rfl
@[simp] theorem pushByte_turn (b : Byte) : (pushByte b s).turn = s.turn := rfl

/-! `restartUnpacker` -/

@[simp] theorem restartUnpacker_nMax : (restartUnpacker s).nMax = s.nMax := rfl
@[simp] theorem restartUnpacker_ctrl : (restartUnpacker s).ctrl = s.ctrl := rfl
@[simp] theorem restartUnpacker_status : (restartUnpacker s).status = s.status := rfl
@[simp] theorem restartUnpacker_irqPend : (restartUnpacker s).irqPend = s.irqPend := rfl
@[simp] theorem restartUnpacker_cmd : (restartUnpacker s).cmd = s.cmd := rfl
@[simp] theorem restartUnpacker_arg : (restartUnpacker s).arg = s.arg := rfl
@[simp] theorem restartUnpacker_result : (restartUnpacker s).result = s.result := rfl
@[simp] theorem restartUnpacker_inLen : (restartUnpacker s).inLen = s.inLen := rfl
@[simp] theorem restartUnpacker_ndist : (restartUnpacker s).ndist = s.ndist := rfl
@[simp] theorem restartUnpacker_mode : (restartUnpacker s).mode = s.mode := rfl
@[simp] theorem restartUnpacker_unpk : (restartUnpacker s).unpk = { limitEn := false, limitMb := 8 } := rfl
@[simp] theorem restartUnpacker_treeInfo : (restartUnpacker s).treeInfo = s.treeInfo := rfl
@[simp] theorem restartUnpacker_wr : (restartUnpacker s).wr = s.wr := rfl
@[simp] theorem restartUnpacker_rd : (restartUnpacker s).rd = { acc := 0, fill := 0, eos := false } := rfl
@[simp] theorem restartUnpacker_la : (restartUnpacker s).la = s.la := rfl
@[simp] theorem restartUnpacker_buf : (restartUnpacker s).buf = s.buf := rfl
@[simp] theorem restartUnpacker_freq : (restartUnpacker s).freq = s.freq := rfl
@[simp] theorem restartUnpacker_tree : (restartUnpacker s).tree = s.tree := rfl
@[simp] theorem restartUnpacker_code : (restartUnpacker s).code = s.code := rfl
@[simp] theorem restartUnpacker_inp : (restartUnpacker s).inp = s.inp := rfl
@[simp] theorem restartUnpacker_out : (restartUnpacker s).out = s.out := rfl
@[simp] theorem restartUnpacker_seq : (restartUnpacker s).seq = s.seq := rfl
@[simp] theorem restartUnpacker_ret : (restartUnpacker s).ret = s.ret := rfl
@[simp] theorem restartUnpacker_got : (restartUnpacker s).got = s.got := rfl
@[simp] theorem restartUnpacker_pushed : (restartUnpacker s).pushed = s.pushed := rfl
@[simp] theorem restartUnpacker_draws : (restartUnpacker s).draws = s.draws := rfl
@[simp] theorem restartUnpacker_agenda : (restartUnpacker s).agenda = s.agenda := rfl
@[simp] theorem restartUnpacker_log : (restartUnpacker s).log = s.log := rfl
@[simp] theorem restartUnpacker_turn : (restartUnpacker s).turn = s.turn := rfl

/-! `clearWorking` -/

@[simp] theorem clearWorking_nMax : (clearWorking s).nMax = s.nMax := rfl
@[simp] theorem clearWorking_ctrl : (clearWorking s).ctrl = s.ctrl := rfl
@[simp] theorem clearWorking_status : (clearWorking s).status = s.status := rfl
@[simp] theorem clearWorking_irqPend : (clearWorking s).irqPend = s.irqPend := rfl
@[simp] theorem clearWorking_cmd : (clearWorking s).cmd = s.cmd := rfl
@[simp] theorem clearWorking_arg : (clearWorking s).arg = s.arg := rfl
@[simp] theorem clearWorking_result : (clearWorking s).result = s.result := rfl
@[simp] theorem clearWorking_inLen : (clearWorking s).inLen = s.inLen := rfl
@[simp] theorem clearWorking_ndist : (clearWorking s).ndist = s.ndist := rfl
@[simp] theorem clearWorking_mode : (clearWorking s).mode = s.mode := rfl
@[simp] theorem clearWorking_unpk : (clearWorking s).unpk = s.unpk := rfl
@[simp] theorem clearWorking_treeInfo : (clearWorking s).treeInfo = s.treeInfo := rfl
@[simp] theorem clearWorking_wr : (clearWorking s).wr = s.wr := rfl
@[simp] theorem clearWorking_rd : (clearWorking s).rd = s.rd := rfl
@[simp] theorem clearWorking_la : (clearWorking s).la = s.la := rfl
@[simp] theorem clearWorking_buf : (clearWorking s).buf = s.buf := rfl
@[simp] theorem clearWorking_freq : (clearWorking s).freq = s.freq := rfl
@[simp] theorem clearWorking_tree : (clearWorking s).tree = s.tree := rfl
@[simp] theorem clearWorking_code : (clearWorking s).code = s.code := rfl
@[simp] theorem clearWorking_inp : (clearWorking s).inp = s.inp := rfl
@[simp] theorem clearWorking_out : (clearWorking s).out = s.out := rfl
@[simp] theorem clearWorking_seq : (clearWorking s).seq = s.seq := rfl
@[simp] theorem clearWorking_ret : (clearWorking s).ret = none := rfl
@[simp] theorem clearWorking_got : (clearWorking s).got = .ok 0 := rfl
@[simp] theorem clearWorking_pushed : (clearWorking s).pushed = 0 := rfl
@[simp] theorem clearWorking_draws : (clearWorking s).draws = s.draws := rfl
@[simp] theorem clearWorking_agenda : (clearWorking s).agenda = s.agenda := rfl
@[simp] theorem clearWorking_log : (clearWorking s).log = s.log := rfl
@[simp] theorem clearWorking_turn : (clearWorking s).turn = s.turn := rfl

/-! `startCommand` -/

@[simp] theorem startCommand_nMax : (startCommand s).nMax = s.nMax := rfl
@[simp] theorem startCommand_ctrl : (startCommand s).ctrl = s.ctrl := rfl
@[simp] theorem startCommand_status :
    (startCommand s).status = { s.status with done := false, error := false, errcode := .none, phase := .control } := rfl
@[simp] theorem startCommand_irqPend : (startCommand s).irqPend = s.irqPend := rfl
@[simp] theorem startCommand_cmd : (startCommand s).cmd = s.cmd := rfl
@[simp] theorem startCommand_arg : (startCommand s).arg = s.arg := rfl
@[simp] theorem startCommand_result : (startCommand s).result = s.result := rfl
@[simp] theorem startCommand_inLen : (startCommand s).inLen = s.inLen := rfl
@[simp] theorem startCommand_ndist : (startCommand s).ndist = s.ndist := rfl
@[simp] theorem startCommand_mode : (startCommand s).mode = s.mode := rfl
@[simp] theorem startCommand_unpk : (startCommand s).unpk = s.unpk := rfl
@[simp] theorem startCommand_treeInfo : (startCommand s).treeInfo = s.treeInfo := rfl
@[simp] theorem startCommand_wr : (startCommand s).wr = s.wr := rfl
@[simp] theorem startCommand_rd : (startCommand s).rd = s.rd := rfl
@[simp] theorem startCommand_la : (startCommand s).la = s.la := rfl
@[simp] theorem startCommand_buf : (startCommand s).buf = s.buf := rfl
@[simp] theorem startCommand_freq : (startCommand s).freq = s.freq := rfl
@[simp] theorem startCommand_tree : (startCommand s).tree = s.tree := rfl
@[simp] theorem startCommand_code : (startCommand s).code = s.code := rfl
@[simp] theorem startCommand_inp : (startCommand s).inp = s.inp := rfl
@[simp] theorem startCommand_out : (startCommand s).out = s.out := rfl
@[simp] theorem startCommand_seq : (startCommand s).seq = .start := rfl
@[simp] theorem startCommand_ret : (startCommand s).ret = s.ret := rfl
@[simp] theorem startCommand_got : (startCommand s).got = s.got := rfl
@[simp] theorem startCommand_pushed : (startCommand s).pushed = s.pushed := rfl
@[simp] theorem startCommand_draws : (startCommand s).draws = s.draws := rfl
@[simp] theorem startCommand_agenda : (startCommand s).agenda = s.agenda := rfl
@[simp] theorem startCommand_log : (startCommand s).log = s.log := rfl
@[simp] theorem startCommand_turn : (startCommand s).turn = s.turn := rfl

/-! `completeSuccess` -/

@[simp] theorem completeSuccess_nMax : (completeSuccess s).nMax = s.nMax := rfl
@[simp] theorem completeSuccess_ctrl : (completeSuccess s).ctrl = s.ctrl := rfl
@[simp] theorem completeSuccess_status :
    (completeSuccess s).status = { s.status with phase := .idle, done := true, error := false, errcode := .none } := rfl
@[simp] theorem completeSuccess_irqPend : (completeSuccess s).irqPend = { s.irqPend with doneP := true } := rfl
@[simp] theorem completeSuccess_cmd : (completeSuccess s).cmd = s.cmd := rfl
@[simp] theorem completeSuccess_arg : (completeSuccess s).arg = s.arg := rfl
@[simp] theorem completeSuccess_result : (completeSuccess s).result = s.ret.getD s.result := rfl
@[simp] theorem completeSuccess_inLen : (completeSuccess s).inLen = s.inLen := rfl
@[simp] theorem completeSuccess_ndist : (completeSuccess s).ndist = s.ndist := rfl
@[simp] theorem completeSuccess_mode : (completeSuccess s).mode = s.mode := rfl
@[simp] theorem completeSuccess_unpk : (completeSuccess s).unpk = s.unpk := rfl
@[simp] theorem completeSuccess_treeInfo : (completeSuccess s).treeInfo = s.treeInfo := rfl
@[simp] theorem completeSuccess_wr : (completeSuccess s).wr = s.wr := rfl
@[simp] theorem completeSuccess_rd : (completeSuccess s).rd = s.rd := rfl
@[simp] theorem completeSuccess_la : (completeSuccess s).la = s.la := rfl
@[simp] theorem completeSuccess_buf : (completeSuccess s).buf = s.buf := rfl
@[simp] theorem completeSuccess_freq : (completeSuccess s).freq = s.freq := rfl
@[simp] theorem completeSuccess_tree : (completeSuccess s).tree = s.tree := rfl
@[simp] theorem completeSuccess_code : (completeSuccess s).code = s.code := rfl
@[simp] theorem completeSuccess_inp : (completeSuccess s).inp = s.inp := rfl
@[simp] theorem completeSuccess_out : (completeSuccess s).out = s.out := rfl
@[simp] theorem completeSuccess_seq : (completeSuccess s).seq = .idle := rfl
@[simp] theorem completeSuccess_ret : (completeSuccess s).ret = none := rfl
@[simp] theorem completeSuccess_got : (completeSuccess s).got = .ok 0 := rfl
@[simp] theorem completeSuccess_pushed : (completeSuccess s).pushed = 0 := rfl
@[simp] theorem completeSuccess_draws : (completeSuccess s).draws = s.draws := rfl
@[simp] theorem completeSuccess_agenda : (completeSuccess s).agenda = s.agenda := rfl
@[simp] theorem completeSuccess_log : (completeSuccess s).log = s.log := rfl
@[simp] theorem completeSuccess_turn : (completeSuccess s).turn = s.turn := rfl

/-! `completeError` -/

@[simp] theorem completeError_nMax (c : ErrCode) : (completeError c s).nMax = s.nMax := rfl
@[simp] theorem completeError_ctrl (c : ErrCode) : (completeError c s).ctrl = s.ctrl := rfl
@[simp] theorem completeError_status (c : ErrCode) :
    (completeError c s).status = { s.status with phase := .idle, done := true, error := true, errcode := c } := rfl
@[simp] theorem completeError_irqPend (c : ErrCode) :
    (completeError c s).irqPend = { s.irqPend with errP := true } := rfl
@[simp] theorem completeError_cmd (c : ErrCode) : (completeError c s).cmd = s.cmd := rfl
@[simp] theorem completeError_arg (c : ErrCode) : (completeError c s).arg = s.arg := rfl
@[simp] theorem completeError_result (c : ErrCode) : (completeError c s).result = s.result := rfl
@[simp] theorem completeError_inLen (c : ErrCode) : (completeError c s).inLen = s.inLen := rfl
@[simp] theorem completeError_ndist (c : ErrCode) : (completeError c s).ndist = s.ndist := rfl
@[simp] theorem completeError_mode (c : ErrCode) : (completeError c s).mode = s.mode := rfl
@[simp] theorem completeError_unpk (c : ErrCode) : (completeError c s).unpk = s.unpk := rfl
@[simp] theorem completeError_treeInfo (c : ErrCode) : (completeError c s).treeInfo = s.treeInfo := rfl
@[simp] theorem completeError_wr (c : ErrCode) : (completeError c s).wr = s.wr := rfl
@[simp] theorem completeError_rd (c : ErrCode) : (completeError c s).rd = s.rd := rfl
@[simp] theorem completeError_la (c : ErrCode) : (completeError c s).la = s.la := rfl
@[simp] theorem completeError_buf (c : ErrCode) : (completeError c s).buf = s.buf := rfl
@[simp] theorem completeError_freq (c : ErrCode) : (completeError c s).freq = s.freq := rfl
@[simp] theorem completeError_tree (c : ErrCode) : (completeError c s).tree = s.tree := rfl
@[simp] theorem completeError_code (c : ErrCode) : (completeError c s).code = s.code := rfl
@[simp] theorem completeError_inp (c : ErrCode) : (completeError c s).inp = s.inp := rfl
@[simp] theorem completeError_out (c : ErrCode) : (completeError c s).out = s.out := rfl
@[simp] theorem completeError_seq (c : ErrCode) : (completeError c s).seq = .idle := rfl
@[simp] theorem completeError_ret (c : ErrCode) : (completeError c s).ret = none := rfl
@[simp] theorem completeError_got (c : ErrCode) : (completeError c s).got = .ok 0 := rfl
@[simp] theorem completeError_pushed (c : ErrCode) : (completeError c s).pushed = 0 := rfl
@[simp] theorem completeError_draws (c : ErrCode) : (completeError c s).draws = s.draws := rfl
@[simp] theorem completeError_agenda (c : ErrCode) : (completeError c s).agenda = s.agenda := rfl
@[simp] theorem completeError_log (c : ErrCode) : (completeError c s).log = s.log := rfl
@[simp] theorem completeError_turn (c : ErrCode) : (completeError c s).turn = s.turn := rfl

/-! `raiseError` -/

@[simp] theorem raiseError_nMax (k : Command) (c : ErrCode) : (raiseError k c s).nMax = s.nMax := rfl
@[simp] theorem raiseError_ctrl (k : Command) (c : ErrCode) : (raiseError k c s).ctrl = s.ctrl := rfl
@[simp] theorem raiseError_status (k : Command) (c : ErrCode) : (raiseError k c s).status = s.status := rfl
@[simp] theorem raiseError_irqPend (k : Command) (c : ErrCode) : (raiseError k c s).irqPend = s.irqPend := rfl
@[simp] theorem raiseError_cmd (k : Command) (c : ErrCode) : (raiseError k c s).cmd = s.cmd := rfl
@[simp] theorem raiseError_arg (k : Command) (c : ErrCode) : (raiseError k c s).arg = s.arg := rfl
@[simp] theorem raiseError_result (k : Command) (c : ErrCode) : (raiseError k c s).result = s.result := rfl
@[simp] theorem raiseError_inLen (k : Command) (c : ErrCode) : (raiseError k c s).inLen = s.inLen := rfl
@[simp] theorem raiseError_ndist (k : Command) (c : ErrCode) : (raiseError k c s).ndist = s.ndist := rfl
@[simp] theorem raiseError_mode (k : Command) (c : ErrCode) : (raiseError k c s).mode = s.mode := rfl
@[simp] theorem raiseError_unpk (k : Command) (c : ErrCode) : (raiseError k c s).unpk = s.unpk := rfl
@[simp] theorem raiseError_treeInfo (k : Command) (c : ErrCode) : (raiseError k c s).treeInfo = s.treeInfo := rfl
@[simp] theorem raiseError_wr (k : Command) (c : ErrCode) : (raiseError k c s).wr = s.wr := rfl
@[simp] theorem raiseError_rd (k : Command) (c : ErrCode) : (raiseError k c s).rd = s.rd := rfl
@[simp] theorem raiseError_la (k : Command) (c : ErrCode) : (raiseError k c s).la = s.la := rfl
@[simp] theorem raiseError_buf (k : Command) (c : ErrCode) : (raiseError k c s).buf = s.buf := rfl
@[simp] theorem raiseError_freq (k : Command) (c : ErrCode) : (raiseError k c s).freq = s.freq := rfl
@[simp] theorem raiseError_tree (k : Command) (c : ErrCode) : (raiseError k c s).tree = s.tree := rfl
@[simp] theorem raiseError_code (k : Command) (c : ErrCode) : (raiseError k c s).code = s.code := rfl
@[simp] theorem raiseError_inp (k : Command) (c : ErrCode) : (raiseError k c s).inp = s.inp := rfl
@[simp] theorem raiseError_out (k : Command) (c : ErrCode) : (raiseError k c s).out = s.out := rfl
@[simp] theorem raiseError_seq (k : Command) (c : ErrCode) :
    (raiseError k c s).seq = .run (k.onError ++ [.fail c]) := rfl
@[simp] theorem raiseError_ret (k : Command) (c : ErrCode) : (raiseError k c s).ret = s.ret := rfl
@[simp] theorem raiseError_got (k : Command) (c : ErrCode) : (raiseError k c s).got = s.got := rfl
@[simp] theorem raiseError_pushed (k : Command) (c : ErrCode) : (raiseError k c s).pushed = s.pushed := rfl
@[simp] theorem raiseError_draws (k : Command) (c : ErrCode) : (raiseError k c s).draws = s.draws := rfl
@[simp] theorem raiseError_agenda (k : Command) (c : ErrCode) : (raiseError k c s).agenda = s.agenda := rfl
@[simp] theorem raiseError_log (k : Command) (c : ErrCode) : (raiseError k c s).log = s.log := rfl
@[simp] theorem raiseError_turn (k : Command) (c : ErrCode) : (raiseError k c s).turn = s.turn := rfl

/-! `pushTasks` -/

@[simp] theorem pushTasks_nMax (ts : List Task) : (pushTasks ts s).nMax = s.nMax := by
  unfold pushTasks; split <;> rfl
@[simp] theorem pushTasks_ctrl (ts : List Task) : (pushTasks ts s).ctrl = s.ctrl := by
  unfold pushTasks; split <;> rfl
@[simp] theorem pushTasks_status (ts : List Task) : (pushTasks ts s).status = s.status := by
  unfold pushTasks; split <;> rfl
@[simp] theorem pushTasks_irqPend (ts : List Task) : (pushTasks ts s).irqPend = s.irqPend := by
  unfold pushTasks; split <;> rfl
@[simp] theorem pushTasks_cmd (ts : List Task) : (pushTasks ts s).cmd = s.cmd := by
  unfold pushTasks; split <;> rfl
@[simp] theorem pushTasks_arg (ts : List Task) : (pushTasks ts s).arg = s.arg := by
  unfold pushTasks; split <;> rfl
@[simp] theorem pushTasks_result (ts : List Task) : (pushTasks ts s).result = s.result := by
  unfold pushTasks; split <;> rfl
@[simp] theorem pushTasks_inLen (ts : List Task) : (pushTasks ts s).inLen = s.inLen := by
  unfold pushTasks; split <;> rfl
@[simp] theorem pushTasks_ndist (ts : List Task) : (pushTasks ts s).ndist = s.ndist := by
  unfold pushTasks; split <;> rfl
@[simp] theorem pushTasks_mode (ts : List Task) : (pushTasks ts s).mode = s.mode := by
  unfold pushTasks; split <;> rfl
@[simp] theorem pushTasks_unpk (ts : List Task) : (pushTasks ts s).unpk = s.unpk := by
  unfold pushTasks; split <;> rfl
@[simp] theorem pushTasks_treeInfo (ts : List Task) : (pushTasks ts s).treeInfo = s.treeInfo := by
  unfold pushTasks; split <;> rfl
@[simp] theorem pushTasks_wr (ts : List Task) : (pushTasks ts s).wr = s.wr := by
  unfold pushTasks; split <;> rfl
@[simp] theorem pushTasks_rd (ts : List Task) : (pushTasks ts s).rd = s.rd := by
  unfold pushTasks; split <;> rfl
@[simp] theorem pushTasks_la (ts : List Task) : (pushTasks ts s).la = s.la := by
  unfold pushTasks; split <;> rfl
@[simp] theorem pushTasks_buf (ts : List Task) : (pushTasks ts s).buf = s.buf := by
  unfold pushTasks; split <;> rfl
@[simp] theorem pushTasks_freq (ts : List Task) : (pushTasks ts s).freq = s.freq := by
  unfold pushTasks; split <;> rfl
@[simp] theorem pushTasks_tree (ts : List Task) : (pushTasks ts s).tree = s.tree := by
  unfold pushTasks; split <;> rfl
@[simp] theorem pushTasks_code (ts : List Task) : (pushTasks ts s).code = s.code := by
  unfold pushTasks; split <;> rfl
@[simp] theorem pushTasks_inp (ts : List Task) : (pushTasks ts s).inp = s.inp := by
  unfold pushTasks; split <;> rfl
@[simp] theorem pushTasks_out (ts : List Task) : (pushTasks ts s).out = s.out := by
  unfold pushTasks; split <;> rfl
theorem pushTasks_seq_run (ts rest : List Task) (h : s.seq = .run rest) :
    (pushTasks ts s).seq = .run (ts ++ rest) := by simp [pushTasks, h]
@[simp] theorem pushTasks_ret (ts : List Task) : (pushTasks ts s).ret = s.ret := by
  unfold pushTasks; split <;> rfl
@[simp] theorem pushTasks_got (ts : List Task) : (pushTasks ts s).got = s.got := by
  unfold pushTasks; split <;> rfl
@[simp] theorem pushTasks_pushed (ts : List Task) : (pushTasks ts s).pushed = s.pushed := by
  unfold pushTasks; split <;> rfl
@[simp] theorem pushTasks_draws (ts : List Task) : (pushTasks ts s).draws = s.draws := by
  unfold pushTasks; split <;> rfl
@[simp] theorem pushTasks_agenda (ts : List Task) : (pushTasks ts s).agenda = s.agenda := by
  unfold pushTasks; split <;> rfl
@[simp] theorem pushTasks_log (ts : List Task) : (pushTasks ts s).log = s.log := by
  unfold pushTasks; split <;> rfl
@[simp] theorem pushTasks_turn (ts : List Task) : (pushTasks ts s).turn = s.turn := by
  unfold pushTasks; split <;> rfl

/-- On a running sequencer the tasks go before those that are left, and nothing else changes. -/
theorem pushTasks_run (ts rest : List Task) (h : s.seq = .run rest) :
    pushTasks ts s = { s with seq := .run (ts ++ rest) } := by simp [pushTasks, h]

end Sys2Proof.Machine
end

