-- ==== Sys2Proof/Laws/Streams.lean ====
section
/-!
SUPPORT. Laws/Streams.lean: what the port operations and one bit of the packer and of the unpacker can do, each said
once.
-/

namespace Sys2Proof.Machine

variable {s t : State}

/-! ### InRead and InPeek -/

/-- InRead holds exactly when no token is ahead. -/
theorem inRead_none : inRead s = none ↔ ahead s = [] := by
  unfold inRead ahead
  cases s.la with
  | some k => simp
  | none => cases h : s.inp <;> simp

/-- InRead takes the first token ahead; the lookahead is empty after it. -/
theorem inRead_some {k : InTok} (h : inRead s = some (k, t)) :
    ahead s = k :: t.inp ∧ t = { s with la := none, inp := t.inp } := by
  obtain ⟨la, hla⟩ : ∃ la, s.la = la := ⟨_, rfl⟩
  cases la with
  | some k' =>
    simp only [inRead, hla, Option.some.injEq, Prod.mk.injEq] at h
    obtain ⟨rfl, rfl⟩ := h
    simp [ahead, hla]
  | none =>
    cases hin : s.inp with
    | nil => simp [inRead, hla, hin] at h
    | cons k' rest =>
      simp only [inRead, hla, hin, Option.some.injEq, Prod.mk.injEq] at h
      obtain ⟨rfl, rfl⟩ := h
      refine ⟨by simp [ahead, hla, hin], ?_⟩
      cases s
      simp_all

/-- With a token ahead InRead takes it. -/
theorem inRead_of_ahead {k : InTok} {rest : List InTok} (h : ahead s = k :: rest) :
    inRead s = some (k, { s with la := none, inp := rest }) := by
  cases hr : inRead s with
  | none => rw [inRead_none.1 hr] at h; cases h
  | some p =>
    obtain ⟨k', t⟩ := p
    obtain ⟨h1, h2⟩ := inRead_some hr
    rw [h1] at h
    cases h
    rw [← h2]

/-- InPeek holds exactly when no token is ahead. -/
theorem inPeek_none : inPeek s = none ↔ ahead s = [] := by
  unfold inPeek ahead
  cases s.la with
  | some k => simp
  | none => cases h : s.inp <;> simp

/-- InPeek answers the first token ahead and consumes nothing: the token stands in the lookahead after it. -/
theorem inPeek_some {k : InTok} (h : inPeek s = some (k, t)) :
    ahead s = k :: t.inp ∧ ahead t = ahead s ∧ t = { s with la := some k, inp := t.inp } := by
  obtain ⟨la, hla⟩ : ∃ la, s.la = la := ⟨_, rfl⟩
  cases la with
  | some k' =>
    simp only [inPeek, hla, Option.some.injEq, Prod.mk.injEq] at h
    obtain ⟨rfl, rfl⟩ := h
    refine ⟨by simp [ahead, hla], rfl, ?_⟩
    cases s
    simp_all
  | none =>
    cases hin : s.inp with
    | nil => simp [inPeek, hla, hin] at h
    | cons k' rest =>
      simp only [inPeek, hla, hin, Option.some.injEq, Prod.mk.injEq] at h
      obtain ⟨rfl, rfl⟩ := h
      simp [ahead, hla, hin]

/-- With a token ahead InPeek answers it. -/
theorem inPeek_of_ahead {k : InTok} {rest : List InTok} (h : ahead s = k :: rest) :
    inPeek s = some (k, { s with la := some k, inp := rest }) := by
  cases hr : inPeek s with
  | none => rw [inPeek_none.1 hr] at h; cases h
  | some p =>
    obtain ⟨k', t⟩ := p
    obtain ⟨h1, -, h2⟩ := inPeek_some hr
    rw [h1] at h
    cases h
    rw [← h2]

/-! ### The packer -/

/-- writeBit changes the packer, and OUT by at most one byte, whose count it keeps. -/
theorem writeBit_cases (b : Bool) (s : State) :
    (s.wr.fill ≠ 7 ∧
      writeBit b s = { s with wr := { acc := setBitAt s.wr.acc s.wr.fill.toNat b, fill := s.wr.fill + 1 } }) ∨
    (s.wr.fill = 7 ∧
      writeBit b s =
        { s with
          wr := { acc := 0, fill := 0 }, pushed := s.pushed + 1
          out := s.out ++ [.byte (setBitAt s.wr.acc s.wr.fill.toNat b)] }) := by
  have h8 : s.wr.fill + 1 = 8 ↔ s.wr.fill = 7 := by bv_omega
  by_cases h : s.wr.fill = 7
  · exact .inr ⟨h, by simp [writeBit, h, pushByte, outWrite]⟩
  · exact .inl ⟨h, by simp only [writeBit, h8, h, if_false]⟩

/-- A bit written to the packer is the next of its pending bits (41_bitio.md R200). -/
theorem setBitAt_getLsbD {w : Nat} (v : BitVec w) (i j : Nat) (b : Bool) (hi : i < w) :
    (setBitAt v i b).getLsbD j = if j = i then b else v.getLsbD j := by
  unfold setBitAt
  by_cases hj : j = i
  · subst hj
    cases b <;> simp [hi]
  · by_cases hw : j < w
    · cases b
      · simp [hj, hw]
      · simp [hj, Ne.symm hj]
    · have h0 : v.getLsbD j = false := BitVec.getLsbD_of_ge v j (by omega)
      cases b <;> simp [BitVec.getLsbD_twoPow, hj, hw, h0, Ne.symm hj]

/-- writeBits of two lists is one after the other (41_bitio.md R201). -/
theorem writeBits_append (xs ys : List Bool) (s : State) : writeBits (xs ++ ys) s = writeBits ys (writeBits xs s) := by
  induction xs generalizing s with
  | nil => rfl
  | cons x xs ih => exact ih (writeBit x s)

/-- flush() with nothing pending does nothing; else it pushes one byte (41_bitio.md R203). -/
theorem flushPacker_cases (s : State) :
    (s.wr.fill = 0 ∧ flushPacker s = s) ∨
    (s.wr.fill ≠ 0 ∧
      flushPacker s =
        { s with
          wr := { acc := 0, fill := 0 }, pushed := s.pushed + 1, out := s.out ++ [.byte s.wr.acc] }) := by
  by_cases h : s.wr.fill = 0
  · exact .inl ⟨h, by simp [flushPacker, h]⟩
  · exact .inr ⟨h, by rw [flushPacker, if_neg h]; rfl⟩

/-! ### The unpacker -/

/-- The fields one step of readBit can change. -/
theorem readBitStep_frame (s : State) :
    (∀ t, readBitStep s = .again t → t = { s with rd := t.rd, la := t.la, inp := t.inp }) ∧
    (∀ t, readBitStep s = .na t → t = { s with rd := t.rd, la := t.la, inp := t.inp }) ∧
    (∀ b t, readBitStep s = .bit b t → t = { s with rd := t.rd, la := t.la, inp := t.inp }) ∧
    (readBitStep s = .hold → ahead s = []) := by
  unfold readBitStep deliverBit dropHeld
  split
  · split
    · refine ⟨fun t h => ?_, fun t h => ?_, fun b t h => ?_, fun h => ?_⟩ <;> cases h
      rfl
    · cases hr : inRead s with
      | none =>
        refine ⟨fun t h => ?_, fun t h => ?_, fun b t h => ?_, fun h => inRead_none.1 hr⟩ <;> cases h
      | some p =>
        obtain ⟨k, t⟩ := p
        obtain ⟨rest, rfl⟩ : ∃ rest, t = { s with la := none, inp := rest } := ⟨_, (inRead_some hr).2⟩
        cases k <;> refine ⟨fun t h => ?_, fun t h => ?_, fun b t h => ?_, fun h => ?_⟩ <;> cases h <;> rfl
  · split
    · cases hr : inPeek s with
      | none =>
        refine ⟨fun t h => ?_, fun t h => ?_, fun b t h => ?_, fun h => inPeek_none.1 hr⟩ <;> cases h
      | some p =>
        obtain ⟨k, t⟩ := p
        obtain ⟨rest, rfl⟩ : ∃ rest, t = { s with la := some k, inp := rest } := ⟨_, (inPeek_some hr).2.2⟩
        cases k <;> refine ⟨fun t h => ?_, fun t h => ?_, fun b t h => ?_, fun h => ?_⟩ <;> cases h <;> rfl
    · refine ⟨fun t h => ?_, fun t h => ?_, fun b t h => ?_, fun h => ?_⟩ <;> cases h
      rfl

/-- When RD_EOS = 1, UNPACK_BIT and WALK get NA with no bit obtained, and read nothing (41_bitio.md R214). -/
theorem taskAskBit_eos (h : s.rd.eos = true) : taskAskBit s = .ok { s with got := .na 0 0 } := by
  rw [taskAskBit, if_pos h]

/-- While RD_EOS = 0, UNPACK_BIT's and WALK's readBit is readBits(1) (41_bitio.md R205). -/
theorem taskAskBit_open (h : s.rd.eos = false) : taskAskBit s = taskGet 1 0 0 s := by
  rw [taskAskBit, if_neg (by simp [h])]

/-- When RD_EOS = 1, UNPACK_BYTE reads the bits held (41_bitio.md R215, 10_state.md R60 (b)). -/
theorem taskAskByte_eos (h : s.rd.eos = true) :
    taskAskByte s = .ok { (takeHeld 8 0 0 s).2 with got := (takeHeld 8 0 0 s).1 } := by
  rw [taskAskByte, if_pos h]

/-- While RD_EOS = 0, UNPACK_BYTE's readBits is readBits(8) (41_bitio.md R205). -/
theorem taskAskByte_open (h : s.rd.eos = false) : taskAskByte s = taskGet 8 0 0 s := by
  rw [taskAskByte, if_neg (by simp [h])]

/-- Reading the bits held changes RD_FILL alone. -/
theorem takeHeld_frame (n k : Nat) (v : Word) (s : State) :
    ∃ f, (takeHeld n k v s).2 = { s with rd := { s.rd with fill := f } } := by
  induction n generalizing k v s with
  | zero => exact ⟨s.rd.fill, rfl⟩
  | succ n ih =>
    rw [takeHeld]
    split
    · exact ⟨s.rd.fill, rfl⟩
    · obtain ⟨f, hf⟩ := ih (k + 1) (setBitAt v k (nextHeld s)) (dropHeld s)
      exact ⟨f, by rw [hf]; rfl⟩

/-- Where nothing is held that can be read, a readBits of one bit or more is NA. -/
theorem takeHeld_none (n k : Nat) (v : Word) (h : noneHeld s = true) : takeHeld (n + 1) k v s = (.na v k, s) := by
  rw [takeHeld, if_pos h]

/-- Where a bit is held that can be read, it is the next. -/
theorem takeHeld_some (n k : Nat) (v : Word) (h : noneHeld s = false) :
    takeHeld (n + 1) k v s = takeHeld n (k + 1) (setBitAt v k (nextHeld s)) (dropHeld s) := by
  rw [takeHeld, if_neg (by simp [h])]

/-- readBits is readBit, over and over (41_bitio.md R205): no bit asked, nothing read. -/
theorem readBitsFrom_zero (k : Nat) (v : Word) (s : State) : readBitsFrom 0 k v s = some (.ok v, s) := rfl

end Sys2Proof.Machine
end

