-- ==== Sys2Proof/Laws/Packer.lean ====
section
/-!
SUPPORT. Laws/Packer.lean: the packer is a bit sequence cut into bytes: what writeBits leaves, in terms of the pending
bits (41_bitio.md R200 to R202; 10_state.md R49).
-/

namespace Sys2Proof.Machine

theorem wholeBytes_append (l m : List Bool) :
    wholeBytes (l ++ m) = wholeBytes l ++ wholeBytes (restBits l ++ m) := by
  induction l using wholeBytes.induct with
  | case1 b0 b1 b2 b3 b4 b5 b6 b7 rest ih => simp [wholeBytes, restBits, ih]
  | case2 l h =>
    have h1 : wholeBytes l = [] := by rw [wholeBytes]; exact h
    have h2 : restBits l = l := by rw [restBits]; exact h
    rw [h1, h2, List.nil_append]

theorem restBits_append (l m : List Bool) : restBits (l ++ m) = restBits (restBits l ++ m) := by
  induction l using wholeBytes.induct with
  | case1 b0 b1 b2 b3 b4 b5 b6 b7 rest ih => simp [restBits, ih]
  | case2 l h =>
    have h2 : restBits l = l := by rw [restBits]; exact h
    rw [h2]

theorem restBits_length (l : List Bool) : (restBits l).length = l.length % 8 := by
  induction l using wholeBytes.induct with
  | case1 b0 b1 b2 b3 b4 b5 b6 b7 rest ih => simp [restBits, ih]; omega
  | case2 l h =>
    have h2 : restBits l = l := by rw [restBits]; exact h
    have h3 : l.length < 8 := by
      by_contra hl
      match l, h, hl with
      | b0 :: b1 :: b2 :: b3 :: b4 :: b5 :: b6 :: b7 :: rest, h, _ => exact h b0 b1 b2 b3 b4 b5 b6 b7 rest rfl
      | [], _, hl | [_], _, hl | [_, _], _, hl | [_, _, _], _, hl | [_, _, _, _], _, hl => simp at hl
      | [_, _, _, _, _], _, hl | [_, _, _, _, _, _], _, hl | [_, _, _, _, _, _, _], _, hl => simp at hl
    rw [h2, Nat.mod_eq_of_lt h3]

theorem wholeBytes_length (l : List Bool) : (wholeBytes l).length = l.length / 8 := by
  induction l using wholeBytes.induct with
  | case1 b0 b1 b2 b3 b4 b5 b6 b7 rest ih => simp [wholeBytes, ih]; omega
  | case2 l h =>
    have h1 : wholeBytes l = [] := by rw [wholeBytes]; exact h
    have h2 : restBits l = l := by rw [restBits]; exact h
    have h3 := restBits_length l
    rw [h2] at h3
    simp [h1]
    omega

/-- Every packer in its legal states, one bit written: the pending bits grow by the bit, or a byte is full. -/
theorem packer_one_bit : ∀ (fill : Fin 8) (acc : Fin 128) (b : Bool), acc.val < 2 ^ fill.val →
    let a : Byte := BitVec.ofNat 8 acc.val
    let bits := bitsOf fill.val a ++ [b]
    (fill.val = 7 → wholeBytes bits = [setBitAt a fill.val b] ∧ restBits bits = []) ∧
      (fill.val ≠ 7 → wholeBytes bits = [] ∧ restBits bits = bits ∧ valueOfBits 8 bits = setBitAt a fill.val b ∧
        bitsOf (fill.val + 1) (setBitAt a fill.val b) = bits ∧ setBitAt a fill.val b >>> (fill.val + 1) = 0) := by
  decide +kernel

/-- What writeBit does to a packer in a legal state: the bit joins the pending bits, whole bytes go to OUT
(41_bitio.md R200). -/
theorem writeBit_spec (b : Bool) (s : State) (h : PackerWf s.wr) :
    writeBit b s = { packed [b] s with pushed := s.pushed + packedCount [b] s } ∧
      PackerWf (writeBit b s).wr ∧ pendingBits (writeBit b s).wr = restBits (pendingBits s.wr ++ [b]) := by
  obtain ⟨hf, ha⟩ := h
  have hacc : s.wr.acc.toNat < 2 ^ s.wr.fill.toNat := by
    have h1 := congrArg BitVec.toNat ha
    simp only [BitVec.toNat_ushiftRight, Nat.shiftRight_eq_div_pow] at h1
    exact (Nat.div_eq_zero_iff_lt (Nat.two_pow_pos _)).1 h1
  have h128 : s.wr.acc.toNat < 128 :=
    lt_of_lt_of_le hacc (by simpa using Nat.pow_le_pow_right (show 0 < 2 by omega) hf)
  have key := packer_one_bit ⟨s.wr.fill.toNat, by omega⟩ ⟨s.wr.acc.toNat, h128⟩ b hacc
  simp only [BitVec.ofNat_toNat, BitVec.setWidth_eq] at key
  rcases writeBit_cases b s with ⟨h7, hw⟩ | ⟨h7, hw⟩
  · have h7' : s.wr.fill.toNat ≠ 7 := fun h => h7 (by apply BitVec.eq_of_toNat_eq; simpa using h)
    obtain ⟨k1, k2, k3, k4, k5⟩ := key.2 h7'
    have hfill : (s.wr.fill + 1).toNat = s.wr.fill.toNat + 1 := by bv_omega
    have hlen : BitVec.ofNat 4 (bitsOf s.wr.fill.toNat s.wr.acc ++ [b]).length = s.wr.fill + 1 := by
      apply BitVec.eq_of_toNat_eq
      simp [bitsOf]
    refine ⟨?_, ?_, ?_⟩
    · rw [hw]
      simp only [packed, packedCount, pendingBits, packerOf, k1, k2, k3, hlen, outBytes, List.map_nil, List.append_nil,
        List.length_nil, Nat.add_zero]
    · rw [hw]
      exact ⟨by dsimp only; omega, by dsimp only; rw [hfill]; exact k5⟩
    · rw [hw]
      simp only [pendingBits, hfill, k4, k2]
  · have h7' : s.wr.fill.toNat = 7 := by rw [h7]; rfl
    obtain ⟨k1, k2⟩ := key.1 h7'
    refine ⟨?_, ?_, ?_⟩
    · rw [hw]
      simp only [packed, packedCount, pendingBits, packerOf, k1, k2, outBytes, List.map_cons, List.map_nil,
        List.length_cons, List.length_nil, Nat.zero_add, valueOfBits]
      rfl
    · rw [hw]
      exact ⟨by simp, by simp⟩
    · rw [hw]
      simp only [pendingBits, k2]
      rfl

/-- What writeBits leaves of a packer in a legal state, and of OUT: the pending bits and the new ones, cut into bytes
(41_bitio.md R202). -/
theorem writeBits_spec (bits : List Bool) (s : State) (h : PackerWf s.wr) :
    writeBits bits s =
        (match bits with
          | [] => s
          | _ :: _ => { packed bits s with pushed := s.pushed + packedCount bits s }) ∧
      PackerWf (writeBits bits s).wr ∧
      pendingBits (writeBits bits s).wr = restBits (pendingBits s.wr ++ bits) := by
  induction bits generalizing s with
  | nil =>
    refine ⟨rfl, h, ?_⟩
    have hl : (pendingBits s.wr).length < 8 := by simp only [pendingBits, bitsOf]; simp; have := h.1; omega
    simp only [writeBits, List.append_nil]
    generalize pendingBits s.wr = l at *
    match l, hl with
    | [], _ | [_], _ | [_, _], _ | [_, _, _], _ | [_, _, _, _], _ => rfl
    | [_, _, _, _, _], _ | [_, _, _, _, _, _], _ | [_, _, _, _, _, _, _], _ => rfl
  | cons b bs ih =>
    obtain ⟨h1, h2, h3⟩ := writeBit_spec b s h
    obtain ⟨i1, i2, i3⟩ := ih (writeBit b s) h2
    have e1 : pendingBits s.wr ++ b :: bs = (pendingBits s.wr ++ [b]) ++ bs := by simp
    refine ⟨?_, i2, ?_⟩
    · rw [writeBits, i1]
      cases bs with
      | nil => exact h1
      | cons c cs =>
        have hout : (writeBit b s).out = s.out ++ outBytes (wholeBytes (pendingBits s.wr ++ [b])) := by rw [h1]; rfl
        have hp : (writeBit b s).pushed = s.pushed + (wholeBytes (pendingBits s.wr ++ [b])).length := by rw [h1]; rfl
        simp only [packed, packedCount, h3, hout, hp]
        rw [e1, wholeBytes_append (pendingBits s.wr ++ [b]) (c :: cs), restBits_append (pendingBits s.wr ++ [b]) (c :: cs)]
        rw [h1]
        simp only [packed, outBytes, List.map_append, List.append_assoc, List.length_append, Nat.add_assoc]
    · rw [writeBits, i3, h3, e1, restBits_append (pendingBits s.wr ++ [b]) bs]

end Sys2Proof.Machine
end

