-- ==== Sys2Proof/Laws/Sequencer.lean ====
section
/-!
SUPPORT. Laws/Sequencer.lean: what a core step can do, how a turn is made of core steps, and the common form of every
command's meaning.
-/

namespace Sys2Proof.Machine

variable {s t : State} {c : Command}

/-! ### One core step -/

theorem coreStep_idle (h : s.seq = .idle) : coreStep c s = none := by simp [coreStep, h]

theorem coreStep_start (h : s.seq = .start) : coreStep c s = some (beginCommand c s) := by simp [coreStep, h]

theorem coreStep_nil (h : s.seq = .run []) : coreStep c s = some (completeSuccess s) := by simp [coreStep, h]

theorem coreStep_task {k : Task} {ks : List Task} (h : s.seq = .run (k :: ks)) :
    coreStep c s =
      match runTask k { s with seq := .run ks } with
      | .hold => none
      | .ok u => some u
      | .err e u => some (raiseError c e u) := by
  cases hr : runTask k { s with seq := .run ks } <;> simp [coreStep, h, hr]

/-- Everything a core step can do: the checks, a task, an error's path, or the completion. -/
theorem coreStep_cases (h : coreStep c s = some t) :
    (s.seq = .start ∧ t = beginCommand c s) ∨
    (s.seq = .run [] ∧ t = completeSuccess s) ∨
    (∃ k ks, s.seq = .run (k :: ks) ∧ runTask k { s with seq := .run ks } = .ok t) ∨
    (∃ k ks e u, s.seq = .run (k :: ks) ∧ runTask k { s with seq := .run ks } = .err e u ∧ t = raiseError c e u) := by
  unfold coreStep at h
  split at h
  · cases h
  · rename_i hs
    exact .inl ⟨hs, (Option.some.inj h).symm⟩
  · rename_i hs
    exact .inr (.inl ⟨hs, (Option.some.inj h).symm⟩)
  · rename_i k ks hs
    split at h
    · cases h
    · rename_i u hu
      cases h
      exact .inr (.inr (.inl ⟨k, ks, hs, hu⟩))
    · rename_i e u hu
      cases h
      exact .inr (.inr (.inr ⟨k, ks, e, u, hs, hu, rfl⟩))

/-- The checks of a command: they fail and complete it, or the body's tasks are next. -/
theorem beginCommand_cases (c : Command) (s : State) :
    (∃ e, c.check s = some e ∧ beginCommand c s = completeError e s) ∨
    (c.check s = none ∧ beginCommand c s = { clearWorking s with seq := .run (c.body s) }) := by
  unfold beginCommand
  cases h : c.check s with
  | some e => exact .inl ⟨e, rfl, rfl⟩
  | none => exact .inr ⟨rfl, rfl⟩

/-! ### A turn -/

@[simp] theorem coreRun_zero (c : Command) (s : State) : coreRun 0 c s = s := rfl

theorem coreRun_some (n : Nat) (h : coreStep c s = some t) : coreRun (n + 1) c s = coreRun n c t := by
  simp [coreRun, h]

/-- With no step enabled a turn changes nothing. -/
theorem coreRun_none (n : Nat) (h : coreStep c s = none) : coreRun n c s = s := by
  cases n <;> simp [coreRun, h]

theorem coreRun_idle (n : Nat) (h : s.seq = .idle) : coreRun n c s = s := coreRun_none n (coreStep_idle h)

/-- A turn of m + n steps is one of m steps and one of n. -/
theorem coreRun_add (m n : Nat) (c : Command) (s : State) : coreRun (m + n) c s = coreRun n c (coreRun m c s) := by
  induction m generalizing s with
  | zero => simp
  | succ m ih =>
    rw [Nat.succ_add]
    cases h : coreStep c s with
    | none => rw [coreRun_none _ h, coreRun_none _ h, coreRun_none _ h]
    | some t => rw [coreRun_some _ h, coreRun_some _ h, ih]

/-- Once the command has completed, a longer turn changes nothing. -/
theorem coreRun_of_done {m n : Nat} (h : (coreRun m c s).seq = .idle) (hmn : m ≤ n) :
    coreRun n c s = coreRun m c s := by
  obtain ⟨k, rfl⟩ := Nat.exists_eq_add_of_le hmn
  rw [coreRun_add, coreRun_idle _ h]

/-- What every core step keeps, a turn keeps. -/
theorem coreRun_keeps (P : State → Prop) (hstep : ∀ u v, P u → coreStep c u = some v → P v) (n : Nat) (h : P s) :
    P (coreRun n c s) := by
  induction n generalizing s with
  | zero => exact h
  | succ n ih =>
    cases hc : coreStep c s with
    | none => rwa [coreRun_none _ hc]
    | some t => rw [coreRun_some _ hc]; exact ih (hstep _ _ h hc)

/-! ### Every command's meaning is its turn -/

/-- The command that each constructor's meaning runs. -/
def commandOf : Instr → Command
  | .nop => cmdNop
  | .packBit => cmdPackBit
  | .packByte => cmdPackByte
  | .packBits n => cmdPackBits n
  | .flush => cmdFlush
  | .unpackBit => cmdUnpackBit
  | .unpackByte => cmdUnpackByte
  | .unpackReset => cmdUnpackReset
  | .load => cmdLoad
  | .count => cmdCount
  | .build => cmdBuild
  | .gencode => cmdGencode
  | .emit => cmdEmit
  | .serialize => cmdSerialize
  | .deserialize => cmdDeserialize
  | .encode => cmdEncode
  | .decode => cmdDecode
  | .walk => cmdWalk

theorem exec_eq (i : Instr) (s : State) : exec i s = runCommand (commandOf i) s := by cases i <;> rfl

/-- A command's meaning always answers a next state: HUFF has no fault (60_exceptions.md R378). -/
theorem exec_next (i : Instr) (s : State) :
    exec i s = .next { coreRun s.turn (commandOf i) (wake s) with turn := 0 } := exec_eq i s

theorem wake_started (h : Started s) : wake s = s := by simp [wake, h]

theorem wake_of_run {ts : List Task} (h : s.seq = .run ts) : wake s = s := by simp [wake, h]

/-- A started command that is done within its turn: the outcome, whatever is left of the turn. -/
theorem exec_of_done {i : Instr} {m : Nat} (hs : Started s) (hm : m ≤ s.turn)
    (hd : (coreRun m (commandOf i) s).seq = .idle) :
    exec i s = .next { coreRun m (commandOf i) s with turn := 0 } := by
  rw [exec_next, wake_started hs, coreRun_of_done hd hm]

/-- The success outcome in the statements' terms. -/
theorem succeeded_of_completeSuccess (s : State) : { completeSuccess s with turn := 0 } = succeeded s.ret s := rfl

/-- The error outcome in the statements' terms. -/
theorem failed_of_completeError (e : ErrCode) (s : State) : { completeError e s with turn := 0 } = failed e s := rfl

/-- The outcomes keep what they name and no more: they may be taken after any change of the fields they overwrite. -/
theorem succeeded_seq (r : Option Word) (s : State) : (succeeded r s).seq = .idle := rfl

theorem failed_seq (e : ErrCode) (s : State) : (failed e s).seq = .idle := rfl

/-! ### What a step of the machine is -/

/-- The core's turn on a legal word. -/
theorem step_core {i : Instr} (hb : coreTurn s = true) (hf : fetch s = .ok i) : step s = exec i s := by
  simp [step, hb, hf]

/-- The host's turn. -/
theorem step_host (hb : coreTurn s = false) : step s = .next (hostTurn s) := by simp [step, hb]

/-- A step always answers a next state. -/
theorem step_next (s : State) : ∃ t, step s = .next t := by
  unfold step
  split
  · split
    · exact ⟨_, exec_next _ s⟩
    · exact ⟨_, rfl⟩
  · exact ⟨_, rfl⟩

end Sys2Proof.Machine
end

