-- ==== Sys2Proof/Laws/Bits.lean ====
section
/-!
SUPPORT. Laws/Bits.lean: the two tasks that take several core steps in every command: writeBits and readBits as runs
of the sequencer (41_bitio.md R202, R205).
-/

namespace Sys2Proof.Machine

variable {c : Command} {s t : State}

/-! ### writeBits -/

theorem writeBit_seq (b : Bool) (s : State) : (writeBit b s).seq = s.seq := by
  rcases writeBit_cases b s with ⟨-, h⟩ | ⟨-, h⟩ <;> rw [h]

theorem writeBit_setSeq (b : Bool) (s : State) (q : Seq) :
    writeBit b { s with seq := q } = { writeBit b s with seq := q } := by
  rcases writeBit_cases b s with ⟨h7, h⟩ | ⟨h7, h⟩ <;>
    rcases writeBit_cases b { s with seq := q } with ⟨k7, k⟩ | ⟨k7, k⟩
  · rw [h, k]
  · exact absurd k7 h7
  · exact absurd h7 k7
  · rw [h, k]

theorem writeBits_setSeq (bits : List Bool) (s : State) (q : Seq) :
    writeBits bits { s with seq := q } = { writeBits bits s with seq := q } := by
  induction bits generalizing s with
  | nil => rfl
  | cons b bs ih => rw [writeBits, writeBit_setSeq, ih]; rfl

/-- One core step of writeBits in progress. -/
theorem coreStep_put (b : Bool) (bs : List Bool) (ts : List Task) (h : s.seq = .run (.put (b :: bs) :: ts)) :
    coreStep c s = some { writeBit b s with seq := .run (.put bs :: ts) } := by
  rw [coreStep_task h]
  have hr : runTask (.put (b :: bs)) { s with seq := .run ts } =
      .ok { writeBit b s with seq := .run (.put bs :: ts) } := by
    show TaskResult.ok (pushTasks [.put bs] (writeBit b { s with seq := .run ts })) = _
    rw [writeBit_setSeq, pushTasks_run _ _ ts rfl]
    rfl
  rw [hr]

/-- writeBits on the sequencer: one core step a bit, and one for the end; what it leaves is `writeBits`. -/
theorem coreRun_put (bits : List Bool) (ts : List Task) (h : s.seq = .run (.put bits :: ts)) :
    coreRun (bits.length + 1) c s = { writeBits bits s with seq := .run ts } := by
  induction bits generalizing s with
  | nil =>
    have hs : coreStep c s = some { s with seq := .run ts } := by rw [coreStep_task h]; rfl
    rw [List.length_nil, coreRun_some _ hs, coreRun_zero, writeBits]
  | cons b bs ih =>
    rw [List.length_cons, coreRun_some _ (coreStep_put b bs ts h), ih rfl, writeBits_setSeq]
    rfl

/-! ### readBits -/

/-- Setting a bit that is 0 to `b`, in the two ways the model and the statements write it. -/
theorem setBitAt_fresh (v : Word) (k : Nat) (b : Bool) (hv : v.toNat < 2 ^ k) :
    setBitAt v k b = if b then v ||| BitVec.twoPow 32 k else v := by
  cases b
  · have h0 : v.getLsbD k = false := Nat.testBit_lt_two_pow hv
    apply BitVec.eq_of_getLsbD_eq
    intro i hi
    by_cases hik : i = k
    · subst hik
      simp [setBitAt, h0]
    · simp [setBitAt, hik, hi]
  · rfl

/-- The value read so far stays below 2^k. -/
theorem setBit_lt (v : Word) (k : Nat) (b : Bool) (hv : v.toNat < 2 ^ k) :
    (if b then v ||| BitVec.twoPow 32 k else v).toNat < 2 ^ (k + 1) := by
  have h2 : 2 ^ k < 2 ^ (k + 1) := Nat.pow_lt_pow_right (by omega) (by omega)
  cases b
  · simpa using hv.trans h2
  · simp only [if_true, BitVec.toNat_or, BitVec.toNat_twoPow]
    exact Nat.or_lt_two_pow (hv.trans h2) (lt_of_le_of_lt (Nat.mod_le _ _) h2)

/-- One step of readBit that delivers or ends, against readBit as one function (41_bitio.md R204). -/
theorem readBit_of_step (s : State) :
    (∀ b t, readBitStep s = .bit b t → readBit s = some (some b, t)) ∧
    (∀ t, readBitStep s = .na t → readBit s = some (none, t)) ∧
    (∀ t, readBitStep s = .again t → readBit s = readBit t ∧ t.rd.fill = 8 ∧ s.rd.fill = 0) ∧
    (readBitStep s = .hold → readBit s = none) := by
  unfold readBitStep readBit readHeld deliverBit nextHeld dropHeld
  by_cases hf : s.rd.fill = 0
  · simp only [hf, if_true]
    cases he : s.rd.eos
    · simp only [Bool.false_eq_true, if_false]
      cases hr : inRead s with
      | none => refine ⟨fun _ _ h => ?_, fun _ h => ?_, fun _ h => ?_, fun _ => ?_⟩ <;> first | cases h | simp
      | some p =>
        obtain ⟨k, u⟩ := p
        cases k <;> refine ⟨fun _ _ h => ?_, fun _ h => ?_, fun _ h => ?_, fun h => ?_⟩ <;> cases h <;> simp
    · refine ⟨fun _ _ h => ?_, fun _ h => ?_, fun _ h => ?_, fun h => ?_⟩ <;> cases h
      simp
  · simp only [hf, if_false]
    split
    · cases hr : inPeek s with
      | none => refine ⟨fun _ _ h => ?_, fun _ h => ?_, fun _ h => ?_, fun _ => ?_⟩ <;> first | cases h | simp
      | some p =>
        obtain ⟨k, u⟩ := p
        cases k with
        | eos => refine ⟨fun _ _ h => ?_, fun _ h => ?_, fun _ h => ?_, fun h => ?_⟩ <;> cases h; simp
        | byte b =>
          obtain ⟨rest, rfl⟩ : ∃ rest, u = { s with la := some (.byte b), inp := rest } := ⟨_, (inPeek_some hr).2.2⟩
          refine ⟨fun _ _ h => ?_, fun _ h => ?_, fun _ h => ?_, fun h => ?_⟩ <;> cases h
          simp
    · refine ⟨fun _ _ h => ?_, fun _ h => ?_, fun _ h => ?_, fun h => ?_⟩ <;> cases h
      simp

/-- One core step of readBits in progress, by what one step of readBit comes to. -/
theorem coreStep_get (n k : Nat) (v : Word) (ts : List Task) (h : s.seq = .run (.get n k v :: ts)) (hk : k < n) :
    coreStep c s =
      match readBitStep { s with seq := .run ts } with
      | .hold => none
      | .again u => some { u with seq := .run (.get n k v :: ts) }
      | .na u => some { u with got := .na v k }
      | .bit b u => some { u with seq := .run (.get n (k + 1) (setBitAt v k b) :: ts) } := by
  obtain ⟨f1, -, f3, -⟩ := readBitStep_frame { s with seq := .run ts }
  rw [coreStep_task h]
  have hr : runTask (.get n k v) { s with seq := .run ts } = taskGet n k v { s with seq := .run ts } := rfl
  rw [hr, taskGet, if_neg (by omega)]
  cases hb : readBitStep { s with seq := .run ts } with
  | hold => rfl
  | again u =>
    have hu : u.seq = .run ts := by rw [f1 u hb]
    show some (pushTasks [.get n k v] u) = _
    rw [pushTasks_run _ _ ts hu]
    rfl
  | na u => rfl
  | bit b u =>
    have hu : u.seq = .run ts := by rw [f3 b u hb]
    show some (pushTasks [.get n (k + 1) (setBitAt v k b)] u) = _
    rw [pushTasks_run _ _ ts hu]
    rfl

/-- UNPACK_BIT's or WALK's readBit when RD_EOS = 1 takes one core step: NA with no bit obtained, and nothing read. -/
theorem coreStep_askBit_eos (ts : List Task) (h : s.seq = .run (.askBit :: ts)) (he : s.rd.eos = true) :
    coreStep c s = some { s with seq := .run ts, got := .na 0 0 } := by
  have hr : runTask .askBit { s with seq := .run ts } = taskAskBit { s with seq := .run ts } := rfl
  rw [coreStep_task h, hr, taskAskBit_eos (s := { s with seq := .run ts }) he]

/-- UNPACK_BIT's or WALK's readBit while RD_EOS = 0 is readBits(1) in progress: `coreStep_get` and `coreRun_get` say what it
does. -/
theorem coreStep_askBit_open (ts : List Task) (h : s.seq = .run (.askBit :: ts)) (he : s.rd.eos = false) :
    coreStep c s = coreStep c { s with seq := .run (.get 1 0 0 :: ts) } := by
  have hr : runTask (.askBit) { s with seq := .run ts } = taskAskBit { s with seq := .run ts } := rfl
  rw [coreStep_task h, coreStep_task (s := { s with seq := .run (.get 1 0 0 :: ts) }) rfl, hr,
    taskAskBit_open (s := { s with seq := .run ts }) he]
  rfl

/-- UNPACK_BYTE's readBits when RD_EOS = 1 takes one core step, over the bits held. -/
theorem coreStep_askByte_eos (ts : List Task) (h : s.seq = .run (.askByte :: ts)) (he : s.rd.eos = true) :
    coreStep c s =
      some
        { (takeHeld 8 0 0 { s with seq := .run ts }).2 with got := (takeHeld 8 0 0 { s with seq := .run ts }).1 } := by
  have hr : runTask .askByte { s with seq := .run ts } = taskAskByte { s with seq := .run ts } := rfl
  rw [coreStep_task h, hr, taskAskByte_eos (s := { s with seq := .run ts }) he]

/-- UNPACK_BYTE's readBits while RD_EOS = 0 is readBits(8) in progress with no bit read. -/
theorem coreStep_askByte_open (ts : List Task) (h : s.seq = .run (.askByte :: ts)) (he : s.rd.eos = false) :
    coreStep c s = coreStep c { s with seq := .run (.get 8 0 0 :: ts) } := by
  have hr : runTask .askByte { s with seq := .run ts } = taskAskByte { s with seq := .run ts } := rfl
  rw [coreStep_task h, coreStep_task (s := { s with seq := .run (.get 8 0 0 :: ts) }) rfl, hr,
    taskAskByte_open (s := { s with seq := .run ts }) he]
  rfl

/-- Reading the bits held is readBits, bit for bit, where RD_EOS = 1 and no limit is set (41_bitio.md R204, R205). -/
theorem readBits_held (n k : Nat) (v : Word) (he : s.rd.eos = true) (hl : s.unpk.limitEn = false)
    (hv : v.toNat < 2 ^ k) : readBitsFrom n k v s = some (takeHeld n k v s) := by
  induction n generalizing k v s with
  | zero => rfl
  | succ n ih =>
    by_cases hf : s.rd.fill = 0
    · have hn : noneHeld s = true := by simp [noneHeld, hf]
      rw [takeHeld_none n k v hn]
      simp [readBitsFrom, readBit, hf, he]
    · have hn : noneHeld s = false := by rw [noneHeld, decide_eq_false hf, hl]; rfl
      have hb : readBit s = some (some (nextHeld s), dropHeld s) := by
        rw [readBit, if_neg hf, readHeld, if_neg (by simp [hl])]
        rfl
      rw [takeHeld_some n k v hn, setBitAt_fresh v k _ hv, readBitsFrom, hb]
      exact ih (s := dropHeld s) (k + 1) _ he hl (setBit_lt v k _ hv)

/-- One bit of readBits on the sequencer takes one core step or two: the second if a byte is taken first. -/
theorem coreRun_getBit (n k : Nat) (v : Word) (ts : List Task) (h : s.seq = .run (.get n k v :: ts)) (hk : k < n)
    {o : Option Bool} (hr : readBit { s with seq := .run ts } = some (o, t)) :
    t.seq = .run ts ∧ ∃ m, 1 ≤ m ∧ m ≤ 2 ∧
      coreRun m c s =
        match o with
        | none => { t with got := .na v k }
        | some b => { t with seq := .run (.get n (k + 1) (setBitAt v k b) :: ts) } := by
  have last : ∀ u : State, u.seq = .run (.get n k v :: ts) → readBit { u with seq := .run ts } = some (o, t) →
      (∀ w, readBitStep { u with seq := .run ts } ≠ .again w) →
      t.seq = .run ts ∧
        coreRun 1 c u =
          match o with
          | none => { t with got := .na v k }
          | some b => { t with seq := .run (.get n (k + 1) (setBitAt v k b) :: ts) } := by
    intro u hu hru hna
    have hs := coreStep_get (c := c) n k v ts hu hk
    obtain ⟨-, f2, f3, -⟩ := readBitStep_frame { u with seq := .run ts }
    obtain ⟨r1, r2, -, r4⟩ := readBit_of_step { u with seq := .run ts }
    cases hb : readBitStep { u with seq := .run ts } with
    | hold => rw [r4 hb] at hru; cases hru
    | again w => exact absurd hb (hna w)
    | na w =>
      have hq : w.seq = .run ts := by rw [f2 w hb]
      rw [r2 w hb] at hru
      cases hru
      rw [hb] at hs
      exact ⟨hq, coreRun_some 0 hs⟩
    | bit b w =>
      have hq : w.seq = .run ts := by rw [f3 b w hb]
      rw [r1 b w hb] at hru
      cases hru
      rw [hb] at hs
      exact ⟨hq, coreRun_some 0 hs⟩
  cases hb : readBitStep { s with seq := .run ts } with
  | again w =>
    obtain ⟨e1, e2, -⟩ := (readBit_of_step { s with seq := .run ts }).2.2.1 w hb
    have hw : w.seq = .run ts := by rw [(readBitStep_frame { s with seq := .run ts }).1 w hb]
    have hs := coreStep_get (c := c) n k v ts h hk
    rw [hb] at hs
    have hback : ({ w with seq := .run ts } : State) = w := by rw [← hw]
    obtain ⟨g1, g2⟩ := last { w with seq := .run (.get n k v :: ts) } rfl (by
      show readBit { w with seq := .run ts } = _
      rw [hback, ← e1, hr]) (by
      intro x hx
      have hx' : readBitStep w = .again x := by rw [← hback]; exact hx
      have h0 := ((readBit_of_step w).2.2.1 x hx').2.2
      rw [e2] at h0
      exact absurd h0 (by decide))
    refine ⟨g1, 2, by omega, by omega, ?_⟩
    rw [coreRun_some 1 hs]
    exact g2
  | hold =>
    obtain ⟨g1, g2⟩ := last s h hr (by intro w hw; rw [hb] at hw; cases hw)
    exact ⟨g1, 1, by omega, by omega, g2⟩
  | na u =>
    obtain ⟨g1, g2⟩ := last s h hr (by intro w hw; rw [hb] at hw; cases hw)
    exact ⟨g1, 1, by omega, by omega, g2⟩
  | bit b u =>
    obtain ⟨g1, g2⟩ := last s h hr (by intro w hw; rw [hb] at hw; cases hw)
    exact ⟨g1, 1, by omega, by omega, g2⟩

/-- readBits on the sequencer: where the tokens suffice, at most two core steps a bit and one for the end; what it
leaves is what `readBitsFrom` says, with the answer in `got` (41_bitio.md R205). -/
theorem coreRun_get (d k : Nat) (v : Word) (ts : List Task) (h : s.seq = .run (.get (k + d) k v :: ts))
    (hv : v.toNat < 2 ^ k) {r : ReadResult} (hr : readBitsFrom d k v { s with seq := .run ts } = some (r, t)) :
    t.seq = .run ts ∧ ∃ m, m ≤ 2 * d + 1 ∧ coreRun m c s = { t with got := r } := by
  induction d generalizing k v s with
  | zero =>
    rw [readBitsFrom] at hr
    cases hr
    refine ⟨rfl, 1, by omega, coreRun_some 0 ?_⟩
    rw [coreStep_task h]
    show (match taskGet k k v { s with seq := .run ts } with
      | .hold => none | .ok u => some u | .err e u => some (raiseError c e u)) = _
    rw [taskGet, if_pos le_rfl]
  | succ d ih =>
    rw [readBitsFrom] at hr
    cases hb : readBit { s with seq := .run ts } with
    | none => rw [hb] at hr; cases hr
    | some p =>
      obtain ⟨o, u⟩ := p
      obtain ⟨hu, m, hm1, hm2, hrun⟩ := coreRun_getBit (c := c) (k + (d + 1)) k v ts h (by omega) hb
      rw [hb] at hr
      cases o with
      | none =>
        cases hr
        exact ⟨hu, m, by omega, hrun⟩
      | some b =>
        have hseq : ({ u with seq := .run ts } : State) = u := by rw [← hu]
        have e1 : k + (d + 1) = k + 1 + d := by omega
        rw [e1] at hrun
        obtain ⟨g1, m', hm', hrun'⟩ := ih (s := { u with seq := .run (.get (k + 1 + d) (k + 1) (setBitAt v k b) :: ts) })
          (k + 1) (setBitAt v k b) rfl (by rw [setBitAt_fresh v k b hv]; exact setBit_lt v k b hv) (by
            show readBitsFrom d (k + 1) (setBitAt v k b) { u with seq := .run ts } = _
            rw [hseq, setBitAt_fresh v k b hv]
            exact hr)
        refine ⟨g1, m + m', by omega, ?_⟩
        rw [coreRun_add, hrun]
        exact hrun'

end Sys2Proof.Machine
end

