-- ==== Sys2Proof/Laws/Bus.lean ====
section
/-!
SUPPORT. Laws/Bus.lean: where an address lies, what a bus access can change, and what a host's turn is.
-/

namespace Sys2Proof.Machine

variable {s : State}

/-! ### The address map (20_memory.md R81) -/

theorem locate_reg {a : Addr} {r : Reg} (h : a.toNat < 0x3C) (hr : regTable[a.toNat / 4]? = some r) :
    locate a = .reg r := by simp [locate, h, hr]

theorem locate_freq {a : Addr} (h1 : 0x400 ≤ a.toNat) (h2 : a.toNat < 0x800) :
    locate a = .freq ((a.toNat - 0x400) / 4) := by
  simp only [locate, h1, h2, and_self, if_true]
  rw [if_neg (by omega)]

theorem locate_tree {a : Addr} (h1 : 0x2000 ≤ a.toNat) (h2 : a.toNat < 0x3FF0) :
    locate a = .tree ((a.toNat - 0x2000) / 16) ((a.toNat - 0x2000) / 4 % 4) := by
  simp only [locate, h1, h2, and_self, if_true]
  rw [if_neg (by omega), if_neg (by omega)]

theorem locate_code {a : Addr} (h1 : 0x4000 ≤ a.toNat) (h2 : a.toNat < 0x8000) :
    locate a = .code ((a.toNat - 0x4000) / 64) ((a.toNat - 0x4000) / 4 % 16) := by
  simp only [locate, h1, h2, and_self, if_true]
  rw [if_neg (by omega), if_neg (by omega), if_neg (by omega)]

/-! ### Accesses -/

theorem busWrite_illegal {access : Access} {a : Addr} (h : legalAccess access a = false) (v : Word) (s : State) :
    busWrite access a v s = (.writeErr, s) := by simp [busWrite, h]

theorem busWrite_idle {access : Access} {a : Addr} (h : legalAccess access a = true) (hb : busy s = false) (v : Word) :
    busWrite access a v s = (.writeOk, writeIdle (locate a) v s) := by simp [busWrite, h, hb]

theorem busWrite_busy {access : Access} {a : Addr} (h : legalAccess access a = true) (hb : busy s = true) (v : Word) :
    busWrite access a v s = (.writeOk, writeBusy (locate a) v s) := by simp [busWrite, h, hb]

/-- A reading changes nothing, or takes one draw. -/
theorem takeReading_cases (r : Reading) (s : State) :
    (∃ v, takeReading r s = (v, s)) ∨ (∃ v, takeReading r s = (v, { s with draws := s.draws + 1 })) := by
  cases r with
  | fixed v => exact .inl ⟨v, rfl⟩
  | drawn f => exact .inr ⟨_, rfl⟩

/-- A reset's effect (70_reset_and_hazards.md R400, R401): what goes on is N_MAX, the ports and the model's own
account. -/
@[simp] theorem resetCore_seq (s : State) : (resetCore s).seq = .idle := rfl

@[simp] theorem resetCore_nMax (s : State) : (resetCore s).nMax = s.nMax := rfl

@[simp] theorem resetCore_inp (s : State) : (resetCore s).inp = s.inp := rfl

@[simp] theorem resetCore_out (s : State) : (resetCore s).out = s.out := rfl

/-! ### The host's turn (20_memory.md R93) -/

theorem hostTurn_action {a : HostAct} {k : Nat} {rest : List (HostAct × Nat)} (h : s.agenda = (a, k) :: rest) :
    hostTurn s =
      { (hostAct a { s with agenda := rest }).2 with
        log := (hostAct a { s with agenda := rest }).2.log ++ [(hostAct a { s with agenda := rest }).1], turn := k } := by
  simp [hostTurn, h]

theorem hostTurn_busy (h : s.agenda = []) (hb : busy s = true) :
    hostTurn s = { s with turn := Config.fairTurn } := by simp [hostTurn, h, hb]

/-- An idle block with no host action does nothing (60_exceptions.md R385). -/
theorem hostTurn_idle (h : s.agenda = []) (hb : busy s = false) : hostTurn s = s := by simp [hostTurn, h, hb]

end Sys2Proof.Machine
end

