-- ==== Sys2Proof/Laws/PerInstr.lean ====
section
/-!
SUPPORT. Laws/PerInstr.lean: the family `Encoding`: what the word of each command holds in its three fields
(30_encoding.md R120 to R122). One lemma per constructor.
-/

namespace Sys2Proof.Laws.Encoding

/-- The word of a well-formed command has RSV = 0, its own OPC, and N = 0 unless it is PACK_BITS, whose N is its bit
count. -/
def Statement (i : Instr) : Prop :=
  i.wellFormed = true →
    fieldRsv (encodeWord i) = 0 ∧ fieldOpc (encodeWord i) = opcodeOf i ∧ (fieldN (encodeWord i)).toNat = countField i

theorem nop : Statement .nop := by intro; decide

theorem packBit : Statement .packBit := by intro; decide

theorem packByte : Statement .packByte := by intro; decide

theorem packBits (n : Nat) : Statement (.packBits n) := by
  intro h
  have hn : n < 256 := by simpa [Instr.wellFormed] using h
  refine ⟨?_, ?_, ?_⟩
  · apply BitVec.eq_of_getLsbD_eq
    intro k hk
    simp only [fieldRsv, encodeWord, BitVec.getLsbD_extractLsb', BitVec.getLsbD_append]
    simp [show ¬ 16 + k < 8 by omega, show ¬ 16 + k - 8 < 8 by omega]
  · apply BitVec.eq_of_getLsbD_eq
    intro k hk
    simp only [fieldOpc, encodeWord, BitVec.getLsbD_extractLsb', BitVec.getLsbD_append]
    simp [hk]
  · have h1 : fieldN (encodeWord (.packBits n)) = BitVec.ofNat 8 n := by
      apply BitVec.eq_of_getLsbD_eq
      intro k hk
      simp only [fieldN, encodeWord, BitVec.getLsbD_extractLsb', BitVec.getLsbD_append, countField]
      simp [hk]
    rw [h1]
    simp [countField, Nat.mod_eq_of_lt hn]

theorem flush : Statement .flush := by intro; decide

theorem unpackBit : Statement .unpackBit := by intro; decide

theorem unpackByte : Statement .unpackByte := by intro; decide

theorem unpackReset : Statement .unpackReset := by intro; decide

theorem load : Statement .load := by intro; decide

theorem count : Statement .count := by intro; decide

theorem build : Statement .build := by intro; decide

theorem gencode : Statement .gencode := by intro; decide

theorem emit : Statement .emit := by intro; decide

theorem serialize : Statement .serialize := by intro; decide

theorem deserialize : Statement .deserialize := by intro; decide

theorem encode : Statement .encode := by intro; decide

theorem decode : Statement .decode := by intro; decide

theorem walk : Statement .walk := by intro; decide

end Sys2Proof.Laws.Encoding
end

