-- ==== Sys2Proof/Laws/Store.lean ====
section
/-!
SUPPORT. Laws/Store.lean: the internal memories: a read after a write, every other place unchanged, and the canonical
form kept by every memory operation.
-/

namespace Sys2Proof.Machine

variable {α : Type}

/-! ### A read after a write -/

theorem storeGet_storePut (m : Store α) (a b : Nat) (v : α) :
    storeGet (storePut m a v) b = if b = a then some v else storeGet m b := by
  induction m with
  | nil => simp [storePut, storeGet, eq_comm]
  | cons p rest ih =>
    obtain ⟨k, w⟩ := p
    by_cases h1 : a < k
    · by_cases hb : b = a
      · subst hb; simp [storePut, storeGet, h1]
      · simp [storePut, storeGet, h1, hb, Ne.symm hb]
    · by_cases h2 : k = a
      · subst h2
        by_cases hb : b = k
        · subst hb; simp [storePut, storeGet]
        · simp [storePut, storeGet, hb, Ne.symm hb]
      · by_cases h3 : k = b
        · subst h3; simp [storePut, storeGet, h1, h2]
        · simp [storePut, storeGet, h1, h2, h3, ih]

theorem storeGet_storeErase (m : Store α) (a b : Nat) :
    storeGet (storeErase m a) b = if b = a then none else storeGet m b := by
  induction m with
  | nil => simp [storeErase, storeGet]
  | cons p rest ih =>
    obtain ⟨k, w⟩ := p
    simp only [storeErase] at ih ⊢
    by_cases hk : k = a
    · subst hk
      by_cases hb : b = k
      · subst hb; simpa using ih
      · simpa [storeGet, hb, Ne.symm hb] using ih
    · by_cases hb : k = b
      · subst hb; simp [storeGet, hk]
      · simpa [storeGet, hk, hb] using ih

/-- Reading with the default `d` what was written: the value, and elsewhere what was there. -/
theorem storeGet_storeWrite [DecidableEq α] (d : Option α) (m : Store α) (a b : Nat) (v : α) :
    (storeGet (storeWrite d m a v) b).or d = if b = a then some v else (storeGet m b).or d := by
  unfold storeWrite
  by_cases hd : d = some v
  · by_cases hb : b = a <;> simp [hd, hb, storeGet_storeErase]
  · by_cases hb : b = a <;> simp [hd, hb, storeGet_storePut]

/-- Without a default a write lists the value. -/
@[simp] theorem storeGet_storeWrite_none [DecidableEq α] (m : Store α) (a b : Nat) (v : α) :
    storeGet (storeWrite none m a v) b = if b = a then some v else storeGet m b := by
  simp [storeWrite, storeGet_storePut]

theorem storeWrite_getD [DecidableEq α] (d : α) (m : Store α) (a b : Nat) (v : α) :
    (storeGet (storeWrite (some d) m a v) b).getD d = if b = a then v else (storeGet m b).getD d := by
  unfold storeWrite
  by_cases hd : d = v
  · by_cases hb : b = a <;> simp [hd, hb, storeGet_storeErase]
  · by_cases hb : b = a <;> simp [hd, hb, storeGet_storePut]

/-- FREQ: a counter written reads back, every other counter keeps its value. -/
@[simp] theorem freqGet_freqSet (f : Store Word) (a b : Nat) (v : Word) :
    freqGet (freqSet f a v) b = if b = a then v else freqGet f b := storeWrite_getD 0 f a b v

/-- CODE: an entry written reads back, every other entry keeps its value. -/
@[simp] theorem codeGet_writeCode (s : State) (a b : Nat) (e : CodeEntry) :
    codeGet (writeCode a e s).code b = if b = a then e else codeGet s.code b :=
  storeWrite_getD clearedEntry s.code a b e

/-- BUF: a byte written reads back, every other byte keeps its value. -/
@[simp] theorem bufAt_writeBuf (s : State) (a b : Nat) (v : Byte) :
    bufAt (writeBuf a v s) b = if b = a then v else bufAt s b := by
  by_cases h : b = a <;> simp [bufAt, writeBuf, h]

/-- TREE: an entry written reads back, every other entry keeps its value. -/
@[simp] theorem nodeAt_writeNode (s : State) (a b : Nat) (n : Node) :
    nodeAt (writeNode a n s) b = if b = a then n else nodeAt s b := by
  by_cases h : b = a <;> simp [nodeAt, writeNode, h]

theorem freqGet_nil (a : Nat) : freqGet [] a = 0 := rfl

theorem codeGet_nil (a : Nat) : codeGet [] a = clearedEntry := rfl

/-! ### The canonical form -/

theorem storePut_mem {m : Store α} {a : Nat} {v : α} {p : Nat × α} (h : p ∈ storePut m a v) :
    p = (a, v) ∨ p ∈ m := by
  induction m with
  | nil => simpa [storePut] using h
  | cons q rest ih =>
    obtain ⟨k, w⟩ := q
    simp only [storePut] at h
    split at h
    · simpa using h
    · split at h
      · simp only [List.mem_cons] at h ⊢; tauto
      · simp only [List.mem_cons] at h ⊢
        rcases h with h | h
        · exact .inr (.inl h)
        · rcases ih h with h | h <;> tauto

theorem storeErase_mem {m : Store α} {a : Nat} {p : Nat × α} (h : p ∈ storeErase m a) : p ∈ m :=
  List.mem_of_mem_filter h

theorem storeWrite_mem [DecidableEq α] {d : Option α} {m : Store α} {a : Nat} {v : α} {p : Nat × α}
    (h : p ∈ storeWrite d m a v) : (p = (a, v) ∧ d ≠ some v) ∨ p ∈ m := by
  unfold storeWrite at h
  split at h
  · exact .inr (storeErase_mem h)
  · rename_i hd
    rcases storePut_mem h with h | h
    · exact .inl ⟨h, hd⟩
    · exact .inr h

theorem storePut_pairwise {m : Store α} (a : Nat) (v : α) (h : m.Pairwise (fun x y => x.1 < y.1)) :
    (storePut m a v).Pairwise (fun x y => x.1 < y.1) := by
  induction m with
  | nil => simp [storePut]
  | cons q rest ih =>
    obtain ⟨k, w⟩ := q
    rw [List.pairwise_cons] at h
    simp only [storePut]
    split
    · rename_i hak
      refine List.pairwise_cons.2 ⟨fun p hp => ?_, List.pairwise_cons.2 h⟩
      rcases List.mem_cons.1 hp with rfl | hp
      · exact hak
      · exact hak.trans (h.1 p hp)
    · rename_i hak
      split
      · rename_i hk
        subst hk
        exact List.pairwise_cons.2 h
      · rename_i hk
        refine List.pairwise_cons.2 ⟨fun p hp => ?_, ih h.2⟩
        rcases storePut_mem hp with rfl | hp
        · show k < a
          omega
        · exact h.1 p hp

/-- A write keeps the canonical form. -/
theorem storeWf_storeWrite [DecidableEq α] {d : Option α} {m : Store α} (a : Nat) (v : α) (h : storeWf d m) :
    storeWf d (storeWrite d m a v) := by
  refine ⟨?_, fun p hp => ?_⟩
  · unfold storeWrite
    split
    · exact h.1.filter _
    · exact storePut_pairwise a v h.1
  · rcases storeWrite_mem hp with ⟨rfl, hd⟩ | hp
    · exact hd
    · exact h.2 p hp

theorem storeWf_nil [DecidableEq α] (d : Option α) : storeWf d ([] : Store α) :=
  ⟨List.Pairwise.nil, fun p hp => by cases hp⟩

/-- A write below a bound keeps every key below it. -/
theorem storeWrite_range [DecidableEq α] {d : Option α} {m : Store α} {a n : Nat} (v : α) (ha : a < n)
    (h : ∀ p ∈ m, p.1 < n) : ∀ p ∈ storeWrite d m a v, p.1 < n := by
  intro p hp
  rcases storeWrite_mem hp with ⟨rfl, -⟩ | hp
  · exact ha
  · exact h p hp

/-- Every memory operation keeps the canonical form: a byte of BUF. -/
theorem writeBuf_wf {s : State} (j : Nat) (b : Byte) (h : Memory.wf s.buf) : Memory.wf (writeBuf j b s).buf :=
  storeWf_storeWrite j b h

theorem freqSet_wf {f : Store Word} (a : Nat) (v : Word) (h : storeWf (some 0) f) :
    storeWf (some 0) (freqSet f a v) := storeWf_storeWrite a v h

theorem writeNode_wf {s : State} (i : Nat) (n : Node) (h : storeWf none s.tree) :
    storeWf none (writeNode i n s).tree := storeWf_storeWrite i n h

theorem writeCode_wf {s : State} (a : Nat) (e : CodeEntry) (h : storeWf (some clearedEntry) s.code) :
    storeWf (some clearedEntry) (writeCode a e s).code := storeWf_storeWrite a e h

/-- BUILD's leaves. -/
theorem writeNodes_wf {s : State} (l : List (Nat × Node)) (h : storeWf none s.tree) :
    storeWf none (writeNodes l s).tree := by
  induction l generalizing s with
  | nil => exact h
  | cons p rest ih => exact ih (writeNode_wf p.1 p.2 h)

/-- COUNT's tally. -/
theorem countedFreq_wf (s : State) (n : Nat) : storeWf (some 0) (countedFreq s n) := by
  unfold countedFreq
  generalize List.range n = l
  suffices h : ∀ f : Store Word, storeWf (some 0) f →
      storeWf (some 0) (l.foldl (fun f j => bumpFreq f (bufAt s j)) f) from h [] (storeWf_nil _)
  induction l with
  | nil => exact fun f hf => hf
  | cons j rest ih => exact fun f hf => ih _ (freqSet_wf _ _ hf)

/-- The link of a node under its parent. -/
theorem linkChild_wf {s : State} (p : List Pending) (k : Nat) (h : storeWf none s.tree) :
    storeWf none (linkChild p k s).2.tree := by
  unfold linkChild
  split
  · exact h
  · dsimp only
    split
    · exact writeNode_wf _ _ h
    · exact writeNode_wf _ _ h

/-- The memories of the reset machine are in canonical form. -/
theorem reset_memories_wf :
    Memory.wf State.reset.buf ∧ storeWf (some 0) State.reset.freq ∧ storeWf none State.reset.tree ∧
      storeWf (some clearedEntry) State.reset.code :=
  ⟨storeWf_nil _, storeWf_nil _, storeWf_nil _, storeWf_nil _⟩

/-! ### Keys and values of canonical tables -/

/-- In a canonical table an unlisted key is unlisted by its absence. -/
theorem storeGet_mem {m : Store α} {a : Nat} {v : α} (h : storeGet m a = some v) : (a, v) ∈ m := by
  induction m with
  | nil => simp [storeGet] at h
  | cons p rest ih =>
    obtain ⟨k, w⟩ := p
    simp only [storeGet] at h
    split at h
    · rename_i hk
      subst hk
      cases h
      exact List.mem_cons_self
    · exact List.mem_cons_of_mem _ (ih h)

end Sys2Proof.Machine
end

