-- ==== Sys2Proof/Laws/Tasks.lean ====
section
/-!
SUPPORT. Laws/Tasks.lean: what no task, no core step and no turn can change.
-/

namespace Sys2Proof.Machine

variable {c : Command} {s t u : State}

/-- The fields that only the host writes, and the model's account of the host. -/
def HostSame (s t : State) : Prop :=
  t.nMax = s.nMax ∧ t.ctrl = s.ctrl ∧ t.cmd = s.cmd ∧ t.arg = s.arg ∧ t.draws = s.draws ∧ t.agenda = s.agenda ∧
    t.log = s.log ∧ t.turn = s.turn

theorem HostSame.refl (s : State) : HostSame s s := ⟨rfl, rfl, rfl, rfl, rfl, rfl, rfl, rfl⟩

theorem HostSame.trans (h : HostSame s t) (k : HostSame t u) : HostSame s u := by
  obtain ⟨h1, h2, h3, h4, h5, h6, h7, h8⟩ := h
  obtain ⟨k1, k2, k3, k4, k5, k6, k7, k8⟩ := k
  exact ⟨k1.trans h1, k2.trans h2, k3.trans h3, k4.trans h4, k5.trans h5, k6.trans h6, k7.trans h7, k8.trans h8⟩

theorem pushTasks_hostSame (ts : List Task) (s : State) : HostSame s (pushTasks ts s) := by
  simp [HostSame]

theorem inRead_hostSame {k : InTok} (h : inRead s = some (k, t)) : HostSame s t := by
  rw [(inRead_some h).2]
  exact HostSame.refl s

theorem inPeek_hostSame {k : InTok} (h : inPeek s = some (k, t)) : HostSame s t := by
  rw [(inPeek_some h).2.2]
  exact HostSame.refl s

theorem writeBit_hostSame (b : Bool) (s : State) : HostSame s (writeBit b s) := by
  rcases writeBit_cases b s with ⟨-, h⟩ | ⟨-, h⟩ <;> rw [h] <;> exact HostSame.refl s

theorem flushPacker_hostSame (s : State) : HostSame s (flushPacker s) := by
  rcases flushPacker_cases s with ⟨-, h⟩ | ⟨-, h⟩ <;> rw [h] <;> exact HostSame.refl s

theorem writeNodes_hostSame (l : List (Nat × Node)) (s : State) : HostSame s (writeNodes l s) := by
  induction l generalizing s with
  | nil => exact HostSame.refl s
  | cons p rest ih => exact HostSame.trans ⟨rfl, rfl, rfl, rfl, rfl, rfl, rfl, rfl⟩ (ih (writeNode p.1 p.2 s))

theorem linkChild_hostSame (p : List Pending) (k : Nat) (s : State) : HostSame s (linkChild p k s).2 := by
  unfold linkChild
  split
  · exact HostSame.refl s
  · dsimp only
    split <;> exact HostSame.refl s

theorem readBitStep_hostSame (s : State) :
    (∀ t, readBitStep s = .again t → HostSame s t) ∧ (∀ t, readBitStep s = .na t → HostSame s t) ∧
      ∀ b t, readBitStep s = .bit b t → HostSame s t := by
  obtain ⟨f1, f2, f3, -⟩ := readBitStep_frame s
  refine ⟨fun t h => ?_, fun t h => ?_, fun b t h => ?_⟩
  · rw [f1 t h]; exact HostSame.refl s
  · rw [f2 t h]; exact HostSame.refl s
  · rw [f3 b t h]; exact HostSame.refl s

/-- The state a task leaves, whether it answers or raises. -/
def TaskResult.leaves : TaskResult → State → Prop
  | .hold, _ => False
  | .ok u, t => t = u
  | .err _ u, t => t = u

theorem takeHeld_hostSame (n k : Nat) (v : Word) (s : State) : HostSame s (takeHeld n k v s).2 := by
  obtain ⟨f, hf⟩ := takeHeld_frame n k v s
  rw [hf]
  exact HostSame.refl s

/-- No task writes N_MAX, CTRL, CMD, ARG or the model's account of the host (40_command.md R174, R175). -/
theorem runTask_hostSame (k : Task) (h : (runTask k s).leaves t) : HostSame s t := by
  cases k
  all_goals
    simp only [runTask, taskPut, taskGet, taskAskBit, taskAskByte, taskDrain, taskLoad, taskLoadLoop, taskLoadDiscard,
      taskCount, taskBuild, taskBuildMerge, taskGencode, taskGencodeWalk, taskEmit, taskEmitLoop, taskSerialize, taskSerializeWalk,
      taskDeserialize, taskDeserTag, taskDeserSymbol, deserNext, taskWalk, taskWalkBit, taskEncodeInit, taskEncodeMode,
      taskEncodeHeader, taskEncodeFinish, taskDecodeInit, taskDecodeTag, taskDecodeRaw, taskDecodeSymbol,
      taskDecodeCount, taskOutRepeat, taskDecodeMb, taskDecodeWalked, taskDecodeFinish, askTag, askBit, askRaw,
      encodeRaw, encodeSingle, encodeHuffman, finishBuild] at h
  all_goals (repeat' split at h)
  all_goals simp only [TaskResult.leaves] at h
  all_goals try subst h
  all_goals try (simp [HostSame]; done)
  all_goals first
    | exact flushPacker_hostSame s
    | (have h1 := inRead_hostSame ‹_›
       simp only [HostSame] at h1 ⊢
       simp [h1])
    | (have h1 := (readBitStep_hostSame s).1 _ ‹_›
       simp only [HostSame] at h1 ⊢
       simp [h1])
    | (have h1 := (readBitStep_hostSame s).2.1 _ ‹_›
       simp only [HostSame] at h1 ⊢
       simp [h1])
    | (have h1 := (readBitStep_hostSame s).2.2 _ _ ‹_›
       simp only [HostSame] at h1 ⊢
       simp [h1])
    | (have h1 := writeBit_hostSame
       have h2 := writeNodes_hostSame
       have h3 := linkChild_hostSame
       have h4 := takeHeld_hostSame
       simp only [HostSame] at h1 h2 h3 h4 ⊢
       simp [h1, h2, h3, h4])

/-- Nor does a core step. -/
theorem coreStep_hostSame (h : coreStep c s = some t) : HostSame s t := by
  rcases coreStep_cases h with ⟨-, rfl⟩ | ⟨-, rfl⟩ | ⟨k, ks, -, hk⟩ | ⟨k, ks, e, u, -, hk, rfl⟩
  · rcases beginCommand_cases c s with ⟨e, -, he⟩ | ⟨-, he⟩ <;> rw [he] <;> exact HostSame.refl s
  · exact HostSame.refl s
  · exact runTask_hostSame (s := { s with seq := .run ks }) k (by rw [hk]; rfl)
  · exact runTask_hostSame (s := { s with seq := .run ks }) (t := u) k (by rw [hk]; rfl)

/-- Nor does a turn. -/
theorem coreRun_hostSame (n : Nat) (c : Command) (s : State) : HostSame s (coreRun n c s) :=
  coreRun_keeps (fun u => HostSame s u) (fun _ _ hu hv => hu.trans (coreStep_hostSame hv)) n (HostSame.refl s)

/-- What no command's turn changes: N_MAX, CTRL, CMD, ARG, the draws, the agenda and the log. -/
theorem exec_hostSame {i : Instr} (h : exec i s = .next t) :
    t.nMax = s.nMax ∧ t.ctrl = s.ctrl ∧ t.cmd = s.cmd ∧ t.arg = s.arg ∧ t.draws = s.draws ∧ t.agenda = s.agenda ∧
      t.log = s.log := by
  rw [exec_next] at h
  cases h
  have hw : HostSame s (wake s) := by
    unfold wake
    split <;> exact HostSame.refl s
  obtain ⟨h1, h2, h3, h4, h5, h6, h7, -⟩ := hw.trans (coreRun_hostSame s.turn (commandOf i) (wake s))
  exact ⟨h1, h2, h3, h4, h5, h6, h7⟩

end Sys2Proof.Machine
end

