-- ==== Sys2Proof/Laws/Trees.lean ====
section
/-!
SUPPORT. Laws/Trees.lean: the trees of the arena: more fuel changes no shape, what a tree begun by DESERIALIZE
(`Partial`) holds, what linking one more node does to it, that the whole one is a shape, and that a round of BUILD's
loop keeps `Merging`.
-/

namespace Sys2Proof.Machine

/-! ### Shapes -/

theorem Shape.nodes_pos (sh : Shape) : 0 < sh.nodes := by cases sh <;> simp [Shape.nodes]

theorem Shape.single_iff (sh : Shape) : sh.single = true ↔ sh.nodes = 1 := by
  cases sh with
  | leaf sym => simp [Shape.single, Shape.nodes]
  | node l r =>
    have := l.nodes_pos
    have := r.nodes_pos
    simp [Shape.single, Shape.nodes]
    omega

theorem shapeOf_succ (tree : Store Node) (n x : Nat) (sh : Shape) (h : shapeOf n tree x = some sh) :
    shapeOf (n + 1) tree x = some sh := by
  induction n generalizing x sh with
  | zero => simp [shapeOf] at h
  | succ n ih =>
    unfold shapeOf at h ⊢
    cases hx : storeGet tree x with
    | none => simp [hx] at h
    | some e =>
      cases e with
      | leaf sym w => simpa [hx] using h
      | internal l r w =>
        simp only [hx] at h ⊢
        split at h
        · rename_i a b ha hb
          simpa [ih _ _ ha, ih _ _ hb] using h
        · simp at h

/-- More fuel changes no shape. -/
theorem shapeOf_le {m n : Nat} (hmn : m ≤ n) {tree : Store Node} {x : Nat} {sh : Shape}
    (h : shapeOf m tree x = some sh) : shapeOf n tree x = some sh := by
  induction hmn with
  | refl => exact h
  | step _ ih => exact shapeOf_succ _ _ _ _ ih

/-! ### Trees begun -/

namespace Partial

@[simp] theorem nodes_eq_zero (p : Partial) : p.nodes = 0 ↔ p = .gap := by cases p <;> simp [nodes]

theorem whole_ne_gap {p : Partial} (h : p.whole = true) : p ≠ .gap := by rintro rfl; simp [whole] at h

/-- No parent waits exactly when no child is to come. -/
theorem pending_eq_nil {p : Partial} (hp : p.preorder = true) (hg : p ≠ .gap) (i : Nat) :
    p.pending i = [] ↔ p.whole = true := by
  induction p generalizing i with
  | gap => exact absurd rfl hg
  | leaf sym => simp [pending, whole]
  | node l r _ ihr =>
    by_cases hr : r = .gap
    · subst hr; simp [pending, whole]
    · simp only [preorder, if_neg hr, Bool.and_eq_true] at hp
      simp [pending, whole, hr, hp.1, ihr hp.2 hr]

/-- Where a tree is laid out depends on its own entries only. -/
theorem laidOut_congr {t u : Store Node} (p : Partial) (i : Nat)
    (h : ∀ j, i ≤ j → j < i + p.nodes → storeGet u j = storeGet t j) (hl : p.laidOut t i) : p.laidOut u i := by
  induction p generalizing i with
  | gap => trivial
  | leaf sym =>
    obtain ⟨w, hw⟩ := hl
    exact ⟨w, (h i (Nat.le_refl _) (by simp [nodes])).trans hw⟩
  | node l r ihl ihr =>
    obtain ⟨⟨a, b, w, hw, ha, hb⟩, h1, h2⟩ := hl
    simp only [nodes] at h
    refine ⟨⟨a, b, w, (h i (Nat.le_refl _) (by omega)).trans hw, ha, hb⟩, ihl _ ?_ h1, ihr _ ?_ h2⟩ <;>
      intro j hj1 hj2 <;> exact h j (by omega) (by omega)

/-- A whole tree laid out in the arena is the shape there. -/
theorem shapeOf_laidOut {t : Store Node} (p : Partial) (i : Nat) (hw : p.whole = true) (hl : p.laidOut t i) :
    ∃ sh : Shape, shapeOf p.nodes t i = some sh ∧ sh.nodes = p.nodes := by
  induction p generalizing i with
  | gap => simp [whole] at hw
  | leaf sym =>
    obtain ⟨w, h⟩ := hl
    exact ⟨.leaf sym, by simp [nodes, shapeOf, h], rfl⟩
  | node l r ihl ihr =>
    obtain ⟨⟨a, b, w, h, ha, hb⟩, h1, h2⟩ := hl
    simp only [whole, Bool.and_eq_true] at hw
    obtain ⟨x, hx, hxn⟩ := ihl _ hw.1 h1
    obtain ⟨y, hy, hyn⟩ := ihr _ hw.2 h2
    refine ⟨.node x y, ?_, by simp [Shape.nodes, nodes, hxn, hyn]⟩
    rw [show (node l r).nodes = l.nodes + r.nodes + 1 by simp only [nodes]; omega, shapeOf]
    simp only [h, ha (whole_ne_gap hw.1), hb (whole_ne_gap hw.2), shapeOf_le (Nat.le_add_right _ _) hx,
      shapeOf_le (Nat.le_add_left _ _) hy]

/-- The next node comes into the first gap. -/
def fill (new : Partial) : Partial → Partial
  | .gap => new
  | .leaf sym => .leaf sym
  | .node l r => if l.whole then .node l (fill new r) else .node (fill new l) r

theorem fill_ne_gap {new : Partial} (hn : new ≠ .gap) (p : Partial) : fill new p ≠ .gap := by
  cases p with
  | gap => exact hn
  | leaf sym => simp [fill]
  | node l r => simp only [fill]; split <;> simp

theorem nodes_fill (new p : Partial) (hw : p.whole = false) : (fill new p).nodes = p.nodes + new.nodes := by
  induction p with
  | gap => simp [fill, nodes]
  | leaf sym => simp [whole] at hw
  | node l r ihl ihr =>
    by_cases hl : l.whole = true
    · have hr : r.whole = false := by simpa [whole, hl] using hw
      simp [fill, hl, nodes, ihr hr]; omega
    · simp [fill, hl, nodes, ihl (by simpa using hl)]; omega

theorem preorder_fill {new : Partial} (hn : new ≠ .gap) (hnp : new.preorder = true) (p : Partial)
    (hp : p.preorder = true) (hw : p.whole = false) : (fill new p).preorder = true := by
  induction p with
  | gap => exact hnp
  | leaf sym => simp [whole] at hw
  | node l r ihl ihr =>
    by_cases hl : l.whole = true
    · have hr : r.whole = false := by simpa [whole, hl] using hw
      have hrp : r.preorder = true := by
        by_cases hg : r = .gap
        · subst hg; rfl
        · simpa [preorder, hg, hl] using hp
      simp [fill, hl, preorder, fill_ne_gap hn, ihr hrp hr]
    · have hg : r = .gap := by
        by_cases hg : r = .gap
        · exact hg
        · simp [preorder, hg, hl] at hp
      subst hg
      simp only [preorder, if_true] at hp
      simp [fill, hl, preorder, ihl hp (by simpa using hl)]

/-- Linking one more node (45_tree_serializer.md R301). `new`, one node, stands at the next index; the top of the stack
gets it as a child. The tree is then laid out with the node in its first gap, the stack is the new tree's but for the
new node's own wait, and no entry outside the tree changes. -/
theorem linkChild_fill {new : Partial} (hn : new.nodes = 1) (p : Partial) (i : Nat) (rest : List Pending) (s : State)
    (hp : p.preorder = true) (hw : p.whole = false) (hg : p ≠ .gap) (hi : i + p.nodes < 512)
    (hl : p.laidOut s.tree i) (hnl : new.laidOut s.tree (i + p.nodes)) :
    let linked := linkChild (p.pending i ++ rest) (i + p.nodes) s
    (fill new p).laidOut linked.2.tree i ∧
    (fill new p).pending i ++ rest = new.pending (i + p.nodes) ++ linked.1 ∧
    ∀ j, j < i ∨ i + p.nodes ≤ j → storeGet linked.2.tree j = storeGet s.tree j := by
  have hng : new ≠ .gap := by rintro rfl; simp [nodes] at hn
  induction p generalizing i rest with
  | gap => exact absurd rfl hg
  | leaf sym => simp [whole] at hw
  | node l r ihl ihr =>
    obtain ⟨⟨a, b, w, h, ha, hb⟩, h1, h2⟩ := hl
    simp only [nodes] at hi hnl
    have hin : (BitVec.ofNat 9 i).toNat = i := by simp; omega
    by_cases hr : r = .gap
    · subst hr
      simp only [nodes, Nat.add_zero] at hi hnl
      have hk : (BitVec.ofNat 9 (i + (1 + l.nodes))).toNat = i + (1 + l.nodes) := by simp; omega
      by_cases hlg : l = .gap
      · subst hlg
        simp only [nodes, Nat.add_zero] at hi hnl hk
        simp only [pending, if_true, List.nil_append, nodes, Nat.add_zero, List.singleton_append, ne_eq,
          not_true_eq_false, decide_false, linkChild, hin, Bool.false_eq_true, if_false, nodeAt, h, Option.getD_some,
          setLeft, writeNode, fill, whole, hng, not_false_eq_true, decide_true, List.append_assoc,
          storeGet_storeWrite_none]
        refine ⟨⟨⟨_, b, w, (storeGet_storeWrite_none ..).trans (if_pos rfl), fun _ => hk,
            fun x => (x rfl).elim⟩, ?_, trivial⟩, trivial, ?_⟩
        · refine laidOut_congr new (i + 1) (fun j hj _ => ?_) hnl
          rw [storeGet_storeWrite_none, if_neg (by omega)]
        · intro j hj
          rw [if_neg (by omega)]
      · by_cases hlw : l.whole = true
        · simp only [preorder, if_true] at hp
          have hnil := (pending_eq_nil hp hlg (i + 1)).mpr hlw
          simp only [pending, if_true, hnil, List.nil_append, nodes, Nat.add_zero, List.singleton_append, ne_eq, hlg,
            not_false_eq_true, decide_true, linkChild, hin, nodeAt, h, Option.getD_some, setRight, writeNode, fill,
            hlw, hng, if_false, storeGet_storeWrite_none]
          refine ⟨⟨⟨a, _, w, (storeGet_storeWrite_none ..).trans (if_pos rfl), ha,
            fun _ => by rw [hk]; omega⟩, ?_, ?_⟩, by rw [Nat.add_assoc], ?_⟩
          · refine laidOut_congr l (i + 1) (fun j hj _ => ?_) h1
            rw [storeGet_storeWrite_none, if_neg (by omega)]
          · rw [Nat.add_assoc]
            refine laidOut_congr new _ (fun j hj _ => ?_) hnl
            rw [storeGet_storeWrite_none, if_neg (by omega)]
          · intro j hj
            rw [if_neg (by omega)]
        · have hlf : l.whole = false := by simpa using hlw
          simp only [preorder, if_true] at hp
          have e : i + (1 + l.nodes) = i + 1 + l.nodes := by omega
          rw [e] at hnl
          obtain ⟨k1, k2, k3⟩ := ihl (i + 1) ({ node := BitVec.ofNat 9 i, leftLinked := true } :: rest) hp hlf hlg
            (by omega) h1 hnl
          simp only [pending, if_true, List.append_assoc, List.singleton_append, nodes, Nat.add_zero, ne_eq, hlg,
            not_false_eq_true, decide_true, fill, hlw, Bool.false_eq_true, if_false, fill_ne_gap hng, e]
          refine ⟨⟨⟨a, b, w, (k3 i (Or.inl (by omega))).trans h, fun _ => ha hlg,
            fun x => (x rfl).elim⟩, k1, trivial⟩, ?_, ?_⟩
          · exact k2
          · intro j hj
            exact k3 j (by omega)
    · simp only [preorder, if_neg hr, Bool.and_eq_true] at hp
      have hrf : r.whole = false := by simpa [whole, hp.1] using hw
      have e : i + (1 + l.nodes + r.nodes) = i + 1 + l.nodes + r.nodes := by omega
      rw [e] at hnl
      obtain ⟨k1, k2, k3⟩ := ihr (i + 1 + l.nodes) rest hp.2 hrf hr (by omega) h2 hnl
      simp only [pending, if_neg hr, nodes, fill, hp.1, if_true, if_neg (fill_ne_gap hng r), e]
      refine ⟨⟨⟨a, b, w, (k3 i (Or.inl (by omega))).trans h, ha, fun _ => hb hr⟩, ?_, k1⟩, k2, ?_⟩
      · exact laidOut_congr l (i + 1) (fun j _ _ => k3 j (Or.inl (by omega))) h1
      · intro j hj
        exact k3 j (by omega)

end Partial

/-! ### Trees merged -/

/-- Where every entry below k is written and above its children, each is the root of a tree. -/
theorem shapeOf_below {tree : Store Node} {k : Nat}
    (h : ∀ i, i < k → (storeGet tree i).isSome = true ∧ ∀ c ∈ childrenOf tree i, c < i) (i : Nat) (hi : i < k) :
    ∃ sh, shapeOf (i + 1) tree i = some sh := by
  induction i using Nat.strongRecOn with
  | ind i ih =>
    obtain ⟨hs, hc⟩ := h i hi
    cases hx : storeGet tree i with
    | none => simp [hx] at hs
    | some e =>
      cases e with
      | leaf sym w => exact ⟨.leaf sym, by simp [shapeOf, hx]⟩
      | internal l r w =>
        simp only [childrenOf, hx, List.mem_cons, List.not_mem_nil, or_false] at hc
        have hl := hc l.toNat (Or.inl rfl)
        have hr := hc r.toNat (Or.inr rfl)
        obtain ⟨a, ha⟩ := ih _ hl (by omega)
        obtain ⟨b, hb⟩ := ih _ hr (by omega)
        exact ⟨.node a b, by simp [shapeOf, hx, shapeOf_le hl ha, shapeOf_le hr hb]⟩

/-- A tree below k keeps its shape when the entries below k keep their values. -/
theorem shapeOf_congr_below {t u : Store Node} {k : Nat} (hu : ∀ i, i < k → storeGet u i = storeGet t i)
    (h : ∀ i, i < k → ∀ c ∈ childrenOf t i, c < i) (n i : Nat) (hi : i < k) : shapeOf n u i = shapeOf n t i := by
  induction n generalizing i with
  | zero => rfl
  | succ n ih =>
    simp only [shapeOf, hu i hi]
    have hc := h i hi
    cases hx : storeGet t i with
    | none => rfl
    | some e =>
      cases e with
      | leaf sym w => rfl
      | internal l r w =>
        simp only [childrenOf, hx, List.mem_cons, List.not_mem_nil, or_false] at hc
        have hl := hc l.toNat (Or.inl rfl)
        have hr := hc r.toNat (Or.inr rfl)
        simp only [ih _ (Nat.lt_trans hl hi), ih _ (Nat.lt_trans hr hi)]

/-- One round of BUILD's loop keeps `Merging` (43_tree_builder.md R260). -/
theorem merging_step {tree : Store Node} {a b : QEntry} {q : List QEntry} {k : Nat} (w : Weight) (hk : k < 511)
    (h : Merging tree (a :: b :: q) k) :
    Merging (storeWrite none tree k (.internal a.seq b.seq w)) ({ weight := w, seq := BitVec.ofNat 9 k } :: q)
      (k + 1) := by
  obtain ⟨h2, hall, hq, hsum⟩ := h
  have hkn : (BitVec.ofNat 9 k).toNat = k := by simp; omega
  have hne : ∀ i, i < k → storeGet (storeWrite none tree k (.internal a.seq b.seq w)) i = storeGet tree i :=
    fun i hi => by rw [storeGet_storeWrite_none, if_neg (Nat.ne_of_lt hi)]
  have hka : storeGet (storeWrite none tree k (.internal a.seq b.seq w)) k = some (.internal a.seq b.seq w) := by
    rw [storeGet_storeWrite_none, if_pos rfl]
  have ha : a.seq.toNat < k := hq a (by simp)
  have hb : b.seq.toNat < k := hq b (by simp)
  have hshape := fun n i hi => shapeOf_congr_below hne (fun i hi => (hall i hi).2) n i hi
  refine ⟨by omega, fun i hi => ?_, fun e he => ?_, ?_⟩
  · by_cases hik : i = k
    · subst hik
      refine ⟨by simp [hka], fun c hc => ?_⟩
      simp only [childrenOf, hka, List.mem_cons, List.not_mem_nil, or_false] at hc
      rcases hc with rfl | rfl <;> assumption
    · have hi' : i < k := by omega
      simpa only [childrenOf, hne i hi'] using hall i hi'
  · rcases List.mem_cons.mp he with rfl | he
    · simp only [hkn]; omega
    · exact Nat.lt_succ_of_lt (hq e (by simp [he]))
  · have hrest : q.map (fun e => nodesAt (storeWrite none tree k (.internal a.seq b.seq w)) e.seq.toNat) =
        q.map (fun e => nodesAt tree e.seq.toNat) :=
      List.map_congr_left fun e he => by rw [nodesAt, nodesAt, hshape _ _ (hq e (by simp [he]))]
    obtain ⟨x, hx⟩ := shapeOf_below hall _ ha
    obtain ⟨y, hy⟩ := shapeOf_below hall _ hb
    have hx' : shapeOf 510 tree a.seq.toNat = some x := shapeOf_le (by omega) hx
    have hy' : shapeOf 510 tree b.seq.toNat = some y := shapeOf_le (by omega) hy
    have hxn : nodesAt tree a.seq.toNat = x.nodes := by
      simp [nodesAt, Config.nodeMax, shapeOf_succ _ _ _ _ hx']
    have hyn : nodesAt tree b.seq.toNat = y.nodes := by
      simp [nodesAt, Config.nodeMax, shapeOf_succ _ _ _ _ hy']
    have hnew : nodesAt (storeWrite none tree k (.internal a.seq b.seq w)) k = 1 + x.nodes + y.nodes := by
      rw [nodesAt, show Config.nodeMax = 510 + 1 from rfl, shapeOf, hka]
      simp only [hshape _ _ ha, hshape _ _ hb, hx', hy', Option.map_some, Option.getD_some, Shape.nodes]
    simp only [List.map_cons, List.sum_cons, hrest, hkn, hnew]
    simp only [List.map_cons, List.sum_cons, hxn, hyn] at hsum
    omega

/-- The last entry of BUILD's priority structure is the root of a tree of all k nodes, and no leaf. -/
theorem merging_done {tree : Store Node} {e : QEntry} {k : Nat} (hk : k ≤ 511) (h : Merging tree [e] k) :
    ∃ sh : Shape, shapeOf Config.nodeMax tree e.seq.toNat = some sh ∧ sh.nodes = k ∧ sh.single = false := by
  obtain ⟨h2, hall, hq, hsum⟩ := h
  have he : e.seq.toNat < k := hq e (by simp)
  obtain ⟨sh, hs⟩ := shapeOf_below hall _ he
  have hs' : shapeOf Config.nodeMax tree e.seq.toNat = some sh := shapeOf_le (by simp only [Config.nodeMax]; omega) hs
  have hn : sh.nodes = k := by simpa [nodesAt, hs'] using hsum
  refine ⟨sh, hs', hn, ?_⟩
  cases hsg : sh.single with
  | false => rfl
  | true => have := sh.single_iff.mp hsg; omega

/-! ### The end token -/

/-- Once the end token is appended none is to come. -/
theorem endsOnce_of_ended {ts : List Task} (h : ended ts = true) : endsOnce ts = false := by
  unfold ended at h
  split at h <;> simp_all [endsOnce, carriesEnd, isFail]

end Sys2Proof.Machine
end

