-- ==== Sys2Proof/Laws/Turns.lean ====
section
/-!
SUPPORT. Laws/Turns.lean: when a task holds, and that a task which does not hold is the same whatever tokens the host
pushes behind those there and however much of the turn is left (00_scope.md R13, R16; 20_memory.md R93, R98).
-/

namespace Sys2Proof.Machine

variable {s t : State}

/-! ### Holding -/

/-- One step of readBit holds exactly when it needs a token and none is ahead (41_bitio.md R204, R207). -/
theorem readBitStep_hold_iff : readBitStep s = .hold ↔ bitNeedsToken s = true ∧ ahead s = [] := by
  unfold readBitStep bitNeedsToken deliverBit
  by_cases hf : s.rd.fill = 0
  · simp only [hf, if_true]
    cases he : s.rd.eos
    · cases hr : inRead s with
      | none => simp [inRead_none.1 hr]
      | some p =>
        have hn : ahead s ≠ [] := fun h => by rw [inRead_none.2 h] at hr; cases hr
        obtain ⟨k, u⟩ := p
        cases k <;> simp [hn]
    · simp
  · simp only [hf, if_false]
    by_cases hl : s.unpk.limitEn = true ∧ s.unpk.limitMb.toNat ≤ 8 - s.rd.fill.toNat
    · rw [if_pos hl]
      cases hr : inPeek s with
      | none => simp [inPeek_none.1 hr, hl.1, hl.2]
      | some p =>
        have hn : ahead s ≠ [] := fun h => by rw [inPeek_none.2 h] at hr; cases hr
        obtain ⟨k, u⟩ := p
        cases k <;> simp [hn]
    · rw [if_neg hl]
      simp
      intro h1 h2
      exact absurd ⟨h1, h2⟩ hl

/-- readBits holds where its next readBit does. -/
theorem taskGet_hold_iff (n k : Nat) (v : Word) :
    taskGet n k v s = .hold ↔ k < n ∧ bitNeedsToken s = true ∧ ahead s = [] := by
  rw [← readBitStep_hold_iff, taskGet]
  by_cases h : n ≤ k
  · simp [h]
  · rw [if_neg h]
    cases readBitStep s <;> simp <;> omega

/-- A task holds exactly when it needs a token and none is ahead (00_scope.md R13). -/
theorem runTask_hold_iff (k : Task) : runTask k s = .hold ↔ needsToken k s = true ∧ ahead s = [] := by
  cases k
  case get n k v => simp [runTask, needsToken, taskGet_hold_iff, and_assoc]
  case askBit =>
    cases he : s.rd.eos
    · simp [runTask, needsToken, taskAskBit_open he, taskGet_hold_iff, he]
    · simp [runTask, needsToken, taskAskBit_eos he, he]
  case askByte =>
    cases he : s.rd.eos
    · simp [runTask, needsToken, taskAskByte_open he, taskGet_hold_iff, he]
    · simp [runTask, needsToken, taskAskByte_eos he, he]
  case drain =>
    cases he : s.rd.eos
    · simp only [runTask, taskDrain, needsToken, he]
      cases hr : inRead s with
      | none => simp [inRead_none.1 hr]
      | some p =>
        have hn : ahead s ≠ [] := fun h => by rw [inRead_none.2 h] at hr; cases hr
        obtain ⟨k, u⟩ := p
        cases k <;> simp [hn]
    · simp [runTask, taskDrain, needsToken, he]
  case loadLoop =>
    simp only [runTask, taskLoadLoop, needsToken]
    cases hr : inRead s with
    | none => simp [inRead_none.1 hr]
    | some p =>
      have hn : ahead s ≠ [] := fun h => by rw [inRead_none.2 h] at hr; cases hr
      obtain ⟨k, u⟩ := p
      cases k <;> simp [hn]
      split <;> simp
  case loadDiscard =>
    simp only [runTask, taskLoadDiscard, needsToken]
    cases hr : inRead s with
    | none => simp [inRead_none.1 hr]
    | some p =>
      have hn : ahead s ≠ [] := fun h => by rw [inRead_none.2 h] at hr; cases hr
      obtain ⟨k, u⟩ := p
      cases k <;> simp [hn]
  all_goals
    simp only [runTask, taskPut, taskLoad, taskCount, taskBuild,
      taskBuildMerge, taskGencode, taskGencodeWalk, taskEmit, taskEmitLoop, taskSerialize, taskSerializeWalk,
      taskDeserialize, taskDeserTag, taskDeserSymbol, deserNext, taskWalk, taskWalkBit, taskEncodeInit, taskEncodeMode,
      taskEncodeHeader, taskEncodeFinish, taskDecodeInit, taskDecodeTag, taskDecodeRaw, taskDecodeSymbol,
      taskDecodeCount, taskOutRepeat, taskDecodeMb, taskDecodeWalked, taskDecodeFinish,
      encodeRaw, encodeSingle, encodeHuffman, finishBuild, needsToken]
  all_goals (repeat' split) <;> simp

/-! ### The host's side: tokens pushed at the back of IN, and the core steps left -/

/-- The state with tokens pushed at the back of IN and m core steps left of the turn. -/
def feed (toks : List InTok) (m : Nat) (s : State) : State := { s with inp := s.inp ++ toks, turn := m }

/-- A task's outcome with the host's side changed. -/
def TaskResult.feed (toks : List InTok) (m : Nat) : TaskResult → TaskResult
  | .hold => .hold
  | .ok u => .ok (Machine.feed toks m u)
  | .err e u => .err e (Machine.feed toks m u)

variable (toks : List InTok) (m : Nat)

theorem inRead_feed {k : InTok} (h : inRead s = some (k, t)) :
    inRead (feed toks m s) = some (k, feed toks m t) := by
  unfold inRead at h
  split at h
  · next hl => cases h; simp [inRead, feed, hl]
  · next hl =>
    split at h
    · cases h
    · next hi => cases h; simp [inRead, feed, hl, hi]

theorem inPeek_feed {k : InTok} (h : inPeek s = some (k, t)) :
    inPeek (feed toks m s) = some (k, feed toks m t) := by
  unfold inPeek at h
  split at h
  · next hl => cases h; simp [inPeek, feed, hl]
  · next hl =>
    split at h
    · cases h
    · next hi => cases h; simp [inPeek, feed, hl, hi]

theorem writeBit_feed (b : Bool) (s : State) : writeBit b (feed toks m s) = feed toks m (writeBit b s) := by
  rcases writeBit_cases b s with ⟨h7, h⟩ | ⟨h7, h⟩ <;>
    rcases writeBit_cases b (feed toks m s) with ⟨k7, k⟩ | ⟨k7, k⟩
  · rw [h, k]; rfl
  · exact absurd k7 h7
  · exact absurd h7 k7
  · rw [h, k]; rfl

theorem pushTasks_feed (l : List Task) (s : State) :
    pushTasks l (feed toks m s) = feed toks m (pushTasks l s) := by
  unfold pushTasks
  have e : (feed toks m s).seq = s.seq := rfl
  rw [e]
  cases s.seq <;> rfl

theorem flushPacker_feed (s : State) : flushPacker (feed toks m s) = feed toks m (flushPacker s) := by
  rcases flushPacker_cases s with ⟨h7, h⟩ | ⟨h7, h⟩ <;>
    rcases flushPacker_cases (feed toks m s) with ⟨k7, k⟩ | ⟨k7, k⟩
  · rw [h, k]
  · exact absurd h7 k7
  · exact absurd k7 h7
  · rw [h, k]; rfl

theorem writeNodes_feed (l : List (Nat × Node)) (s : State) :
    writeNodes l (feed toks m s) = feed toks m (writeNodes l s) := by
  induction l generalizing s with
  | nil => rfl
  | cons p rest ih => exact ih (writeNode p.1 p.2 s)

theorem linkChild_feed (p : List Pending) (k : Nat) (s : State) :
    linkChild p k (feed toks m s) = ((linkChild p k s).1, feed toks m (linkChild p k s).2) := by
  unfold linkChild
  split
  · rfl
  · dsimp only
    split <;> rfl

theorem takeHeld_feed (n k : Nat) (v : Word) (s : State) :
    takeHeld n k v (feed toks m s) = ((takeHeld n k v s).1, feed toks m (takeHeld n k v s).2) := by
  induction n generalizing k v s with
  | zero => rfl
  | succ n ih =>
    have hn : noneHeld (feed toks m s) = noneHeld s := rfl
    rw [takeHeld, takeHeld, hn]
    split
    · rfl
    · exact ih _ _ (dropHeld s)

/-- A readBit step's outcome with the host's side changed. -/
def BitStep.feed (toks : List InTok) (m : Nat) : BitStep → BitStep
  | .hold => .hold
  | .again u => .again (Machine.feed toks m u)
  | .na u => .na (Machine.feed toks m u)
  | .bit b u => .bit b (Machine.feed toks m u)

theorem readBitStep_feed (h : readBitStep s ≠ .hold) :
    readBitStep (feed toks m s) = (readBitStep s).feed toks m := by
  unfold readBitStep at *
  have e1 : (feed toks m s).rd = s.rd := rfl
  have e2 : (feed toks m s).unpk = s.unpk := rfl
  rw [e1, e2]
  split
  · next hf =>
    rw [if_pos hf] at h
    split
    · rfl
    · next he =>
      rw [if_neg he] at h
      cases hr : inRead s with
      | none => rw [hr] at h; exact absurd rfl h
      | some p =>
        obtain ⟨k, u⟩ := p
        rw [inRead_feed toks m hr]
        cases k <;> rfl
  · next hf =>
    rw [if_neg hf] at h
    split
    · next hl =>
      rw [if_pos hl] at h
      cases hr : inPeek s with
      | none => rw [hr] at h; exact absurd rfl h
      | some p =>
        obtain ⟨k, u⟩ := p
        rw [inPeek_feed toks m hr]
        cases k <;> rfl
    · rfl

theorem taskGet_feed (n k : Nat) (v : Word) (h : taskGet n k v s ≠ .hold) :
    taskGet n k v (feed toks m s) = (taskGet n k v s).feed toks m := by
  unfold taskGet at *
  split
  · rfl
  · next hk =>
    rw [if_neg hk] at h
    have hh : readBitStep s ≠ .hold := fun hh => by rw [hh] at h; exact h rfl
    rw [readBitStep_feed toks m hh]
    cases readBitStep s <;> simp [BitStep.feed, TaskResult.feed, pushTasks_feed] <;> rfl

/-! What `feed` leaves as it is. -/

theorem feed_got (s : State) : (feed toks m s).got = s.got := rfl
theorem feed_freq (s : State) : (feed toks m s).freq = s.freq := rfl
theorem feed_ndist (s : State) : (feed toks m s).ndist = s.ndist := rfl
theorem feed_treeInfo (s : State) : (feed toks m s).treeInfo = s.treeInfo := rfl
theorem feed_inLen (s : State) : (feed toks m s).inLen = s.inLen := rfl
theorem nodeAt_feed (s : State) (i : Nat) : nodeAt (feed toks m s) i = nodeAt s i := rfl
theorem setPhase_feed (p : Phase) (s : State) :
    setPhase p (feed toks m s) = feed toks m (setPhase p s) := rfl

theorem deserNext_feed (p : List Pending) (s : State) :
    deserNext p (feed toks m s) = (deserNext p s).feed toks m := by
  unfold deserNext
  split
  · rfl
  · exact congrArg TaskResult.ok (pushTasks_feed toks m _ s)

/-- A task that does not hold does the same whatever tokens stand behind those there and however much of the turn is
left. -/
theorem runTask_feed (k : Task) (h : runTask k s ≠ .hold) :
    runTask k (feed toks m s) = (runTask k s).feed toks m := by
  cases k
  case get n k v => exact taskGet_feed toks m n k v h
  case askBit =>
    cases he : s.rd.eos
    · have he' : (feed toks m s).rd.eos = false := he
      simp only [runTask, taskAskBit_open he, taskAskBit_open he'] at h ⊢
      exact taskGet_feed toks m 1 0 0 h
    · have he' : (feed toks m s).rd.eos = true := he
      simp only [runTask, taskAskBit_eos he, taskAskBit_eos he']
      rfl
  case askByte =>
    cases he : s.rd.eos
    · have he' : (feed toks m s).rd.eos = false := he
      simp only [runTask, taskAskByte_open he, taskAskByte_open he'] at h ⊢
      exact taskGet_feed toks m 8 0 0 h
    · have he' : (feed toks m s).rd.eos = true := he
      simp only [runTask, taskAskByte_eos he, taskAskByte_eos he', takeHeld_feed]
      rfl
  case drain =>
    simp only [runTask, taskDrain] at h ⊢
    have e1 : (feed toks m s).rd = s.rd := rfl
    rw [e1]
    split
    · rfl
    · next he =>
      rw [if_neg he] at h
      cases hr : inRead s with
      | none => rw [hr] at h; exact absurd rfl h
      | some p =>
        obtain ⟨k, u⟩ := p
        rw [inRead_feed toks m hr]
        cases k
        · exact congrArg TaskResult.ok (pushTasks_feed toks m _ u)
        · rfl
  case loadLoop =>
    simp only [runTask, taskLoadLoop] at h ⊢
    cases hr : inRead s with
    | none => rw [hr] at h; exact absurd rfl h
    | some p =>
      obtain ⟨k, u⟩ := p
      rw [inRead_feed toks m hr]
      cases k
      · dsimp only
        have e1 : (feed toks m u).inLen = u.inLen := rfl
        have e2 : (feed toks m u).nMax = u.nMax := rfl
        rw [e1, e2]
        split
        · exact congrArg TaskResult.ok (pushTasks_feed toks m _ u)
        · exact congrArg TaskResult.ok (pushTasks_feed toks m _ { writeBuf u.inLen.toNat _ u with inLen := u.inLen + 1 })
      · rfl
  case loadDiscard =>
    simp only [runTask, taskLoadDiscard] at h ⊢
    cases hr : inRead s with
    | none => rw [hr] at h; exact absurd rfl h
    | some p =>
      obtain ⟨k, u⟩ := p
      rw [inRead_feed toks m hr]
      cases k
      · exact congrArg TaskResult.ok (pushTasks_feed toks m _ u)
      · rfl
  case flush => exact congrArg TaskResult.ok (flushPacker_feed toks m s)
  all_goals clear h
  all_goals try rfl
  case put bits =>
    cases bits with
    | nil => rfl
    | cons b bs =>
      show TaskResult.ok (pushTasks [.put bs] (writeBit b (feed toks m s))) =
        .ok (feed toks m (pushTasks [.put bs] (writeBit b s)))
      rw [writeBit_feed, pushTasks_feed]
  case build =>
    have e : (feed toks m s).freq = s.freq := rfl
    simp only [runTask, taskBuild, e]
    split
    · rfl
    · rw [show ∀ l, writeNodes l { setTreeValid false (setPhase .build (feed toks m s)) with
          ndist := BitVec.ofNat 9 (distinctCount s.freq) } = feed toks m (writeNodes l
            { setTreeValid false (setPhase .build s) with ndist := BitVec.ofNat 9 (distinctCount s.freq) })
        from fun l => writeNodes_feed toks m l
            { setTreeValid false (setPhase .build s) with ndist := BitVec.ofNat 9 (distinctCount s.freq) }, pushTasks_feed]
      rfl
  case emitLoop j bits =>
    have e1 : (feed toks m s).code = s.code := rfl
    have e2 : bufAt (feed toks m s) j = bufAt s j := rfl
    simp only [runTask, taskEmitLoop, e1, e2, feed_inLen, pushTasks_feed]
    repeat' split
    all_goals rfl
  case deserTag pending =>
    show taskDeserTag pending (feed toks m s) = (taskDeserTag pending s).feed toks m
    cases hg : s.got with
    | na v k =>
      have hg' : (feed toks m s).got = .na v k := hg
      rw [taskDeserTag, taskDeserTag, hg, hg']
      rfl
    | ok v =>
      have hg' : (feed toks m s).got = .ok v := hg
      rw [taskDeserTag, taskDeserTag, hg, hg']
      by_cases hn : s.treeInfo.nodes.toNat = Config.nodeMax
      · refine (if_pos hn).trans ?_
        dsimp only
        rw [if_pos hn]
        rfl
      · refine (if_neg hn).trans ?_
        dsimp only
        rw [if_neg hn]
        by_cases hv : v.getLsbD 0 = true
        · rw [if_pos hv, if_pos hv, ← deserNext_feed]
          have hl := linkChild_feed toks m pending s.treeInfo.nodes.toNat (writeNode s.treeInfo.nodes.toNat
            (.internal 0 0 0) { s with treeInfo := { s.treeInfo with nodes := s.treeInfo.nodes + 1 } })
          rw [hg] at hl
          exact congrArg (fun p : List Pending × State =>
            deserNext ({ node := BitVec.ofNat 9 s.treeInfo.nodes.toNat, leftLinked := false } :: p.1) p.2) hl
        · rw [if_neg hv, if_neg hv]
          have hl := pushTasks_feed toks m [.get 8 0 0, .deserSymbol pending s.treeInfo.nodes.toNat]
            { s with treeInfo := { s.treeInfo with nodes := s.treeInfo.nodes + 1 } }
          rw [hg] at hl
          exact congrArg TaskResult.ok hl
  case deserSymbol pending k =>
    show taskDeserSymbol pending k (feed toks m s) = (taskDeserSymbol pending k s).feed toks m
    cases hg : s.got with
    | na v n =>
      have hg' : (feed toks m s).got = .na v n := hg
      rw [taskDeserSymbol, taskDeserSymbol, hg, hg']
      rfl
    | ok v =>
      have hg' : (feed toks m s).got = .ok v := hg
      rw [taskDeserSymbol, taskDeserSymbol, hg, hg']
      dsimp only
      rw [← deserNext_feed]
      by_cases hk : k = 0
      · rw [if_pos hk, if_pos hk]
        exact congrArg (fun p : List Pending × State => deserNext p.1 p.2) (linkChild_feed toks m pending k
          { writeNode k (.leaf (v.setWidth 8) 0) s with
            treeInfo := { (writeNode k (.leaf (v.setWidth 8) 0) s).treeInfo with rootLeaf := true } })
      · rw [if_neg hk, if_neg hk]
        exact congrArg (fun p : List Pending × State => deserNext p.1 p.2) (linkChild_feed toks m pending k
          (writeNode k (.leaf (v.setWidth 8) 0) s))
  case encodeMode =>
    show taskEncodeMode (feed toks m s) = (taskEncodeMode s).feed toks m
    unfold taskEncodeMode encodeRaw encodeSingle encodeHuffman
    dsimp only
    by_cases h1 : s.inLen.toNat < Config.rawThreshold
    · rw [if_pos h1]
      refine (if_pos h1).trans ?_
      exact congrArg TaskResult.ok (pushTasks_feed toks m _ (setMode 0 s))
    · rw [if_neg h1]
      refine (if_neg h1).trans ?_
      by_cases h2 : s.ndist = 1
      · rw [if_pos h2]
        refine (if_pos h2).trans ?_
        exact congrArg TaskResult.ok (pushTasks_feed toks m _ (setMode 1 s))
      · rw [if_neg h2]
        refine (if_neg h2).trans ?_
        exact congrArg TaskResult.ok (pushTasks_feed toks m _ (setMode 2 s))
  all_goals
    simp only [runTask, taskLoad, taskBuildMerge, taskGencode, taskGencodeWalk, taskEmit, taskSerialize, taskSerializeWalk,
      taskDeserialize, taskWalk, taskWalkBit, taskEncodeHeader, taskEncodeFinish, taskDecodeInit,
      taskDecodeTag, taskDecodeRaw, taskDecodeSymbol, taskDecodeCount, taskOutRepeat, taskDecodeMb,
      taskDecodeWalked, taskDecodeFinish, askTag, askBit, askRaw, finishBuild, feed_got, feed_treeInfo,
      feed_inLen, nodeAt_feed, setPhase_feed, pushTasks_feed]
    repeat' split
    all_goals simp only [*, if_true, if_false, TaskResult.feed, ← pushTasks_feed]
    all_goals rfl

end Sys2Proof.Machine
end

