-- ==== Sys2Proof/Tests/Slice0.lean ====
section
/-!
SUPPORT. Tests/Slice0.lean: small tests of the model against spec/30_encoding.md and the vectors of
spec/95_test_vectors.md, and for each statement with hypotheses a state that meets them. The expected values are the
spec's; each test is one step.
-/

namespace Sys2Proof.Tests

open Sys2Proof Sys2Proof.Machine

/-! ### Well-formedness and decoding -/

/-- An ill-formed term: N has 8 bits (30_encoding.md R120). -/
theorem test_wellFormed_refuses : (Instr.packBits 256).wellFormed = false := by decide

theorem test_wellFormed_accepts : (Instr.packBits 255).wellFormed = true ∧ Instr.walk.wellFormed = true := by decide

/-- One word per constructor, from the opcode map of R121: RSV, N, OPC. -/
theorem test_decode_control :
    decodeTableWord 32 0b00000000000000000000000000000000 = some .nop ∧
    decodeTableWord 32 0b00000000000000000000000000010110 = some .unpackReset := by decide

theorem test_decode_packer :
    decodeTableWord 32 0b00000000000000000000000000010000 = some .packBit ∧
    decodeTableWord 32 0b00000000000000000000000000010001 = some .packByte ∧
    decodeTableWord 32 0b00000000000000000010000100010010 = some (.packBits 33) ∧
    decodeTableWord 32 0b00000000000000000000000000010011 = some .flush := by decide

theorem test_decode_unpacker :
    decodeTableWord 32 0b00000000000000000000000000010100 = some .unpackBit ∧
    decodeTableWord 32 0b00000000000000000000000000010101 = some .unpackByte := by decide

theorem test_decode_tables :
    decodeTableWord 32 0b00000000000000000000000000100000 = some .load ∧
    decodeTableWord 32 0b00000000000000000000000000100001 = some .count ∧
    decodeTableWord 32 0b00000000000000000000000000110000 = some .build ∧
    decodeTableWord 32 0b00000000000000000000000001000000 = some .gencode ∧
    decodeTableWord 32 0b00000000000000000000000001000001 = some .emit := by decide

theorem test_decode_codec :
    decodeTableWord 32 0b00000000000000000000000001010000 = some .serialize ∧
    decodeTableWord 32 0b00000000000000000000000001010001 = some .deserialize ∧
    decodeTableWord 32 0b00000000000000000000000001100000 = some .encode ∧
    decodeTableWord 32 0b00000000000000000000000001110000 = some .decode ∧
    decodeTableWord 32 0b00000000000000000000000001110001 = some .walk := by decide

/-- Byte k of the word is bits [8k+7:8k] (20_memory.md R85): 12 03 00 00 is PACK_BITS 3. -/
theorem test_decode_bytes : decodeBytes [0x12, 0x03, 0x00, 0x00, 0x99] = .ok (.packBits 3, [0x99]) := by rfl

/-- The illegal words of 95_test_vectors.md section 8, and a word that is too short. -/
theorem test_decode_rejects :
    decodeWord 0x00010000 = .error .reservedBits ∧ decodeWord 0x000000FF = .error .reservedOpcode ∧
    decodeWord 0x00000110 = .error .nonzeroN ∧ decodeBytes [0x12, 0x03, 0x00] = .error .short :=
  ⟨rfl, rfl, rfl, rfl⟩

/-! ### One step of each command -/

/-- The next state of a meaning or a step. -/
def nextOf : Host.Outcome State Fault Refusal → State
  | .next s => s
  | .fault _ => State.reset
  | .refused _ => State.reset

/-- A state with a command written and the core's whole turn ahead. -/
def begun (w : Word) (s : State) : State := placeCommand w s

/-- One step from there. -/
def after (w : Word) (s : State) : State := nextOf (step (begun w s))

/-- Reset with tokens in IN. -/
def fed (toks : List InTok) : State := { State.reset with inp := toks }

/-- Bytes and then End. -/
def stream (bs : List Byte) : List InTok := inBytes bs ++ [.eos]

/-- "abababab". -/
def abab : List Byte := [0x61, 0x62, 0x61, 0x62, 0x61, 0x62, 0x61, 0x62]

/-- "abracadabra". -/
def abra : List Byte := [0x61, 0x62, 0x72, 0x61, 0x63, 0x61, 0x64, 0x61, 0x62, 0x72, 0x61]

/-- Bytes in BUF, with their flag. -/
def buffered (bs : List Byte) (s : State) : State :=
  { s with
    buf := (List.range bs.length).map (fun j => (j, bs.getD j 0)), inLen := BitVec.ofNat 32 bs.length
    status := { s.status with bufValid := true } }

/-- The tree a = 0, b = 1 in TREE, as DESERIALIZE makes it. -/
def abTree (s : State) : State :=
  { s with
    tree := [(0, .internal 1 2 0), (1, .leaf 0x61 0), (2, .leaf 0x62 0)]
    treeInfo := { root := 0, nodes := 3, rootLeaf := false }
    status := { s.status with treeValid := true } }

/-- Its codes. -/
def abCodes (s : State) : State :=
  { s with
    code := [(0x61, { len := 1, bits := 0 }), (0x62, { len := 1, bits := 1 })]
    status := { s.status with codeValid := true } }

/-- FREQ 0:1, 1:1, 2:2 (95_test_vectors.md section 4.2, row 1). -/
def threeCounts : State :=
  { State.reset with freq := [(0, 1), (1, 1), (2, 2)], status := { State.reset.status with freqValid := true } }

/-- The arena BUILD makes of it. -/
def threeTree : State :=
  { threeCounts with
    tree := [(0, .leaf 0 1), (1, .leaf 1 1), (2, .leaf 2 2), (3, .internal 0 1 2), (4, .internal 2 3 4)]
    treeInfo := { root := 4, nodes := 5, rootLeaf := false }
    status := { threeCounts.status with treeValid := true } }

/-- Section 8, row NOP. -/
theorem test_nop : statusWord (after 0x00 State.reset) = 0x2 ∧ irqPendWord (after 0x00 State.reset) = 0x1 := by
  decide +kernel

/-- Section 3.1, step 2. -/
theorem test_packBit :
    let t := after 0x10 { State.reset with arg := 1, wr := { acc := 0x05, fill := 3 } }
    wrStateWord t = 0x40D ∧ t.out = [] ∧ t.result = 0 := by decide +kernel

/-- Section 3.1, step 3. -/
theorem test_packByte :
    let t := after 0x11 { State.reset with arg := 0xA5, wr := { acc := 0x0D, fill := 4 } }
    wrStateWord t = 0x40A ∧ t.out = [.byte 0x5D] ∧ t.result = 1 := by decide +kernel

/-- Section 3.1, step 6. -/
theorem test_packBits :
    let t := after 0x2012 { State.reset with arg := 0xDEADBEEF }
    t.out = [.byte 0xEF, .byte 0xBE, .byte 0xAD, .byte 0xDE] ∧ t.result = 4 ∧ wrStateWord t = 0 := by decide +kernel

/-- Section 3.1, step 8. -/
theorem test_packBits_badArg :
    let t := after 0x2112 { State.reset with result := 7 }
    statusWord t = 0x206 ∧ t.result = 7 ∧ t.out = [] := by decide +kernel

/-- Section 3.1, step 4. -/
theorem test_flush :
    let t := after 0x13 { State.reset with wr := { acc := 0x0A, fill := 4 } }
    t.out = [.byte 0x0A] ∧ t.result = 1 ∧ wrStateWord t = 0 := by decide +kernel

/-- Section 3.1, step 5. -/
theorem test_flush_empty :
    let t := after 0x13 { State.reset with result := 1 }
    t.out = [] ∧ t.result = 0 := by decide +kernel

/-- Section 3.2, row 1. -/
theorem test_unpackBit :
    let t := after 0x14 (fed (stream [0xB5]))
    t.result = 1 ∧ t.rd = { acc := 0xB5, fill := 7, eos := false } := by decide +kernel

/-- Section 3.2, row 4: the fourth UNPACK_BIT; and one after P2's end, three pad bits held and a byte of the next stream
in IN: NA, and the byte stays (10_state.md R60 (b), 20_memory.md R88). -/
theorem test_unpackBit_limit :
    let t := after 0x14
      { fed [.eos] with unpk := { limitEn := true, limitMb := 3 }, rd := { acc := 0xFF, fill := 5, eos := false } }
    let u := after 0x14
      { fed [.byte 0x55] with unpk := { limitEn := true, limitMb := 5 }, rd := { acc := 0x0E, fill := 3, eos := true } }
    t.result = 0x80000000 ∧ rdStateWord t = 0x65FF ∧
      u.result = 0x80000000 ∧ rdStateWord u = 0x130E ∧ u.inp = [.byte 0x55] := by decide +kernel

/-- Section 3.2, row 2: the first UNPACK_BYTE. -/
theorem test_unpackByte :
    (after 0x15 { fed (stream [0x3C]) with rd := { acc := 0xB5, fill := 7, eos := false } }).result = 0x5A := by
  decide +kernel

/-- Section 3.2, row 2: the second UNPACK_BYTE; and, by R204 and R215, the six bits that a single-symbol DECODE leaves
held of its last byte 0x84, the next stream's byte kept; and P2's end, whose limit stops the bits held (R341). -/
theorem test_unpackByte_partial :
    let t := after 0x15 { fed [.eos] with rd := { acc := 0x3C, fill := 7, eos := false } }
    let u := after 0x15 { fed [.byte 0x55] with rd := { acc := 0x84, fill := 6, eos := true } }
    let v := after 0x15
      { fed [.byte 0x55] with unpk := { limitEn := true, limitMb := 5 }, rd := { acc := 0x0E, fill := 3, eos := true } }
    t.result = 0x8000071E ∧ t.rd.eos = true ∧ u.result = 0x80000621 ∧ rdStateWord u = 0x1084 ∧ u.inp = [.byte 0x55] ∧
      v.result = 0x80000000 ∧ rdStateWord v = 0x130E ∧ v.inp = [.byte 0x55] := by decide +kernel

/-- Section 3.2, row 3. -/
theorem test_unpackReset :
    let t := after 0x16 { State.reset with rd := { acc := 0x3C, fill := 0, eos := true }, result := 9 }
    rdStateWord t = 0 ∧ t.result = 9 := by decide +kernel

/-- Section 4.1. -/
theorem test_load :
    let t := after 0x20 (fed (stream abra))
    t.result = 11 ∧ t.inLen = 11 ∧ bufAt t 2 = 0x72 ∧ statusWord t = 0x00100002 := by decide +kernel

/-- The overlong stream of section 2.2, V-OVF, given to LOAD. -/
theorem test_load_overflow :
    let t := after 0x20 { fed (stream (List.replicate 9 0x55)) with nMax := 8 }
    statusWord t = 0x406 ∧ t.inLen = 8 ∧ t.inp = [] := by decide +kernel

/-- Section 4.1. -/
theorem test_count :
    let t := after 0x21 (buffered abra State.reset)
    t.result = 5 ∧ t.freq = [(0x61, 5), (0x62, 2), (0x63, 1), (0x64, 1), (0x72, 2)] := by decide +kernel

/-- Section 8: SEQUENCE. -/
theorem test_count_sequence : statusWord (after 0x21 State.reset) = 0x306 := by decide +kernel

/-- Section 4.2, row 1. -/
theorem test_build :
    let t := after 0x30 threeCounts
    treeInfoWord t = 0x00050004 ∧ nodeAt t 3 = .internal 0 1 2 ∧ nodeAt t 4 = .internal 2 3 4 := by decide +kernel

/-- Section 4.2, row 3: the weight of 40 bits. -/
theorem test_build_wide :
    nodeAt (after 0x30 { threeCounts with freq := [(0, 0xFFFFFFFF), (1, 0xFFFFFFFF)] }) 2 =
      .internal 0 1 0x1FFFFFFFE := by decide +kernel

/-- Section 4.2, row 1. -/
theorem test_gencode :
    let t := after 0x40 threeTree
    t.result = 3 ∧ codeGet t.code 2 = { len := 1, bits := 0 } ∧ codeGet t.code 0 = { len := 2, bits := 1 } ∧
      codeGet t.code 1 = { len := 2, bits := 3 } := by decide +kernel

/-- Section 4.3, row 1. -/
theorem test_emit :
    let t := after 0x41 (abCodes (buffered abab State.reset))
    t.out = [.byte 0xAA] ∧ t.result = 8 ∧ wrStateWord t = 0 := by decide +kernel

/-- Section 4.3, row 3: "abz". -/
theorem test_emit_noCode :
    let t := after 0x41 { abTree (abCodes (buffered [0x61, 0x62, 0x7A] State.reset)) with result := 3 }
    statusWord t = 0x00D00606 ∧ wrStateWord t = 0x202 ∧ t.result = 3 := by decide +kernel

/-- Section 5.1, row 1. -/
theorem test_serialize :
    let t := after 0x50 (abTree State.reset)
    t.out = [.byte 0x85, .byte 0x11] ∧ wrStateWord t = 0x303 ∧ t.result = 19 := by decide +kernel

/-- Section 5.1, row 2. -/
theorem test_serialize_three :
    let t := after 0x50 threeTree
    t.out = [.byte 0x09, .byte 0x04, .byte 0x20] ∧ wrStateWord t = 0x500 ∧ t.result = 29 := by decide +kernel

/-- Section 5.2: after five bits of BE. -/
theorem test_deserialize :
    let t := after 0x51
      { fed (stream [0x30, 0x62, 0xAA]) with rd := { acc := 0xBE, fill := 3, eos := false } }
    t.result = 3 ∧ treeInfoWord t = 0x00030000 ∧ descWord (nodeAt t 0) = 0x80020001 ∧ nodeAt t 1 = .leaf 0x61 0 ∧
      nodeAt t 2 = .leaf 0x62 0 := by decide +kernel

/-- Section 7, row FE, 70 × FF: the 512th node. -/
theorem test_deserialize_overflow :
    let t := after 0x51 (fed (stream (List.replicate 70 0xFF)))
    statusWord t = 0x906 ∧ treeInfoWord t = 0x01FF0000 := by decide +kernel

/-- Section 6, row 1. -/
theorem test_walk :
    let t := after 0x71 { abTree (fed (stream [0xAA])) with unpk := { limitEn := true, limitMb := 8 } }
    t.out = outBytes abab ∧ t.result = 8 ∧ rdStateWord t = 0x10AA := by decide +kernel

/-- Section 6, row 2; and with the pad bits of P2's end held: the same, at once (47_decoder.md R343). -/
theorem test_walk_again :
    let t := after 0x71 { abTree State.reset with rd := { acc := 0xAA, fill := 0, eos := true }, result := 8 }
    let u := after 0x71
      { abTree State.reset with unpk := { limitEn := true, limitMb := 5 }, rd := { acc := 0x0E, fill := 3, eos := true } }
    t.result = 0 ∧ t.out = [] ∧ statusWord t = 0x00400002 ∧
      u.result = 0 ∧ u.out = [] ∧ statusWord u = 0x00400002 ∧ rdStateWord u = 0x130E := by decide +kernel

/-- Section 2.1, "abracadabra". -/
theorem test_encode :
    let t := after 0x60 (fed (stream abra))
    t.out = outBytes [0xB2, 0xB0, 0x8D, 0x21, 0x4B, 0x8C, 0x9C, 0x5D, 0xD4, 0x0E] ++ [.eos] ∧ t.result = 77 ∧
      modeWord t = 0x00050102 ∧ statusWord t = 0x00F00002 := by decide +kernel

/-- Section 2.1, "abc": raw. -/
theorem test_encode_raw :
    let t := after 0x60 (fed (stream [0x61, 0x62, 0x63]))
    t.out = outBytes [0x84, 0x89, 0x8D, 0x01] ++ [.eos] ∧ t.result = 26 ∧ modeWord t = 0x100 := by decide +kernel

/-- Section 7: mb 7 hides the last code bit. -/
theorem test_decode_huffman :
    let t := after 0x70 (fed (stream [0xBA, 0x30, 0x62, 0xAA]))
    t.out = outBytes [0x61, 0x62, 0x61, 0x62, 0x61, 0x62, 0x61] ++ [.eos] ∧ statusWord t = 0x00400002 ∧
      modeWord t = 0x00070102 := by decide +kernel

/-- Section 7: BAD_MODE. -/
theorem test_decode_badMode :
    let t := after 0x70 (fed (stream [0x03]))
    t.out = [.abort] ∧ statusWord t = 0x806 ∧ modeWord t = 0x103 ∧ t.inp = [] := by decide +kernel

/-- Section 8: an illegal word, its irq with IE_ERR, and without. -/
theorem test_illegal :
    let t := after 0xFF { State.reset with ctrl := { ieDone := false, ieErr := true } }
    statusWord t = 0x106 ∧ irqLine t = true ∧
      irqLine (after 0xFF { State.reset with ctrl := { ieDone := true, ieErr := false } }) = false := by decide +kernel

/-- Section 8: UNPK_CFG keeps LIMIT_MB where 15 is written. -/
theorem test_unpkCfg : unpkCfgWord (busWrite .word 0x028 0xF1 State.reset).2 = 0x81 := by decide +kernel

/-! ### Every statement's hypotheses are met

One theorem per statement that has hypotheses, with a state and operands for each of its clauses. -/

/-- A meaning answers the next state that `nextOf` names. -/
theorem exec_nextOf (i : Instr) (s : State) : exec i s = .next (nextOf (exec i s)) := by
  obtain ⟨t, h⟩ : ∃ t, exec i s = .next t := ⟨_, exec_next i s⟩
  rw [h, nextOf]

/-- So does a step. -/
theorem step_nextOf (s : State) : step s = .next (nextOf (step s)) := by
  obtain ⟨t, h⟩ := step_next s
  rw [h, nextOf]

theorem witness_decodeOfEncode : (Instr.packBits 255).wellFormed = true ∧ (Instr.packBits 0).wellFormed = true := by
  decide

theorem witness_encodeOfDecode : decodeWord 0x0000FF12 = .ok (.packBits 255) ∧ decodeWord 0x71 = .ok .walk :=
  ⟨rfl, rfl⟩

theorem witness_stepRunsDecodedCommand :
    busy (begun 0x60 State.reset) = true ∧ (begun 0x60 State.reset).turn ≠ 0 ∧
      decodeWord (begun 0x60 State.reset).cmd = .ok .encode := by
  refine ⟨?_, ?_, rfl⟩ <;> decide +kernel

/-- The host's turn: an action coming, a busy block with no step granted and none coming, and an idle block. -/
theorem witness_hostsTurn :
    let s := { State.reset with agenda := [(.pop, 3)] }
    let t := { begun 0x60 State.reset with turn := 0 }
    busy s = false ∧ s.agenda = (.pop, 3) :: [] ∧ t.turn = 0 ∧ busy t = true ∧ t.agenda = [] ∧
      busy State.reset = false ∧ State.reset.agenda = [] := by decide +kernel

theorem witness_illegalWordCompletes :
    busy (begun 0x110 State.reset) = true ∧ (begun 0x110 State.reset).turn ≠ 0 ∧
      decodeWord (begun 0x110 State.reset).cmd = .error .nonzeroN := by
  refine ⟨?_, ?_, rfl⟩ <;> decide +kernel

theorem witness_cmdWriteStartsCommand : busy State.reset = false := by decide +kernel

theorem witness_writesWhileBusyIgnored :
    busy (begun 0x60 State.reset) = true ∧ (0x010 : Addr) ≠ 0x004 ∧ (0x010 : Addr) ≠ 0x00C := by decide +kernel

theorem witness_hostRegisterWrites : (0xFFFFFFFE : Word).getLsbD 0 = false ∧ busy State.reset = false := by
  decide +kernel

/-- LIMIT_MB at the edges of its range: 1 and 8 are taken, 0 and 9 are not. -/
theorem witness_hostRegisterWrites_limit :
    (busWrite .word 0x028 0x10 State.reset).2.unpk.limitMb = 1 ∧
      (busWrite .word 0x028 0x80 State.reset).2.unpk.limitMb = 8 ∧
      (busWrite .word 0x028 0x00 State.reset).2.unpk.limitMb = 8 ∧
      (busWrite .word 0x028 0x90 State.reset).2.unpk.limitMb = 8 := by decide +kernel

/-- Idle, with each kind of lookahead; RD_STATE's word for a byte held (10_state.md R48). -/
theorem witness_resetRegisterValues :
    let s := { State.reset with la := some (.byte 0x5A), rd := { acc := 0xFF, fill := 8, eos := false } }
    busy State.reset = false ∧ State.reset.la = none ∧ busy { s with la := some .eos } = false ∧
      busy s = false ∧ rdStateWord s = 0x005A28FF := by decide +kernel

theorem witness_resets : (1 : Word).getLsbD 0 = true ∧ (0xFFFFFFFF : Word).getLsbD 0 = true := by decide +kernel

theorem witness_illegalAccess :
    Access.other ≠ .word ∧ (0x0002 : Addr).toNat % 4 ≠ 0 ∧ (0xFFFF : Addr).toNat % 4 ≠ 0 ∧
      (0xFFFC : Addr).toNat % 4 = 0 := by decide

/-- The edges of the unmapped ranges. -/
theorem witness_unmapped :
    ([0x003C, 0x03FC, 0x0800, 0x1FFC, 0x3FF0, 0x3FFC, 0x8000, 0xFFFC] : List Addr).all (fun a => decide
      (a.toNat % 4 = 0 ∧
        ((0x003C ≤ a.toNat ∧ a.toNat < 0x0400) ∨ (0x0800 ≤ a.toNat ∧ a.toNat < 0x2000) ∨
          (0x3FF0 ≤ a.toNat ∧ a.toNat < 0x4000) ∨ 0x8000 ≤ a.toNat))) = true := by decide +kernel

/-- The edges of the read-only ranges. -/
theorem witness_readOnly :
    ([0x0000, 0x0038, 0x2000, 0x3FEC, 0x4000, 0x7FFC] : List Addr).all (fun a => decide
      (a.toNat % 4 = 0 ∧
        (a.toNat ∈ [0x000, 0x008, 0x018, 0x01C, 0x020, 0x024, 0x02C, 0x030, 0x034, 0x038] ∨
          (0x2000 ≤ a.toNat ∧ a.toNat < 0x3FF0) ∨ (0x4000 ≤ a.toNat ∧ a.toNat < 0x8000)))) = true := by decide +kernel

/-- Busy, and the edges of the windows; the CODE words 8 and 9 of the last symbol. -/
theorem witness_busyReadsOfDefinedRegisters :
    busy (begun 0x70 State.reset) = true ∧
      ([0x0400, 0x07FC, 0x2000, 0x3FEC] : List Addr).all (fun a => decide
        (a.toNat % 4 = 0 ∧ ((0x0400 ≤ a.toNat ∧ a.toNat < 0x0800) ∨ (0x2000 ≤ a.toNat ∧ a.toNat < 0x3FF0)))) = true ∧
      255 < 256 ∧ 8 < 16 ∧ 9 < 16 := by decide +kernel

/-- Two busy states at different points of one command. -/
theorem witness_busyReadsTellNothing :
    let s := begun 0x60 State.reset
    let t := { begun 0x60 State.reset with seq := .run [.loadLoop], inLen := 5 }
    busy s = true ∧ busy t = true ∧ s.ctrl = t.ctrl ∧ s.irqPend = t.irqPend ∧ s.cmd = t.cmd ∧ s.arg = t.arg ∧
      s.result = t.result ∧ s.nMax = t.nMax ∧ s.draws = t.draws := by decide +kernel

theorem witness_freqWindowWrite : busy State.reset = false ∧ 0 < 256 ∧ 255 < 256 := by decide +kernel

/-- A TREE entry of each kind, the last index of the window among them, and the first and last CODE entries. -/
theorem witness_treeAndCodeWindowWords :
    let s := abCodes { abTree State.reset with
      tree := [(0, .internal 1 2 7), (510, .leaf 0x62 9)], treeInfo := { root := 0, nodes := 511, rootLeaf := false } }
    busy s = false ∧ s.status.treeValid = true ∧ 0 < s.treeInfo.nodes.toNat ∧ 510 < s.treeInfo.nodes.toNat ∧
      510 < 511 ∧ storeGet s.tree 0 = some (.internal 1 2 7) ∧ storeGet s.tree 510 = some (.leaf 0x62 9) ∧
      s.status.codeValid = true ∧ 255 < 256 ∧ 15 < 16 := by decide +kernel

/-- Undefined entries: no tree and no table, and the first index beyond a tree of three nodes and the last. -/
theorem witness_undefinedWindowWords :
    let s := abTree State.reset
    busy State.reset = false ∧ State.reset.status.treeValid = false ∧ State.reset.status.codeValid = false ∧
      busy s = false ∧ s.status.treeValid = true ∧ s.treeInfo.nodes.toNat ≤ 3 ∧ s.treeInfo.nodes.toNat ≤ 510 ∧
      510 < 511 ∧ 3 < 4 ∧ 255 < 256 ∧ 8 < 16 ∧ 9 < 16 := by decide +kernel

theorem witness_nopAndUnpackReset :
    Started (begun 0x00 State.reset) ∧ 2 ≤ (begun 0x00 State.reset).turn ∧ 3 ≤ (begun 0x16 State.reset).turn := by
  decide +kernel

/-- A full packer but for one bit. -/
def nearlyFull (w : Word) : State := begun w { State.reset with wr := { acc := 0x7F, fill := 7 }, arg := 0xFFFFFFFF }

theorem witness_packBitWrites :
    Started (nearlyFull 0x10) ∧ PackerWf (nearlyFull 0x10).wr ∧ 5 ≤ (nearlyFull 0x10).turn := by decide +kernel

theorem witness_packByteWrites :
    Started (nearlyFull 0x11) ∧ PackerWf (nearlyFull 0x11).wr ∧ 12 ≤ (nearlyFull 0x11).turn := by decide +kernel

theorem witness_packBitsWrites :
    Started (nearlyFull 0x2012) ∧ PackerWf (nearlyFull 0x2012).wr ∧ 32 ≤ 32 ∧ 32 + 4 ≤ (nearlyFull 0x2012).turn := by
  decide +kernel

theorem witness_flushEmits :
    Started (nearlyFull 0x13) ∧ 4 ≤ (nearlyFull 0x13).turn ∧ (nearlyFull 0x13).wr.fill ≠ 0 ∧
      (begun 0x13 State.reset).wr.fill = 0 := by decide +kernel

theorem witness_checksBeforeTheBody :
    let s := begun 0x2112 State.reset
    Started s ∧ 1 ≤ s.turn ∧ 32 < 33 ∧ s.status.bufValid = false ∧ s.status.freqValid = false ∧
      s.status.treeValid = false ∧ s.status.codeValid = false := by decide +kernel

/-- The stream's end met: nothing held; three bits held, as P2 of 95_test_vectors.md leaves them, the limit on; and
seven bits held, with no limit and under one that stops the last five. -/
theorem witness_unpackerAtEnd :
    let s : State := { State.reset with rd := { acc := 0x0E, fill := 0, eos := true } }
    let t : State :=
      { State.reset with rd := { acc := 0x0E, fill := 3, eos := true }, unpk := { limitEn := true, limitMb := 5 } }
    let u : State := { State.reset with rd := { acc := 0x0E, fill := 7, eos := true } }
    let v : State := { u with unpk := { limitEn := true, limitMb := 3 } }
    Started (begun 0x14 s) ∧ 6 ≤ (begun 0x14 s).turn ∧ (begun 0x14 s).rd.eos = true ∧ (begun 0x14 s).rd.fill = 0 ∧
      Started (begun 0x14 t) ∧ 6 ≤ (begun 0x14 t).turn ∧ (begun 0x14 t).rd.eos = true ∧ (begun 0x14 t).rd.fill = 3 ∧
      Started (begun 0x15 s) ∧ 20 ≤ (begun 0x15 s).turn ∧ (begun 0x15 s).rd.eos = true ∧
      heldBits true (begun 0x15 s) = [] ∧ Started (begun 0x15 t) ∧ 20 ≤ (begun 0x15 t).turn ∧
      (begun 0x15 t).rd.eos = true ∧ heldBits true (begun 0x15 t) = [] ∧
      Started (begun 0x15 u) ∧ 20 ≤ (begun 0x15 u).turn ∧ (begun 0x15 u).rd.eos = true ∧
      (begun 0x15 u).rd.fill.toNat ≤ 7 ∧ (begun 0x15 u).unpk.limitEn = false ∧
      heldBits true (begun 0x15 u) = [true, true, true, false, false, false, false] ∧
      (readBits 8 (begun 0x15 u)).map Prod.fst = some (.na 7 7) ∧
      Started (begun 0x15 v) ∧ (begun 0x15 v).rd.fill.toNat ≤ 7 ∧ heldBits true (begun 0x15 v) = [true, true] := by
  decide +kernel

/-- A bit 0, a bit 1 and NA. -/
theorem witness_unpackBitReads :
    Started (begun 0x14 (fed (stream [0xB5]))) ∧ 6 ≤ (begun 0x14 (fed (stream [0xB5]))).turn ∧
      (begun 0x14 (fed (stream [0xB5]))).rd.eos = false ∧
      (∃ t, readBit (begun 0x14 (fed (stream [0xB4]))) = some (some false, t)) ∧
      (∃ t, readBit (begun 0x14 (fed (stream [0xB5]))) = some (some true, t)) ∧
      ∃ t, readBit (begun 0x14 (fed (stream []))) = some (none, t) := by
  refine ⟨?_, ?_, ?_, ⟨_, rfl⟩, ⟨_, rfl⟩, ⟨_, rfl⟩⟩ <;> decide +kernel

/-- Nothing held and nothing ahead; the first bit the limit needs a peek for; and a byte short of its last bit. -/
theorem witness_unpackerHolds :
    let s := begun 0x14 State.reset
    let t := begun 0x14
      { State.reset with unpk := { limitEn := true, limitMb := 5 }, rd := { acc := 0xFF, fill := 3, eos := false } }
    let u := begun 0x15 { State.reset with rd := { acc := 0xFF, fill := 7, eos := false } }
    Started s ∧ 6 ≤ s.turn ∧ s.rd.eos = false ∧ s.rd.fill = 0 ∧ ahead s = [] ∧ readBit s = none ∧
      Started t ∧ 6 ≤ t.turn ∧ t.rd.eos = false ∧ t.unpk.limitEn = true ∧
      t.unpk.limitMb.toNat ≤ 8 - t.rd.fill.toNat ∧ ahead t = [] ∧ (readBit t).isNone = true ∧
      Started u ∧ 20 ≤ u.turn ∧ u.rd.eos = false ∧ (readBits 8 u).isNone = true := by
  decide +kernel

/-- All eight bits, none and seven; and a whole byte ahead of an empty unpacker. -/
theorem witness_unpackByteReads :
    let s := begun 0x15 (fed (stream [0xB5]))
    let t := begun 0x15 { fed [.eos] with rd := { acc := 0x3C, fill := 7, eos := false } }
    Started s ∧ 20 ≤ s.turn ∧ (readBits 8 s).map Prod.fst = some (.ok 0xB5) ∧
      t.rd.eos = false ∧ (readBits 8 t).map Prod.fst = some (.na 0x1E 7) ∧
      (readBits 8 (begun 0x15 (fed [.eos]))).map Prod.fst = some (.na 0 0) ∧
      s.rd.fill = 0 ∧ s.rd.eos = false ∧ s.unpk.limitEn = false ∧ ahead s = .byte 0xB5 :: [.eos] := by decide +kernel

/-- A stream of `bs` and more after it, N_MAX being 8. -/
def loading (w : Word) (bs : List Byte) : State :=
  begun w { fed (stream bs ++ [.byte 0x99]) with nMax := 8 }

/-- As many bytes as N_MAX, and none. -/
theorem witness_loadStoresTheStream :
    Started (loading 0x20 abab) ∧ FullTurn (loading 0x20 abab) ∧
      ahead (loading 0x20 abab) = inBytes abab ++ .eos :: [.byte 0x99] ∧
      abab.length ≤ (loading 0x20 abab).nMax.toNat ∧
      ahead (loading 0x20 []) = inBytes [] ++ .eos :: [.byte 0x99] := by decide +kernel

/-- One byte more than N_MAX. -/
theorem witness_loadOverflows :
    let x := abab ++ [0x61]
    Started (loading 0x20 x) ∧ FullTurn (loading 0x20 x) ∧
      ahead (loading 0x20 x) = inBytes x ++ .eos :: [.byte 0x99] ∧ (loading 0x20 x).nMax.toNat < x.length := by
  decide +kernel

theorem witness_countTallies :
    let s := begun 0x21 (buffered abra State.reset)
    Started s ∧ 3 ≤ s.turn ∧ s.status.bufValid = true := by decide +kernel

/-- The fewest symbols and the most. -/
theorem witness_buildMakesATree :
    let s := begun 0x30 { threeCounts with freq := [(0, 1), (255, 0xFFFFFFFF)] }
    let t := begun 0x30 { threeCounts with freq := (List.range 256).map (fun a => (a, 1)) }
    Started s ∧ FullTurn s ∧ s.status.freqValid = true ∧ 2 = distinctCount s.freq ∧
      Started t ∧ FullTurn t ∧ t.status.freqValid = true ∧ 256 = distinctCount t.freq := by decide +kernel

theorem witness_extractMinTakesTheLeast :
    extractMin [⟨5, 1⟩, ⟨2, 3⟩, ⟨2, 2⟩] = some (⟨2, 2⟩, [⟨5, 1⟩, ⟨2, 3⟩]) := by decide +kernel

/-- No symbol, one symbol, and a tree of one leaf. -/
theorem witness_degenerateInputs :
    let s := begun 0x30 { threeCounts with freq := [(0x61, 1)] }
    let t := begun 0x40 { abTree State.reset with tree := [(0, .leaf 0x61 0)] }
    Started s ∧ 3 ≤ s.turn ∧ s.status.freqValid = true ∧ distinctCount s.freq < 2 ∧ distinctCount ([] : Store Word) < 2 ∧
      Started t ∧ 3 ≤ t.turn ∧ t.status.treeValid = true ∧
      storeGet t.tree t.treeInfo.root.toNat = some (.leaf 0x61 0) := by decide +kernel

/-- The shape of `abTree`. -/
def abShape : Shape := .node (.leaf 0x61) (.leaf 0x62)

theorem witness_gencodeWritesThePaths :
    let s := begun 0x40 (abTree State.reset)
    Started s ∧ FullTurn s ∧ s.status.treeValid = true ∧ treeShape s = some abShape ∧ abShape.single = false ∧
      abShape.nodes ≤ 511 := by decide +kernel

theorem witness_codesArePrefixFree :
    let s := begun 0x40 (abTree State.reset)
    Started s ∧ FullTurn s ∧ s.status.treeValid = true ∧ treeShape s = some abShape ∧ abShape.single = false ∧
      abShape.nodes ≤ 511 := by decide +kernel

theorem witness_emitWritesTheCodes :
    let s := begun 0x41 (abCodes (buffered abab State.reset))
    Started s ∧ FullTurn s ∧ PackerWf s.wr ∧ s.status.bufValid = true ∧ s.status.codeValid = true ∧
      ∀ b ∈ bufBytes s s.inLen.toNat, (codeGet s.code b.toNat).len ≠ 0 := by decide +kernel

theorem witness_emitStopsWithoutACode :
    let s := begun 0x41 (abCodes (buffered [0x61, 0x7A, 0x62] State.reset))
    Started s ∧ FullTurn s ∧ PackerWf s.wr ∧ s.status.bufValid = true ∧ s.status.codeValid = true ∧
      bufBytes s s.inLen.toNat = [0x61] ++ 0x7A :: [0x62] ∧
      (∀ c ∈ ([0x61] : List Byte), (codeGet s.code c.toNat).len ≠ 0) ∧
      (codeGet s.code (0x7A : Byte).toNat).len = 0 := by decide +kernel

/-- A tree of two leaves, and of one. -/
theorem witness_serializeWritesTheTree :
    let s := begun 0x50 (abTree State.reset)
    let t := begun 0x50 { abTree State.reset with tree := [(0, .leaf 0x61 0)] }
    Started s ∧ FullTurn s ∧ PackerWf s.wr ∧ s.status.treeValid = true ∧ treeShape s = some abShape ∧
      abShape.nodes ≤ 511 ∧ treeShape t = some (.leaf 0x61) := by decide +kernel

/-- Section 5.2: three bits of BE held, three bytes ahead. -/
def serialized (w : Word) : State :=
  begun w { fed (stream [0x30, 0x62, 0xAA]) with rd := { acc := 0xBE, fill := 3, eos := false } }

theorem witness_deserializeRebuildsTheTree :
    let s := serialized 0x51
    Started s ∧ FullTurn s ∧ s.rd.eos = false ∧ s.rd.fill.toNat ≤ 8 ∧
      genuineBits s = some (abShape.bits ++ bitsOf 8 (0xAA : Byte)) ∧ abShape.nodes ≤ 511 := by decide +kernel

/-- 511 nodes that do not complete a tree, the last a leaf. -/
def manyNodes : List (Option Byte) := List.replicate 510 none ++ [some 0x61]

/-- Their bits, a last tag and padding, from a packer. -/
def manyBytes (tag : Bool) : List Byte := frameBytes (nodesBits manyNodes ++ [tag])

/-- No bit at all, a tag alone, a symbol cut short, a 512th tag of either kind, and the stream's end at its place; and,
RD_EOS being 1, nothing held, the six bits that a single-symbol DECODE leaves, and three of which a limit stops two. -/
theorem witness_deserializeErrors :
    let s := begun 0x51 (fed (stream [0x85]))
    let t := begun 0x51 (fed (stream (manyBytes false)))
    let u := begun 0x51
      { fed (stream (frameBytes (nodesBits manyNodes))) with unpk := { limitEn := true, limitMb := 7 } }
    let v := begun 0x51
      { State.reset with rd := { acc := 0x0E, fill := 0, eos := true } }
    let x := begun 0x51
      { fed [.eos] with rd := { acc := 0x0E, fill := 3, eos := true }, unpk := { limitEn := true, limitMb := 6 } }
    let w := begun 0x51 { fed [.byte 0x55] with rd := { acc := 0x84, fill := 6, eos := true } }
    Started s ∧ FullTurn s ∧ s.rd.eos = false ∧ s.rd.fill.toNat ≤ 8 ∧ unfinished 1 [none] = true ∧
      genuineBits s = some (nodesBits [none] ++ [false, true, false, false, false, false, true]) ∧
      unfinished 1 [] = true ∧ genuineBits (begun 0x51 (fed (stream []))) = some (nodesBits [] ++ []) ∧
      FullTurn t ∧ unfinished 1 manyNodes = true ∧ manyNodes.length = 511 ∧
      genuineBits t = some (nodesBits manyNodes ++ false :: []) ∧
      genuineBits (begun 0x51 (fed (stream (manyBytes true)))) = some (nodesBits manyNodes ++ true :: []) ∧
      FullTurn u ∧ genuineBits u = some (nodesBits manyNodes ++ []) ∧
      Started v ∧ FullTurn v ∧ v.rd.eos = true ∧ v.rd.fill = 0 ∧
      Started w ∧ FullTurn w ∧ w.rd.eos = true ∧ w.rd.fill.toNat ≤ 8 ∧
      genuineBits w = some (nodesBits [none] ++ [false, false, false, false, true]) ∧
      Started x ∧ FullTurn x ∧ x.rd.eos = true ∧ genuineBits x = some (nodesBits [] ++ [false]) := by decide +kernel

/-- The bytes that section 5.1 gives for the tree, flushed. -/
theorem witness_treeRoundTrip :
    let s := begun 0x50 (abTree State.reset)
    let u := begun 0x51 (fed (stream [0x85, 0x11, 0x03]))
    Started s ∧ FullTurn s ∧ s.wr = { acc := 0, fill := 0 } ∧ s.status.treeValid = true ∧ treeShape s = some abShape ∧
      abShape.nodes ≤ 511 ∧ 4 ≤ 4 ∧
      Started u ∧ FullTurn u ∧ u.rd.fill = 0 ∧ u.rd.eos = false ∧ u.unpk.limitEn = false ∧
      ahead u = inBytes [0x85, 0x11, 0x03] ++ .eos :: [] := by decide +kernel

/-- The leaf paths a, b, a under a limit of three bits; and the end of the stream already met. -/
theorem witness_walkEmitsTheSymbols :
    let s := begun 0x71 { abTree (fed (stream [0x02])) with unpk := { limitEn := true, limitMb := 3 } }
    let t := begun 0x71 { abTree State.reset with rd := { acc := 0x0E, fill := 3, eos := true } }
    let ys : List (Byte × List Bool) := [(0x61, [false]), (0x62, [true]), (0x61, [false])]
    Started s ∧ FullTurn s ∧ s.status.treeValid = true ∧ treeShape s = some abShape ∧ abShape.single = false ∧
      abShape.nodes ≤ 511 ∧ (∀ y ∈ ys, y ∈ abShape.paths) ∧ s.rd.eos = false ∧ s.rd.fill.toNat ≤ 8 ∧
      genuineBits s = some (ys.flatMap Prod.snd) ∧
      Started t ∧ FullTurn t ∧ t.status.treeValid = true ∧ treeShape t = some abShape ∧ t.rd.eos = true ∧
      t.rd.fill = 3 := by decide +kernel

/-- The three-leaf tree of section 4.2: one whole path, then half of another. -/
theorem witness_walkTruncates :
    let s := begun 0x71 { threeTree with inp := stream [0x02], unpk := { limitEn := true, limitMb := 2 } }
    let sh : Shape := .node (.leaf 2) (.node (.leaf 0) (.leaf 1))
    let ys : List (Byte × List Bool) := [(2, [false])]
    Started s ∧ FullTurn s ∧ s.status.treeValid = true ∧ treeShape s = some sh ∧ sh.single = false ∧ sh.nodes ≤ 511 ∧
      (∀ y ∈ ys, y ∈ sh.paths) ∧ ((0 : Byte), [true, false]) ∈ sh.paths ∧ [true] <+: [true, false] ∧
      [true] ≠ [true, false] ∧ [true] ≠ [] ∧ s.rd.eos = false ∧ s.rd.fill.toNat ≤ 8 ∧
      genuineBits s = some (ys.flatMap Prod.snd ++ [true]) := by decide +kernel

/-- No byte, and seven. -/
theorem witness_encodeRawFrame :
    let x := abab.take 7
    Started (loading 0x60 x) ∧ FullTurn (loading 0x60 x) ∧
      ahead (loading 0x60 x) = inBytes x ++ .eos :: [.byte 0x99] ∧ x.length < 8 ∧
      x.length ≤ (loading 0x60 x).nMax.toNat ∧ ahead (loading 0x60 []) = inBytes [] ++ .eos :: [.byte 0x99] := by
  decide +kernel

/-- Eight bytes, the threshold and N_MAX at once. -/
theorem witness_encodeSingleFrame :
    let x : List Byte := List.replicate 8 0x61
    Started (loading 0x60 x) ∧ FullTurn (loading 0x60 x) ∧
      ahead (loading 0x60 x) = inBytes x ++ .eos :: [.byte 0x99] ∧ 8 ≤ 8 ∧ 8 ≤ (loading 0x60 x).nMax.toNat := by
  decide +kernel

theorem witness_encodeHuffmanFrame :
    let s := loading 0x60 abab
    Started s ∧ FullTurn s ∧ ahead s = inBytes abab ++ .eos :: [.byte 0x99] ∧ 8 ≤ abab.length ∧
      abab.length ≤ s.nMax.toNat ∧ 2 ≤ distinctBytes abab := by decide +kernel

theorem witness_encodeOverflows :
    let x := abab ++ [0x61]
    Started (loading 0x60 x) ∧ FullTurn (loading 0x60 x) ∧
      ahead (loading 0x60 x) = inBytes x ++ .eos :: [.byte 0x99] ∧ (loading 0x60 x).nMax.toNat < x.length := by
  decide +kernel

theorem witness_decodeRawFrame :
    let x : List Byte := [0x84, 0x01]
    let s := loading 0x70 x
    Started s ∧ FullTurn s ∧ ahead s = inBytes x ++ .eos :: [.byte 0x99] ∧
      byteBits x = [false, false] ++ (byteBits x).drop 2 ∧ x.getLast? = some 0x01 := by decide +kernel

theorem witness_decodeSingleFrame :
    let x : List Byte := [0x85, 0x21, 0x00, 0x00, 0x00, 0x00, 0xFF]
    let s := loading 0x70 x
    Started s ∧ FullTurn s ∧ ahead s = inBytes x ++ .eos :: [.byte 0x99] ∧
      byteBits x = [true, false] ++ bitsOf 8 (0x61 : Byte) ++ bitsOf 32 (8 : Word) ++ (byteBits x).drop 42 := by
  decide +kernel

/-- Section 7: mb 7. -/
theorem witness_decodeHuffmanFrame :
    let x : List Byte := [0xBA, 0x30, 0x62, 0xAA]
    let s := loading 0x70 x
    let ys : List (Byte × List Bool) :=
      [(0x61, [false]), (0x62, [true]), (0x61, [false]), (0x62, [true]), (0x61, [false]), (0x62, [true]), (0x61, [false])]
    Started s ∧ FullTurn s ∧ ahead s = inBytes x ++ .eos :: [.byte 0x99] ∧
      (byteBits x).take 5 = [false, true] ++ bitsOf 3 (6 : BitVec 3) ∧
      (limitedBits ((6 : BitVec 3).toNat + 1) x).drop 5 = abShape.bits ++ ys.flatMap Prod.snd ∧
      abShape.single = false ∧ abShape.nodes ≤ 511 ∧ ∀ y ∈ ys, y ∈ abShape.paths := by decide +kernel

/-- The empty stream, tag 3, and a single-symbol frame of 2 and of 40 bits after its tag, less than its 40. -/
theorem witness_decodeEmptyAndMalformed :
    let s := loading 0x70 []
    let x : List Byte := [0x03]
    let y : List Byte := [0x85, 0x21, 0x00, 0x00, 0x00]
    Started s ∧ FullTurn s ∧ ahead s = inBytes [] ++ .eos :: [.byte 0x99] ∧
      FullTurn (loading 0x70 x) ∧ byteBits x = [true, true] ++ (byteBits x).drop 2 ∧
      FullTurn (loading 0x70 y) ∧ byteBits y = [true, false] ++ (byteBits y).drop 2 ∧
      ((byteBits y).drop 2).length < 40 := by decide +kernel

/-- Huffman frames of 95_test_vectors.md's kind: a tree of one leaf, a tree cut at its first leaf's symbol, and an
overlong tree, all with mb 8; a code cut short under mb 4, after the three-leaf tree and one whole path. -/
theorem witness_decodeMalformedHuffman :
    let header (mb : BitVec 3) : List Bool := [false, true] ++ bitsOf 3 mb
    let x := frameBytes (header 7 ++ tagBits (some 0x61))
    let y := frameBytes (header 7 ++ [true, false, true])
    let z := frameBytes (header 7 ++ nodesBits (List.replicate 511 none) ++ [true])
    let sh : Shape := .node (.leaf 2) (.node (.leaf 0) (.leaf 1))
    let w := frameBytes (header 3 ++ sh.bits ++ [false, true])
    FullTurn (loading 0x70 x) ∧ (byteBits x).take 5 = [false, true] ++ bitsOf 3 (7 : BitVec 3) ∧
      (limitedBits 8 x).drop 5 = false :: bitsOf 8 (0x61 : Byte) ++ [false, false] ∧
      (limitedBits 8 y).drop 5 = nodesBits [none] ++ [false, true] ∧
      (limitedBits 8 z).drop 5 = nodesBits (List.replicate 511 none) ++ true :: List.replicate 3 false ∧
      unfinished 1 (List.replicate 511 none) = true ∧
      (limitedBits 4 w).drop 5 = sh.bits ++ [((2 : Byte), [false])].flatMap Prod.snd ++ [true] ∧
      ((0 : Byte), [true, false]) ∈ sh.paths := by decide +kernel

theorem witness_decodeConsumesItsStream :
    let s := loading 0x70 [0xFF]
    Started s ∧ FullTurn s ∧ ahead s = inBytes [0xFF] ++ .eos :: [.byte 0x99] := by decide +kernel

/-- ENCODE of "abababab" and DECODE of the bytes it gives (section 2.1). -/
theorem witness_roundTrip :
    let s := loading 0x60 abab
    let y : List Byte := [0xBE, 0x30, 0x62, 0xAA]
    let u := loading 0x70 y
    Started s ∧ FullTurn s ∧ ahead s = inBytes abab ++ .eos :: [.byte 0x99] ∧ abab.length ≤ s.nMax.toNat ∧
      Started u ∧ FullTurn u ∧ ahead u = inBytes y ++ .eos :: [.byte 0x99] := by decide +kernel

/-- The invariant at a running state with a tree, codes and a buffer; that state's step. -/
theorem witness_invKeptByStep :
    let s := begun 0x41 (abTree (abCodes (buffered abab State.reset)))
    Inv s ∧ step s = .next (nextOf (step s)) := by
  intro s
  refine ⟨⟨⟨?_, ?_, ?_, ?_, ?_, ?_, ?_, ?_, ?_⟩, ⟨?_, ?_, ?_, ?_, ?_, ?_, ?_, ?_⟩, ⟨?_, ?_, ?_, ?_⟩, trivial,
    ⟨fun _ => ⟨abShape, ?_, ?_, ?_, ?_⟩, ?_, fun _ h => (List.not_mem_nil h).elim⟩⟩, step_nextOf s⟩
  all_goals decide +kernel

/-- A state in the midst of each task that makes TREE: two trees to merge, and a leaf's symbol asked for. -/
theorem witness_treeOk :
    let s := { threeCounts with
      tree := [(0, .leaf 0 1), (1, .leaf 1 1), (2, .leaf 2 2), (3, .internal 0 1 2)]
      seq := .run [.buildMerge [⟨2, 3⟩, ⟨2, 2⟩] 4] }
    let t := { State.reset with
      tree := [(0, .internal 1 0 0), (1, .leaf 0x61 0)], treeInfo := { root := 0, nodes := 3, rootLeaf := false }
      seq := .run [.get 8 0 0, .deserSymbol [⟨0, true⟩] 2] }
    TreeOk s ∧ TreeOk t := by
  refine ⟨⟨nofun, by decide +kernel, ?_⟩, ⟨nofun, by decide +kernel, ?_⟩⟩
  · intro k hk
    rw [show treeTasks _ = [Machine.Task.buildMerge [⟨2, 3⟩, ⟨2, 2⟩] 4] from rfl, List.mem_singleton] at hk
    subst hk
    refine ⟨rfl, ?_, ?_, ?_, ?_⟩ <;> decide +kernel
  · intro k hk
    rw [show treeTasks _ = [Machine.Task.deserSymbol [⟨0, true⟩] 2] from rfl, List.mem_singleton] at hk
    subst hk
    exact ⟨rfl, rfl, rfl, rfl, .node (.leaf 0x61) .gap, rfl, rfl, rfl, by decide +kernel,
      ⟨1, 0, 0, rfl, fun _ => rfl, fun h => (h rfl).elim⟩, ⟨0, rfl⟩, trivial⟩

/-- A state that steps, and a busy one that has no step; and a turn of LOAD, running at its end and done at it. -/
theorem witness_oneTransferPerCoreStep :
    let s := begun 0x20 (fed (stream [0x61]))
    let t := { begun 0x20 State.reset with seq := .run [.loadLoop] }
    (coreStep cmdLoad s).isSome = true ∧ coreStep cmdLoad t = none ∧ busy t = true ∧ Holds t ∧
      exec .load { s with turn := 3 } = .next (nextOf (exec .load { s with turn := 3 })) ∧
      busy (nextOf (exec .load { s with turn := 3 })) = true ∧
      busy (nextOf (exec .load { s with turn := 9 })) = false ∧
      ({ State.reset with out := [.byte 1, .eos] } : State).out = .byte 1 :: [.eos] ∧ State.reset.out = [] := by
  refine ⟨?_, ?_, ?_, ⟨_, _, rfl, rfl, rfl⟩, exec_nextOf _ _, ?_, ?_, ?_, ?_⟩ <;> decide +kernel

/-- The tasks that need a token, where they need it (41_bitio.md R204, R208, R214). -/
theorem test_needsToken :
    let s := State.reset
    let t := { s with unpk := { limitEn := true, limitMb := 5 }, rd := { acc := 0, fill := 3, eos := false } }
    let u := { t with rd := { t.rd with fill := 4 } }
    let v := { t with rd := { t.rd with eos := true } }
    needsToken (.get 8 0 0) s = true ∧ needsToken (.get 8 8 0) s = false ∧ needsToken .askBit t = true ∧
      needsToken .askBit u = false ∧ needsToken .askBit v = false ∧ needsToken .askByte v = false ∧
      needsToken (.get 1 0 0) v = true ∧ needsToken .drain s = true ∧ needsToken .drain v = false := by decide +kernel

/-- From the start of a success and of an error; a DECODE in the midst of its error path; ENCODE with its End appended;
another command; and an idle state. -/
theorem witness_endAndAbortTokens :
    let s := loading 0x60 abab
    let u := { loading 0x70 [0x03] with seq := .run [.drain, .enter .finish, .out .abort, .fail .badMode] }
    let v := { loading 0x60 [] with seq := .run [.setRet 2] }
    busy s = true ∧ Runs .encode s ∧ OneEnd s ∧ Started s ∧ endToCome s = true ∧
      endToCome (nextOf (exec .encode s)) = false ∧
      exec .encode s = .next (nextOf (exec .encode s)) ∧
      busy u = true ∧ Runs .decode u ∧ OneEnd u ∧ endToCome u = true ∧ endsInError (nextOf (exec .decode u)) = true ∧
      exec .decode u = .next (nextOf (exec .decode u)) ∧
      busy v = true ∧ Runs .encode v ∧ OneEnd v ∧ endToCome v = false ∧
      exec .flush (nearlyFull 0x13) = .next (nextOf (exec .flush (nearlyFull 0x13))) ∧ Runs .flush (nearlyFull 0x13) ∧
      busy State.reset = false := by
  refine ⟨by decide +kernel, trivial, trivial, by decide +kernel, by decide +kernel, by decide +kernel, exec_nextOf _ _,
    by decide +kernel, ?_, .inl (by decide +kernel), by decide +kernel, by decide +kernel, exec_nextOf _ _,
    by decide +kernel, ?_, .inr (by decide +kernel), by decide +kernel, exec_nextOf _ _, trivial, by decide +kernel⟩
  · show ∀ k ∈ [Machine.Task.drain, .enter .finish, .out .abort, .fail .badMode], ownTask .decode k = true
    decide
  · show ∀ k ∈ [Machine.Task.setRet 2], ownTask .encode k = true
    decide

/-- Every command runs from its start. -/
theorem witness_flagsChangeOnlyByProducers (i : Instr) :
    let s := begun (encodeWord i) State.reset
    Runs i s ∧ exec i s = .next (nextOf (exec i s)) := ⟨trivial, exec_nextOf _ _⟩

/-- The edges of the FREQ window, and the soft reset's word. -/
theorem witness_flagsInTheHostsTurn :
    busy State.reset = false ∧ (0x0400 : Addr).toNat % 4 = 0 ∧ 0x0400 ≤ (0x0400 : Addr).toNat ∧
      (0x07FC : Addr).toNat < 0x0800 ∧ (1 : Word).getLsbD 0 = true := by decide +kernel

/-- A state between a command's tasks, too. -/
theorem witness_packerCommandsFrame :
    let s := nearlyFull 0x10
    let t := { nearlyFull 0x10 with seq := .run [.put [true], .retPushed] }
    Runs .nop s ∧ Runs .unpackReset s ∧ Started s ∧ exec .nop s = .next (nextOf (exec .nop s)) ∧
      exec .unpackReset s = .next (nextOf (exec .unpackReset s)) ∧
      Runs .packBit t ∧ exec .packBit t = .next (nextOf (exec .packBit t)) ∧
      Runs (.packBits 3) s ∧ exec (.packBits 3) s = .next (nextOf (exec (.packBits 3) s)) := by
  refine ⟨trivial, trivial, by decide +kernel, exec_nextOf _ _, exec_nextOf _ _, ?_, exec_nextOf _ _, trivial,
    exec_nextOf _ _⟩
  show ∀ k ∈ [Machine.Task.put [true], .retPushed], ownTask .packBit k = true
  decide

theorem witness_unpackerCommandsFrame :
    let s := begun 0x14 (fed (stream [0xB5]))
    let t := { abTree (begun 0x71 State.reset) with seq := .run [.askBit, .walkBit 0 0] }
    Runs .unpackBit s ∧ exec .unpackBit s = .next (nextOf (exec .unpackBit s)) ∧
      Runs .walk t ∧ exec .walk t = .next (nextOf (exec .walk t)) := by
  refine ⟨trivial, exec_nextOf _ _, ?_, exec_nextOf _ _⟩
  show ∀ k ∈ [Machine.Task.askBit, .walkBit 0 0], ownTask .walk k = true
  decide

theorem witness_tableCommandsFrame :
    let s := loading 0x20 abab
    let t := { threeTree with seq := .run [.gencodeWalk [(4, .zero)] [] 0] }
    Runs .load s ∧ Started s ∧ exec .load s = .next (nextOf (exec .load s)) ∧ 2 ≤ s.turn ∧
      Runs .count s ∧ exec .count s = .next (nextOf (exec .count s)) ∧
      Runs .build s ∧ exec .build s = .next (nextOf (exec .build s)) ∧
      Started (begun 0x30 threeCounts) ∧ busy (nextOf (exec .build (begun 0x30 threeCounts))) = false ∧
      Runs .gencode t ∧ exec .gencode t = .next (nextOf (exec .gencode t)) := by
  refine ⟨trivial, by decide +kernel, exec_nextOf _ _, by decide +kernel, trivial, exec_nextOf _ _, trivial,
    exec_nextOf _ _, by decide +kernel, by decide +kernel, ?_, exec_nextOf _ _⟩
  show ∀ k ∈ [Machine.Task.gencodeWalk [(4, .zero)] [] 0], ownTask .gencode k = true
  decide

theorem witness_codecCommandsFrame :
    let s := serialized 0x51
    let t := { loading 0x60 abab with seq := .run [.load, .count, .encodeMode] }
    Runs .deserialize s ∧ Started s ∧ exec .deserialize s = .next (nextOf (exec .deserialize s)) ∧ 2 ≤ s.turn ∧
      Runs .encode t ∧ exec .encode t = .next (nextOf (exec .encode t)) ∧
      Runs .decode s ∧ exec .decode s = .next (nextOf (exec .decode s)) ∧
      Started (loading 0x60 abab) ∧ 3 ≤ (loading 0x60 abab).turn ∧
      busy (nextOf (exec .encode (loading 0x60 abab))) = false := by
  refine ⟨trivial, by decide +kernel, exec_nextOf _ _, by decide +kernel, ?_, exec_nextOf _ _, trivial,
    exec_nextOf _ _, by decide +kernel, by decide +kernel, by decide +kernel⟩
  show ∀ k ∈ [Machine.Task.load, .count, .encodeMode], ownTask .encode k = true
  decide

end Sys2Proof.Tests
end

/-!
## Footprint

What each task of the sequencer writes and what it can put on the sequencer's list, said
once for all tasks (`runTask_does`).
-/

namespace Sys2Proof.Machine

variable {s t u : State}

/-! ### The parts of the state -/

/-- The parts of the state that a task can write, each with the validity flag that goes with it (10_state.md R58). -/
inductive Part where
  | buffer | frequency | ndist | tree | code | packer | unpacker | limit | mode | input | output | outcome
  deriving DecidableEq

/-- A part is the same in two states. -/
def Part.Same (s t : State) : Part → Prop
  | .buffer => t.buf = s.buf ∧ t.inLen = s.inLen ∧ t.status.bufValid = s.status.bufValid
  | .frequency => t.freq = s.freq ∧ t.status.freqValid = s.status.freqValid
  | .ndist => t.ndist = s.ndist
  | .tree => t.tree = s.tree ∧ t.treeInfo = s.treeInfo ∧ t.status.treeValid = s.status.treeValid
  | .code => t.code = s.code ∧ t.status.codeValid = s.status.codeValid
  | .packer => t.wr = s.wr
  | .unpacker => t.rd = s.rd
  | .limit => t.unpk = s.unpk
  | .mode => t.mode = s.mode
  | .input => t.la = s.la ∧ t.inp = s.inp
  | .output => t.out = s.out
  | .outcome =>
    t.status.done = s.status.done ∧ t.status.error = s.status.error ∧ t.status.errcode = s.status.errcode ∧
      t.irqPend = s.irqPend

theorem Part.forall_iff {P : Part → Prop} :
    (∀ p, P p) ↔ P .buffer ∧ P .frequency ∧ P .ndist ∧ P .tree ∧ P .code ∧ P .packer ∧ P .unpacker ∧ P .limit ∧
      P .mode ∧ P .input ∧ P .output ∧ P .outcome := by
  refine ⟨fun h => ⟨h _, h _, h _, h _, h _, h _, h _, h _, h _, h _, h _, h _⟩, fun h p => ?_⟩
  obtain ⟨h1, h2, h3, h4, h5, h6, h7, h8, h9, h10, h11, h12⟩ := h
  cases p <;> assumption

/-- Only the given parts can differ. -/
def KeepsBut (ps : List Part) (s t : State) : Prop := ∀ p, p ∉ ps → p.Same s t

/-- The parts a task writes, from the rule of each command's body. -/
def Task.writes : Task → List Part
  | .enter _ | .retPushed | .retBit | .retByte | .setRet _ => []
  | .put _ | .flush => [.packer, .output]
  | .out _ | .outRepeat _ _ | .walkBit _ _ | .decodeRaw _ => [.output]
  | .get _ _ _ | .askBit | .askByte | .drain => [.unpacker, .input]
  | .unpackReset => [.unpacker, .limit]
  | .load => [.buffer]
  | .loadLoop => [.buffer, .input]
  | .loadDiscard => [.input]
  | .count => [.frequency, .ndist]
  | .build => [.ndist, .tree]
  | .buildMerge _ _ | .deserialize | .deserTag _ | .deserSymbol _ _ => [.tree]
  | .gencode | .gencodeWalk _ _ _ => [.code]
  | .emit | .emitLoop _ _ | .serialize | .serializeWalk _ _ | .walk => []
  | .encodeInit => [.packer, .mode]
  | .encodeMode | .encodeHeader | .decodeTag => [.mode]
  | .decodeInit => [.unpacker, .limit, .mode]
  | .decodeMb => [.limit, .mode]
  | .encodeFinish _ | .decodeSymbol | .decodeCount _ | .decodeWalked | .decodeFinish _ => []
  | .fail _ => [.outcome]

/-! ### What a task can leave to do -/

/-- One command of each constructor: all that `ownTask` tells apart. -/
def commands : List Instr :=
  [.nop, .packBit, .packByte, .packBits 0, .flush, .unpackBit, .unpackByte, .unpackReset, .load, .count, .build,
    .gencode, .emit, .serialize, .deserialize, .encode, .decode, .walk]

/-- Every command's tasks are those of one of `commands`. -/
theorem ownTask_commands (i : Instr) : ∃ j ∈ commands, ∀ k, ownTask i k = ownTask j k := by
  cases i
  case packBits n => exact ⟨.packBits 0, by decide, fun _ => rfl⟩
  all_goals exact ⟨_, by decide, fun _ => rfl⟩

/-- A task that carries data which the invariant bounds. -/
def carriesData : Task → Bool
  | .buildMerge _ _ | .deserTag _ | .deserSymbol _ _ | .fail _ => true
  | _ => false

/-- Tasks that `k` can put on the list: each belongs to every command that `k` belongs to, no more than one makes TREE
and none if `k` does not, and only a task that writes TREE leaves one with data. -/
def mayFollow (k : Task) (ts : List Task) : Bool :=
  commands.all (fun i => !ownTask i k || ts.all (ownTask i)) &&
    Nat.ble (ts.filter makesTree).length (makesTree k).toNat &&
    (decide (.tree ∈ k.writes) || ts.all (fun x => !carriesData x))

/-- A task that can raise an error: every command it belongs to can have an error's completion to do. -/
def mayRaise (k : Task) : Bool := commands.all (fun i => !ownTask i k || ownTask i (.fail .none))

theorem ownTask_of_mayFollow {k x : Task} {ts : List Task} {i : Instr} (h : mayFollow k ts = true)
    (hi : ownTask i k = true) (hx : x ∈ ts) : ownTask i x = true := by
  obtain ⟨j, hj, hij⟩ := ownTask_commands i
  simp only [mayFollow, Bool.and_eq_true, List.all_eq_true] at h
  obtain ⟨⟨h1, -⟩, -⟩ := h
  have h2 := h1 j hj
  rw [← hij k, hi] at h2
  simp only [Bool.not_true, Bool.false_or, List.all_eq_true] at h2
  rw [hij x]
  exact h2 x hx

theorem ownTask_fail (i : Instr) (e : ErrCode) : ownTask i (.fail e) = ownTask i (.fail .none) := by
  cases i <;> rfl

theorem ownTask_of_mayRaise {k : Task} {i : Instr} (h : mayRaise k = true) (hi : ownTask i k = true) (e : ErrCode) :
    ownTask i (.fail e) = true := by
  obtain ⟨j, hj, hij⟩ := ownTask_commands i
  have h2 := List.all_eq_true.1 h j hj
  rw [← hij k, hi] at h2
  rw [ownTask_fail, hij]
  exact h2

theorem makesTree_of_mayFollow {k : Task} {ts : List Task} (h : mayFollow k ts = true) :
    (ts.filter makesTree).length ≤ (makesTree k).toNat := by
  simp only [mayFollow, Bool.and_eq_true] at h
  exact Nat.le_of_ble_eq_true h.1.2

theorem carriesData_of_mayFollow {k x : Task} {ts : List Task} (h : mayFollow k ts = true)
    (hk : .tree ∉ k.writes) (hx : x ∈ ts) : carriesData x = false := by
  simp only [mayFollow, Bool.and_eq_true, Bool.or_eq_true, decide_eq_true_eq, hk, false_or, List.all_eq_true] at h
  simpa using h.2 x hx

/-- What a task does, with `rest` left on the list: it writes its own parts only, and puts tasks that may follow it
before the rest, or raises an error. -/
def Does (k : Task) (s : State) (rest : List Task) : TaskResult → Prop
  | .hold => True
  | .ok t => KeepsBut k.writes s t ∧ ∃ ts, mayFollow k ts = true ∧ t.seq = .run (ts ++ rest)
  | .err e t => KeepsBut k.writes s t ∧ e ≠ .none ∧ mayRaise k = true

section
variable {k : Task} {rest : List Task}

theorem does_ok (hs : s.seq = .run rest)
    (hk : KeepsBut k.writes s t := by simp [KeepsBut, Part.forall_iff, Part.Same, Task.writes])
    (ht : t.seq = s.seq := by rfl) (hf : mayFollow k [] = true := by rfl) : Does k s rest (.ok t) :=
  ⟨hk, [], hf, by rw [ht, hs]; rfl⟩

theorem does_push (hs : s.seq = .run rest) {ts : List Task}
    (hk : KeepsBut k.writes s t := by simp [KeepsBut, Part.forall_iff, Part.Same, Task.writes])
    (ht : t.seq = s.seq := by rfl) (hf : mayFollow k ts = true := by rfl) : Does k s rest (.ok (pushTasks ts t)) := by
  refine ⟨fun p hp => ?_, ts, hf, pushTasks_seq_run t ts rest (by rw [ht, hs])⟩
  have := hk p hp
  cases p <;> simpa [Part.Same] using this

theorem does_err {e : ErrCode}
    (hk : KeepsBut k.writes s t := by simp [KeepsBut, Part.forall_iff, Part.Same, Task.writes])
    (he : e ≠ .none := by nofun) (hr : mayRaise k = true := by rfl) : Does k s rest (.err e t) :=
  ⟨hk, he, hr⟩

end


/-! ### The shared operations -/

theorem writeBit_keeps (b : Bool) (s : State) : KeepsBut [.packer, .output] s (writeBit b s) := by
  rcases writeBit_cases b s with ⟨-, h⟩ | ⟨-, h⟩ <;> rw [h] <;> simp [KeepsBut, Part.forall_iff, Part.Same]

theorem flushPacker_keeps (s : State) : KeepsBut [.packer, .output] s (flushPacker s) := by
  rcases flushPacker_cases s with ⟨-, h⟩ | ⟨-, h⟩ <;> rw [h] <;> simp [KeepsBut, Part.forall_iff, Part.Same]

theorem flushPacker_seq (s : State) : (flushPacker s).seq = s.seq := by
  rcases flushPacker_cases s with ⟨-, h⟩ | ⟨-, h⟩ <;> rw [h]

/-- Writing nodes changes TREE's entries alone. -/
theorem writeNodes_frame (l : List (Nat × Node)) (s : State) :
    writeNodes l s = { s with tree := (writeNodes l s).tree } := by
  induction l generalizing s with
  | nil => rfl
  | cons p rest ih => rw [writeNodes, ih]; rfl

/-- So does linking a node. -/
theorem linkChild_frame (p : List Pending) (k : Nat) (s : State) :
    (linkChild p k s).2 = { s with tree := (linkChild p k s).2.tree } := by
  unfold linkChild
  split
  · rfl
  · dsimp only
    split <;> rfl

section
variable {k : Task} {rest : List Task}

/-- One step of readBits, in the tasks that ask for bits. -/
theorem taskGet_does (n m : Nat) (v : Word) (hs : s.seq = .run rest) (hw : k.writes = [.unpacker, .input])
    (hd : mayFollow k [] = true) (hf : ∀ n m v, mayFollow k [.get n m v] = true) :
    Does k s rest (taskGet n m v s) := by
  obtain ⟨f1, f2, f3, -⟩ := readBitStep_frame s
  rw [taskGet]
  split
  · exact does_ok hs (by simp [KeepsBut, Part.forall_iff, Part.Same, hw]) rfl hd
  · split
    · trivial
    · next u hu =>
      rw [f1 u hu]
      exact does_push hs (by simp [KeepsBut, Part.forall_iff, Part.Same, hw]) rfl (hf ..)
    · next u hu =>
      rw [f2 u hu]
      exact does_ok hs (by simp [KeepsBut, Part.forall_iff, Part.Same, hw]) rfl hd
    · next b u hu =>
      rw [f3 b u hu]
      exact does_push hs (by simp [KeepsBut, Part.forall_iff, Part.Same, hw]) rfl (hf ..)

end

/-- What every task but the completion of an error does. -/
theorem runTask_does (k : Task) {rest : List Task} (hs : s.seq = .run rest) (hk : isFail k = false) :
    Does k s rest (runTask k s) := by
  cases k
  case fail c => cases hk
  case put bits =>
    cases bits with
    | nil => exact does_ok hs
    | cons b bs => exact does_push hs (writeBit_keeps b s) (writeBit_seq b s) rfl
  case flush => exact does_ok hs (flushPacker_keeps s) (flushPacker_seq s) rfl
  case outRepeat b n =>
    cases n with
    | zero => exact does_ok hs
    | succ n => exact does_push hs
  case get n m v => exact taskGet_does n m v hs rfl rfl fun _ _ _ => rfl
  case askBit =>
    rw [runTask, taskAskBit]
    split
    · exact does_ok hs
    · exact taskGet_does _ _ _ hs rfl rfl fun _ _ _ => rfl
  case askByte =>
    rw [runTask, taskAskByte]
    split
    · obtain ⟨f, hf⟩ := takeHeld_frame 8 0 0 s
      dsimp only
      rw [hf]
      exact does_ok hs
    · exact taskGet_does _ _ _ hs rfl rfl fun _ _ _ => rfl
  case drain =>
    rw [runTask, taskDrain]
    split
    · exact does_ok hs
    · split
      · trivial
      · next u hu =>
        rw [(inRead_some hu).2]
        exact does_ok hs
      · next b u hu =>
        rw [(inRead_some hu).2]
        exact does_push hs
  case loadLoop =>
    rw [runTask, taskLoadLoop]
    split
    · trivial
    · next u hu =>
      rw [(inRead_some hu).2]
      exact does_ok hs
    · next b u hu =>
      rw [(inRead_some hu).2]
      split <;> exact does_push hs
  case loadDiscard =>
    rw [runTask, taskLoadDiscard]
    split
    · trivial
    · next u hu =>
      rw [(inRead_some hu).2]
      exact does_err
    · next b u hu =>
      rw [(inRead_some hu).2]
      exact does_push hs
  case build =>
    simp only [runTask, taskBuild]
    split
    · exact does_err
    · rw [writeNodes_frame]
      exact does_push hs
  case buildMerge q n =>
    rw [runTask, taskBuildMerge]
    split
    · exact does_err
    · split
      · exact does_ok hs (by simp [KeepsBut, Part.forall_iff, Part.Same, Task.writes, finishBuild]) rfl rfl
      · exact does_push hs
  case gencode =>
    simp only [runTask, taskGencode]
    split
    · exact does_err
    · exact does_push hs
  case gencodeWalk stack path leaves =>
    simp only [runTask]
    unfold taskGencodeWalk
    split
    · exact does_ok hs
    · split
      · exact does_push hs
      · split <;> exact does_push hs
  case emitLoop j bits =>
    simp only [runTask, taskEmitLoop]
    split
    · exact does_ok hs
    · split
      · exact does_err
      · exact does_push hs
  case serializeWalk stack bits =>
    simp only [runTask]
    unfold taskSerializeWalk
    split
    · exact does_ok hs
    · split <;> exact does_push hs
  case deserTag pending =>
    simp only [runTask, taskDeserTag, deserNext, askTag]
    split
    · exact does_err
    · split
      · exact does_err
      · split
        · rw [linkChild_frame]
          simp only [List.isEmpty_cons, Bool.false_eq_true, if_false]
          exact does_push hs
        · exact does_push hs
  case deserSymbol pending n =>
    simp only [runTask, taskDeserSymbol, deserNext, askTag]
    split
    · exact does_err
    · rw [linkChild_frame]
      split <;> split
      · exact does_ok hs
      · exact does_push hs
      · exact does_ok hs
      · exact does_push hs
  case walk =>
    rw [runTask, taskWalk]
    split
    · exact does_err
    · exact does_push hs
  case walkBit x n =>
    simp only [runTask, taskWalkBit]
    split
    · split
      · exact does_ok hs
      · exact does_err
    · split
      · exact does_err
      · split <;> exact does_push hs
  case encodeMode =>
    simp only [runTask, taskEncodeMode]
    split
    · exact does_push hs
    · split <;> exact does_push hs
  case decodeTag =>
    simp only [runTask, taskDecodeTag]
    split
    · split
      · exact does_push hs
      · exact does_err
    · split
      · exact does_err
      · split
        · exact does_push hs
        · split <;> exact does_push hs
  case decodeRaw n =>
    rw [runTask, taskDecodeRaw]
    split <;> exact does_push hs
  case decodeSymbol | decodeCount | decodeMb =>
    simp only [runTask, taskDecodeSymbol, taskDecodeCount, taskDecodeMb]
    split
    · exact does_err
    · exact does_push hs
  case load | emit | serialize | deserialize | encodeHeader | encodeFinish | decodeInit | decodeWalked |
      decodeFinish =>
    exact does_push hs
  case enter | retPushed | out | retBit | retByte | setRet | unpackReset | count | encodeInit =>
    exact does_ok hs

end Sys2Proof.Machine

/-!
## Runs

A command's checks, body and error path; that a turn of a command stays at points of it
(`Runs`), and that it leaves every part of the state which none of the command's tasks writes.
-/

namespace Sys2Proof.Machine

variable {i : Instr} {s t u : State}

/-! ### What a command is made of -/

/-- A failing check has an error code (40_command.md R176). -/
theorem commandOf_check (i : Instr) (s : State) : (commandOf i).check s ≠ some .none := by
  have flag (b : Bool) : checkFlag b ≠ some .none := by cases b <;> nofun
  cases i
  case packBits n =>
    change (if n ≤ Config.packnMax then none else some ErrCode.badArg) ≠ some .none
    split <;> nofun
  case count | build | gencode | emit | serialize | walk => exact flag _
  all_goals nofun

/-- The body's tasks are the command's own, and no task with data is among them. -/
theorem commandOf_body {x : Task} (h : x ∈ (commandOf i).body s) : ownTask i x = true ∧ carriesData x = false := by
  have key : ((commandOf i).body s).all (fun x => ownTask i x && !carriesData x) = true := by cases i <;> rfl
  simpa using List.all_eq_true.1 key x h

/-- One task of a body at most makes TREE. -/
theorem commandOf_body_makesTree (i : Instr) (s : State) :
    (((commandOf i).body s).filter makesTree).length ≤ 1 := by
  cases i <;> exact Nat.le_of_ble_eq_true rfl

/-- The error path's tasks are the command's own, carry no data and make no tree (60_exceptions.md R371). -/
theorem commandOf_onError {x : Task} (h : x ∈ (commandOf i).onError) :
    ownTask i x = true ∧ carriesData x = false ∧ makesTree x = false := by
  have key : (commandOf i).onError.all (fun x => ownTask i x && (!carriesData x && !makesTree x)) = true := by
    cases i <;> rfl
  simpa using List.all_eq_true.1 key x h

/-! ### What the start and the completions change -/

theorem completeSuccess_keeps (s : State) : KeepsBut [.outcome] s (completeSuccess s) := by
  simp [KeepsBut, Part.forall_iff, Part.Same]

theorem completeError_keeps (e : ErrCode) (s : State) : KeepsBut [.outcome] s (completeError e s) := by
  simp [KeepsBut, Part.forall_iff, Part.Same]

theorem startCommand_keeps (s : State) : KeepsBut [.outcome] s (startCommand s) := by
  simp [KeepsBut, Part.forall_iff, Part.Same]

theorem beginCommand_keeps (c : Command) (s : State) : KeepsBut [.outcome] s (beginCommand c s) := by
  rcases beginCommand_cases c s with ⟨e, -, h⟩ | ⟨-, h⟩ <;> rw [h]
  · exact completeError_keeps e s
  · simp [KeepsBut, Part.forall_iff, Part.Same]

theorem wake_keeps (s : State) : KeepsBut [.outcome] s (wake s) := by
  unfold wake
  split
  · exact startCommand_keeps s
  · simp [KeepsBut, Part.forall_iff, Part.Same]
  · simp [KeepsBut, Part.forall_iff, Part.Same]

theorem Part.Same.trans {p : Part} (h : p.Same s t) (k : p.Same t u) : p.Same s u := by
  cases p <;> simp only [Part.Same] at * <;> simp [*]

/-- The parts do not tell where the sequencer is. -/
theorem Part.Same.setSeq {p : Part} {q : Seq} (h : p.Same { s with seq := q } t) : p.Same s t := by
  cases p <;> exact h

/-! ### Points of a command -/

theorem runs_of_idle (h : s.seq = .idle) : Runs i s := by simp [Runs, h]

theorem runs_iff {ts : List Task} (h : s.seq = .run ts) : Runs i s ↔ ∀ k ∈ ts, ownTask i k = true := by
  simp [Runs, h]

theorem isFail_iff {k : Task} : isFail k = true ↔ ∃ e, k = .fail e := by cases k <;> simp [isFail]

/-- Everything a core step of a command does, at a point of it or not: the start and the completions, a task's step, or
an error's path. -/
theorem coreStep_does {c : Command} (h : coreStep c s = some t) :
    (s.seq = .start ∧ t = beginCommand c s) ∨
    (s.seq = .run [] ∧ t = completeSuccess s) ∨
    (∃ e ks, s.seq = .run (.fail e :: ks) ∧ t = completeError e { s with seq := .run ks }) ∨
    (∃ k ks ts, s.seq = .run (k :: ks) ∧ isFail k = false ∧ runTask k { s with seq := .run ks } = .ok t ∧
      KeepsBut k.writes s t ∧ mayFollow k ts = true ∧ t.seq = .run (ts ++ ks)) ∨
    (∃ k ks e v, s.seq = .run (k :: ks) ∧ isFail k = false ∧ runTask k { s with seq := .run ks } = .err e v ∧
      KeepsBut k.writes s v ∧ e ≠ .none ∧ mayRaise k = true ∧ t = raiseError c e v) := by
  rcases coreStep_cases h with h | h | ⟨k, ks, hs, hk⟩ | ⟨k, ks, e, v, hs, hk, ht⟩
  · exact .inl h
  · exact .inr (.inl h)
  · cases hf : isFail k
    · have hd := runTask_does k (s := { s with seq := .run ks }) rfl hf
      rw [hk] at hd
      obtain ⟨hkeep, ts, hts, hseq⟩ := hd
      exact .inr (.inr (.inr (.inl ⟨k, ks, ts, hs, hf, hk, fun p hp => (hkeep p hp).setSeq, hts, hseq⟩)))
    · obtain ⟨e, rfl⟩ := isFail_iff.1 hf
      cases hk
      exact .inr (.inr (.inl ⟨e, ks, hs, rfl⟩))
  · have hf : isFail k = false := by
      by_contra hf
      obtain ⟨e, rfl⟩ := isFail_iff.1 (by simpa using hf)
      cases hk
    have hd := runTask_does k (s := { s with seq := .run ks }) rfl hf
    rw [hk] at hd
    obtain ⟨hkeep, he, hr⟩ := hd
    exact .inr (.inr (.inr (.inr ⟨k, ks, e, v, hs, hf, hk, fun p hp => (hkeep p hp).setSeq, he, hr, ht⟩)))

/-- A core step stays at points of the command. -/
theorem coreStep_runs (hr : Runs i s) (h : coreStep (commandOf i) s = some t) : Runs i t := by
  rcases coreStep_does h with ⟨-, rfl⟩ | ⟨-, rfl⟩ | ⟨e, ks, -, rfl⟩ | ⟨k, ks, ts, hs, -, -, -, hf, ht⟩ |
    ⟨k, ks, e, v, hs, -, -, -, -, hf, rfl⟩
  · rcases beginCommand_cases (commandOf i) s with ⟨e, -, he⟩ | ⟨-, he⟩ <;> rw [he]
    · exact runs_of_idle rfl
    · exact (runs_iff rfl).2 fun x hx => (commandOf_body hx).1
  · exact runs_of_idle rfl
  · exact runs_of_idle rfl
  · have hown := (runs_iff hs).1 hr
    refine (runs_iff ht).2 fun x hx => ?_
    rcases List.mem_append.1 hx with hx | hx
    · exact ownTask_of_mayFollow hf (hown k List.mem_cons_self) hx
    · exact hown x (List.mem_cons_of_mem k hx)
  · have hown := (runs_iff hs).1 hr
    refine (runs_iff (raiseError_seq v (commandOf i) e)).2 fun x hx => ?_
    rcases List.mem_append.1 hx with hx | hx
    · exact (commandOf_onError hx).1
    · rw [List.mem_singleton.1 hx]
      exact ownTask_of_mayRaise hf (hown k List.mem_cons_self) e

/-- A core step of a command leaves every part that none of the command's tasks writes. -/
theorem coreStep_same {p : Part} (hp : p ≠ .outcome) (hw : ∀ k, ownTask i k = true → p ∉ k.writes) (hr : Runs i s)
    (h : coreStep (commandOf i) s = some t) : p.Same s t := by
  have ho : p ∉ [Part.outcome] := by simpa using hp
  rcases coreStep_does h with ⟨-, rfl⟩ | ⟨-, rfl⟩ | ⟨e, ks, -, rfl⟩ | ⟨k, ks, ts, hs, -, -, hkeep, -⟩ |
    ⟨k, ks, e, v, hs, -, -, hkeep, -, -, rfl⟩
  · exact beginCommand_keeps _ s p ho
  · exact completeSuccess_keeps s p ho
  · exact (completeError_keeps e { s with seq := .run ks } p ho).setSeq
  · exact hkeep p (hw k ((runs_iff hs).1 hr k List.mem_cons_self))
  · have := hkeep p (hw k ((runs_iff hs).1 hr k List.mem_cons_self))
    cases p <;> exact this

theorem wake_runs (hr : Runs i s) : Runs i (wake s) := by
  unfold wake
  split
  · trivial
  · exact hr
  · exact hr

/-- A turn of a command from any point of it ends at a point of it, and leaves every part that none of the command's
tasks writes. -/
theorem exec_runs (hr : Runs i s) (h : exec i s = .next t) :
    Runs i t ∧ ∀ p : Part, p ≠ .outcome → (∀ k, ownTask i k = true → p ∉ k.writes) → p.Same s t := by
  rw [exec_next] at h
  cases h
  have key := coreRun_keeps (c := commandOf i)
    (P := fun u => Runs i u ∧ ∀ p : Part, p ≠ .outcome → (∀ k, ownTask i k = true → p ∉ k.writes) → p.Same s u)
    (fun u v ⟨hu, hsame⟩ hv => ⟨coreStep_runs hu hv, fun p hp hw => (hsame p hp hw).trans (coreStep_same hp hw hu hv)⟩)
    s.turn (s := wake s) ⟨wake_runs hr, fun p hp _ => wake_keeps s p (by simpa using hp)⟩
  obtain ⟨h1, h2⟩ := key
  refine ⟨h1, fun p hp hw => ?_⟩
  have := h2 p hp hw
  cases p <;> exact this

end Sys2Proof.Machine

/-!
## HostActs

What an action of the host can do, each case said once: what a read changes, every effect of
a write, and what a pop changes.
-/

namespace Sys2Proof.Machine

variable {s t : State}

/-! ### The address map, backwards (20_memory.md R81) -/

theorem regTable_ctrl {j : Nat} (h : regTable[j]? = some .ctrl) : j = 1 := by
  obtain ⟨hj, h⟩ := List.getElem?_eq_some_iff.1 h
  have key : ∀ k : Fin 15, regTable[k] = Reg.ctrl → k.val = 1 := by decide
  exact key ⟨j, hj⟩ h

/-- CTRL has one word address. -/
theorem locate_ctrl {a : Addr} (h4 : a.toNat % 4 = 0) (h : locate a = .reg .ctrl) : a = 0x004 := by
  unfold locate at h
  dsimp only at h
  split at h
  · split at h
    · next r hr =>
      cases h
      have h1 := regTable_ctrl hr
      exact BitVec.eq_of_toNat_eq (by simp; omega)
    · cases h
  · repeat' split at h
    all_goals cases h

/-- The FREQ window. -/
theorem locate_freq_inv {a : Addr} {n : Nat} (h : locate a = .freq n) :
    0x400 ≤ a.toNat ∧ a.toNat < 0x800 ∧ n = (a.toNat - 0x400) / 4 := by
  unfold locate at h
  dsimp only at h
  split at h
  · split at h <;> cases h
  · split at h
    · next hr => cases h; exact ⟨hr.1, hr.2, rfl⟩
    · repeat' split at h
      all_goals cases h

/-! ### Accesses -/

theorem legalAccess_iff {access : Access} {a : Addr} :
    legalAccess access a = true ↔ access = .word ∧ a.toNat % 4 = 0 := by simp [legalAccess]

/-- A word read while idle takes the reading of its location. -/
theorem busRead_idle {a : Addr} (h4 : a.toNat % 4 = 0) (hb : busy s = false) :
    busRead .word a s =
      (.readOk (takeReading (readIdle (locate a) s) s).1, (takeReading (readIdle (locate a) s) s).2) := by
  simp [busRead, legalAccess, h4, readingAt, hb]

/-- A read changes no state but the count of draws (20_memory.md R84). -/
theorem busRead_state (access : Access) (a : Addr) (s : State) :
    ∃ d, (busRead access a s).2 = { s with draws := d } := by
  unfold busRead
  split
  · rcases takeReading_cases (readingAt (locate a) s) s with ⟨v, h⟩ | ⟨v, h⟩ <;> rw [h] <;> exact ⟨_, rfl⟩
  · exact ⟨_, rfl⟩

/-- Everything a write can do: nothing; at any time CTRL or IRQ_PEND; while idle CMD, ARG, UNPK_CFG or a FREQ counter
(20_memory.md R82, R83; 40_command.md R173, R174). -/
theorem busWrite_cases (access : Access) (a : Addr) (v : Word) (s : State) :
    (busWrite access a v s).2 = s ∨
    (access = .word ∧ a = 0x004 ∧ (busWrite access a v s).2 = writeCtrl v s) ∨
    (busWrite access a v s).2 = writeIrqPend v s ∨
    (busy s = false ∧
      ((busWrite access a v s).2 = writeCmd v s ∨ (busWrite access a v s).2 = { s with arg := v } ∨
        (busWrite access a v s).2 = writeUnpkCfg v s ∨
        (access = .word ∧ a.toNat % 4 = 0 ∧ 0x400 ≤ a.toNat ∧ a.toNat < 0x800 ∧
          (busWrite access a v s).2 = writeFreq ((a.toNat - 0x400) / 4) v s))) := by
  cases hl : legalAccess access a
  · exact .inl (by rw [busWrite_illegal hl])
  · obtain ⟨hw, h4⟩ := legalAccess_iff.1 hl
    cases hb : busy s
    · rw [busWrite_idle hl hb]
      unfold writeIdle
      split
      · next h => exact .inr (.inl ⟨hw, locate_ctrl h4 h, rfl⟩)
      · exact .inr (.inr (.inl rfl))
      · exact .inr (.inr (.inr ⟨rfl, .inl rfl⟩))
      · exact .inr (.inr (.inr ⟨rfl, .inr (.inl rfl)⟩))
      · exact .inr (.inr (.inr ⟨rfl, .inr (.inr (.inl rfl))⟩))
      · next h =>
        obtain ⟨h1, h2, rfl⟩ := locate_freq_inv h
        exact .inr (.inr (.inr ⟨rfl, .inr (.inr (.inr ⟨hw, h4, h1, h2, rfl⟩))⟩))
      · exact .inl rfl
    · rw [busWrite_busy hl hb]
      unfold writeBusy
      split
      · next h => exact .inr (.inl ⟨hw, locate_ctrl h4 h, rfl⟩)
      · exact .inr (.inr (.inl rfl))
      · exact .inl rfl

/-- CTRL is written at any time (10_state.md R34). -/
theorem busWrite_ctrl (v : Word) (s : State) : busWrite .word 0x004 v s = (.writeOk, writeCtrl v s) := by
  cases hb : busy s
  · exact busWrite_idle rfl hb v
  · exact busWrite_busy rfl hb v

/-- So is IRQ_PEND (10_state.md R37). -/
theorem busWrite_irqPend (v : Word) (s : State) : busWrite .word 0x00C v s = (.writeOk, writeIrqPend v s) := by
  cases hb : busy s
  · exact busWrite_idle rfl hb v
  · exact busWrite_busy rfl hb v

/-- A pop changes OUT alone. -/
theorem popOut_state (s : State) : ∃ toks, (popOut s).2 = { s with out := toks } := by
  unfold popOut
  split
  · exact ⟨s.out, rfl⟩
  · exact ⟨_, rfl⟩

/-! ### The statements -/

/-- Settles O9: CTRL and IRQ_PEND are written at any time, ARG and UNPK_CFG while idle. -/
theorem hostRegisterWrites : Obligations.HostRegisterWrites := by
  intro s v
  refine ⟨fun h => ?_, busWrite_irqPend v s, fun hb => busWrite_idle rfl hb v, fun hb => busWrite_idle rfl hb v, rfl,
    ?_⟩
  · rw [busWrite_ctrl, writeCtrl, if_neg (by rw [h]; nofun)]
  · rw [busWrite_irqPend]
    simp [irqLine, writeIrqPend]

end Sys2Proof.Machine

/-!
## Words

Register and window words as their fields written side by side, and the reads of them.
-/

namespace Sys2Proof.Machine

variable {s : State}

/-! ### Fields side by side -/

theorem field_getLsbD {w : Nat} (v : BitVec w) (lo i : Nat) :
    (field v lo).getLsbD i = (decide (i < 32) && decide (lo ≤ i) && v.getLsbD (i - lo)) := by
  by_cases h : i < lo
  · simp [field, h, Nat.not_le.2 h]
  · by_cases hi : i < 32
    · simp [field, h, hi, Nat.not_lt.1 h]
    · simp [field, hi]

/-- Two fields side by side are one above the other. -/
theorem field_append {w n : Nat} (x : BitVec w) (y : BitVec n) (lo : Nat) :
    field (x ++ y) lo = field y lo ||| field x (lo + n) := by
  refine BitVec.eq_of_getLsbD_eq fun i hi => ?_
  simp only [field_getLsbD, BitVec.getLsbD_or, BitVec.getLsbD_append]
  grind

@[simp] theorem field_zero (w lo : Nat) : field (0#w) lo = 0 := by simp [field]

/-- A word is the field of all its bits. -/
theorem eq_of_field {v w : Word} (h : v = field w 0) : v = w := h.trans (by simp [field])

/-! ### The register words (10_state.md R34 to R48) -/

theorem ctrlWord_fields (s : State) :
    ctrlWord s = 0#29 ++ BitVec.ofBool s.ctrl.ieErr ++ BitVec.ofBool s.ctrl.ieDone ++ 0#1 := by
  apply eq_of_field
  simp only [field_append]
  simp [ctrlWord, flag]

/-- STATUS while idle, when BUSY is 0. -/
theorem statusWord_fields (hb : busy s = false) :
    statusWord s =
      0#8 ++ BitVec.ofBool s.status.codeValid ++ BitVec.ofBool s.status.treeValid
        ++ BitVec.ofBool s.status.freqValid ++ BitVec.ofBool s.status.bufValid ++ phaseNumber s.status.phase
        ++ errNumber s.status.errcode ++ 0#5 ++ BitVec.ofBool s.status.error ++ BitVec.ofBool s.status.done ++ 0#1 := by
  apply eq_of_field
  simp only [field_append]
  simp [statusWord, flag, hb, BitVec.or_assoc]

theorem irqPendWord_fields (s : State) :
    irqPendWord s = 0#30 ++ BitVec.ofBool s.irqPend.errP ++ BitVec.ofBool s.irqPend.doneP := by
  apply eq_of_field
  simp only [field_append]
  simp [irqPendWord, flag]

theorem ndistWord_fields (s : State) : ndistWord s = 0#23 ++ s.ndist := by
  apply eq_of_field
  simp only [field_append]
  simp [ndistWord]

theorem modeWord_fields (s : State) :
    modeWord s = 0#12 ++ s.mode.mb ++ 0#7 ++ BitVec.ofBool s.mode.valid ++ 0#6 ++ s.mode.tag := by
  apply eq_of_field
  simp only [field_append]
  simp [modeWord, flag, BitVec.or_assoc]

theorem unpkCfgWord_fields (s : State) :
    unpkCfgWord s = 0#24 ++ s.unpk.limitMb ++ 0#3 ++ BitVec.ofBool s.unpk.limitEn := by
  apply eq_of_field
  simp only [field_append]
  simp [unpkCfgWord, flag]

theorem treeInfoWord_fields (s : State) :
    treeInfoWord s =
      BitVec.ofBool s.treeInfo.rootLeaf ++ 0#5 ++ s.treeInfo.nodes ++ 0#7 ++ s.treeInfo.root := by
  apply eq_of_field
  simp only [field_append]
  simp [treeInfoWord, flag, BitVec.or_assoc]

theorem wrStateWord_fields (s : State) : wrStateWord s = 0#20 ++ s.wr.fill ++ s.wr.acc := by
  apply eq_of_field
  simp only [field_append]
  simp [wrStateWord]

/-- RD_STATE, for any lookahead (10_state.md R48). -/
theorem rdStateWord_fields (s : State) :
    rdStateWord s =
      0#8 ++ laByte s.la ++ 0#1 ++ BitVec.ofBool (laEnd s.la) ++ BitVec.ofBool s.la.isSome
        ++ BitVec.ofBool s.rd.eos ++ s.rd.fill ++ s.rd.acc := by
  apply eq_of_field
  simp only [field_append]
  simp [rdStateWord, flag, BitVec.or_assoc]

/-! ### Reads while idle -/

/-- A register reads its word and changes nothing. -/
theorem busRead_reg {a : Addr} {r : Reg} (hl : locate a = .reg r) (h4 : a.toNat % 4 = 0) (hb : busy s = false) :
    busRead .word a s = (.readOk (readRegIdle r s), s) := by
  rw [busRead_idle h4 hb, hl]
  rfl

/-- The address of word k of TREE entry i (10_state.md R55). -/
theorem locate_treeWord {i k : Nat} (hi : i < 511) (hk : k < 4) :
    (BitVec.ofNat 16 (0x2000 + 16 * i + 4 * k)).toNat % 4 = 0 ∧
      locate (BitVec.ofNat 16 (0x2000 + 16 * i + 4 * k)) = .tree i k := by
  have ha : (BitVec.ofNat 16 (0x2000 + 16 * i + 4 * k)).toNat = 0x2000 + 16 * i + 4 * k :=
    BitVec.toNat_ofNat .. ▸ Nat.mod_eq_of_lt (by omega)
  refine ⟨by omega, ?_⟩
  rw [locate_tree (by omega) (by omega), ha]
  congr 1 <;> omega

/-- The address of word k of symbol a's CODE entry (10_state.md R56). -/
theorem locate_codeWord {a k : Nat} (ha : a < 256) (hk : k < 16) :
    (BitVec.ofNat 16 (0x4000 + 64 * a + 4 * k)).toNat % 4 = 0 ∧
      locate (BitVec.ofNat 16 (0x4000 + 64 * a + 4 * k)) = .code a k := by
  have hn : (BitVec.ofNat 16 (0x4000 + 64 * a + 4 * k)).toNat = 0x4000 + 64 * a + 4 * k :=
    BitVec.toNat_ofNat .. ▸ Nat.mod_eq_of_lt (by omega)
  refine ⟨by omega, ?_⟩
  rw [locate_code (by omega) (by omega), hn]
  congr 1 <;> omega

/-- A defined TREE entry reads its words (10_state.md R55). -/
theorem busRead_tree {i k : Nat} {n : Node} (hb : busy s = false) (hv : s.status.treeValid = true)
    (hn : i < s.treeInfo.nodes.toNat) (hi : i < 511) (hk : k < 4) (hg : storeGet s.tree i = some n) :
    busRead .word (BitVec.ofNat 16 (0x2000 + 16 * i + 4 * k)) s = (.readOk (nodeWord n k), s) := by
  obtain ⟨h4, hl⟩ := locate_treeWord hi hk
  rw [busRead_idle h4 hb, hl, readIdle, if_pos ⟨hv, hn⟩, nodeAt, hg]
  rfl

/-- An undefined TREE entry reads as draws (93_implementation_defined.md U4). -/
theorem busRead_tree_undefined {i k : Nat} (hb : busy s = false)
    (hu : s.status.treeValid = false ∨ s.treeInfo.nodes.toNat ≤ i) (hi : i < 511) (hk : k < 4) :
    busRead .word (BitVec.ofNat 16 (0x2000 + 16 * i + 4 * k)) s =
      (.readOk (Config.freeWord s.draws), { s with draws := s.draws + 1 }) := by
  obtain ⟨h4, hl⟩ := locate_treeWord hi hk
  have hnot : ¬(s.status.treeValid = true ∧ i < s.treeInfo.nodes.toNat) := by
    rintro ⟨hv, hn⟩
    rcases hu with hu | hu
    · rw [hu] at hv; cases hv
    · omega
  rw [busRead_idle h4 hb, hl, readIdle, if_neg hnot]
  rfl

/-- A CODE entry reads its words while CODE_VALID = 1 (10_state.md R56). -/
theorem busRead_code {a k : Nat} (hb : busy s = false) (hv : s.status.codeValid = true) (ha : a < 256) (hk : k < 16) :
    busRead .word (BitVec.ofNat 16 (0x4000 + 64 * a + 4 * k)) s = (.readOk (codeWord (codeGet s.code a) k), s) := by
  obtain ⟨h4, hl⟩ := locate_codeWord ha hk
  rw [busRead_idle h4 hb, hl, readIdle, if_pos hv, codeWindow]
  split
  · rfl
  · next h8 =>
    rw [codeWord, if_neg (by omega), if_neg h8]
    rfl

/-- While CODE_VALID = 0 its words are draws, and words 9 to 15 still 0 (93_implementation_defined.md U5). -/
theorem busRead_code_undefined {a k : Nat} (hb : busy s = false) (hv : s.status.codeValid = false) (ha : a < 256)
    (hk : k < 16) :
    busRead .word (BitVec.ofNat 16 (0x4000 + 64 * a + 4 * k)) s =
      if k ≤ 8 then (.readOk (Config.freeWord s.draws), { s with draws := s.draws + 1 }) else (.readOk 0, s) := by
  obtain ⟨h4, hl⟩ := locate_codeWord ha hk
  rw [busRead_idle h4 hb, hl, readIdle, if_neg (by rw [hv]; nofun), codeWindow]
  split <;> rfl

/-! ### The statements -/

/-- Settles O11: each register's word is its fields side by side. -/
theorem resetRegisterValues : Obligations.ResetRegisterValues := by
  refine ⟨?_, fun s hb => ?_, rfl, rfl⟩
  · simp only [List.forall_mem_cons]
    have read {a : Addr} (r : Reg) (hl : locate a = .reg r) (h4 : a.toNat % 4 = 0) :
        busRead .word a State.reset = (.readOk (readRegIdle r State.reset), State.reset) := busRead_reg hl h4 rfl
    exact ⟨read .id rfl rfl, read .ctrl rfl rfl, read .status rfl rfl, read .irqPend rfl rfl, read .cmd rfl rfl,
      read .arg rfl rfl, read .result rfl rfl, read .inLen rfl rfl, read .ndist rfl rfl, read .mode rfl rfl,
      read .unpkCfg rfl rfl, read .capacity rfl rfl, read .treeInfo rfl rfl, read .wrState rfl rfl,
      read .rdState rfl rfl, List.forall_mem_nil _⟩
  refine ⟨busRead_reg (r := .id) rfl rfl hb, ?_, ?_, ?_, busRead_reg (r := .cmd) rfl rfl hb,
    busRead_reg (r := .arg) rfl rfl hb, busRead_reg (r := .result) rfl rfl hb, busRead_reg (r := .inLen) rfl rfl hb, ?_,
    ?_, ?_, busRead_reg (r := .capacity) rfl rfl hb, ?_, ?_, fun hla => ?_, fun hla => ?_, fun b hla => ?_⟩
  · rw [busRead_reg (r := .ctrl) rfl rfl hb, readRegIdle, ctrlWord_fields]
  · rw [busRead_reg (r := .status) rfl rfl hb, readRegIdle, statusWord_fields hb]
  · rw [busRead_reg (r := .irqPend) rfl rfl hb, readRegIdle, irqPendWord_fields]
  · rw [busRead_reg (r := .ndist) rfl rfl hb, readRegIdle, ndistWord_fields]
  · rw [busRead_reg (r := .mode) rfl rfl hb, readRegIdle, modeWord_fields]
  · rw [busRead_reg (r := .unpkCfg) rfl rfl hb, readRegIdle, unpkCfgWord_fields]
  · rw [busRead_reg (r := .treeInfo) rfl rfl hb, readRegIdle, treeInfoWord_fields]
  · rw [busRead_reg (r := .wrState) rfl rfl hb, readRegIdle, wrStateWord_fields]
  · rw [busRead_reg (r := .rdState) rfl rfl hb, readRegIdle, rdStateWord_fields, hla]
    rfl
  · rw [busRead_reg (r := .rdState) rfl rfl hb, readRegIdle, rdStateWord_fields, hla]
    rfl
  · rw [busRead_reg (r := .rdState) rfl rfl hb, readRegIdle, rdStateWord_fields, hla]
    rfl

/-- Settles O17: a defined entry reads its words, an undefined one the next draw. -/
theorem treeAndCodeWindowWords : Obligations.TreeAndCodeWindowWords := by
  refine ⟨fun s i n hb hv hn hi hg => ?_, fun s a k hb hv ha hk => ?_,
    fun s i k hb hu hi hk => busRead_tree_undefined hb hu hi hk,
    fun s a k hb hv ha hk => busRead_code_undefined hb hv ha hk⟩
  · have read (k : Nat) (hk : k < 4) := busRead_tree hb hv hn hi hk hg
    refine ⟨?_, ?_, ?_, ?_, ?_⟩
    · rintro sym w rfl
      rw [show 0x2000 + 16 * i = 0x2000 + 16 * i + 4 * 0 from rfl, read 0 (by omega)]
      simp [nodeWord, descWord, field]
    · rintro l r w rfl
      rw [show 0x2000 + 16 * i = 0x2000 + 16 * i + 4 * 0 from rfl, read 0 (by omega)]
      rw [nodeWord, descWord, BitVec.or_comm, BitVec.or_comm (field l 0), ← BitVec.or_assoc, field, field,
        BitVec.shiftLeft_zero]
      rfl
    · rw [show 0x2000 + 16 * i + 4 = 0x2000 + 16 * i + 4 * 1 from rfl, read 1 (by omega)]
      rw [nodeWord, BitVec.setWidth_eq_extractLsb' (by omega)]
    · exact read 2 (by omega)
    · exact read 3 (by omega)
  · intro addr e
    have read : busRead .word addr s = (.readOk (codeWord e k), s) := busRead_code hb hv ha hk
    refine ⟨?_, fun h1 h8 => ?_, fun h9 => ?_⟩
    · rintro rfl
      rw [read]
      simp [codeWord, field]
    · rw [read, codeWord, if_neg (by omega), if_pos h8, Nat.mul_sub_one]
    · rw [read, codeWord, if_neg (by omega), if_neg (by omega)]

end Sys2Proof.Machine

/-!
## Flags

Which commands' tasks write the parts that the validity flags go with (10_state.md R58).
-/

namespace Sys2Proof.Machine

variable {i : Instr} {k : Task} {s : State}

theorem ownTask_buffer (ho : ownTask i k = true) (hw : .buffer ∈ k.writes) : i = .load ∨ i = .encode := by
  cases k
  case load | loadLoop => cases i <;> simp [ownTask] at ho ⊢
  all_goals simp [Task.writes] at hw

theorem ownTask_frequency (ho : ownTask i k = true) (hw : .frequency ∈ k.writes) : i = .count ∨ i = .encode := by
  cases k
  case count => cases i <;> simp [ownTask] at ho ⊢
  all_goals simp [Task.writes] at hw

theorem ownTask_tree (ho : ownTask i k = true) (hw : .tree ∈ k.writes) :
    i = .build ∨ i = .deserialize ∨ i = .encode ∨ i = .decode := by
  cases k
  case build | buildMerge | deserialize | deserTag | deserSymbol =>
    cases i <;> simp [ownTask, encodeUnitTask] at ho ⊢
  all_goals simp [Task.writes] at hw

theorem ownTask_code (ho : ownTask i k = true) (hw : .code ∈ k.writes) : i = .gencode ∨ i = .encode := by
  cases k
  case gencode | gencodeWalk => cases i <;> simp [ownTask] at ho ⊢
  all_goals simp [Task.writes] at hw

/-- The host's actions that reset: the power-on reset, and a CTRL write with bit 0 = 1. -/
def IsReset (a : HostAct) : Prop := a = .powerOn ∨ ∃ v : Word, a = .write .word 0x004 v ∧ v.getLsbD 0 = true

/-- A write of a FREQ window word while idle. -/
def IsFreqWrite (s : State) (a : HostAct) : Prop :=
  busy s = false ∧
    ∃ (addr : Addr) (v : Word),
      a = .write .word addr v ∧ addr.toNat % 4 = 0 ∧ 0x0400 ≤ addr.toNat ∧ addr.toNat < 0x0800

/-- The four flags are the same in two states. -/
def SameFlags (s t : State) : Prop :=
  t.status.bufValid = s.status.bufValid ∧ t.status.freqValid = s.status.freqValid ∧
    t.status.treeValid = s.status.treeValid ∧ t.status.codeValid = s.status.codeValid

theorem hostAct_of_isReset {a : HostAct} (h : IsReset a) (s : State) : (hostAct a s).2.status = State.reset.status := by
  obtain rfl | ⟨v, rfl, hv⟩ := h
  · rfl
  · rw [hostAct, busWrite_ctrl, writeCtrl, if_pos hv]
    rfl

theorem hostAct_of_isFreqWrite {a : HostAct} (h : IsFreqWrite s a) :
    (hostAct a s).2.status = { s.status with freqValid := true } := by
  obtain ⟨hb, addr, v, rfl, h4, h1, h2⟩ := h
  rw [hostAct, busWrite_idle (legalAccess_iff.2 ⟨rfl, h4⟩) hb, locate_freq h1 h2]
  rfl

/-- No other action of the host changes a flag. -/
theorem hostAct_flags (a : HostAct) (s : State) : IsReset a ∨ IsFreqWrite s a ∨ SameFlags s (hostAct a s).2 := by
  cases a with
  | powerOn => exact .inl (.inl rfl)
  | push tok => exact .inr (.inr ⟨rfl, rfl, rfl, rfl⟩)
  | pop =>
    obtain ⟨toks, h⟩ := popOut_state s
    exact .inr (.inr (by simp [hostAct, h, SameFlags]))
  | read access addr =>
    obtain ⟨d, h⟩ := busRead_state access addr s
    exact .inr (.inr (by simp [hostAct, h, SameFlags]))
  | write access addr v =>
    rcases busWrite_cases access addr v s with h | ⟨rfl, rfl, h⟩ | h | ⟨hb, h | h | h | ⟨rfl, h4, h1, h2, -⟩⟩
    · exact .inr (.inr (by simp [hostAct, h, SameFlags]))
    · by_cases hv : v.getLsbD 0 = true
      · exact .inl (.inr ⟨v, rfl, hv⟩)
      · refine .inr (.inr ?_)
        rw [hostAct, h, writeCtrl, if_neg hv]
        exact ⟨rfl, rfl, rfl, rfl⟩
    · exact .inr (.inr (by simp [hostAct, h, SameFlags, writeIrqPend]))
    · exact .inr (.inr (by simp [hostAct, h, SameFlags, writeCmd]))
    · exact .inr (.inr (by simp [hostAct, h, SameFlags]))
    · exact .inr (.inr (by simp [hostAct, h, SameFlags, writeUnpkCfg]))
    · exact .inr (.inl ⟨hb, addr, v, rfl, h4, h1, h2⟩)

/-! ### The statements -/

/-- Settles O56: a turn leaves every part that no task of the command writes; of the host's actions only resets and
FREQ window writes touch a flag. -/
theorem flagsChangeOnlyByProducers : Obligations.FlagsChangeOnlyByProducers := by
  refine ⟨fun i s t hr h => ?_, fun a s => ?_⟩
  · obtain ⟨-, same⟩ := exec_runs hr h
    refine ⟨fun h1 h2 => ?_, fun h1 h2 => ?_, fun h1 h2 h3 h4 => ?_, fun h1 h2 => ?_⟩
    · exact (same .buffer nofun fun k ho hw => (ownTask_buffer ho hw).elim h1 h2).2.2
    · exact (same .frequency nofun fun k ho hw => (ownTask_frequency ho hw).elim h1 h2).2
    · refine (same .tree nofun fun k ho hw => ?_).2.2
      rcases ownTask_tree ho hw with h | h | h | h <;> contradiction
    · exact (same .code nofun fun k ho hw => (ownTask_code ho hw).elim h1 h2).2
  · refine ⟨fun h => ?_, fun h => ?_, fun hr hf => ?_, fun hr => ?_⟩
    · rw [hostAct_of_isReset h]
      exact ⟨rfl, rfl, rfl, rfl⟩
    · rw [hostAct_of_isFreqWrite h]
    · obtain h | h | ⟨-, h, -⟩ := hostAct_flags a s
      exacts [absurd h hr, absurd h hf, h]
    · obtain h | h | ⟨h1, -, h3, h4⟩ := hostAct_flags a s
      · exact absurd h hr
      · rw [hostAct_of_isFreqWrite h]
        exact ⟨rfl, rfl, rfl⟩
      · exact ⟨h1, h3, h4⟩

end Sys2Proof.Machine

/-!
## Parts

The invariant of the memories and the registers, part by part: a part that is the same keeps
its invariant, and each task that writes a part keeps it.
-/

namespace Sys2Proof.Machine

variable {s t u : State} {k : Task}

/-- What `Inv` says of a part of the state. -/
def Part.Ok (s : State) : Part → Prop
  | .buffer =>
    Memory.wf s.buf ∧ (∀ p ∈ s.buf, p.1 < s.nMax.toNat) ∧
      (∀ j, j < s.inLen.toNat → (storeGet s.buf j).isSome = true) ∧ s.inLen.toNat ≤ s.nMax.toNat
  | .frequency => storeWf (some (0 : Word)) s.freq ∧ ∀ p ∈ s.freq, p.1 < 256
  | .ndist => s.ndist.toNat ≤ 256
  | .tree => storeWf (none : Option Node) s.tree ∧ (∀ p ∈ s.tree, p.1 < 511) ∧ s.treeInfo.nodes.toNat ≤ 511
  | .code => storeWf (some clearedEntry) s.code ∧ ∀ p ∈ s.code, p.1 < 256
  | .packer => PackerWf s.wr
  | .unpacker => s.rd.fill.toNat ≤ 8
  | .limit => 1 ≤ s.unpk.limitMb.toNat ∧ s.unpk.limitMb.toNat ≤ 8
  | .mode => s.mode.mb.toNat ≤ 8
  | .input | .output => True
  | .outcome =>
    (s.status.error = true ↔ s.status.errcode ≠ .none) ∧ (s.status.error = true → s.status.done = true)

theorem Part.Ok.of_same {p : Part} (h : p.Ok s) (hs : p.Same s t) (hn : t.nMax = s.nMax) : p.Ok t := by
  cases p <;> simp only [Part.Same] at hs <;> simp only [Part.Ok] at h ⊢ <;> simpa [hs, hn] using h

/-! ### Each part under the tasks that write it -/

theorem runTask_buffer (hk : .buffer ∈ k.writes) (h : (runTask k s).leaves t) (ok : Part.buffer.Ok s) :
    Part.buffer.Ok t := by
  obtain ⟨hwf, hrange, hstored, hlen⟩ := ok
  cases k
  case load =>
    simp only [runTask, taskLoad, TaskResult.leaves] at h
    subst h
    exact ⟨by simpa using hwf, by simpa using hrange, by simp, by simp⟩
  case loadLoop =>
    simp only [runTask, taskLoadLoop] at h
    split at h
    · exact h.elim
    · next v hv =>
      rw [(inRead_some hv).2] at h
      subst h
      exact ⟨hwf, hrange, hstored, hlen⟩
    · next b v hv =>
      rw [(inRead_some hv).2] at h
      split at h
      · subst h
        exact ⟨by simpa using hwf, by simpa using hrange, by simpa using hstored, by simpa using hlen⟩
      · next hne =>
        subst h
        have hlt : s.inLen.toNat < s.nMax.toNat :=
          Nat.lt_of_le_of_ne hlen fun he => hne (BitVec.eq_of_toNat_eq he)
        have hsucc : (s.inLen + 1).toNat = s.inLen.toNat + 1 := by bv_omega
        refine ⟨?_, ?_, ?_, ?_⟩
        · simpa using writeBuf_wf _ b hwf
        · simpa [writeBuf] using storeWrite_range b hlt hrange
        · intro j hj
          simp only [pushTasks_inLen, hsucc] at hj
          by_cases he : j = s.inLen.toNat
          · simp [writeBuf, he]
          · simpa [writeBuf, he] using hstored j (by omega)
        · simp only [pushTasks_inLen, pushTasks_nMax, hsucc]
          exact hlt
  all_goals simp [Task.writes] at hk

theorem countedFreq_range (s : State) (n : Nat) : ∀ p ∈ countedFreq s n, p.1 < 256 := by
  unfold countedFreq
  generalize List.range n = l
  suffices h : ∀ f : Store Word, (∀ p ∈ f, p.1 < 256) →
      ∀ p ∈ l.foldl (fun f j => bumpFreq f (bufAt s j)) f, p.1 < 256 from h [] nofun
  induction l with
  | nil => exact fun f hf => hf
  | cons j rest ih => exact fun f hf => ih _ (storeWrite_range _ (bufAt s j).isLt hf)

theorem distinctCount_le (f : Store Word) : distinctCount f ≤ 256 :=
  (List.length_filter_le _ _).trans (by simp [Config.symbols])

theorem distinctCount_toNat (f : Store Word) : (BitVec.ofNat 9 (distinctCount f)).toNat = distinctCount f := by
  have := distinctCount_le f
  rw [BitVec.toNat_ofNat, Nat.mod_eq_of_lt (by omega)]

theorem runTask_frequency (hk : .frequency ∈ k.writes) (h : (runTask k s).leaves t) : Part.frequency.Ok t := by
  cases k
  case count =>
    subst h
    exact ⟨countedFreq_wf s _, countedFreq_range s _⟩
  all_goals simp [Task.writes] at hk

theorem runTask_ndist (hk : .ndist ∈ k.writes) (h : (runTask k s).leaves t) : Part.ndist.Ok t := by
  cases k
  case count =>
    subst h
    exact (distinctCount_toNat _).trans_le (distinctCount_le _)
  case build =>
    have hd := (distinctCount_toNat s.freq).trans_le (distinctCount_le s.freq)
    simp only [runTask, taskBuild] at h
    split at h
    · subst h
      exact hd
    · rw [writeNodes_frame] at h
      subst h
      simpa [Part.Ok] using hd
  all_goals simp [Task.writes] at hk

theorem runTask_code (hk : .code ∈ k.writes) (h : (runTask k s).leaves t) (ok : Part.code.Ok s) : Part.code.Ok t := by
  obtain ⟨hwf, hrange⟩ := ok
  cases k
  case gencode =>
    simp only [runTask, taskGencode] at h
    split at h <;> subst h
    · exact ⟨hwf, hrange⟩
    · exact ⟨by simpa using storeWf_nil _, by simp⟩
  case gencodeWalk stack path leaves =>
    simp only [runTask] at h
    unfold taskGencodeWalk at h
    split at h
    · subst h
      exact ⟨hwf, hrange⟩
    · split at h
      · next sym w hn =>
        subst h
        exact ⟨by simpa using writeCode_wf _ _ hwf, by simpa [writeCode] using storeWrite_range _ sym.isLt hrange⟩
      · split at h <;> subst h <;> exact ⟨by simpa using hwf, by simpa using hrange⟩
  all_goals simp [Task.writes] at hk

theorem runTask_packer (hk : .packer ∈ k.writes) (h : (runTask k s).leaves t) (ok : Part.packer.Ok s) :
    Part.packer.Ok t := by
  cases k
  case put bits =>
    cases bits with
    | nil => subst h; exact ok
    | cons b bs =>
      subst h
      simpa [Part.Ok] using (writeBit_spec b s ok).2.1
  case flush =>
    subst h
    rcases flushPacker_cases s with ⟨-, hf⟩ | ⟨-, hf⟩ <;> simp only [hf]
    · exact ok
    · exact ⟨by simp, by simp⟩
  case encodeInit =>
    subst h
    exact ⟨by simp, by simp⟩
  all_goals simp [Task.writes] at hk

/-! The unpacker: RD_FILL is set to 8 and only counts down. -/

theorem dropHeld_fill (hf : s.rd.fill ≠ 0) (ok : s.rd.fill.toNat ≤ 8) : (dropHeld s).rd.fill.toNat ≤ 8 := by
  simp only [dropHeld]
  bv_omega

theorem takeHeld_fill (n m : Nat) (v : Word) (ok : s.rd.fill.toNat ≤ 8) : (takeHeld n m v s).2.rd.fill.toNat ≤ 8 := by
  induction n generalizing m v s with
  | zero => exact ok
  | succ n ih =>
    cases hn : noneHeld s
    · rw [takeHeld_some n m v hn]
      exact ih _ _ (dropHeld_fill (by rintro h0; simp [noneHeld, h0] at hn) ok)
    · rw [takeHeld_none n m v hn]
      exact ok

/-- The state one step of readBit leaves, whatever it answers. -/
def BitStep.leaves : BitStep → State → Prop
  | .hold, _ => False
  | .again u, t | .na u, t | .bit _ u, t => t = u

theorem readBitStep_fill (h : (readBitStep s).leaves t) (ok : s.rd.fill.toNat ≤ 8) : t.rd.fill.toNat ≤ 8 := by
  unfold readBitStep at h
  split at h
  · split at h
    · subst h; exact ok
    · split at h
      · exact h.elim
      · next u hu => rw [(inRead_some hu).2] at h; subst h; exact ok
      · subst h; exact Nat.le_refl 8
  · next hf =>
    split at h
    · split at h
      · exact h.elim
      · next u hu => rw [(inPeek_some hu).2.2] at h; subst h; exact ok
      · next b u hu => rw [(inPeek_some hu).2.2] at h; subst h; exact dropHeld_fill hf ok
    · subst h; exact dropHeld_fill hf ok

theorem taskGet_fill (n m : Nat) (v : Word) (h : (taskGet n m v s).leaves t) (ok : s.rd.fill.toNat ≤ 8) :
    t.rd.fill.toNat ≤ 8 := by
  rw [taskGet] at h
  split at h
  · subst h; exact ok
  · split at h
    · exact h.elim
    all_goals
      next hu =>
        subst h
        simpa using readBitStep_fill (by rw [hu]; rfl) ok

theorem runTask_unpacker (hk : .unpacker ∈ k.writes) (h : (runTask k s).leaves t) (ok : Part.unpacker.Ok s) :
    Part.unpacker.Ok t := by
  cases k
  case get n m v => exact taskGet_fill n m v h ok
  case askBit =>
    simp only [runTask, taskAskBit] at h
    split at h
    · subst h; exact ok
    · exact taskGet_fill _ _ _ h ok
  case askByte =>
    simp only [runTask, taskAskByte] at h
    split at h
    · subst h; exact takeHeld_fill 8 0 0 ok
    · exact taskGet_fill _ _ _ h ok
  case drain =>
    simp only [runTask, taskDrain] at h
    split at h
    · subst h; exact ok
    · split at h
      · exact h.elim
      · next u hu => rw [(inRead_some hu).2] at h; subst h; exact ok
      · next b u hu => rw [(inRead_some hu).2] at h; subst h; simpa [Part.Ok] using ok
  case unpackReset => subst h; exact Nat.zero_le 8
  case decodeInit => subst h; simp [Part.Ok]
  all_goals simp [Task.writes] at hk

theorem mbOfField_range (f : BitVec 3) : 1 ≤ (mbOfField f).toNat ∧ (mbOfField f).toNat ≤ 8 := by
  unfold mbOfField
  bv_omega

theorem runTask_limit (hk : .limit ∈ k.writes) (h : (runTask k s).leaves t) (ok : Part.limit.Ok s) :
    Part.limit.Ok t := by
  cases k
  case unpackReset => subst h; simp [Part.Ok, restartUnpacker]
  case decodeInit => subst h; simp [Part.Ok, restartUnpacker]
  case decodeMb =>
    simp only [runTask, taskDecodeMb] at h
    split at h
    · subst h; exact ok
    · subst h; simpa [Part.Ok] using mbOfField_range _
  all_goals simp [Task.writes] at hk

theorem runTask_mode (hk : .mode ∈ k.writes) (h : (runTask k s).leaves t) (ok : Part.mode.Ok s) : Part.mode.Ok t := by
  cases k
  case encodeInit => subst h; exact Nat.zero_le 8
  case decodeInit => subst h; simp [Part.Ok]
  case encodeHeader => subst h; simpa [Part.Ok] using (mbOfField_range _).2
  case encodeMode =>
    simp only [runTask, taskEncodeMode, encodeRaw, encodeSingle, encodeHuffman] at h
    split at h
    · subst h; simpa [Part.Ok, setMode] using ok
    · split at h <;> subst h <;> simpa [Part.Ok, setMode] using ok
  case decodeTag =>
    simp only [runTask, taskDecodeTag, askRaw] at h
    repeat' split at h
    all_goals subst h; simpa [Part.Ok, setMode] using ok
  case decodeMb =>
    simp only [runTask, taskDecodeMb] at h
    split at h
    · subst h; exact ok
    · subst h; simpa [Part.Ok] using (mbOfField_range _).2
  all_goals simp [Task.writes] at hk

theorem completeError_outcome {e : ErrCode} (he : e ≠ .none) (s : State) : Part.outcome.Ok (completeError e s) := by
  simp [Part.Ok, he]

end Sys2Proof.Machine

/-!
## TreeTasks

The tasks that write TREE, those of BUILD and DESERIALIZE: each leaves an arena that is a
complete tree, with TREE_VALID = 1, or one in the making, which the next task goes on with (10_state.md R58).
-/

namespace Sys2Proof.Machine

variable {s t u : State} {rest : List Task}

/-- With TREE_VALID = 1 TREE holds a complete tree at ROOT, of NODES nodes (`TreeOk.valid`). -/
def HoldsTree (s : State) : Prop :=
  s.status.treeValid = true →
    ∃ sh : Shape, treeShape s = some sh ∧ sh.nodes ≤ 511 ∧ s.treeInfo.nodes.toNat = sh.nodes ∧
      s.treeInfo.rootLeaf = sh.single

theorem holdsTree_of_invalid (h : s.status.treeValid = false) : HoldsTree s := by
  intro hv
  rw [h] at hv
  cases hv

/-- What a task that writes TREE leaves, with `rest` on the list. -/
def LeavesTree (rest : List Task) : TaskResult → Prop
  | .hold => True
  | .ok t =>
    Part.tree.Ok t ∧ HoldsTree t ∧ ∃ ts, t.seq = .run (ts ++ rest) ∧ ∀ x ∈ ts, TaskOk x ∧ TreeTaskOk t x
  | .err _ t => Part.tree.Ok t ∧ HoldsTree t

/-- What a task that makes TREE asks of the arena depends on the arena's part alone. -/
theorem TreeTaskOk.of_same {x : Task} (h : TreeTaskOk s x) (hs : Part.tree.Same s t) : TreeTaskOk t x := by
  obtain ⟨h1, h2, h3⟩ := hs
  cases x <;> simp only [TreeTaskOk, Deserializing] at h ⊢ <;> simpa only [h1, h2, h3] using h

theorem pushTasks_tree_same (ts : List Task) (s : State) : Part.tree.Same s (pushTasks ts s) := by simp [Part.Same]

/-- An arena in the making, with the tasks that go on with it. -/
theorem leavesTree_push (hs : t.seq = .run rest) {ts : List Task} (ok : Part.tree.Ok t)
    (hv : t.status.treeValid = false) (hts : ∀ x ∈ ts, TaskOk x ∧ TreeTaskOk t x) :
    LeavesTree rest (.ok (pushTasks ts t)) :=
  have same := pushTasks_tree_same ts t
  ⟨ok.of_same same (pushTasks_nMax t ts), holdsTree_of_invalid (by rw [pushTasks_status, hv]), ts,
    pushTasks_seq_run t ts rest hs, fun x hx => ⟨(hts x hx).1, (hts x hx).2.of_same same⟩⟩

/-- A tree made. -/
theorem leavesTree_done (hs : t.seq = .run rest) (ok : Part.tree.Ok t) (ht : HoldsTree t) : LeavesTree rest (.ok t) :=
  ⟨ok, ht, [], hs, nofun⟩

theorem treePart_writeNode {i : Nat} (n : Node) (hi : i < 511) (ok : Part.tree.Ok s) :
    Part.tree.Ok (writeNode i n s) := by
  obtain ⟨hwf, hrange, hnodes⟩ := ok
  exact ⟨writeNode_wf i n hwf, by simpa [writeNode] using storeWrite_range n hi hrange, hnodes⟩

/-! ### extract_min (43_tree_builder.md R260) -/

/-- What is extracted and what is left are what was there. -/
theorem extractMin_perm {q rest : List QEntry} {m : QEntry} (h : extractMin q = some (m, rest)) :
    (m :: rest).Perm q := by
  induction q generalizing m rest with
  | nil => cases h
  | cons e es ih =>
    rw [extractMin] at h
    split at h
    · next hn =>
      cases h
      cases es with
      | nil => exact .refl _
      | cons e' es' =>
        rw [extractMin] at hn
        split at hn
        · cases hn
        · split at hn <;> cases hn
    · next m' rest' hm =>
      have hp := ih hm
      split at h <;> cases h
      · exact (List.Perm.swap ..).trans (hp.cons e)
      · exact .refl _

theorem extractMin_none {q : List QEntry} : extractMin q = none ↔ q = [] := by
  cases q with
  | nil => simp [extractMin]
  | cons e es =>
    simp only [extractMin, reduceCtorEq, iff_false]
    split
    · nofun
    · split <;> nofun

/-- `Merging` does not depend on the order of the priority structure. -/
theorem Merging.perm {tree : Store Node} {q r : List QEntry} {k : Nat} (h : Merging tree q k) (hp : q.Perm r) :
    Merging tree r k := by
  obtain ⟨h2, hall, hq, hsum⟩ := h
  exact ⟨h2, hall, fun e he => hq e (hp.mem_iff.2 he), by rw [← hsum]; exact ((hp.map _).sum_nat).symm⟩

/-! ### BUILD's leaves -/

/-- The leaves' arena entries, by index. -/
theorem storeGet_writeNodes_leavesFrom (f : Store Word) (as : List Nat) (k : Nat) (s : State) :
    (∀ j a, as[j]? = some a →
      storeGet (writeNodes (leavesFrom f as k).1 s).tree (k + j) =
        some (.leaf (BitVec.ofNat 8 a) ((freqGet f a).setWidth 40))) ∧
    ∀ i, i < k ∨ k + as.length ≤ i →
      storeGet (writeNodes (leavesFrom f as k).1 s).tree i = storeGet s.tree i := by
  induction as generalizing k s with
  | nil => exact ⟨nofun, fun i _ => rfl⟩
  | cons a as ih =>
    obtain ⟨ih1, ih2⟩ := ih (k + 1) (writeNode k (.leaf (BitVec.ofNat 8 a) ((freqGet f a).setWidth 40)) s)
    simp only [leavesFrom, writeNodes, List.length_cons]
    refine ⟨fun j b hj => ?_, fun i hi => ?_⟩
    · cases j with
      | zero =>
        rw [ih2 (k + 0) (.inl (by omega))]
        cases hj
        simp [writeNode]
      | succ j =>
        rw [show k + (j + 1) = k + 1 + j by omega]
        exact ih1 j b hj
    · rw [ih2 i (by omega), writeNode, storeGet_storeWrite_none, if_neg (by omega)]

/-- The leaves' priority entries have the leaves' indices. -/
theorem leavesFrom_seq (f : Store Word) (as : List Nat) (k : Nat) :
    (leavesFrom f as k).2.map QEntry.seq = (List.range' k as.length).map (BitVec.ofNat 9) := by
  induction as generalizing k with
  | nil => rfl
  | cons a as ih => simp [leavesFrom, List.range'_succ, ih]

theorem treePart_writeNodes_leavesFrom (f : Store Word) (as : List Nat) (k : Nat) (hk : k + as.length ≤ 511)
    (ok : Part.tree.Ok s) : Part.tree.Ok (writeNodes (leavesFrom f as k).1 s) := by
  induction as generalizing k s with
  | nil => exact ok
  | cons a as ih =>
    simp only [List.length_cons] at hk
    exact ih (k + 1) (by omega) (treePart_writeNode _ (by omega) ok)

/-- The arena and the priority structure BUILD begins to merge. -/
theorem merging_leaves {f : Store Word} (h2 : 2 ≤ distinctCount f) (s : State) :
    Merging (writeNodes (leavesFrom f (presentSymbols f) 0).1 s).tree (leavesFrom f (presentSymbols f) 0).2
      (distinctCount f) := by
  have h256 := distinctCount_le f
  have hleaf : ∀ i, i < distinctCount f → ∃ a w,
      storeGet (writeNodes (leavesFrom f (presentSymbols f) 0).1 s).tree i = some (.leaf a w) := by
    intro i hi
    have := (storeGet_writeNodes_leavesFrom f (presentSymbols f) 0 s).1 i _ (List.getElem?_eq_getElem hi)
    rw [Nat.zero_add] at this
    exact ⟨_, _, this⟩
  have hseq := leavesFrom_seq f (presentSymbols f) 0
  generalize (writeNodes (leavesFrom f (presentSymbols f) 0).1 s).tree = tree at hleaf ⊢
  generalize (leavesFrom f (presentSymbols f) 0).2 = q at hseq ⊢
  have hmem : ∀ e ∈ q, e.seq.toNat < distinctCount f := by
    intro e he
    have : e.seq ∈ q.map QEntry.seq := List.mem_map_of_mem he
    rw [hseq, List.mem_map] at this
    obtain ⟨i, hi, hie⟩ := this
    rw [List.mem_range'_1] at hi
    rw [← hie, BitVec.toNat_ofNat]
    exact Nat.lt_of_le_of_lt (Nat.mod_le _ _) (by simpa [distinctCount] using hi.2)
  refine ⟨h2, fun i hi => ?_, hmem, ?_⟩
  · obtain ⟨a, w, hl⟩ := hleaf i hi
    simp [childrenOf, hl]
  · have hone : q.map (fun e => nodesAt tree e.seq.toNat) = List.replicate (distinctCount f) 1 := by
      rw [List.eq_replicate_iff]
      refine ⟨?_, fun n hn => ?_⟩
      · have := congrArg List.length hseq
        simpa [distinctCount] using this
      · obtain ⟨e, he, rfl⟩ := List.mem_map.1 hn
        obtain ⟨a, w, hl⟩ := hleaf _ (hmem e he)
        simp [nodesAt, Config.nodeMax, shapeOf, hl, Shape.nodes]
    rw [hone]
    simp

theorem taskBuild_tree (hs : s.seq = .run rest) (ok : Part.tree.Ok s) : LeavesTree rest (taskBuild s) := by
  simp only [taskBuild]
  split
  · exact ⟨ok, holdsTree_of_invalid rfl⟩
  · next h2 =>
    have h256 := distinctCount_le s.freq
    have hlen := congrArg List.length (leavesFrom_seq s.freq (presentSymbols s.freq) 0)
    rw [List.length_map, List.length_map, List.length_range', ← distinctCount] at hlen
    have hm := merging_leaves (Nat.le_of_not_lt h2)
      { setTreeValid false (setPhase .build s) with ndist := BitVec.ofNat 9 (distinctCount s.freq) }
    have hne : (leavesFrom s.freq (presentSymbols s.freq) 0).2 ≠ [] := fun h => by rw [h] at hlen; simp at hlen; omega
    refine leavesTree_push (by rw [writeNodes_frame]; exact hs) ?_ (by rw [writeNodes_frame]; rfl) fun x hx => ?_
    · exact treePart_writeNodes_leavesFrom _ _ 0 (by rw [← distinctCount]; omega) ok
    · rw [List.mem_singleton.1 hx]
      obtain ⟨-, -, hseq, -⟩ := id hm
      exact ⟨⟨hne, by omega, fun e he => Nat.lt_trans (hseq e he) (by omega)⟩, by rw [writeNodes_frame]; rfl, hm⟩

/-! ### BUILD's loop -/

/-- One round of BUILD's loop (R260): a node more, or the tree is made. -/
theorem taskBuildMerge_tree {q : List QEntry} {k : Nat} (hs : s.seq = .run rest) (ok : Part.tree.Ok s)
    (hk : TaskOk (.buildMerge q k)) (ht : TreeTaskOk s (.buildMerge q k)) : LeavesTree rest (taskBuildMerge q k s) := by
  obtain ⟨-, hlen, hlt⟩ := hk
  obtain ⟨hv, hm⟩ := ht
  unfold taskBuildMerge
  split
  · exact ⟨ok, holdsTree_of_invalid hv⟩
  · next a q1 h1 =>
    have p1 := extractMin_perm h1
    split
    · next h2 =>
      rw [extractMin_none.1 h2] at p1
      have hl1 := p1.length_eq
      simp only [List.length_cons, List.length_nil] at hl1
      have hn : (BitVec.ofNat 10 k).toNat = k := by rw [BitVec.toNat_ofNat, Nat.mod_eq_of_lt (by omega)]
      obtain ⟨sh, hsh, hnodes, hsingle⟩ := merging_done (by omega) (hm.perm p1.symm)
      refine leavesTree_done hs ⟨ok.1, ok.2.1, ?_⟩ fun _ => ⟨sh, hsh, by omega, ?_, hsingle.symm⟩
      · exact hn.trans_le (by omega)
      · exact hn.trans hnodes.symm
    · next b q2 h2 =>
      have p2 : (a :: b :: q2).Perm q := ((extractMin_perm h2).cons a).trans p1
      have hl2 := p2.length_eq
      simp only [List.length_cons] at hl2
      refine leavesTree_push (t := writeNode k _ s) hs (treePart_writeNode _ (by omega) ok) hv fun x hx => ?_
      rw [List.mem_singleton.1 hx]
      refine ⟨⟨by simp, by simp only [List.length_cons]; omega, fun e he => ?_⟩, hv,
        merging_step _ (by omega) (hm.perm p2.symm)⟩
      rcases List.mem_cons.1 he with rfl | he
      · exact (BitVec.toNat_ofNat ..).trans_lt (Nat.lt_of_le_of_lt (Nat.mod_le _ _) (by omega))
      · exact hlt e (p2.mem_iff.1 (List.mem_cons_of_mem _ (List.mem_cons_of_mem _ he)))

/-! ### DESERIALIZE -/

theorem taskDeserialize_tree (hs : s.seq = .run rest) (ok : Part.tree.Ok s) :
    LeavesTree rest (taskDeserialize s) := by
  obtain ⟨hwf, hrange, -⟩ := ok
  refine leavesTree_push (ts := [.get 1 0 0, .deserTag []])
    (t := { setTreeValid false (setPhase .deserialize s) with
      treeInfo := { root := 0, nodes := 0, rootLeaf := false } })
    hs ⟨hwf, hrange, Nat.zero_le _⟩ rfl fun x hx => ?_
  obtain rfl | rfl : x = .get 1 0 0 ∨ x = .deserTag [] := by simpa using hx
  · exact ⟨trivial, trivial⟩
  · exact ⟨nofun, rfl, rfl, rfl, .gap, rfl, rfl, rfl, rfl, trivial⟩

theorem linkChild_pending {p : List Pending} {k : Nat} (h : ∀ x ∈ p, x.node.toNat < 511) :
    ∀ x ∈ (linkChild p k s).1, x.node.toNat < 511 := by
  unfold linkChild
  split
  · nofun
  · next p rest =>
    obtain ⟨hp, hrest⟩ := List.forall_mem_cons.1 h
    dsimp only
    split
    · exact hrest
    · exact List.forall_mem_cons.2 ⟨hp, hrest⟩

theorem treePart_linkChild {p : List Pending} (k : Nat) (h : ∀ x ∈ p, x.node.toNat < 511) (ok : Part.tree.Ok s) :
    Part.tree.Ok (linkChild p k s).2 := by
  unfold linkChild
  split
  · exact ok
  · next p rest =>
    dsimp only
    split <;> exact treePart_writeNode _ (h p List.mem_cons_self) ok

/-- The tree that DESERIALIZE has begun, with one more node: `new`, one node, which stands at the next index, is linked
into the first gap. -/
theorem linkChild_begun {p new : Partial} {k : Nat} (hp : p.preorder = true) (hw : p.whole = false) (hn : p.nodes = k)
    (hk : k < 511) (hl : p.laidOut s.tree 0) (hnew : new.nodes = 1) (hnl : new.laidOut s.tree k) :
    (Partial.fill new p).laidOut (linkChild (p.pending 0) k s).2.tree 0 ∧
      (Partial.fill new p).pending 0 = new.pending k ++ (linkChild (p.pending 0) k s).1 := by
  subst hn
  by_cases hg : p = .gap
  · subst hg
    exact ⟨hnl, (List.append_nil _).symm⟩
  · have h := Partial.linkChild_fill hnew p 0 [] s hp hw hg (by omega) hl (by rwa [Nat.zero_add])
    simp only [Nat.zero_add, List.append_nil] at h
    exact ⟨h.1, h.2.1⟩

/-- The end of one node of DESERIALIZE's loop: `p` is the tree begun, with the new node in it. -/
theorem deserNext_tree {p : Partial} (hs : s.seq = .run rest) (ok : Part.tree.Ok s)
    (hv : s.status.treeValid = false) (hp : p.preorder = true) (hg : p ≠ .gap) (hn : s.treeInfo.nodes.toNat = p.nodes)
    (hl : p.laidOut s.tree 0) (hroot : s.treeInfo.root = 0)
    (hleaf : s.treeInfo.rootLeaf = (p.whole && decide (p.nodes = 1)))
    (hb : ∀ x ∈ p.pending 0, x.node.toNat < 511) : LeavesTree rest (deserNext (p.pending 0) s) := by
  have hnil := Partial.pending_eq_nil hp hg 0
  rw [deserNext]
  cases hw : p.whole
  · rw [hw] at hnil hleaf
    have he : (p.pending 0).isEmpty = false := by simpa using hnil.not.2 nofun
    rw [he]
    refine leavesTree_push hs ok hv fun x hx => ?_
    obtain rfl | rfl : x = .get 1 0 0 ∨ x = .deserTag (p.pending 0) := by simpa using hx
    · exact ⟨trivial, trivial⟩
    · exact ⟨hb, hv, hroot, hleaf, p, hp, hw, hn.symm, rfl, hl⟩
  · rw [hnil.2 hw]
    obtain ⟨sh, hsh, hnodes⟩ := Partial.shapeOf_laidOut p 0 hw hl
    have h511 : p.nodes ≤ 511 := hn ▸ ok.2.2
    refine leavesTree_done hs ok fun _ => ⟨sh, ?_, by omega, hn.trans hnodes.symm, ?_⟩
    · rw [treeShape]
      exact hroot ▸ shapeOf_le h511 hsh
    · have h1 := sh.single_iff
      rw [hnodes] at h1
      exact hleaf.trans (by rw [hw, Bool.true_and]; exact (Bool.eq_iff_iff.2 (by simpa using h1)).symm)

theorem laidOut_writeNode {p : Partial} {k : Nat} (n : Node) (hn : p.nodes = k) (hl : p.laidOut s.tree 0) :
    p.laidOut (writeNode k n s).tree 0 :=
  Partial.laidOut_congr p 0 (fun j _ hj => by rw [writeNode, storeGet_storeWrite_none, if_neg (by omega)]) hl

/-- A node allocated and linked (45_tree_serializer.md R301): `new`, one node, stands at the next index in the arena. -/
theorem deserNode_tree {pending : List Pending} {k : Nat} {new : Partial} (hs : s.seq = .run rest)
    (ok : Part.tree.Ok s) (hv : s.status.treeValid = false) (hk : k < 511) (hn : s.treeInfo.nodes.toNat = k + 1)
    (hroot : s.treeInfo.root = 0) (hb : ∀ x ∈ pending, x.node.toNat < 511)
    {p : Partial} (hp : p.preorder = true) (hw : p.whole = false) (hpn : p.nodes = k) (hpp : p.pending 0 = pending)
    (hl : p.laidOut s.tree 0) (hnp : new.preorder = true) (hnew : new.nodes = 1) (hnl : new.laidOut s.tree k)
    (hnb : ∀ x ∈ new.pending k, x.node.toNat < 511)
    (hleaf : s.treeInfo.rootLeaf = (new.whole && decide (k = 0))) :
    LeavesTree rest (deserNext (new.pending k ++ (linkChild pending k s).1) (linkChild pending k s).2) := by
  obtain ⟨hlaid, hpend⟩ := linkChild_begun hp hw hpn hk hl hnew hnl
  rw [hpp] at hlaid hpend
  have frame := linkChild_frame pending k s
  have hg : new ≠ .gap := by rintro rfl; cases hnew
  have hnodes : (Partial.fill new p).nodes = k + 1 := by rw [Partial.nodes_fill _ _ hw, hpn, hnew]
  rw [← hpend]
  refine deserNext_tree (by rw [frame]; exact hs) (treePart_linkChild k hb ok) (by rw [frame]; exact hv)
    (Partial.preorder_fill hg hnp p hp hw) (Partial.fill_ne_gap hg p) (by rw [frame]; exact hn.trans hnodes.symm) hlaid
    (by rw [frame]; exact hroot) ?_ ?_
  · rw [frame, hnodes]
    refine hleaf.trans ?_
    cases k with
    | zero => rw [(Partial.nodes_eq_zero p).1 hpn]; rfl
    | succ k => simp
  · rw [hpend]
    exact List.forall_mem_append.2 ⟨hnb, linkChild_pending hb⟩

/-- A tag bit read (R301): an internal node is linked, or a leaf's symbol is asked for. -/
theorem taskDeserTag_tree {pending : List Pending} (hs : s.seq = .run rest) (ok : Part.tree.Ok s)
    (hk : TaskOk (.deserTag pending)) (ht : TreeTaskOk s (.deserTag pending)) :
    LeavesTree rest (taskDeserTag pending s) := by
  obtain ⟨hv, hroot, hleaf, p, hp, hw, hpn, hpp, hl⟩ := ht
  obtain ⟨hwf, hrange, hnodes⟩ := ok
  simp only [taskDeserTag]
  split
  · exact ⟨⟨hwf, hrange, hnodes⟩, holdsTree_of_invalid hv⟩
  · split
    · exact ⟨⟨hwf, hrange, hnodes⟩, holdsTree_of_invalid hv⟩
    · next hne =>
      simp only [Config.nodeMax] at hne
      have hlt : s.treeInfo.nodes.toNat < 511 := by omega
      have hsucc : (s.treeInfo.nodes + 1).toNat = s.treeInfo.nodes.toNat + 1 := by bv_omega
      have ok1 : Part.tree.Ok { s with treeInfo := { s.treeInfo with nodes := s.treeInfo.nodes + 1 } } :=
        ⟨hwf, hrange, by rw [hsucc]; exact hlt⟩
      split
      · refine deserNode_tree (new := .node .gap .gap) hs (treePart_writeNode _ hlt ok1) hv hlt hsucc hroot hk hp hw hpn
          hpp (laidOut_writeNode _ hpn hl) rfl rfl ?_ ?_ hleaf
        · exact ⟨⟨0, 0, 0, by simp [writeNode], fun h => (h rfl).elim, fun h => (h rfl).elim⟩, trivial, trivial⟩
        · intro x hx
          rw [List.mem_singleton.1 hx]
          exact (BitVec.toNat_ofNat ..).trans_lt (Nat.lt_of_le_of_lt (Nat.mod_le _ _) hlt)
      · refine leavesTree_push (t := { s with treeInfo := { s.treeInfo with nodes := s.treeInfo.nodes + 1 } }) hs
          ok1 hv fun x hx => ?_
        obtain rfl | rfl : x = .get 8 0 0 ∨ x = .deserSymbol pending s.treeInfo.nodes.toNat := by simpa using hx
        · exact ⟨trivial, trivial⟩
        · exact ⟨⟨hlt, hk⟩, hv, hsucc, hroot, hleaf, p, hp, hw, hpn, hpp, hl⟩

/-- A leaf's symbol read (R301): the leaf is linked. -/
theorem taskDeserSymbol_tree {pending : List Pending} {k : Nat} (hs : s.seq = .run rest) (ok : Part.tree.Ok s)
    (hk : TaskOk (.deserSymbol pending k)) (ht : TreeTaskOk s (.deserSymbol pending k)) :
    LeavesTree rest (taskDeserSymbol pending k s) := by
  obtain ⟨hlt, hb⟩ := hk
  obtain ⟨hv, hn, hroot, hleaf, p, hp, hw, hpn, hpp, hl⟩ := ht
  simp only [taskDeserSymbol]
  split
  · exact ⟨ok, holdsTree_of_invalid hv⟩
  · next v hg =>
    have ok1 := treePart_writeNode (.leaf (v.setWidth 8) 0) hlt ok
    have hl1 := laidOut_writeNode (.leaf (v.setWidth 8) 0) hpn hl
    have hnew : (Partial.leaf (v.setWidth 8)).laidOut (writeNode k (.leaf (v.setWidth 8) 0) s).tree k :=
      ⟨0, by simp [writeNode]⟩
    by_cases h0 : k = 0
    · rw [if_pos h0]
      exact deserNode_tree (s := { writeNode k (.leaf (v.setWidth 8) 0) s with
          treeInfo := { s.treeInfo with rootLeaf := true } }) (new := .leaf (v.setWidth 8))
        hs ok1 hv hlt hn hroot hb hp hw hpn hpp hl1 rfl rfl hnew nofun (by simp [h0, Partial.whole])
    · rw [if_neg h0]
      exact deserNode_tree (new := .leaf (v.setWidth 8)) hs ok1 hv hlt hn hroot hb hp hw hpn hpp hl1 rfl rfl hnew nofun
        (by simpa [h0] using hleaf)

/-- Every task that writes TREE. -/
theorem runTask_tree {k : Task} (hw : .tree ∈ k.writes) (hs : s.seq = .run rest) (ok : Part.tree.Ok s) (hk : TaskOk k)
    (ht : TreeTaskOk s k) : LeavesTree rest (runTask k s) := by
  cases k
  case build => exact taskBuild_tree hs ok
  case buildMerge q k => exact taskBuildMerge_tree hs ok hk ht
  case deserialize => exact taskDeserialize_tree hs ok
  case deserTag pending => exact taskDeserTag_tree hs ok hk ht
  case deserSymbol pending k => exact taskDeserSymbol_tree hs ok hk ht
  all_goals simp [Task.writes] at hw

end Sys2Proof.Machine

/-!
## Invariant

The machine's invariant: it holds after reset, and every core step and every action of the
host keeps it.
-/

namespace Sys2Proof.Machine

variable {i : Instr} {s t u : State}

/-! ### The invariant, part by part -/

/-- What STATUS says of the sequencer's position (10_state.md R35; 40_command.md R172, R175). -/
def SeqStatusOk (s : State) : Prop :=
  (busy s = true → s.status.done = false ∧ s.status.error = false) ∧ (busy s = false → s.status.phase = .idle)

theorem inv_iff :
    Inv s ↔ 8 ≤ s.nMax.toNat ∧ (∀ p : Part, p.Ok s) ∧ SeqStatusOk s ∧ SeqOk s ∧ TreeOk s := by
  constructor
  · rintro ⟨⟨m1, m2, m3, m4, m5, m6, m7, m8, m9⟩, ⟨r1, r2, r3, r4, r5, r6, r7, r8⟩, ⟨s1, s2, s3, s4⟩, hseq, htree⟩
    exact ⟨r1, Part.forall_iff.2 ⟨⟨m1, m2, m3, r2⟩, ⟨m4, m5⟩, r3, ⟨m6, m7, r6⟩, ⟨m8, m9⟩, r7, r8, r4, r5, trivial,
      trivial, ⟨s3, s4⟩⟩, ⟨s1, s2⟩, hseq, htree⟩
  · rintro ⟨r1, hp, ⟨s1, s2⟩, hseq, htree⟩
    obtain ⟨⟨m1, m2, m3, r2⟩, ⟨m4, m5⟩, r3, ⟨m6, m7, r6⟩, ⟨m8, m9⟩, r7, r8, r4, r5, -, -, ⟨s3, s4⟩⟩ :=
      Part.forall_iff.1 hp
    exact ⟨⟨m1, m2, m3, m4, m5, m6, m7, m8, m9⟩, ⟨r1, r2, r3, r4, r5, r6, r7, r8⟩, ⟨s1, s2, s3, s4⟩, hseq, htree⟩

/-- Where no command has tasks left, only the tree made counts. -/
theorem treeOk_of_noTasks (h : treeTasks s = []) (ht : HoldsTree s) : TreeOk s :=
  ⟨ht, by simp [h], by simp [h]⟩

theorem HoldsTree.of_same (h : HoldsTree s) (hs : Part.tree.Same s t) : HoldsTree t := by
  obtain ⟨h1, h2, h3⟩ := hs
  simpa only [HoldsTree, treeShape, h1, h2, h3] using h

theorem treeTasks_run {ts : List Task} (h : s.seq = .run ts) : treeTasks s = ts.filter makesTree := by
  simp [treeTasks, h]

theorem seqOk_run {ts : List Task} (h : s.seq = .run ts) : SeqOk s ↔ ∀ x ∈ ts, TaskOk x := by simp [SeqOk, h]

theorem busy_run {ts : List Task} (h : s.seq = .run ts) : busy s = true := by simp [busy, h]

/-- A change outside TREE, the sequencer and what STATUS says of it keeps the invariant when the parts changed keep
theirs. -/
theorem Inv.of_keeps {ps : List Part} (h : Inv s) (ok : ∀ p ∈ ps, p.Ok t)
    (hk : KeepsBut ps s t := by
      simp [KeepsBut, Part.forall_iff, Part.Same, writeIrqPend, writeUnpkCfg, writeFreq])
    (htree : .tree ∉ ps := by decide) (hn : t.nMax = s.nMax := by rfl) (hd : t.status.done = s.status.done := by rfl)
    (he : t.status.error = s.status.error := by rfl)
    (hph : t.status.phase = s.status.phase := by rfl) (hseq : t.seq = s.seq := by rfl) : Inv t := by
  obtain ⟨h1, h2, h3, h4, h5⟩ := inv_iff.1 h
  have same := hk .tree htree
  have htasks : treeTasks t = treeTasks s := by simp only [treeTasks, hseq]
  refine inv_iff.2 ⟨hn ▸ h1, fun p => ?_, ?_, ?_,
    ⟨HoldsTree.of_same h5.valid same, htasks ▸ h5.single, fun x hx => (h5.making x (htasks ▸ hx)).of_same same⟩⟩
  · by_cases hp : p ∈ ps
    · exact ok p hp
    · exact (h2 p).of_same (hk p hp) hn
  · simpa only [SeqStatusOk, busy, hseq, hd, he, hph] using h3
  · simpa only [SeqOk, hseq] using h4

/-! ### The completions and the start of a command -/

/-- A completed command: nothing is left to do. -/
theorem inv_completed (h : Inv s) (hk : KeepsBut [.outcome] s t) (hn : t.nMax = s.nMax) (hseq : t.seq = .idle)
    (hph : t.status.phase = .idle) (ho : Part.outcome.Ok t) : Inv t := by
  obtain ⟨h1, h2, -, -, h5⟩ := inv_iff.1 h
  refine inv_iff.2 ⟨hn ▸ h1, fun p => ?_, ?_, ?_, ?_⟩
  · by_cases hp : p = .outcome
    · exact hp ▸ ho
    · exact (h2 p).of_same (hk p (by simpa using hp)) hn
  · simp [SeqStatusOk, busy, hseq, hph]
  · simp [SeqOk, hseq]
  · exact treeOk_of_noTasks (by simp [treeTasks, hseq]) (HoldsTree.of_same h5.valid (hk .tree (by decide)))

theorem inv_completeSuccess (h : Inv s) : Inv (completeSuccess s) :=
  inv_completed h (completeSuccess_keeps s) rfl rfl rfl (by simp [Part.Ok])

theorem inv_completeError {e : ErrCode} (he : e ≠ .none) (h : Inv s) : Inv (completeError e s) :=
  inv_completed h (completeError_keeps e s) rfl rfl rfl (completeError_outcome he s)

theorem inv_startCommand (h : Inv s) : Inv (startCommand s) := by
  obtain ⟨h1, h2, -, -, h5⟩ := inv_iff.1 h
  refine inv_iff.2 ⟨h1, fun p => ?_, ⟨fun _ => ⟨rfl, rfl⟩, nofun⟩, trivial, treeOk_of_noTasks rfl h5.valid⟩
  by_cases hp : p = .outcome
  · subst hp
    simp [Part.Ok]
  · exact (h2 p).of_same (startCommand_keeps s p (by simpa using hp)) rfl

/-! ### A task's step -/

/-- A task without data asks nothing of the state. -/
theorem taskOk_of_plain {x : Task} (h : carriesData x = false) : TaskOk x ∧ ∀ u, TreeTaskOk u x := by
  cases x <;> simp_all [carriesData, TaskOk, TreeTaskOk]

theorem treeTaskOk_of_makesNone {x : Task} (h : makesTree x = false) (s : State) : TreeTaskOk s x := by
  cases x <;> simp_all [makesTree, TreeTaskOk]

theorem makesTree_of_writes {k : Task} (h : .tree ∈ k.writes) : makesTree k = true := by
  cases k <;> simp_all [Task.writes, makesTree]

theorem isFail_of_writes {k : Task} (h : .outcome ∈ k.writes) : isFail k = true := by
  cases k <;> simp_all [Task.writes, isFail]

theorem Part.same_setSeq (p : Part) (q : Seq) (s : State) : p.Same s { s with seq := q } := by
  cases p <;> simp [Part.Same]

theorem Part.Same.of_setSeq {p : Part} {q : Seq} (h : p.Same s t) : p.Same { s with seq := q } t := by
  cases p <;> exact h

theorem LeavesTree.ok {rest : List Task} {r : TaskResult} (h : LeavesTree rest r) (ht : r.leaves t) :
    Part.tree.Ok t ∧ HoldsTree t := by
  cases r with
  | hold => exact ht.elim
  | ok u => subst ht; exact ⟨h.1, h.2.1⟩
  | err e u => subst ht; exact h

section
variable {k : Task} {ks : List Task}

/-- Each part is the same after a task, or the task writes it and keeps its invariant. -/
theorem runTask_parts (hf : isFail k = false) (hs : s.seq = .run ks) (ok : ∀ p : Part, p.Ok s) (hk : TaskOk k)
    (ht : TreeTaskOk s k) (hkeep : KeepsBut k.writes s t) (h : (runTask k s).leaves t) (p : Part) : p.Ok t := by
  by_cases hw : p ∈ k.writes
  · cases p
    case buffer => exact runTask_buffer hw h (ok _)
    case frequency => exact runTask_frequency hw h
    case ndist => exact runTask_ndist hw h
    case tree => exact ((runTask_tree hw hs (ok _) hk ht).ok h).1
    case code => exact runTask_code hw h (ok _)
    case packer => exact runTask_packer hw h (ok _)
    case unpacker => exact runTask_unpacker hw h (ok _)
    case limit => exact runTask_limit hw h (ok _)
    case mode => exact runTask_mode hw h (ok _)
    case input | output => trivial
    case outcome => rw [isFail_of_writes hw] at hf; cases hf
  · exact (ok p).of_same (hkeep p hw) (runTask_hostSame k h).1

/-- TREE after a task. -/
theorem runTask_holdsTree (hs : s.seq = .run ks) (ok : ∀ p : Part, p.Ok s) (hk : TaskOk k) (ht : TreeTaskOk s k)
    (hv : HoldsTree s) (hkeep : KeepsBut k.writes s t) (h : (runTask k s).leaves t) : HoldsTree t := by
  by_cases hw : .tree ∈ k.writes
  · exact ((runTask_tree hw hs (ok _) hk ht).ok h).2
  · exact hv.of_same (hkeep _ hw)

theorem makesTree_cons (k : Task) (ks : List Task) :
    ((k :: ks).filter makesTree).length = (makesTree k).toNat + (ks.filter makesTree).length := by
  cases h : makesTree k <;> simp [h, Nat.add_comm]

/-- The tasks left after a task are within their bounds, one at most makes TREE, and it finds the arena it needs. -/
theorem runTask_tasks {ts : List Task} (hs : s.seq = .run ks) (ok : ∀ p : Part, p.Ok s) (hk : TaskOk k)
    (ht : TreeTaskOk s k) (hks : ∀ x ∈ ks, TaskOk x ∧ TreeTaskOk s x)
    (hone : ((k :: ks).filter makesTree).length ≤ 1) (hr : runTask k s = .ok t) (hkeep : KeepsBut k.writes s t)
    (hf : mayFollow k ts = true) (hseq : t.seq = .run (ts ++ ks)) :
    (∀ x ∈ ts ++ ks, TaskOk x ∧ TreeTaskOk t x) ∧
      ((ts ++ ks).filter makesTree).length ≤ 1 := by
  have hts := makesTree_of_mayFollow hf
  rw [makesTree_cons] at hone
  refine ⟨fun x hx => ?_, by rw [List.filter_append, List.length_append]; omega⟩
  by_cases hw : .tree ∈ k.writes
  · rw [makesTree_of_writes hw, Bool.toNat_true] at hone
    have hnone : ks.filter makesTree = [] := List.length_eq_zero_iff.1 (by omega)
    have hl := runTask_tree hw hs (ok _) hk ht
    rw [hr] at hl
    obtain ⟨-, -, ts', hseq', hts'⟩ := hl
    obtain rfl : ts = ts' := List.append_cancel_right (Seq.run.inj (hseq.symm.trans hseq'))
    rcases List.mem_append.1 hx with hx | hx
    · exact hts' x hx
    · exact ⟨(hks x hx).1, treeTaskOk_of_makesNone (by simpa using List.filter_eq_nil_iff.1 hnone x hx) t⟩
  · rcases List.mem_append.1 hx with hx | hx
    · have hp := taskOk_of_plain (carriesData_of_mayFollow hf hw hx)
      exact ⟨hp.1, hp.2 t⟩
    · exact ⟨(hks x hx).1, (hks x hx).2.of_same (hkeep _ hw)⟩

end

/-- What is left on the list of a running command, with the arena it needs. -/
theorem treeOk_run {ts : List Task} (h : s.seq = .run ts) :
    TreeOk s ↔ HoldsTree s ∧ (ts.filter makesTree).length ≤ 1 ∧ ∀ x ∈ ts, TreeTaskOk s x := by
  have ht := treeTasks_run h
  constructor
  · rintro ⟨h1, h2, h3⟩
    rw [ht] at h2 h3
    refine ⟨h1, h2, fun x hx => ?_⟩
    cases hm : makesTree x
    · exact treeTaskOk_of_makesNone hm s
    · exact h3 x (List.mem_filter.2 ⟨hx, hm⟩)
  · rintro ⟨h1, h2, h3⟩
    refine ⟨h1, ht ▸ h2, fun x hx => ?_⟩
    rw [ht] at hx
    exact h3 x (List.mem_filter.1 hx).1

/-- While a command runs, the invariant is that of the parts, of the tasks left and of TREE, with no outcome yet. -/
theorem inv_run {ts : List Task} (h : s.seq = .run ts) :
    Inv s ↔ 8 ≤ s.nMax.toNat ∧ (∀ p : Part, p.Ok s) ∧ (s.status.done = false ∧ s.status.error = false) ∧
      HoldsTree s ∧ (ts.filter makesTree).length ≤ 1 ∧ ∀ x ∈ ts, TaskOk x ∧ TreeTaskOk s x := by
  rw [inv_iff, treeOk_run h, seqOk_run h, SeqStatusOk, busy_run h]
  constructor
  · rintro ⟨h1, h2, ⟨h3, -⟩, h4, h5, h6, h7⟩
    exact ⟨h1, h2, h3 rfl, h5, h6, fun x hx => ⟨h4 x hx, h7 x hx⟩⟩
  · rintro ⟨h1, h2, h3, h5, h6, h7⟩
    exact ⟨h1, h2, ⟨fun _ => h3, nofun⟩, fun x hx => (h7 x hx).1, h5, h6, fun x hx => (h7 x hx).2⟩

/-- A command's body begins. -/
theorem inv_begin (hs : s.seq = .start) (h : Inv s) :
    Inv { clearWorking s with seq := .run ((commandOf i).body s) } := by
  obtain ⟨hn, ok, hst, -, htree⟩ := inv_iff.1 h
  refine (inv_run rfl).2 ⟨hn, fun p => ?_, hst.1 (by simp [busy, hs]), htree.valid, commandOf_body_makesTree i s,
    fun x hx => ?_⟩
  · exact (ok p).of_same (by cases p <;> simp [Part.Same]) rfl
  · exact (taskOk_of_plain (commandOf_body hx).2).imp id fun hx => hx _

/-- The error path is set. -/
theorem inv_raiseError {e : ErrCode} (he : e ≠ .none) (hn : 8 ≤ s.nMax.toNat) (ok : ∀ p : Part, p.Ok s)
    (hst : s.status.done = false ∧ s.status.error = false) (hv : HoldsTree s) :
    Inv (raiseError (commandOf i) e s) := by
  refine (inv_run rfl).2
    ⟨hn, fun p => (ok p).of_same (by cases p <;> simp [Part.Same]) rfl, hst, hv, ?_, fun x hx => ?_⟩
  · have hnone : (commandOf i).onError.filter makesTree = [] :=
      List.filter_eq_nil_iff.2 fun x hx => by simp [(commandOf_onError hx).2.2]
    rw [List.filter_append, hnone]
    exact Nat.zero_le 1
  · rcases List.mem_append.1 hx with hx | hx
    · exact (taskOk_of_plain (commandOf_onError hx).2.1).imp id fun hx => hx _
    · rw [List.mem_singleton.1 hx]
      exact ⟨he, trivial⟩

section
variable {k : Task} {ks : List Task}

/-- With its first task taken off the list, a running command is ready for that task. -/
theorem inv_taken (h : Inv s) (hs : s.seq = .run (k :: ks)) :
    let s0 := { s with seq := .run ks }
    (∀ p : Part, p.Ok s0) ∧ TaskOk k ∧ TreeTaskOk s0 k ∧ HoldsTree s0 ∧ (∀ x ∈ ks, TaskOk x ∧ TreeTaskOk s0 x) ∧
      ((k :: ks).filter makesTree).length ≤ 1 := by
  obtain ⟨-, ok, -, hv, hone, hall⟩ := (inv_run hs).1 h
  obtain ⟨⟨hk, hkt⟩, hks⟩ := List.forall_mem_cons.1 hall
  have same : Part.tree.Same s { s with seq := .run ks } := Part.same_setSeq ..
  exact ⟨fun p => (ok p).of_same (p.same_setSeq ..) rfl, hk, hkt.of_same same, hv.of_same same,
    fun x hx => ⟨(hks x hx).1, (hks x hx).2.of_same same⟩, hone⟩

/-- What a task of a running command leaves, whether it answers or raises. -/
theorem runTask_leaves (h : Inv s) (hs : s.seq = .run (k :: ks)) (hf : isFail k = false)
    (hkeep : KeepsBut k.writes s t) (hl : (runTask k { s with seq := .run ks }).leaves t) :
    8 ≤ t.nMax.toNat ∧ (∀ p : Part, p.Ok t) ∧ (t.status.done = false ∧ t.status.error = false) ∧ HoldsTree t := by
  obtain ⟨hn, -, hst, -⟩ := (inv_run hs).1 h
  obtain ⟨ok, hk, ht, hv, -⟩ := inv_taken h hs
  obtain ⟨hd, he, -⟩ := hkeep .outcome fun hw => by rw [isFail_of_writes hw] at hf; cases hf
  have hkeep0 : KeepsBut k.writes { s with seq := .run ks } t := fun p hp => (hkeep p hp).of_setSeq
  exact ⟨(runTask_hostSame k hl).1 ▸ hn, runTask_parts hf rfl ok hk ht hkeep0 hl, ⟨hd.trans hst.1, he.trans hst.2⟩,
    runTask_holdsTree rfl ok hk ht hv hkeep0 hl⟩

end

/-- Every core step keeps the invariant. -/
theorem coreStep_inv (h : Inv s) (hstep : coreStep (commandOf i) s = some t) : Inv t := by
  rcases coreStep_does hstep with ⟨hs, rfl⟩ | ⟨-, rfl⟩ | ⟨e, ks, hs, rfl⟩ | ⟨k, ks, ts, hs, hnf, hr, hkeep, hf, ht⟩ |
    ⟨k, ks, e, v, hs, hnf, hr, hkeep, he, -, rfl⟩
  · rcases beginCommand_cases (commandOf i) s with ⟨e, hc, he⟩ | ⟨-, he⟩ <;> rw [he]
    · exact inv_completeError (fun h0 => commandOf_check i s (h0 ▸ hc)) h
    · exact inv_begin hs h
  · exact inv_completeSuccess h
  · obtain ⟨-, he, -⟩ := inv_taken h hs
    exact inv_completed h (fun p hp => (completeError_keeps e { s with seq := .run ks } p hp).setSeq) rfl rfl rfl
      (completeError_outcome he _)
  · obtain ⟨hn, ok, hst, hv⟩ := runTask_leaves h hs hnf hkeep (by rw [hr]; rfl)
    obtain ⟨ok0, hk, hkt, -, hks, hone⟩ := inv_taken h hs
    obtain ⟨htasks, hone'⟩ :=
      runTask_tasks rfl ok0 hk hkt hks hone hr (fun p hp => (hkeep p hp).of_setSeq) hf ht
    exact (inv_run ht).2 ⟨hn, ok, hst, hv, hone', htasks⟩
  · obtain ⟨hn, ok, hst, hv⟩ := runTask_leaves h hs hnf hkeep (by rw [hr]; rfl)
    exact inv_raiseError he hn ok hst hv

/-! ### The host's side -/

/-- The model's own account of the host is no part of the invariant. -/
theorem Inv.setAccount (h : Inv s) (d : Nat) (a : List (HostAct × Nat)) (l : List HostResp) (n : Nat) :
    Inv { s with draws := d, agenda := a, log := l, turn := n } := h.of_keeps (ps := []) nofun

/-- Both resets' common part (10_state.md R61). -/
theorem inv_resetCore (hn : 8 ≤ s.nMax.toNat) : Inv (resetCore s) := by
  refine inv_iff.2 ⟨hn, Part.forall_iff.2 ?_, ⟨nofun, fun _ => rfl⟩, trivial, treeOk_of_noTasks rfl nofun⟩
  exact ⟨⟨storeWf_nil _, nofun, nofun, Nat.zero_le _⟩, ⟨storeWf_nil _, nofun⟩, Nat.zero_le _,
    ⟨storeWf_nil _, nofun, Nat.zero_le _⟩, ⟨storeWf_nil _, nofun⟩, ⟨Nat.zero_le _, rfl⟩, Nat.zero_le _,
    ⟨Nat.le_of_ble_eq_true rfl, Nat.le_refl 8⟩, Nat.zero_le _, trivial, trivial, ⟨nofun, fun h => (h rfl).elim⟩, nofun⟩

theorem inv_writeIrqPend (h : Inv s) (v : Word) : Inv (writeIrqPend v s) := by
  obtain ⟨-, ok, -⟩ := inv_iff.1 h
  refine h.of_keeps (ps := [.outcome]) fun p hp => ?_
  rw [List.mem_singleton.1 hp]
  exact ok .outcome

theorem inv_writeUnpkCfg (h : Inv s) (v : Word) : Inv (writeUnpkCfg v s) := by
  obtain ⟨-, ok, -⟩ := inv_iff.1 h
  refine h.of_keeps (ps := [.limit]) fun p hp => ?_
  rw [List.mem_singleton.1 hp]
  simp only [Part.Ok, writeUnpkCfg]
  split
  · assumption
  · exact ok .limit

theorem inv_writeFreq {a : Nat} (ha : a < 256) (h : Inv s) (v : Word) : Inv (writeFreq a v s) := by
  obtain ⟨-, ok, -⟩ := inv_iff.1 h
  obtain ⟨hwf, hrange⟩ := ok .frequency
  refine h.of_keeps (ps := [.frequency]) fun p hp => ?_
  rw [List.mem_singleton.1 hp]
  exact ⟨freqSet_wf a v hwf, storeWrite_range v ha hrange⟩

theorem busWrite_inv (h : Inv s) (access : Access) (a : Addr) (v : Word) : Inv (busWrite access a v s).2 := by
  rcases busWrite_cases access a v s with hw | ⟨-, -, hw⟩ | hw | ⟨-, hw | hw | hw | ⟨-, h4, h1, h2, hw⟩⟩ <;> rw [hw]
  · exact h
  · rw [writeCtrl]
    split
    · exact inv_resetCore h.registers.nMax
    · exact h.of_keeps (ps := []) nofun
  · exact inv_writeIrqPend h v
  · exact inv_startCommand (h.of_keeps (ps := []) nofun)
  · exact h.of_keeps (ps := []) nofun
  · exact inv_writeUnpkCfg h v
  · exact inv_writeFreq (by omega) h v

/-- Every action of the host keeps the invariant. -/
theorem hostAct_inv (h : Inv s) (a : HostAct) : Inv (hostAct a s).2 := by
  cases a with
  | read access addr =>
    obtain ⟨d, hd⟩ := busRead_state access addr s
    rw [hostAct, hd]
    exact h.setAccount d s.agenda s.log s.turn
  | write access addr v => exact busWrite_inv h access addr v
  | push tok =>
    exact h.of_keeps (t := { s with inp := s.inp ++ [tok] }) (ps := [.input])
      fun p hp => List.mem_singleton.1 hp ▸ trivial
  | pop =>
    obtain ⟨toks, ht⟩ := popOut_state s
    rw [hostAct, ht]
    exact h.of_keeps (ps := [.output]) fun p hp => List.mem_singleton.1 hp ▸ trivial
  | powerOn =>
    exact (inv_resetCore h.registers.nMax).of_keeps (ps := [.input, .output]) (by simp [Part.Ok])
      (by simp [KeepsBut, Part.forall_iff, Part.Same, hostAct, powerOnReset])

theorem hostTurn_inv (h : Inv s) : Inv (hostTurn s) := by
  unfold hostTurn
  split
  · next a k rest _ =>
    exact (hostAct_inv (h.setAccount s.draws rest s.log s.turn) a).setAccount _ _ _ k
  · split
    · exact h.setAccount s.draws s.agenda s.log _
    · exact h

theorem wake_inv (h : Inv s) : Inv (wake s) := by
  unfold wake
  split
  · exact inv_startCommand h
  · exact h
  · exact h

/-- A turn of any command keeps the invariant. -/
theorem exec_inv (h : Inv s) (he : exec i s = .next t) : Inv t := by
  rw [exec_next] at he
  cases he
  exact (coreRun_keeps Inv (fun _ _ hu hv => coreStep_inv hu hv) s.turn (wake_inv h)).setAccount _ _ _ 0

/-! ### The statements -/

/-- Settles O52: the reset machine is one that a reset leaves. -/
theorem invAtReset : Obligations.InvAtReset := inv_resetCore (s := State.reset) (by decide)

/-- Settles O53: a step is a turn of the command in CMD, the end of an illegal word, or the host's turn. -/
theorem invKeptByStep : Obligations.InvKeptByStep := by
  intro s t h hstep
  unfold step at hstep
  split at hstep
  · split at hstep
    · exact exec_inv h hstep
    · cases hstep
      exact (inv_completeError (e := .illegalCmd) nofun h).setAccount _ _ _ 0
  · cases hstep
    exact hostTurn_inv h

end Sys2Proof.Machine

/-!
## BusAnswers

What the bus answers to every access, legal or not, and the locations whose writes are ignored
(20_memory.md R81 to R84).
-/

namespace Sys2Proof.Machine

variable {access : Access} {a : Addr}

/-! ### Every access (20_memory.md R83, R84) -/

theorem legalAccess_eq_false_iff : legalAccess access a = false ↔ access ≠ .word ∨ a.toNat % 4 ≠ 0 := by
  rw [← Bool.not_eq_true, legalAccess_iff, not_and_or]

/-- An illegal read answers ERR with a draw. -/
theorem busRead_illegal (h : legalAccess access a = false) (s : State) :
    busRead access a s = (.readErr (Config.freeWord s.draws), { s with draws := s.draws + 1 }) := by
  simp [busRead, h, takeReading]

/-- A legal read answers OK with the reading of its location. -/
theorem busRead_legal (h : legalAccess access a = true) (s : State) :
    busRead access a s =
      (.readOk (takeReading (readingAt (locate a) s) s).1, (takeReading (readingAt (locate a) s) s).2) := by
  simp [busRead, h]

/-- A legal write answers OK. -/
theorem busWrite_legal (h : legalAccess access a = true) (v : Word) (s : State) :
    (busWrite access a v s).1 = .writeOk := by
  simp [busWrite, h]

/-- A read takes at most one draw and changes nothing else. -/
theorem busRead_draws (access : Access) (a : Addr) (s : State) :
    (busRead access a s).2 = s ∨ (busRead access a s).2 = { s with draws := s.draws + 1 } := by
  cases hl : legalAccess access a
  · exact .inr (by rw [busRead_illegal hl])
  · rw [busRead_legal hl]
    obtain ⟨v, h⟩ | ⟨v, h⟩ := takeReading_cases (readingAt (locate a) s) s
    · exact .inl (by rw [h])
    · exact .inr (by rw [h])

/-! ### Unmapped and read-only locations (20_memory.md R81, R82) -/

/-- The locations a write can act on; a write to any other is ignored (`busWrite_of_not_writable`). -/
def Loc.writable : Loc → Bool
  | .reg .ctrl | .reg .irqPend | .reg .cmd | .reg .arg | .reg .unpkCfg | .freq _ => true
  | _ => false

theorem writeIdle_of_not_writable {l : Loc} (h : l.writable = false) (v : Word) (s : State) :
    writeIdle l v s = s := by
  unfold writeIdle
  split
  on_goal 7 => rfl
  all_goals cases h

theorem writeBusy_of_not_writable {l : Loc} (h : l.writable = false) (v : Word) (s : State) :
    writeBusy l v s = s := by
  unfold writeBusy
  split
  on_goal 3 => rfl
  all_goals cases h

/-- An aligned write to a location that is not writable is ignored with OK, busy or idle. -/
theorem busWrite_of_not_writable (h4 : a.toNat % 4 = 0) (h : (locate a).writable = false) (v : Word) (s : State) :
    busWrite .word a v s = (.writeOk, s) := by
  have hl : legalAccess .word a = true := legalAccess_iff.2 ⟨rfl, h4⟩
  cases hb : busy s
  · rw [busWrite_idle hl hb, writeIdle_of_not_writable h]
  · rw [busWrite_busy hl hb, writeBusy_of_not_writable h]

/-- An unmapped location reads 0, busy or idle. -/
theorem readingAt_unmapped (s : State) : readingAt .unmapped s = .fixed 0 := by
  cases hb : busy s <;> simp [readingAt, hb, readIdle, readBusy]

/-- An aligned read of an unmapped location answers OK with 0 and changes nothing. -/
theorem busRead_unmapped (h4 : a.toNat % 4 = 0) (h : locate a = .unmapped) (s : State) :
    busRead .word a s = (.readOk 0, s) := by
  rw [busRead_legal (legalAccess_iff.2 ⟨rfl, h4⟩), h, readingAt_unmapped]
  rfl

/-- The gaps of the address map. -/
theorem locate_unmapped
    (h : (0x003C ≤ a.toNat ∧ a.toNat < 0x0400) ∨ (0x0800 ≤ a.toNat ∧ a.toNat < 0x2000) ∨
      (0x3FF0 ≤ a.toNat ∧ a.toNat < 0x4000) ∨ 0x8000 ≤ a.toNat) :
    locate a = .unmapped := by
  unfold locate
  dsimp only
  rw [if_neg (by omega), if_neg (by omega), if_neg (by omega), if_neg (by omega)]

/-- The read-only registers, by offset (10_state.md R32). -/
theorem locate_readOnlyReg
    (h : a.toNat ∈ [0x000, 0x008, 0x018, 0x01C, 0x020, 0x024, 0x02C, 0x030, 0x034, 0x038]) :
    (locate a).writable = false := by
  have key : ∀ n ∈ [0x000, 0x008, 0x018, 0x01C, 0x020, 0x024, 0x02C, 0x030, 0x034, 0x038],
      (locate (BitVec.ofNat 16 n)).writable = false := by decide
  simpa using key a.toNat h

/-! ### The statements -/

/-- Settles O12: an illegal access answers ERR, a legal one OK, and a read takes at most a draw. -/
theorem illegalAccessAndReadsChangeNothing : Obligations.IllegalAccessAndReadsChangeNothing := by
  refine ⟨fun s access a v h => ?_, fun s a v h4 => ?_, fun s access a => busRead_draws access a s⟩
  · have hl := legalAccess_eq_false_iff.2 h
    exact ⟨busWrite_illegal hl v s, busRead_illegal hl s⟩
  · have hl : legalAccess .word a = true := legalAccess_iff.2 ⟨rfl, h4⟩
    exact ⟨busWrite_legal hl v s, _, by rw [busRead_legal hl]⟩

/-- Settles O13: the gaps of the address map are unmapped, and neither they, the read-only registers nor the TREE and
CODE windows are writable. -/
theorem unmappedAndReadOnlyLocations : Obligations.UnmappedAndReadOnlyLocations := by
  intro s a v h4
  refine ⟨fun h => ?_, fun h => busWrite_of_not_writable h4 ?_ v s⟩
  · have hl := locate_unmapped h
    exact ⟨busRead_unmapped h4 hl s, busWrite_of_not_writable h4 (by rw [hl]; rfl) v s⟩
  · obtain h | ⟨h1, h2⟩ | ⟨h1, h2⟩ := h
    · exact locate_readOnlyReg h
    · rw [locate_tree h1 h2]
      rfl
    · rw [locate_code h1 h2]
      rfl

end Sys2Proof.Machine

/-!
## CommandWord

The command word: its three fields, the opcode map both ways, and which words decode to which command
(30_encoding.md R120 to R125).
-/

namespace Sys2Proof

variable {w : Word} {i : Instr} {opc : Byte} {n : Nat}

/-! ### The fields and the bytes of a word -/

/-- A word is its three fields (R120). -/
theorem fields_append (w : Word) : fieldRsv w ++ fieldN w ++ fieldOpc w = w := by
  unfold fieldRsv fieldN fieldOpc
  rw [BitVec.extractLsb'_append_extractLsb'_eq_extractLsb',
    BitVec.extractLsb'_append_extractLsb'_eq_extractLsb']
  · exact BitVec.extractLsb'_eq_self
  all_goals rfl

/-- A word is its four bytes (20_memory.md R85). -/
theorem wordOfBytes_of_word (w : Word) :
    wordOfBytes (w.extractLsb' 0 8) (w.extractLsb' 8 8) (w.extractLsb' 16 8) (w.extractLsb' 24 8) = w := by
  unfold wordOfBytes
  rw [BitVec.extractLsb'_append_extractLsb'_eq_extractLsb',
    BitVec.extractLsb'_append_extractLsb'_eq_extractLsb',
    BitVec.extractLsb'_append_extractLsb'_eq_extractLsb']
  · exact BitVec.extractLsb'_eq_self
  all_goals rfl

/-- The decoder on bytes reads the word of the first four and leaves the others (R125). -/
theorem decodeBytes_bytesOfWord (h : decodeWord w = .ok i) (rest : List Byte) :
    decodeBytes (bytesOfWord w ++ rest) = .ok (i, rest) := by
  simp [bytesOfWord, decodeBytes, wordOfBytes_of_word, h]

/-- What the fields of each well-formed command's word hold. -/
theorem encodeWord_fields : ∀ i : Instr, Laws.Encoding.Statement i
  | .nop => Laws.Encoding.nop
  | .packBit => Laws.Encoding.packBit
  | .packByte => Laws.Encoding.packByte
  | .packBits n => Laws.Encoding.packBits n
  | .flush => Laws.Encoding.flush
  | .unpackBit => Laws.Encoding.unpackBit
  | .unpackByte => Laws.Encoding.unpackByte
  | .unpackReset => Laws.Encoding.unpackReset
  | .load => Laws.Encoding.load
  | .count => Laws.Encoding.count
  | .build => Laws.Encoding.build
  | .gencode => Laws.Encoding.gencode
  | .emit => Laws.Encoding.emit
  | .serialize => Laws.Encoding.serialize
  | .deserialize => Laws.Encoding.deserialize
  | .encode => Laws.Encoding.encode
  | .decode => Laws.Encoding.decode
  | .walk => Laws.Encoding.walk

/-! ### Commands -/

/-- A command fits its word when its count fits the field N (R122). -/
theorem Instr.wellFormed_iff : i.wellFormed = true ↔ countField i < 256 := by
  cases i <;> simp [Instr.wellFormed, countField]

/-- Only PACK_BITS has a count (R120). -/
theorem countField_eq_zero (h : opcodeOf i ≠ 0x12) : countField i = 0 := by
  cases i
  case packBits => exact absurd rfl h
  all_goals rfl

/-- The opcode map is the inverse of `opcodeOf`, with PACK_BITS taking N as its count (R121). -/
theorem opcodeMap_eq_some_iff :
    opcodeMap opc n = some i ↔ opcodeOf i = opc ∧ (opc = 0x12 → countField i = n) := by
  constructor
  · intro h
    unfold opcodeMap at h
    split at h <;> cases h
    all_goals
      rename_i ho
      exact ⟨BitVec.eq_of_toNat_eq ho.symm, fun hp => by subst hp; simp [countField] at ho ⊢⟩
  · rintro ⟨rfl, h⟩
    cases i
    case packBits => simpa [opcodeMap, opcodeOf, countField] using (h rfl).symm
    all_goals rfl

/-- The opcodes of the map are those of R121, whatever N. -/
theorem exists_opcodeMap_eq_some_iff :
    (∃ i, opcodeMap opc n = some i) ↔
      opc.toNat ∈ [0x00, 0x10, 0x11, 0x12, 0x13, 0x14, 0x15, 0x16, 0x20, 0x21, 0x30, 0x40, 0x41, 0x50, 0x51, 0x60,
        0x70, 0x71] := by
  unfold opcodeMap
  split <;> simp_all

/-! ### Decoding -/

/-- The three checks of R123 and the command a word decodes to. -/
theorem decodeWord_eq_ok_iff :
    decodeWord w = .ok i ↔
      fieldRsv w = 0 ∧ opcodeMap (fieldOpc w) (fieldN w).toNat = some i ∧ (fieldOpc w ≠ 0x12 → fieldN w = 0) := by
  unfold decodeWord
  split
  next hr => simp_all
  next hr =>
    split
    next hm => simp_all
    next j hm =>
      split
      next hn => simp_all
      next hn =>
        have hcount : fieldOpc w ≠ 0x12 → fieldN w = 0 := fun hp => by_contra fun h => hn ⟨hp, h⟩
        simpa [not_not.1 hr, hm] using fun _ => hcount

/-- A well-formed command's word decodes to it. -/
theorem decodeWord_encodeWord (h : i.wellFormed = true) : decodeWord (encodeWord i) = .ok i := by
  obtain ⟨hrsv, hopc, hn⟩ := encodeWord_fields i h
  refine decodeWord_eq_ok_iff.2 ⟨hrsv, opcodeMap_eq_some_iff.2 ⟨hopc.symm, fun _ => hn.symm⟩, fun hne => ?_⟩
  exact BitVec.eq_of_toNat_eq (by rw [hn, countField_eq_zero (hopc ▸ hne)]; rfl)

/-- A word that decodes holds its command's opcode and count. -/
theorem fields_of_decodeWord_eq_ok (h : decodeWord w = .ok i) :
    fieldRsv w = 0 ∧ fieldOpc w = opcodeOf i ∧ (fieldN w).toNat = countField i := by
  obtain ⟨hrsv, hmap, hn⟩ := decodeWord_eq_ok_iff.1 h
  obtain ⟨hopc, hcount⟩ := opcodeMap_eq_some_iff.1 hmap
  refine ⟨hrsv, hopc.symm, ?_⟩
  by_cases hp : fieldOpc w = 0x12
  · exact (hcount hp).symm
  · rw [hn hp, countField_eq_zero (hopc ▸ hp)]
    rfl

/-! ### The statements -/

/-- Settles O1: the word's fields are the command's own, and they pass the decoder's three checks. -/
theorem decodeOfEncode : Obligations.DecodeOfEncode :=
  fun _ rest h => decodeBytes_bytesOfWord (decodeWord_encodeWord h) rest

/-- Settles O2: a word that decodes has its command's fields, and a word is its fields. -/
theorem encodeOfDecode : Obligations.EncodeOfDecode := by
  intro w i h
  obtain ⟨hrsv, hopc, hn⟩ := fields_of_decodeWord_eq_ok h
  refine ⟨Instr.wellFormed_iff.2 (hn ▸ (fieldN w).isLt), ?_⟩
  calc encodeWord i = fieldRsv w ++ fieldN w ++ fieldOpc w := by
        simp [encodeWord, ← hn, ← hopc, hrsv]
    _ = w := fields_append w

/-- Settles O3: the decoder's checks are the format's and the map's opcodes are the table's. -/
theorem legalWordsAreTheTables : Obligations.LegalWordsAreTheTables := by
  intro w
  simp only [decodeWord_eq_ok_iff, exists_and_left, exists_and_right, exists_opcodeMap_eq_some_iff]
  exact and_left_comm

/-- Settles O4, by running the decoder on each word. -/
theorem specWordsDecode : Obligations.SpecWordsDecode := by
  unfold Obligations.SpecWordsDecode
  decide

end Sys2Proof

/-!
## CommandInterface

The command interface: whose turn a step is, what a write does at the start of a command and while one
runs, and the commands that end before or right after their body begins (40_command.md R171 to R180).
-/

namespace Sys2Proof.Machine

variable {i : Instr} {s t : State}

/-! ### Whose turn it is (20_memory.md R93) -/

theorem coreTurn_eq_true_iff : coreTurn s = true ↔ busy s = true ∧ s.turn ≠ 0 := by simp [coreTurn]

theorem coreTurn_eq_false_iff : coreTurn s = false ↔ busy s = false ∨ s.turn = 0 := by
  rw [← Bool.not_eq_true, coreTurn_eq_true_iff, not_and_or, Bool.not_eq_true, not_not]

/-- The core's turn on a word that is no command (R179). -/
theorem step_illegal {r : Reject} (hc : coreTurn s = true) (hf : fetch s = .error r) :
    step s = .next (illegalTurn s) := by
  simp [step, hc, hf]

/-- No action of the host writes the log; its turn does. -/
theorem hostAct_log (a : HostAct) (s : State) : (hostAct a s).2.log = s.log := by
  cases a with
  | powerOn => rfl
  | push tok => rfl
  | pop =>
    obtain ⟨toks, h⟩ := popOut_state s
    rw [hostAct, h]
  | read access a =>
    obtain ⟨d, h⟩ := busRead_state access a s
    rw [hostAct, h]
  | write access a v =>
    have hctrl : (writeCtrl v s).log = s.log := by
      unfold writeCtrl
      split <;> rfl
    rw [hostAct]
    rcases busWrite_cases access a v s with h | ⟨-, -, h⟩ | h | ⟨-, h | h | h | ⟨-, -, -, -, h⟩⟩ <;> rw [h]
    · exact hctrl
    all_goals rfl

/-! ### Writes while busy (40_command.md R173, R174) -/

theorem regTable_irqPend {j : Nat} (h : regTable[j]? = some .irqPend) : j = 3 := by
  obtain ⟨hj, h⟩ := List.getElem?_eq_some_iff.1 h
  have key : ∀ k : Fin 15, regTable[k] = Reg.irqPend → k.val = 3 := by decide
  exact key ⟨j, hj⟩ h

theorem locate_reg_inv {a : Addr} {r : Reg} (h : locate a = .reg r) : regTable[a.toNat / 4]? = some r := by
  unfold locate at h
  dsimp only at h
  split at h
  · split at h
    · next hr => cases h; exact hr
    · cases h
  · repeat' split at h
    all_goals cases h

/-- IRQ_PEND has one word address. -/
theorem locate_irqPend {a : Addr} (h4 : a.toNat % 4 = 0) (h : locate a = .reg .irqPend) : a = 0x00C := by
  have h3 := regTable_irqPend (locate_reg_inv h)
  exact BitVec.eq_of_toNat_eq (by simp; omega)

/-! ### The first core steps of a command (R176, R180) -/

/-- The first core step where the check passes: the body's tasks are next. -/
theorem coreStep_begin {c : Command} (hs : Started s) (hc : c.check s = none) :
    coreStep c s = some { clearWorking s with seq := .run (c.body s) } := by
  rw [coreStep_start hs, beginCommand, hc]

/-- A failing check ends the command in its first core step. -/
theorem exec_of_check {e : ErrCode} (hs : Started s) (ht : 1 ≤ s.turn) (hc : (commandOf i).check s = some e) :
    exec i s = .next (failed e s) := by
  have h1 : coreRun 1 (commandOf i) s = completeError e s := by
    rw [coreRun_some 0 (coreStep_start hs), coreRun_zero, beginCommand, hc]
  rw [exec_of_done hs ht (by rw [h1]; rfl), h1, failed_of_completeError]

/-- A command whose body returns after m core steps completes: one step more for the check, one for the completion. -/
theorem exec_of_returns {m : Nat} (hs : Started s) (ht : m + 2 ≤ s.turn) (hc : (commandOf i).check s = none)
    (hb : coreRun m (commandOf i) { clearWorking s with seq := .run ((commandOf i).body s) } = t)
    (hret : t.seq = .run []) : exec i s = .next (succeeded t.ret t) := by
  have hall : coreRun (m + 2) (commandOf i) s = completeSuccess t := by
    rw [coreRun_some (m + 1) (coreStep_begin hs hc), coreRun_add m 1, hb, coreRun_some 0 (coreStep_nil hret),
      coreRun_zero]
  rw [exec_of_done hs ht (by rw [hall]; rfl), hall, succeeded_of_completeSuccess]

theorem checkCount_of_lt {n : Nat} (h : 32 < n) (s : State) : checkCount n s = some .badArg :=
  if_neg (Nat.not_le.2 h)

theorem checkFlag_false {b : Bool} (h : b = false) : checkFlag b = some .sequence := by rw [h]; rfl

/-! ### The statements -/

/-- Settles O5: the core's turn runs the command in CMD, and a host's turn is its next action, if any. -/
theorem stepRunsDecodedCommand : Obligations.StepRunsDecodedCommand := by
  refine ⟨fun s i hb ht hd => step_core (coreTurn_eq_true_iff.2 ⟨hb, ht⟩) hd, fun s h => ?_⟩
  rw [step_host (coreTurn_eq_false_iff.2 h)]
  refine ⟨fun a k rest ha => ?_, fun ha hb => ?_, fun ha hb => ?_⟩
  · rw [hostTurn_action ha, hostAct_log]
  · rw [hostTurn_busy ha hb]
  · rw [hostTurn_idle ha hb]

/-- Settles O6: the core's turn on an illegal word is its error completion. -/
theorem illegalWordCompletes : Obligations.IllegalWordCompletes := by
  intro s r hb ht hd
  rw [step_illegal (coreTurn_eq_true_iff.2 ⟨hb, ht⟩) hd, illegalTurn, failed_of_completeError]

/-- Settles O7: 0x010 is CMD, and a write of it while idle is the start of a command. -/
theorem cmdWriteStartsCommand : Obligations.CmdWriteStartsCommand := fun _ w hb => busWrite_idle rfl hb w

/-- Settles O8: while busy only the locations of CTRL and IRQ_PEND act, and each has one address. -/
theorem writesWhileBusyIgnored : Obligations.WritesWhileBusyIgnored := by
  intro s access a v hb hctrl hirq
  cases hl : legalAccess access a
  · rw [busWrite_illegal hl]
  · obtain ⟨-, h4⟩ := legalAccess_iff.1 hl
    rw [busWrite_busy hl hb]
    unfold writeBusy
    split
    · next h => exact absurd (locate_ctrl h4 h) hctrl
    · next h => exact absurd (locate_irqPend h4 h) hirq
    · rfl

/-- Settles O18: NOP's body returns at once; UNPACK_RESET's after one core step, the restart of the unpacker. -/
theorem nopAndUnpackReset : Obligations.NopAndUnpackReset :=
  ⟨fun _ hs ht => exec_of_returns (m := 0) hs ht rfl rfl rfl,
    fun _ hs ht => exec_of_returns (m := 1) hs ht rfl rfl rfl⟩

/-- Settles O23: each check fails, which ends the command before its body. -/
theorem checksBeforeTheBody : Obligations.ChecksBeforeTheBody := by
  intro s hs ht
  have sequence {i : Instr} {b : Bool} (hc : (commandOf i).check s = checkFlag b) (hb : b = false) :
      exec i s = .next (failed .sequence s) := exec_of_check hs ht (hc.trans (checkFlag_false hb))
  refine ⟨fun n hn => exec_of_check hs ht (checkCount_of_lt hn s), fun h => sequence rfl h, fun h => sequence rfl h,
    fun h => ⟨sequence rfl h, sequence rfl h, sequence rfl h⟩, fun h => sequence rfl (Bool.and_eq_false_iff.2 h)⟩

end Sys2Proof.Machine

/-!
## BusyReads

Reads while a command runs: what each location answers, and that the answer tells nothing of the command's
progress (40_command.md R175).
-/

namespace Sys2Proof.Machine

variable {s t : State} {a : Addr}

/-! ### The reading of a location -/

theorem readingAt_busy (hb : busy s = true) (l : Loc) : readingAt l s = readBusy l s := if_pos hb

/-- A word read while busy of a location with a defined value returns it and changes nothing. -/
theorem busRead_busy_fixed {v : Word} (hb : busy s = true) (h4 : a.toNat % 4 = 0)
    (hr : readBusy (locate a) s = .fixed v) : busRead .word a s = (.readOk v, s) := by
  rw [busRead_legal (legalAccess_iff.2 ⟨rfl, h4⟩), readingAt_busy hb, hr]
  rfl

/-- A word read while busy of any other location takes the next draw, in the location's shape. -/
theorem busRead_busy_drawn {shape : Word → Word} (hb : busy s = true) (h4 : a.toNat % 4 = 0)
    (hr : readBusy (locate a) s = .drawn shape) :
    busRead .word a s = (.readOk (shape (Config.freeWord s.draws)), { s with draws := s.draws + 1 }) := by
  rw [busRead_legal (legalAccess_iff.2 ⟨rfl, h4⟩), readingAt_busy hb, hr]
  rfl

/-! ### STATUS (10_state.md R35, R36) -/

theorem runningPhases_ne_nil (s : State) : runningPhases s ≠ [] := by
  unfold runningPhases
  split
  · next i _ => cases i <;> nofun
  · nofun

theorem getD_mod_mem {α : Type} {l : List α} (h : l ≠ []) (n : Nat) (d : α) : l.getD (n % l.length) d ∈ l := by
  have hn : n % l.length < l.length := Nat.mod_lt n (List.length_pos_iff.2 h)
  rw [List.getD_eq_getElem _ _ hn]
  exact List.getElem_mem hn

/-- STATUS's fields BUSY and PHASE, with the other bits that are not drawn 0. -/
theorem busyStatus_fields (p : BitVec 4) :
    (flag true 0 ||| field p 16) &&& 0xFF00FFFF = 1 ∧ (flag true 0 ||| field p 16) &&& 0x00F00000 = 0 ∧
      (flag true 0 ||| field p 16).extractLsb' 16 4 = p := by
  revert p
  decide

/-- What STATUS reads as while busy: BUSY, one of the running command's phases, and four drawn flags. -/
theorem busyStatus_spec (s : State) (d : Word) :
    busyStatus s d &&& 0xFF00FFFF = 1 ∧ busyStatus s d &&& 0x00F00000 = d &&& 0x00F00000 ∧
      ∃ p ∈ runningPhases s, (busyStatus s d).extractLsb' 16 4 = phaseNumber p := by
  set p := (runningPhases s).getD ((d.setWidth 20).toNat % (runningPhases s).length) .control
  have hd : busyStatus s d = flag true 0 ||| field (phaseNumber p) 16 ||| (d &&& 0x00F00000) := rfl
  obtain ⟨h1, h2, h3⟩ := busyStatus_fields (phaseNumber p)
  refine ⟨?_, ?_, p, getD_mod_mem (runningPhases_ne_nil s) _ _, ?_⟩ <;> rw [hd]
  · rw [BitVec.and_or_distrib_right, h1, BitVec.and_assoc]
    simp
  · rw [BitVec.and_or_distrib_right, h2, BitVec.and_assoc]
    simp
  · rw [BitVec.extractLsb'_or, h3, BitVec.extractLsb'_and]
    simp

/-! ### What a reading depends on -/

/-- The registers that R175 calls defined have the same values in two states. -/
def DefinedSame (s t : State) : Prop :=
  s.ctrl = t.ctrl ∧ s.irqPend = t.irqPend ∧ s.cmd = t.cmd ∧ s.arg = t.arg ∧ s.result = t.result ∧ s.nMax = t.nMax

theorem busyStatus_congr (h : s.cmd = t.cmd) : busyStatus s = busyStatus t := by
  funext w
  simp only [busyStatus, runningPhases, h]

theorem readRegBusy_congr (h : DefinedSame s t) (r : Reg) : readRegBusy r s = readRegBusy r t := by
  obtain ⟨hctrl, hirq, hcmd, harg, hresult, hmax⟩ := h
  cases r
  case ctrl => simp only [readRegBusy, ctrlWord, hctrl]
  case irqPend => simp only [readRegBusy, irqPendWord, hirq]
  case status => simp only [readRegBusy, busyStatus_congr hcmd]
  case cmd => simp only [readRegBusy, hcmd]
  case arg => simp only [readRegBusy, harg]
  case result => simp only [readRegBusy, hresult]
  case capacity => simp only [readRegBusy, hmax]
  all_goals rfl

theorem readBusy_congr (h : DefinedSame s t) (l : Loc) : readBusy l s = readBusy l t := by
  cases l with
  | reg r => exact readRegBusy_congr h r
  | freq | tree | code | unmapped => rfl

/-- The word a reading comes to depends on the draws made so far alone. -/
theorem takeReading_congr (r : Reading) (h : s.draws = t.draws) : (takeReading r s).1 = (takeReading r t).1 := by
  cases r with
  | fixed v => rfl
  | drawn shape => exact congrArg (fun n => shape (Config.freeWord n)) h

/-! ### The statements -/

/-- Settles O14: each location's reading while busy, STATUS's from `busyStatus_spec`. -/
theorem busyReadsOfDefinedRegisters : Obligations.BusyReadsOfDefinedRegisters := by
  intro s hb drawn d
  have fixed {a : Addr} {v : Word} (h4 : a.toNat % 4 = 0) (hr : readBusy (locate a) s = .fixed v) :
      busRead .word a s = (.readOk v, s) := busRead_busy_fixed hb h4 hr
  have draw {a : Addr} {shape : Word → Word} (h4 : a.toNat % 4 = 0) (hr : readBusy (locate a) s = .drawn shape) :
      busRead .word a s = (.readOk (shape d), drawn) := busRead_busy_drawn hb h4 hr
  have masked {a : Addr} {m : Word} (h4 : a.toNat % 4 = 0) (hr : readBusy (locate a) s = maskedDraw m) :
      busRead .word a s = (.readOk (d &&& m), drawn) := draw h4 hr
  refine ⟨fixed rfl rfl, ctrlWord_fields s ▸ fixed rfl rfl, irqPendWord_fields s ▸ fixed rfl rfl, fixed rfl rfl,
    fixed rfl rfl, fixed rfl rfl, fixed rfl rfl, ⟨_, draw rfl rfl, busyStatus_spec s d⟩, ?_, masked rfl rfl,
    masked rfl rfl, masked rfl rfl, masked rfl rfl, masked rfl rfl, masked rfl rfl, fun a h4 ha => ?_,
    fun a k ha hk => ?_⟩
  · rw [masked (m := BitVec.allOnes 32) rfl rfl, BitVec.and_allOnes]
  · obtain ⟨h1, h2⟩ | ⟨h1, h2⟩ := ha
    · exact draw (shape := id) h4 (by rw [locate_freq h1 h2]; rfl)
    · exact draw (shape := id) h4 (by rw [locate_tree h1 h2]; rfl)
  · obtain ⟨h4, hl⟩ := locate_codeWord ha hk
    split
    · next h8 => exact draw (shape := id) h4 (by rw [hl, readBusy, codeWindow, if_pos h8])
    · next h8 => exact fixed h4 (by rw [hl, readBusy, codeWindow, if_neg h8])

/-- Settles O15: a reading while busy depends on the defined registers and the draws alone. -/
theorem busyReadsTellNothing : Obligations.BusyReadsTellNothing := by
  intro s t access a hs ht hctrl hirq hcmd harg hresult hmax hdraws
  have hr : readingAt (locate a) s = readingAt (locate a) t := by
    rw [readingAt_busy hs, readingAt_busy ht, readBusy_congr ⟨hctrl, hirq, hcmd, harg, hresult, hmax⟩]
  cases hl : legalAccess access a
  · rw [busRead_illegal hl, busRead_illegal hl, hdraws]
  · rw [busRead_legal hl, busRead_legal hl, hr, takeReading_congr _ hdraws]

end Sys2Proof.Machine

/-!
## CommandFrames

The parts of the state that each command can write, and the frame of a command's turn: everything else is as it was.
-/

namespace Sys2Proof.Machine

variable {i : Instr} {k : Task} {s t : State}

/-! ### The parts a command writes -/

/-- The parts that the tasks of a command write beside the outcome (`writes_subset`). -/
def writtenParts : Instr → List Part
  | .nop => []
  | .packBit | .packByte | .packBits _ | .flush | .emit | .serialize => [.packer, .output]
  | .unpackBit | .unpackByte => [.unpacker, .input]
  | .unpackReset => [.unpacker, .limit]
  | .load => [.buffer, .input]
  | .count => [.frequency, .ndist]
  | .build => [.ndist, .tree]
  | .gencode => [.code]
  | .deserialize => [.unpacker, .input, .tree]
  | .walk => [.unpacker, .input, .output]
  | .encode => [.buffer, .frequency, .ndist, .tree, .code, .packer, .mode, .input, .output]
  | .decode => [.tree, .unpacker, .limit, .mode, .input, .output]

theorem writes_subset {p : Part} (h : ownTask i k = true) (hp : p ∈ k.writes) (ho : p ≠ .outcome) :
    p ∈ writtenParts i := by
  have all : commands.all (fun j => !ownTask j k ||
      k.writes.all (fun p => decide (p = .outcome) || decide (p ∈ writtenParts j))) = true := by
    cases k <;> rfl
  have key : ∀ j ∈ commands, ownTask j k = true → p ∈ writtenParts j := by
    intro j hj hown
    have hj := List.all_eq_true.1 all j hj
    rw [hown, Bool.not_true, Bool.false_or, List.all_eq_true] at hj
    simpa [ho] using hj p hp
  cases i
  case packBits n => exact key (.packBits 0) (by decide) h
  all_goals exact key _ (by decide) h

/-! ### The frame -/

/-- `s` with what every command's turn writes, RESULT and the given parts taken from `t`. -/
def framed (ps : List Part) (s t : State) : State :=
  { sharedFrame s t with
    result := t.result
    buf := if .buffer ∈ ps then t.buf else s.buf
    inLen := if .buffer ∈ ps then t.inLen else s.inLen
    freq := if .frequency ∈ ps then t.freq else s.freq
    ndist := if .ndist ∈ ps then t.ndist else s.ndist
    tree := if .tree ∈ ps then t.tree else s.tree
    treeInfo := if .tree ∈ ps then t.treeInfo else s.treeInfo
    code := if .code ∈ ps then t.code else s.code
    wr := if .packer ∈ ps then t.wr else s.wr
    rd := if .unpacker ∈ ps then t.rd else s.rd
    unpk := if .limit ∈ ps then t.unpk else s.unpk
    mode := if .mode ∈ ps then t.mode else s.mode
    la := if .input ∈ ps then t.la else s.la
    inp := if .input ∈ ps then t.inp else s.inp
    out := if .output ∈ ps then t.out else s.out
    status :=
      { (sharedFrame s t).status with
        bufValid := if .buffer ∈ ps then t.status.bufValid else s.status.bufValid
        freqValid := if .frequency ∈ ps then t.status.freqValid else s.status.freqValid
        treeValid := if .tree ∈ ps then t.status.treeValid else s.status.treeValid
        codeValid := if .code ∈ ps then t.status.codeValid else s.status.codeValid } }

/-- A part taken from `t` is that of `t`, and so is one that is the same in `s`. -/
theorem framed_same {ps : List Part} {p : Part} (h : p ∉ ps → p ≠ .outcome → p.Same s t) :
    p.Same (framed ps s t) t := by
  by_cases hp : p ∈ ps
  · cases p <;> simp [Part.Same, framed, sharedFrame, hp]
  · have hsame := h hp
    cases p
    case outcome => exact ⟨rfl, rfl, rfl, rfl⟩
    all_goals simpa [Part.Same, framed, sharedFrame, hp] using hsame nofun

/-- A state is its parts, the host's fields, PHASE, RESULT, the sequencer's position and the working fields. -/
theorem eq_of_same (hh : HostSame s t) (hp : ∀ p : Part, p.Same s t) (hphase : t.status.phase = s.status.phase)
    (hresult : t.result = s.result) (hseq : t.seq = s.seq) (hret : t.ret = s.ret) (hgot : t.got = s.got)
    (hpushed : t.pushed = s.pushed) : t = s := by
  obtain ⟨hmax, hctrl, hcmd, harg, hdraws, hagenda, hlog, hturn⟩ := hh
  obtain ⟨⟨hbuf, hlen, hbufV⟩, ⟨hfreq, hfreqV⟩, hndist, ⟨htree, hinfo, htreeV⟩, ⟨hcode, hcodeV⟩, hwr, hrd, hunpk, hmode,
    ⟨hla, hinp⟩, hout, hdone, herror, herrcode, hirq⟩ := Part.forall_iff.1 hp
  cases s with | mk _ _ status =>
  cases t with | mk _ _ status' =>
  have hstatus : status' = status := by
    cases status
    cases status'
    rw [StatusReg.mk.injEq]
    exact ⟨hdone, herror, herrcode, hphase, hbufV, hfreqV, htreeV, hcodeV⟩
  rw [State.mk.injEq]
  exact ⟨hmax, hctrl, hstatus, hirq, hcmd, harg, hresult, hlen, hndist, hmode, hunpk, hinfo, hwr, hrd, hla, hbuf, hfreq,
    htree, hcode, hinp, hout, hseq, hret, hgot, hpushed, hdraws, hagenda, hlog, hturn⟩

/-- The frame of a command's turn from any point of it. -/
theorem exec_framed (hr : Runs i s) (h : exec i s = .next t) : Runs i t ∧ t = framed (writtenParts i) s t := by
  obtain ⟨hruns, hsame⟩ := exec_runs hr h
  obtain ⟨hmax, hctrl, hcmd, harg, hdraws, hagenda, hlog⟩ := exec_hostSame h
  have parts (p : Part) : p.Same (framed (writtenParts i) s t) t :=
    framed_same fun hp ho => hsame p ho fun k hk hw => hp (writes_subset hk hw ho)
  exact ⟨hruns, eq_of_same ⟨hmax, hctrl, hcmd, harg, hdraws, hagenda, hlog, rfl⟩ parts rfl rfl rfl rfl rfl rfl⟩

/-! ### RESULT under NOP and UNPACK_RESET (40_command.md R177, R178) -/

/-- A point of NOP or UNPACK_RESET that has left RESULT as it was and returns nothing. -/
def LeavesResult (i : Instr) (s t : State) : Prop :=
  Runs i t ∧ t.result = s.result ∧ (t.seq = .start ∨ t.ret = none)

theorem ownTask_control (hi : i = .nop ∨ i = .unpackReset) (h : ownTask i k = true) : k = .unpackReset := by
  obtain rfl | rfl := hi
  · cases h
  · cases k
    case unpackReset => rfl
    all_goals cases h

theorem coreStep_leavesResult {u : State} (hi : i = .nop ∨ i = .unpackReset) (hl : LeavesResult i s t)
    (h : coreStep (commandOf i) t = some u) : LeavesResult i s u := by
  obtain ⟨hr, hresult, hret⟩ := hl
  refine ⟨coreStep_runs hr h, ?_⟩
  rcases coreStep_cases h with ⟨-, rfl⟩ | ⟨hs, rfl⟩ | ⟨k, ks, hs, hk⟩ | ⟨k, ks, e, v, hs, hk, -⟩
  · rcases beginCommand_cases (commandOf i) t with ⟨e, -, he⟩ | ⟨-, he⟩ <;> rw [he] <;> exact ⟨hresult, .inr rfl⟩
  · have hnone : t.ret = none := hret.resolve_left (by rw [hs]; nofun)
    exact ⟨by rw [completeSuccess_result, hnone]; exact hresult, .inr rfl⟩
  · obtain rfl := ownTask_control hi ((runs_iff hs).1 hr k List.mem_cons_self)
    cases hk
    exact ⟨hresult, .inr (hret.resolve_left (by rw [hs]; nofun))⟩
  · obtain rfl := ownTask_control hi ((runs_iff hs).1 hr k List.mem_cons_self)
    cases hk

/-- Neither command writes RESULT, however far its turn takes it. -/
theorem exec_leavesResult (hi : i = .nop ∨ i = .unpackReset) (hs : Started s) (h : exec i s = .next t) :
    t.result = s.result := by
  rw [exec_next, wake_started hs] at h
  cases h
  obtain ⟨-, hresult, -⟩ := coreRun_keeps (fun u => LeavesResult i s u) (fun _ _ => coreStep_leavesResult hi) s.turn
    (s := s) ⟨by simp [Runs, hs], rfl, .inl hs⟩
  exact hresult

/-! ### The statements -/

/-- Settles O57: each command's turn is framed by the parts that its tasks write. -/
theorem packerCommandsFrame : Obligations.PackerCommandsFrame := by
  refine ⟨fun s t hr h => exec_framed hr h, fun s t hr h => exec_framed hr h,
    fun i s t hi hs h => exec_leavesResult hi hs h, fun i s t hi hr h => ?_⟩
  have hparts : writtenParts i = [.packer, .output] := by
    obtain hi | ⟨n, rfl⟩ := hi
    · simp only [List.mem_cons, List.not_mem_nil, or_false] at hi
      obtain rfl | rfl | rfl | rfl | rfl := hi <;> rfl
    · rfl
  have hframed := exec_framed hr h
  rwa [hparts] at hframed

end Sys2Proof.Machine

/-!
## BitSequences

A value and its bits, bit 0 first (41_bitio.md R202), and a bit sequence of fewer than two bytes cut into bytes.
-/

namespace Sys2Proof.Machine

/-! ### A value and its bits -/

theorem bitsOf_length {w : Nat} (n : Nat) (v : BitVec w) : (bitsOf n v).length = n := by simp [bitsOf]

theorem bitsOf_getElem? {w : Nat} (n : Nat) (v : BitVec w) (i : Nat) :
    (bitsOf n v)[i]? = if i < n then some (v.getLsbD i) else none := by
  by_cases h : i < n <;> simp [bitsOf, h]

/-- The low bits of a value are those of its truncation. -/
theorem bitsOf_setWidth {w m : Nat} (n : Nat) (v : BitVec w) (h : n ≤ m) : bitsOf n (v.setWidth m) = bitsOf n v := by
  apply List.map_congr_left
  intro i hi
  have hi := List.mem_range.1 hi
  rw [BitVec.getLsbD_setWidth, decide_eq_true (by omega), Bool.true_and]

theorem bitsOf_take {w : Nat} (m n : Nat) (v : BitVec w) : (bitsOf n v).take m = bitsOf (min m n) v := by
  rw [bitsOf, ← List.map_take, List.take_range, bitsOf]

theorem getLsbD_of_ushiftRight_eq_zero {w n i : Nat} {v : BitVec w} (h : v >>> n = 0) (hn : n ≤ i) :
    v.getLsbD i = false := by
  have hi : (v >>> n).getLsbD (i - n) = false := by rw [h]; exact BitVec.getLsbD_zero
  rwa [BitVec.getLsbD_ushiftRight, Nat.add_sub_cancel' hn] at hi

theorem valueOfBits_getLsbD (w : Nat) (bits : List Bool) (i : Nat) :
    (valueOfBits w bits).getLsbD i = (decide (i < w) && bits[i]?.getD false) := by
  induction bits generalizing i with
  | nil => simp [valueOfBits]
  | cons b bits ih =>
    cases i with
    | zero => simp [valueOfBits]
    | succ i =>
      rw [valueOfBits, BitVec.getLsbD_or, BitVec.getLsbD_shiftLeft, ih]
      by_cases hi : i + 1 < w
      · simp [hi, Nat.lt_of_succ_lt hi]
      · simp [hi]

/-- A value of n bits is rebuilt from them. -/
theorem valueOfBits_bitsOf {w m : Nat} (n : Nat) (v : BitVec m) (hv : v >>> n = 0) :
    valueOfBits w (bitsOf n v) = v.setWidth w := by
  apply BitVec.eq_of_getLsbD_eq
  intro i _
  rw [valueOfBits_getLsbD, bitsOf_getElem?, BitVec.getLsbD_setWidth]
  by_cases hn : i < n
  · rw [if_pos hn, Option.getD_some]
  · rw [if_neg hn, Option.getD_none, getLsbD_of_ushiftRight_eq_zero hv (Nat.not_lt.1 hn)]

/-! ### Fewer than two bytes of bits -/

/-- Fewer than eight bits are no byte. -/
theorem wholeBytes_of_lt {l : List Bool} (h : l.length < 8) : wholeBytes l = [] ∧ restBits l = l := by
  match l, h with
  | [], _ | [_], _ | [_, _], _ | [_, _, _], _ | [_, _, _, _], _ => exact ⟨rfl, rfl⟩
  | [_, _, _, _, _], _ | [_, _, _, _, _, _], _ | [_, _, _, _, _, _, _], _ => exact ⟨rfl, rfl⟩

/-- Eight bits are a byte, and what follows them is cut on. -/
theorem wholeBytes_append_of_byte {l : List Bool} (h : l.length = 8) (m : List Bool) :
    wholeBytes (l ++ m) = valueOfBits 8 l :: wholeBytes m ∧ restBits (l ++ m) = restBits m := by
  match l, h with
  | [_, _, _, _, _, _, _, _], _ => exact ⟨rfl, rfl⟩

/-- Between one byte and two: the first eight bits are the byte, and the others are left. -/
theorem wholeBytes_of_one_byte {l : List Bool} (h8 : 8 ≤ l.length) (h16 : l.length < 16) :
    wholeBytes l = [valueOfBits 8 (l.take 8)] ∧ restBits l = l.drop 8 := by
  obtain ⟨hw, hr⟩ := wholeBytes_append_of_byte (l := l.take 8) (by rw [List.length_take]; omega) (l.drop 8)
  obtain ⟨kw, kr⟩ := wholeBytes_of_lt (l := l.drop 8) (by rw [List.length_drop]; omega)
  rw [List.take_append_drop] at hw hr
  exact ⟨by rw [hw, kw], by rw [hr, kr]⟩

end Sys2Proof.Machine

/-!
## CommandBodies

What a command's turn makes of its body: the state in which the body begins, a body that returns a result, and one
that comes to rest on a missing token (40_command.md R180; 00_scope.md R13).
-/

namespace Sys2Proof.Machine

variable {i : Instr} {c : Command} {m : Nat} {s t u : State}

theorem checkCount_of_le {n : Nat} (h : n ≤ 32) (s : State) : checkCount n s = none := if_pos h

/-- The state in which a command's checks have passed and its tasks are `ts` (40_command.md R180). -/
def opened (ts : List Task) (s : State) : State := { clearWorking s with seq := .run ts }

/-! ### A body of one operation and its result -/

/-- A command whose first task leaves `u` in m core steps, and whose second returns `n`: with the checks and the
completion, m + 3 core steps. -/
theorem exec_of_ret {n : Nat} {k ret : Task} (hs : Started s) (ht : m + 3 ≤ s.turn)
    (hc : (commandOf i).check s = none) (hb : (commandOf i).body s = [k, ret])
    (hm : coreRun m (commandOf i) (opened [k, ret] s) = u) (hu : u.seq = .run [ret])
    (hret : runTask ret { u with seq := .run [] } = .ok (setRet n { u with seq := .run [] })) :
    exec i s = .next (succeeded (counted n) u) := by
  have hstep : coreStep (commandOf i) u = some (setRet n { u with seq := .run [] }) := by rw [coreStep_task hu, hret]
  refine exec_of_returns (m := m + 1) (t := setRet n { u with seq := .run [] }) hs ht hc ?_ rfl
  rw [hb, coreRun_add]
  exact (congrArg _ hm).trans (coreRun_some 0 hstep)

/-! ### A turn that comes to rest -/

/-- Two states with the same core step: a turn of each is the same, or has no step. -/
theorem coreRun_of_coreStep_eq (h : coreStep c s = coreStep c t) (m : Nat) :
    coreRun m c s = coreRun m c t ∨ (coreRun m c s = s ∧ coreRun m c t = t) := by
  cases m with
  | zero => exact .inr ⟨rfl, rfl⟩
  | succ m =>
    cases ht : coreStep c t with
    | none => exact .inr ⟨coreRun_none _ (h.trans ht), coreRun_none _ ht⟩
    | some u => exact .inl (by rw [coreRun_some m ht, coreRun_some m (h.trans ht)])

/-- A command whose body comes to rest in m core steps: a longer turn changes nothing. -/
theorem exec_of_rests (hs : Started s) (ht : m + 1 ≤ s.turn) (hc : (commandOf i).check s = none)
    (hm : coreRun m (commandOf i) (opened ((commandOf i).body s) s) = u) (hu : coreStep (commandOf i) u = none) :
    exec i s = .next { u with turn := 0 } := by
  obtain ⟨j, hj⟩ := Nat.exists_eq_add_of_le ht
  have hturn : s.turn = m + j + 1 := by omega
  have hrun : coreRun s.turn (commandOf i) s = u := by
    rw [hturn, coreRun_some _ (coreStep_begin hs hc), coreRun_add]
    exact (congrArg (coreRun j (commandOf i)) hm).trans (coreRun_none j hu)
  rw [exec_next, wake_started hs, hrun]

/-! ### Holding -/

/-- Whether a task needs a token does not depend on the tasks left, nor on the turn. -/
theorem needsToken_setAccount (k : Task) (s : State) (q : Seq) (n : Nat) :
    needsToken k { s with seq := q, turn := n } = needsToken k s := by
  cases k <;> rfl

/-- A command that has no core step, and has tasks left, holds (00_scope.md R13). -/
theorem holds_of_coreStep_none {k : Task} {ks : List Task} (hs : s.seq = .run (k :: ks)) (h : coreStep c s = none) :
    Holds s := by
  have hk : runTask k { s with seq := .run ks } = .hold := by
    rw [coreStep_task hs] at h
    cases hr : runTask k { s with seq := .run ks } with
    | hold => rfl
    | ok u => rw [hr] at h; cases h
    | err e u => rw [hr] at h; cases h
  obtain ⟨hneeds, hahead⟩ := (runTask_hold_iff k).1 hk
  exact ⟨k, ks, hs, (needsToken_setAccount k s (.run ks) s.turn).symm.trans hneeds, hahead⟩

theorem busy_of_holds (h : Holds s) : busy s = true := by
  obtain ⟨k, ks, hs, -⟩ := h
  exact busy_run hs

theorem Holds.setTurn (h : Holds s) (n : Nat) : Holds { s with turn := n } := by
  obtain ⟨k, ks, hs, hk, ha⟩ := h
  exact ⟨k, ks, hs, (needsToken_setAccount k s s.seq n).trans hk, ha⟩

end Sys2Proof.Machine

/-!
## PackerCommands

PACK_BIT, PACK_BYTE, PACK_BITS and FLUSH: the operand's bits follow the pending bits, and whole bytes go to OUT
(41_bitio.md R200 to R203, R210 to R213).
-/

namespace Sys2Proof.Machine

variable {i : Instr} {s : State}

/-! ### The pending bits -/

theorem pendingBits_length (p : Packer) : (pendingBits p).length = p.fill.toNat := bitsOf_length ..

/-- A packer in a legal state is the one that holds its pending bits (10_state.md R49). -/
theorem packerOf_pendingBits {p : Packer} (h : PackerWf p) : packerOf (pendingBits p) = p := by
  obtain ⟨-, hacc⟩ := h
  rw [packerOf, pendingBits_length, pendingBits, valueOfBits_bitsOf _ _ hacc, BitVec.setWidth_eq, BitVec.ofNat_toNat,
    BitVec.setWidth_eq]

/-- A packer in a legal state holds no whole byte. -/
theorem packed_nil (h : PackerWf s.wr) : packedCount [] s = 0 ∧ packed [] s = s := by
  have hfill : s.wr.fill.toNat ≤ 7 := h.1
  obtain ⟨hw, hr⟩ := wholeBytes_of_lt (l := pendingBits s.wr) (by rw [pendingBits_length]; omega)
  constructor
  · rw [packedCount, List.append_nil, hw, List.length_nil]
  · simp only [packed, List.append_nil, hw, hr, packerOf_pendingBits h, outBytes, List.map_nil]

/-- What writeBits leaves of a packer in a legal state, for any bits, none included (41_bitio.md R202). -/
theorem writeBits_eq_packed (bits : List Bool) (h : PackerWf s.wr) :
    writeBits bits s = { packed bits s with pushed := s.pushed + packedCount bits s } := by
  obtain ⟨hw, -, -⟩ := writeBits_spec bits s h
  rw [hw]
  cases bits with
  | nil =>
    obtain ⟨hcount, hsame⟩ := packed_nil h
    rw [hcount, hsame]
    rfl
  | cons b bs => rfl

/-- The byte that k pending bits and the low 8 - k bits of another make. -/
theorem valueOfBits_take_append {a : Byte} {k : Nat} (hk : k ≤ 8) (ha : a >>> k = 0) (v : Byte) :
    valueOfBits 8 ((bitsOf k a ++ bitsOf 8 v).take 8) = a ||| (v <<< k) := by
  apply BitVec.eq_of_getLsbD_eq
  intro i hi
  rw [valueOfBits_getLsbD, List.getElem?_take_of_lt hi, BitVec.getLsbD_or, BitVec.getLsbD_shiftLeft]
  by_cases h : i < k
  · rw [List.getElem?_append_left (by rwa [bitsOf_length]), bitsOf_getElem?, if_pos h]
    simp [hi, h]
  · rw [List.getElem?_append_right (by rw [bitsOf_length]; omega), bitsOf_length, bitsOf_getElem?, if_pos (by omega),
      getLsbD_of_ushiftRight_eq_zero ha (by omega)]
    simp [hi, h]

/-- The bits that k pending bits and a byte leave beyond eight: the byte's high k. -/
theorem valueOfBits_drop_append (a : Byte) {k : Nat} (hk : k ≤ 8) (v : Byte) :
    valueOfBits 8 ((bitsOf k a ++ bitsOf 8 v).drop 8) = v >>> (8 - k) := by
  apply BitVec.eq_of_getLsbD_eq
  intro i hi
  rw [valueOfBits_getLsbD, List.getElem?_drop, List.getElem?_append_right (by rw [bitsOf_length]; omega), bitsOf_length,
    bitsOf_getElem?, BitVec.getLsbD_ushiftRight, decide_eq_true hi, Bool.true_and, Nat.sub_add_comm hk]
  split
  · rfl
  · exact (BitVec.getLsbD_of_ge _ _ (by omega)).symm

/-- With k bits pending, a byte's low 8 - k bits complete the pushed byte and the other k stay (41_bitio.md R211). -/
theorem packed_byte (v : Byte) (h : PackerWf s.wr) :
    packedCount (bitsOf 8 v) s = 1 ∧
      packed (bitsOf 8 v) s =
        { s with
          out := s.out ++ [.byte (s.wr.acc ||| (v <<< s.wr.fill.toNat))]
          wr := { acc := v >>> (8 - s.wr.fill.toNat), fill := s.wr.fill } } := by
  obtain ⟨hfill, hacc⟩ := h
  have hlen : (pendingBits s.wr ++ bitsOf 8 v).length = s.wr.fill.toNat + 8 := by
    rw [List.length_append, pendingBits_length, bitsOf_length]
  obtain ⟨hw, hr⟩ := wholeBytes_of_one_byte (l := pendingBits s.wr ++ bitsOf 8 v) (by omega) (by omega)
  have hbyte : valueOfBits 8 ((pendingBits s.wr ++ bitsOf 8 v).take 8) = s.wr.acc ||| (v <<< s.wr.fill.toNat) :=
    valueOfBits_take_append (by omega) hacc v
  have hrest : packerOf ((pendingBits s.wr ++ bitsOf 8 v).drop 8) =
      { acc := v >>> (8 - s.wr.fill.toNat), fill := s.wr.fill } := by
    rw [packerOf, List.length_drop, hlen, Nat.add_sub_cancel, BitVec.ofNat_toNat, BitVec.setWidth_eq, pendingBits,
      valueOfBits_drop_append _ (by omega)]
  exact ⟨by rw [packedCount, hw]; rfl, by rw [packed, hw, hr, hbyte, hrest]; rfl⟩

/-! ### A body that writes bits -/

/-- A command whose body writes `bits` (41_bitio.md R210 to R212). -/
theorem exec_of_put {bits : List Bool} (hs : Started s) (hw : PackerWf s.wr) (hc : (commandOf i).check s = none)
    (hb : (commandOf i).body s = [.put bits, .retPushed]) (ht : bits.length + 4 ≤ s.turn) :
    exec i s = .next (succeeded (counted (packedCount bits s)) (packed bits s)) := by
  have hm := coreRun_put (c := commandOf i) (s := opened [.put bits, .retPushed] s) bits [.retPushed] rfl
  rw [writeBits_eq_packed bits (s := opened [.put bits, .retPushed] s) hw] at hm
  have hcount : (opened [.put bits, .retPushed] s).pushed + packedCount bits (opened [.put bits, .retPushed] s) =
      packedCount bits s := Nat.zero_add _
  rw [hcount] at hm
  have h := exec_of_ret hs ht hc hb hm rfl rfl
  exact h

/-! ### The statements -/

/-- Settles O19: PACK_BIT's body writes one bit. -/
theorem packBitWrites : Obligations.PackBitWrites := fun s hs hw ht =>
  exec_of_put (bits := argBit s) hs hw rfl rfl ht

/-- Settles O20: PACK_BYTE's body writes eight bits. -/
theorem packByteWrites : Obligations.PackByteWrites := by
  intro s hs hw ht v k
  have hv : bitsOf 8 v = argByte s := bitsOf_setWidth 8 s.arg le_rfl
  obtain ⟨hcount, hpacked⟩ := packed_byte v hw
  rw [hv] at hcount hpacked
  rw [exec_of_put (bits := argByte s) hs hw rfl rfl ht, hcount, hpacked]

/-- Settles O21: PACK_BITS with N ≤ 32 passes its check, and its body writes N bits. -/
theorem packBitsWrites : Obligations.PackBitsWrites := by
  intro s n hs hw hn ht
  exact exec_of_put (bits := bitsOf n s.arg) hs hw (checkCount_of_le hn s) rfl (by rwa [bitsOf_length])

/-- Settles O22: FLUSH's body is one flush(). -/
theorem flushEmits : Obligations.FlushEmits := by
  intro s hs ht
  have hm : coreRun 1 (commandOf .flush) (opened [.flush, .retPushed] s) = flushPacker (opened [.retPushed] s) :=
    coreRun_some 0 (coreStep_task (c := commandOf .flush) (s := opened [.flush, .retPushed] s) rfl)
  rw [exec_of_ret hs ht rfl rfl hm (flushPacker_seq _) rfl]
  rcases flushPacker_cases (opened [.retPushed] s) with ⟨h0, hf⟩ | ⟨h0, hf⟩
  · rw [hf, if_pos (show s.wr.fill = 0 from h0)]
    rfl
  · rw [hf, if_neg (show s.wr.fill ≠ 0 from h0)]
    rfl

end Sys2Proof.Machine

/-!
## BitReads

readBit and readBits on the sequencer: that they read the unpacker and the tokens alone, and where they come to rest
when a token is missing; and the bits held, read in one go (41_bitio.md R204, R205).
-/

namespace Sys2Proof.Machine

variable {c : Command} {s t : State}

/-! ### The working fields and the tasks left make no difference -/

theorem inRead_opened (ts : List Task) (s : State) :
    inRead (opened ts s) = (inRead s).map (fun p => (p.1, opened ts p.2)) := by
  cases h : ahead s with
  | nil => rw [inRead_none.2 h, inRead_none.2 (show ahead (opened ts s) = [] from h)]; rfl
  | cons k rest => rw [inRead_of_ahead h, inRead_of_ahead (show ahead (opened ts s) = k :: rest from h)]; rfl

theorem inPeek_opened (ts : List Task) (s : State) :
    inPeek (opened ts s) = (inPeek s).map (fun p => (p.1, opened ts p.2)) := by
  cases h : ahead s with
  | nil => rw [inPeek_none.2 h, inPeek_none.2 (show ahead (opened ts s) = [] from h)]; rfl
  | cons k rest => rw [inPeek_of_ahead h, inPeek_of_ahead (show ahead (opened ts s) = k :: rest from h)]; rfl

theorem readHeld_opened (ts : List Task) (s : State) :
    readHeld (opened ts s) = (readHeld s).map (fun p => (p.1, opened ts p.2)) := by
  unfold readHeld
  dsimp only
  rw [inPeek_opened]
  split
  · rw [if_pos ‹_›]
    cases inPeek s with
    | none => rfl
    | some p => obtain ⟨k, u⟩ := p; cases k <;> rfl
  · rw [if_neg ‹_›]
    rfl

theorem readBit_opened (ts : List Task) (s : State) :
    readBit (opened ts s) = (readBit s).map (fun p => (p.1, opened ts p.2)) := by
  unfold readBit
  rw [inRead_opened, readHeld_opened]
  show (if s.rd.fill = 0 then if s.rd.eos then _ else _ else _) = _
  split
  · split
    · rfl
    · cases inRead s with
      | none => rfl
      | some p =>
        obtain ⟨k, u⟩ := p
        cases k with
        | eos => rfl
        | byte b => exact readHeld_opened ts { u with rd := { u.rd with acc := b, fill := 8 } }
  · rfl

theorem readBitsFrom_opened (n k : Nat) (v : Word) (ts : List Task) (s : State) :
    readBitsFrom n k v (opened ts s) = (readBitsFrom n k v s).map (fun p => (p.1, opened ts p.2)) := by
  induction n generalizing k v s with
  | zero => rfl
  | succ n ih =>
    rw [readBitsFrom, readBitsFrom, readBit_opened]
    cases readBit s with
    | none => rfl
    | some p =>
      obtain ⟨b, u⟩ := p
      cases b with
      | none => rfl
      | some b => exact ih ..

/-! ### Where a read comes to rest -/

/-- A step that takes a byte leaves readBit to go on from it, with the whole byte held. -/
theorem readBit_of_again (h : readBitStep s = .again t) : readBit s = readBit t ∧ t.rd.fill = 8 ∧ s.rd.fill = 0 := by
  obtain ⟨-, -, hagain, -⟩ := readBit_of_step s
  exact hagain t h

/-- A step that takes no byte is the whole of readBit. -/
theorem readBit_of_last (h : ∀ u, readBitStep s ≠ .again u) :
    (readBitStep s = .hold ∧ readBit s = none) ∨ (∃ t, readBitStep s = .na t ∧ readBit s = some (none, t)) ∨
      ∃ b t, readBitStep s = .bit b t ∧ readBit s = some (some b, t) := by
  obtain ⟨hbit, hna, -, hhold⟩ := readBit_of_step s
  cases hr : readBitStep s with
  | hold => exact .inl ⟨rfl, hhold hr⟩
  | again u => exact absurd hr (h u)
  | na t => exact .inr (.inl ⟨t, rfl, hna t hr⟩)
  | bit b t => exact .inr (.inr ⟨b, t, rfl, hbit b t hr⟩)

/-- readBit is one step of it, or two where the first takes a byte (41_bitio.md R204). -/
theorem readBit_steps (s : State) :
    ∃ u, (u = s ∨ readBitStep s = .again u) ∧
      ((readBitStep u = .hold ∧ readBit s = none) ∨ (∃ t, readBitStep u = .na t ∧ readBit s = some (none, t)) ∨
        ∃ b t, readBitStep u = .bit b t ∧ readBit s = some (some b, t)) := by
  by_cases hagain : ∃ u, readBitStep s = .again u
  · obtain ⟨u, hu⟩ := hagain
    obtain ⟨hread, hfill, -⟩ := readBit_of_again hu
    refine ⟨u, .inr hu, ?_⟩
    rw [hread]
    refine readBit_of_last fun w hw => ?_
    obtain ⟨-, -, hempty⟩ := readBit_of_again hw
    rw [hempty] at hfill
    exact absurd hfill (by decide)
  · exact ⟨s, .inl rfl, readBit_of_last fun w hw => hagain ⟨w, hw⟩⟩

/-- readBit changes the unpacker and the tokens alone. -/
theorem readBit_frame {b : Option Bool} (h : readBit s = some (b, t)) :
    t = { s with rd := t.rd, la := t.la, inp := t.inp } := by
  obtain ⟨u, hu, hlast⟩ := readBit_steps s
  have hframe : u = { s with rd := u.rd, la := u.la, inp := u.inp } := by
    rcases hu with rfl | hu
    · rfl
    · obtain ⟨hagain, -⟩ := readBitStep_frame s
      exact hagain u hu
  obtain ⟨-, hna, hbit, -⟩ := readBitStep_frame u
  rcases hlast with ⟨-, hr⟩ | ⟨w, hw, hr⟩ | ⟨x, w, hw, hr⟩ <;> rw [hr] at h <;> cases h
  · exact (hna t hw).trans (by rw [hframe])
  · exact (hbit x t hw).trans (by rw [hframe])

/-- A readBit that has no answer takes a byte at most, and then waits for a token. -/
theorem coreRun_getBit_hold {n k : Nat} {v : Word} {ts : List Task} (h : s.seq = .run (.get n k v :: ts)) (hk : k < n)
    (hr : readBit { s with seq := .run ts } = none) :
    ∃ m, m ≤ 1 ∧ coreStep c (coreRun m c s) = none ∧ (coreRun m c s).seq = .run (.get n k v :: ts) ∧
      (coreRun m c s).result = s.result := by
  have hs := coreStep_get (c := c) n k v ts h hk
  obtain ⟨u, hu, hlast⟩ := readBit_steps { s with seq := .run ts }
  have hhold : readBitStep u = .hold := by
    rcases hlast with ⟨hold, -⟩ | ⟨t, -, ht⟩ | ⟨b, t, -, ht⟩
    · exact hold
    · rw [ht] at hr; cases hr
    · rw [ht] at hr; cases hr
  rcases hu with rfl | hu
  · rw [hhold] at hs
    exact ⟨0, Nat.zero_le 1, hs, h, rfl⟩
  · obtain ⟨hagain, -⟩ := readBitStep_frame { s with seq := .run ts }
    have hframe := hagain u hu
    have hback : ({ u with seq := .run ts } : State) = u := by rw [hframe]
    have hlast := coreStep_get (c := c) (s := { u with seq := .run (.get n k v :: ts) }) n k v ts rfl hk
    have hwait : readBitStep { u with seq := .run ts } = .hold := by rw [hback, hhold]
    rw [hwait] at hlast
    rw [hu] at hs
    have hrun : coreRun 1 c s = { u with seq := .run (.get n k v :: ts) } := coreRun_some 0 hs
    exact ⟨1, le_rfl, by rw [hrun, hlast], by rw [hrun], by rw [hrun, hframe]⟩

/-- A readBits that has no answer comes to wait for a token, with RESULT as it was. -/
theorem coreRun_get_hold (d k : Nat) (v : Word) (ts : List Task) (h : s.seq = .run (.get (k + d) k v :: ts))
    (hv : v.toNat < 2 ^ k) (hr : readBitsFrom d k v { s with seq := .run ts } = none) :
    ∃ m, m ≤ 2 * d ∧ coreStep c (coreRun m c s) = none ∧ Holds (coreRun m c s) ∧
      (coreRun m c s).result = s.result := by
  induction d generalizing k v s with
  | zero => cases hr
  | succ d ih =>
    rw [readBitsFrom] at hr
    cases hb : readBit { s with seq := .run ts } with
    | none =>
      obtain ⟨m, hm, hstep, hseq, hres⟩ := coreRun_getBit_hold (c := c) h (by omega) hb
      exact ⟨m, by omega, hstep, holds_of_coreStep_none hseq hstep, hres⟩
    | some p =>
      obtain ⟨o, u⟩ := p
      cases o with
      | none => rw [hb] at hr; cases hr
      | some b =>
        obtain ⟨hu, m, -, hm, hrun⟩ := coreRun_getBit (c := c) (k + (d + 1)) k v ts h (by omega) hb
        have hback : ({ u with seq := .run ts } : State) = u := by rw [← hu]
        have hset := setBitAt_fresh v k b hv
        have hlen : k + (d + 1) = k + 1 + d := by omega
        rw [hb] at hr
        rw [hlen] at hrun
        obtain ⟨m', hm', hstep, hholds, hres⟩ :=
          ih (s := { u with seq := .run (.get (k + 1 + d) (k + 1) (setBitAt v k b) :: ts) }) (k + 1) (setBitAt v k b)
            rfl (by rw [hset]; exact setBit_lt v k b hv) (by rw [hset]; exact (congrArg _ hback).trans hr)
        have hall : coreRun (m + m') c s =
            coreRun m' c { u with seq := .run (.get (k + 1 + d) (k + 1) (setBitAt v k b) :: ts) } := by
          rw [coreRun_add, hrun]
        have hsame : u.result = s.result := by rw [readBit_frame hb]
        exact ⟨m + m', by omega, by rw [hall, hstep], by rw [hall]; exact hholds, by rw [hall, hres, ← hsame]⟩

/-! ### The bits held -/

/-- Where the bits that can be read of the last byte end: at the limit, or with the byte (47_decoder.md R341). -/
def heldEnd (s : State) : Nat := if s.unpk.limitEn then min s.unpk.limitMb.toNat 8 else 8

theorem heldEnd_le (s : State) : heldEnd s ≤ 8 := by rw [heldEnd]; split <;> omega

theorem heldBits_eq_drop (s : State) :
    heldBits true s = (bitsOf (heldEnd s) s.rd.acc).drop (8 - s.rd.fill.toNat) := by
  rw [heldBits, heldEnd]
  cases s.unpk.limitEn
  · rfl
  · simp only [if_true, true_and, bitsOf_take]

theorem noneHeld_iff (hf : s.rd.fill.toNat ≤ 8) : noneHeld s = true ↔ heldEnd s ≤ 8 - s.rd.fill.toNat := by
  have h0 : s.rd.fill = 0 ↔ s.rd.fill.toNat = 0 := by bv_omega
  rw [noneHeld, heldEnd, Bool.or_eq_true, decide_eq_true_eq, h0]
  cases s.unpk.limitEn <;> simp <;> omega

theorem fill_ne_zero_of_noneHeld (h : noneHeld s = false) : s.rd.fill ≠ 0 := by
  rw [noneHeld, Bool.or_eq_false_iff] at h
  exact of_decide_eq_false h.1

theorem heldBits_of_noneHeld (hf : s.rd.fill.toNat ≤ 8) (h : noneHeld s = true) : heldBits true s = [] := by
  rw [heldBits_eq_drop, List.drop_eq_nil_iff, bitsOf_length]
  exact (noneHeld_iff hf).1 h

/-- The next bit held is the first of them. -/
theorem heldBits_eq_cons (hf : s.rd.fill.toNat ≤ 8) (h : noneHeld s = false) :
    heldBits true s = nextHeld s :: heldBits true (dropHeld s) := by
  have hend : 8 - s.rd.fill.toNat < heldEnd s := by
    rw [← Nat.not_le, ← noneHeld_iff hf, h]
    nofun
  have hdrop : 8 - (dropHeld s).rd.fill.toNat = 8 - s.rd.fill.toNat + 1 := by
    show 8 - (s.rd.fill - 1).toNat = _
    have hf0 := fill_ne_zero_of_noneHeld h
    bv_omega
  rw [heldBits_eq_drop, heldBits_eq_drop, hdrop, List.drop_eq_getElem_cons (by rwa [bitsOf_length])]
  simp only [bitsOf, List.getElem_map, List.getElem_range]
  rfl

/-- A bit read to the value read so far, before the bits that follow it. -/
theorem setBitAt_or_shiftLeft (v x : Word) (k : Nat) (b : Bool) (hv : v.toNat < 2 ^ k) :
    setBitAt v k b ||| (x <<< (k + 1)) = v ||| (((x <<< 1) ||| (BitVec.ofBool b).setWidth 32) <<< k) := by
  have hbit : setBitAt v k b = v ||| ((BitVec.ofBool b).setWidth 32 <<< k) := by
    rw [setBitAt_fresh v k b hv]
    cases b <;> simp [BitVec.twoPow_eq]
  rw [hbit, BitVec.shiftLeft_or_distrib, Nat.add_comm k 1, BitVec.shiftLeft_add, BitVec.or_assoc,
    BitVec.or_comm (BitVec.setWidth 32 _ <<< k)]

/-- What a read of the bits held obtains: the first n of them, or all with NA. -/
theorem takeHeld_eq (n k : Nat) (v : Word) (hf : s.rd.fill.toNat ≤ 8) (hv : v.toNat < 2 ^ k) :
    takeHeld n k v s =
      (if n ≤ (heldBits true s).length then .ok (v ||| (valueOfBits 32 ((heldBits true s).take n) <<< k))
        else .na (v ||| (valueOfBits 32 (heldBits true s) <<< k)) (k + (heldBits true s).length),
        { s with rd := { s.rd with fill := s.rd.fill - BitVec.ofNat 4 (min n (heldBits true s).length) } }) := by
  induction n generalizing k v s with
  | zero => simp [takeHeld, valueOfBits]
  | succ n ih =>
    cases hn : noneHeld s
    · have hb := setBitAt_fresh v k (nextHeld s) hv
      have hfill : (dropHeld s).rd.fill.toNat ≤ 8 := dropHeld_fill (fill_ne_zero_of_noneHeld hn) hf
      have hcount (j : Nat) : s.rd.fill - 1 - BitVec.ofNat 4 j = s.rd.fill - BitVec.ofNat 4 (j + 1) := by
        rw [BitVec.ofNat_add, sub_sub, add_comm]
        rfl
      rw [takeHeld_some n k v hn, heldBits_eq_cons hf hn, ih (k + 1) _ hfill (by rw [hb]; exact setBit_lt v k _ hv)]
      simp only [List.length_cons, List.take_succ_cons, valueOfBits, Nat.add_le_add_iff_right, Nat.add_min_add_right,
        setBitAt_or_shiftLeft _ _ _ _ hv, ← hcount, Nat.add_assoc, Nat.add_comm 1]
      rfl
    · rw [takeHeld_none n k v hn, heldBits_of_noneHeld hf hn]
      simp [valueOfBits]

/-- A read that begins with the bits held. -/
theorem takeHeld_start (n : Nat) (hf : s.rd.fill.toNat ≤ 8) :
    takeHeld n 0 0 s =
      (if n ≤ (heldBits true s).length then .ok (valueOfBits 32 ((heldBits true s).take n))
        else .na (valueOfBits 32 (heldBits true s)) (heldBits true s).length,
        { s with rd := { s.rd with fill := s.rd.fill - BitVec.ofNat 4 (min n (heldBits true s).length) } }) := by
  rw [takeHeld_eq n 0 0 hf (by simp)]
  simp only [BitVec.shiftLeft_zero, BitVec.ofNat_eq_ofNat, BitVec.zero_or, Nat.zero_add]

/-- While the bits held suffice and no limit is set, readBits reads them (41_bitio.md R204, R205). -/
theorem readBitsFrom_of_held (n k : Nat) (v : Word) (hl : s.unpk.limitEn = false) (hn : n ≤ s.rd.fill.toNat)
    (hv : v.toNat < 2 ^ k) : readBitsFrom n k v s = some (takeHeld n k v s) := by
  induction n generalizing k v s with
  | zero => rfl
  | succ n ih =>
    have hf : s.rd.fill ≠ 0 := fun h => by rw [h] at hn; exact absurd hn (by simp)
    have hheld : noneHeld s = false := by rw [noneHeld, decide_eq_false hf, hl]; rfl
    have hb : readBit s = some (some (nextHeld s), dropHeld s) := by
      rw [readBit, if_neg hf, readHeld, if_neg (by simp [hl])]
      rfl
    rw [takeHeld_some n k v hheld, setBitAt_fresh v k _ hv, readBitsFrom, hb]
    refine ih (s := dropHeld s) (k + 1) _ hl ?_ (setBit_lt v k _ hv)
    show n ≤ (s.rd.fill - 1).toNat
    bv_omega

end Sys2Proof.Machine

/-!
## UnpackerCommands

UNPACK_BIT and UNPACK_BYTE: readBits, and its answer as the result; and the frames of the commands that read
(41_bitio.md R214, R215; 47_decoder.md R343).
-/

namespace Sys2Proof.Machine

variable {i : Instr} {m n : Nat} {ask ret : Task} {f : ReadResult → Nat} {r : ReadResult} {s t : State}

/-! ### Commands that read -/

/-- A command that asks for n bits and returns `f` of the answer. While RD_EOS = 0 it asks as readBits(n) does. -/
structure Reads (i : Instr) (n : Nat) (ask ret : Task) (f : ReadResult → Nat) : Prop where
  check : ∀ s, (commandOf i).check s = none
  body : ∀ s, (commandOf i).body s = [ask, ret]
  asks : ∀ s : State, s.rd.eos = false → runTask ask s = runTask (.get n 0 0) s
  returns : ∀ s : State, runTask ret s = .ok (setRet (f s.got) s)

theorem reads_unpackBit : Reads .unpackBit 1 .askBit .retBit bitResult :=
  ⟨fun _ => rfl, fun _ => rfl, fun _ he => taskAskBit_open he, fun _ => rfl⟩

theorem reads_unpackByte : Reads .unpackByte 8 .askByte .retByte byteResult :=
  ⟨fun _ => rfl, fun _ => rfl, fun _ he => taskAskByte_open he, fun _ => rfl⟩

section
variable (hi : Reads i n ask ret f)
include hi

theorem Reads.coreStep_ask (he : s.rd.eos = false) :
    coreStep (commandOf i) (opened [ask, ret] s) = coreStep (commandOf i) (opened [.get n 0 0, ret] s) := by
  rw [coreStep_task (s := opened [ask, ret] s) rfl, coreStep_task (s := opened [.get n 0 0, ret] s) rfl]
  have h : runTask ask { opened [ask, ret] s with seq := .run [ret] } =
      runTask (.get n 0 0) { opened [.get n 0 0, ret] s with seq := .run [ret] } := hi.asks (opened [ret] s) he
  rw [h]

/-- Once the answer is there, the command returns it. -/
theorem Reads.exec_of_answer (hs : Started s) (ht : m + 3 ≤ s.turn)
    (hm : coreRun m (commandOf i) (opened [ask, ret] s) = { opened [ret] t with got := r }) :
    exec i s = .next (succeeded (counted (f r)) t) := by
  have h := exec_of_ret hs ht (hi.check s) (hi.body s) hm rfl (hi.returns _)
  exact h

/-- Where readBits(n) has an answer, the command returns it. -/
theorem Reads.exec_of_readBits (hs : Started s) (ht : 2 * n + 4 ≤ s.turn) (he : s.rd.eos = false)
    (hr : readBits n s = some (r, t)) : exec i s = .next (succeeded (counted (f r)) t) := by
  have hopened : readBitsFrom n 0 0 (opened [ret] s) = some (r, opened [ret] t) := by
    rw [readBitsFrom_opened, ← readBits, hr]; rfl
  obtain ⟨-, m, hm, hrun⟩ := coreRun_get (c := commandOf i) (s := opened [.get n 0 0, ret] s) n 0 0 [ret]
    (by rw [Nat.zero_add]; rfl) (by simp) hopened
  rcases coreRun_of_coreStep_eq (hi.coreStep_ask he) m with h | ⟨-, h⟩
  · exact hi.exec_of_answer hs (by omega) (h.trans hrun)
  · have hseq := congrArg State.seq (h.symm.trans hrun)
    cases hseq

/-- Where readBits(n) has none, the command holds. -/
theorem Reads.exec_of_hold (hs : Started s) (ht : 2 * n + 4 ≤ s.turn) (he : s.rd.eos = false)
    (hr : readBits n s = none) :
    ∃ t, exec i s = .next t ∧ busy t = true ∧ Holds t ∧ t.result = s.result := by
  have hopened : readBitsFrom n 0 0 (opened [ret] s) = none := by rw [readBitsFrom_opened, ← readBits, hr]; rfl
  obtain ⟨m, hm, hstep, hholds, hres⟩ := coreRun_get_hold (c := commandOf i) (s := opened [.get n 0 0, ret] s) n 0 0
    [ret] (by rw [Nat.zero_add]; rfl) (by simp) hopened
  obtain ⟨u, hu, hstep, hholds, hres⟩ : ∃ u, coreRun m (commandOf i) (opened [ask, ret] s) = u ∧
      coreStep (commandOf i) u = none ∧ Holds u ∧ u.result = s.result := by
    rcases coreRun_of_coreStep_eq (hi.coreStep_ask he) m with h | ⟨h, h'⟩
    · exact ⟨_, h, hstep, hholds, hres⟩
    · rw [h', ← hi.coreStep_ask he] at hstep
      exact ⟨_, h, hstep, holds_of_coreStep_none rfl hstep, rfl⟩
  rw [← hi.body s] at hu
  have hholds := hholds.setTurn 0
  exact ⟨_, exec_of_rests hs (by omega) (hi.check s) hu hstep, busy_of_holds hholds, hholds, hres⟩

end

/-- UNPACK_BYTE when RD_EOS = 1 returns what the bits held come to. -/
theorem exec_unpackByte_of_takeHeld (hs : Started s) (ht : 4 ≤ s.turn) (he : s.rd.eos = true)
    (hr : takeHeld 8 0 0 (opened [.retByte] s) = (r, opened [.retByte] t)) :
    exec .unpackByte s = .next (succeeded (counted (byteResult r)) t) := by
  have hstep : coreStep (commandOf .unpackByte) (opened [.askByte, .retByte] s) =
      some { (takeHeld 8 0 0 (opened [.retByte] s)).2 with got := (takeHeld 8 0 0 (opened [.retByte] s)).1 } :=
    coreStep_askByte_eos (s := opened [.askByte, .retByte] s) [.retByte] rfl he
  rw [hr] at hstep
  exact reads_unpackByte.exec_of_answer hs ht (coreRun_some 0 hstep)

/-- UNPACK_BYTE returns what readBits(8) does, where readBits is its own reading (41_bitio.md R215). -/
theorem exec_unpackByte_of_readBits (hs : Started s) (ht : 20 ≤ s.turn)
    (h : s.rd.eos = false ∨ s.unpk.limitEn = false) (hr : readBits 8 s = some (r, t)) :
    exec .unpackByte s = .next (succeeded (counted (byteResult r)) t) := by
  cases he : s.rd.eos
  · exact reads_unpackByte.exec_of_readBits hs ht he hr
  · have hl := h.resolve_left (by rw [he]; nofun)
    have hheld := readBits_held (s := opened [.retByte] s) 8 0 0 he hl (by simp)
    rw [readBitsFrom_opened, ← readBits, hr] at hheld
    exact exec_unpackByte_of_takeHeld hs (by omega) he (Option.some.inj hheld).symm

/-- UNPACK_BYTE's NA as RESULT holds it (41_bitio.md R215). -/
theorem counted_byteResult_na (v : Word) (k : Nat) :
    counted (byteResult (.na v k)) = some (0x80000000 ||| (BitVec.ofNat 32 k <<< 8) ||| v) := by
  have hshift : BitVec.ofNat 32 (k <<< 8) = BitVec.ofNat 32 k <<< 8 := by
    apply BitVec.eq_of_toNat_eq
    simp only [BitVec.toNat_ofNat, BitVec.toNat_shiftLeft, Nat.shiftLeft_eq]
    omega
  rw [counted, byteResult, BitVec.ofNat_or, BitVec.ofNat_or, hshift, BitVec.ofNat_toNat, BitVec.setWidth_eq]
  rfl

/-- The state after readBit has taken a byte and delivered none of its bits (41_bitio.md R204). -/
def byteTaken (b : Byte) (rest : List InTok) (s : State) : State :=
  { s with rd := { acc := b, fill := 8, eos := false }, la := none, inp := rest }

theorem readBitStep_of_byte {b : Byte} {rest : List InTok} (hf : s.rd.fill = 0) (he : s.rd.eos = false)
    (ha : ahead s = .byte b :: rest) : readBitStep s = .again (byteTaken b rest s) := by
  rw [readBitStep, if_pos hf, if_neg (by simp [he]), inRead_of_ahead ha, byteTaken, ← he]

theorem heldBits_byteTaken {b : Byte} {rest : List InTok} (hl : s.unpk.limitEn = false) :
    heldBits true (byteTaken b rest s) = bitsOf 8 b := by
  have hend : heldEnd (byteTaken b rest s) = 8 := if_neg (show ¬ s.unpk.limitEn = true by simp [hl])
  rw [heldBits_eq_drop, hend]
  rfl

/-- With nothing held and no limit, readBits(8) takes a byte and returns it whole (41_bitio.md R205). -/
theorem readBits_byte {b : Byte} {rest : List InTok} (hf : s.rd.fill = 0) (he : s.rd.eos = false)
    (hl : s.unpk.limitEn = false) (ha : ahead s = .byte b :: rest) :
    readBits 8 s =
      some (.ok (b.setWidth 32), { s with rd := { acc := b, fill := 0, eos := false }, la := none, inp := rest }) := by
  obtain ⟨hread, -, -⟩ := readBit_of_again (readBitStep_of_byte hf he ha)
  have htaken : readBits 8 s = readBits 8 (byteTaken b rest s) := by
    rw [readBits, readBits, readBitsFrom, readBitsFrom, hread]
  have hempty : (byteTaken b rest s).rd.fill - BitVec.ofNat 4 8 = 0 := BitVec.sub_self _
  rw [htaken, readBits, readBitsFrom_of_held (s := byteTaken b rest s) 8 0 0 hl le_rfl (by simp),
    takeHeld_start 8 le_rfl, heldBits_byteTaken hl, bitsOf_length, if_pos le_rfl, bitsOf_take, Nat.min_self,
    valueOfBits_bitsOf 8 b (BitVec.ushiftRight_eq_zero le_rfl), hempty]
  rfl

/-! ### The statements -/

/-- Settles O24: UNPACK_BIT reads one bit; when RD_EOS = 1 its answer is NA in one core step. -/
theorem unpackBitReads : Obligations.UnpackBitReads := by
  refine ⟨fun s t r hs ht he hr => ?_, fun s hs ht he => ?_, fun s hs ht he hr => ?_, fun s he ha h => ?_⟩
  · cases r with
    | none => exact reads_unpackBit.exec_of_readBits (r := .na 0 0) hs ht he (by rw [readBits, readBitsFrom, hr])
    | some b =>
      have h := reads_unpackBit.exec_of_readBits (r := .ok (if b then 1 else 0)) hs ht he
        (by rw [readBits, readBitsFrom, hr]; rfl)
      cases b <;> exact h
  · exact reads_unpackBit.exec_of_answer (m := 1) hs (by omega)
      (coreRun_some 0 (coreStep_askBit_eos (s := opened [.askBit, .retBit] s) [.retBit] rfl he))
  · exact reads_unpackBit.exec_of_hold hs ht he (by rw [readBits, readBitsFrom, hr])
  · obtain ⟨-, -, -, hhold⟩ := readBit_of_step s
    refine hhold (readBitStep_hold_iff.2 ⟨?_, ha⟩)
    rw [bitNeedsToken]
    split
    · rw [he]; rfl
    · obtain ⟨hl, hle⟩ := h.resolve_left ‹_›
      rw [hl, decide_eq_true hle]; rfl

/-- Settles O25: UNPACK_BYTE reads eight bits; when RD_EOS = 1, those held, of which there are at most seven. -/
theorem unpackByteReads : Obligations.UnpackByteReads := by
  refine ⟨fun s t v hs ht h hr => ?_, fun s t v k hs ht h hr => ?_, fun s hs ht he hf => ?_,
    fun s hs ht he hr => reads_unpackByte.exec_of_hold hs ht he hr,
    fun s b rest hf he hl ha => readBits_byte hf he hl ha⟩
  · rw [exec_unpackByte_of_readBits hs ht h hr, byteResult, counted, BitVec.ofNat_toNat, BitVec.setWidth_eq]
  · rw [exec_unpackByte_of_readBits hs ht h hr, counted_byteResult_na]
  · have hlen : (heldBits true s).length ≤ 7 := by
      rw [heldBits_eq_drop, List.length_drop, bitsOf_length]
      have hend := heldEnd_le s
      omega
    have htake := takeHeld_start (s := opened [.retByte] s) 8 (Nat.le_succ_of_le hf)
    have hheld : heldBits true (opened [.retByte] s) = heldBits true s := rfl
    rw [hheld, if_neg (by omega), Nat.min_eq_right (by omega)] at htake
    intro held
    rw [← counted_byteResult_na]
    exact exec_unpackByte_of_takeHeld hs (by omega) he htake

/-- Settles O58: each command's turn is framed by the parts that its tasks write. -/
theorem unpackerCommandsFrame : Obligations.UnpackerCommandsFrame := by
  refine ⟨fun i s t hi hr h => ?_, fun s t hr h => exec_framed hr h⟩
  obtain rfl | rfl := hi <;> exact exec_framed hr h

end Sys2Proof.Machine

/-!
## FrequencyWindow

The host's write of a FREQ window word while idle (42_frequency.md R243; 10_state.md R54).
-/

namespace Sys2Proof.Machine

variable {s : State}

/-- The address of symbol a's FREQ word (10_state.md R54). -/
theorem locate_freqWord {a : Nat} (ha : a < 256) :
    (BitVec.ofNat 16 (0x0400 + 4 * a)).toNat % 4 = 0 ∧ locate (BitVec.ofNat 16 (0x0400 + 4 * a)) = .freq a := by
  have hn : (BitVec.ofNat 16 (0x0400 + 4 * a)).toNat = 0x0400 + 4 * a :=
    BitVec.toNat_ofNat .. ▸ Nat.mod_eq_of_lt (by omega)
  refine ⟨by omega, ?_⟩
  rw [locate_freq (by omega) (by omega), hn]
  congr 1
  omega

/-- A FREQ word reads its counter while idle. -/
theorem busRead_freq {a : Nat} (hb : busy s = false) (ha : a < 256) :
    busRead .word (BitVec.ofNat 16 (0x0400 + 4 * a)) s = (.readOk (freqGet s.freq a), s) := by
  obtain ⟨h4, hl⟩ := locate_freqWord ha
  rw [busRead_idle h4 hb, hl]
  rfl

/-- A write of a FREQ word while idle sets its counter and FREQ_VALID. -/
theorem busWrite_freq {a : Nat} (hb : busy s = false) (ha : a < 256) (v : Word) :
    busWrite .word (BitVec.ofNat 16 (0x0400 + 4 * a)) v s = (.writeOk, writeFreq a v s) := by
  obtain ⟨h4, hl⟩ := locate_freqWord ha
  rw [busWrite_idle (legalAccess_iff.2 ⟨rfl, h4⟩) hb, hl]
  rfl

/-! ### The statements -/

/-- Settles O16: the word's location is its counter, and a table reads back what was written. -/
theorem freqWindowWrite : Obligations.FreqWindowWrite := by
  intro s a v hb ha
  have hget (b : Nat) : freqGet (freqSet s.freq a v) b = if b = a then v else freqGet s.freq b := freqGet_freqSet ..
  have hself : freqGet (freqSet s.freq a v) a = v := (hget a).trans (if_pos rfl)
  refine ⟨freqSet s.freq a v, busWrite_freq hb ha v, hself, fun b hne => (hget b).trans (if_neg hne), ?_⟩
  rw [busRead_freq (s := { s with freq := freqSet s.freq a v }) hb ha, hself]

end Sys2Proof.Machine

/-!
## LoadRuns

LOAD as runs of the sequencer: what each round of its loops does with the token ahead, and what the whole task makes of
a stream that fits BUF and of one that does not (42_frequency.md R240).
-/

namespace Sys2Proof.Machine

variable {c : Command} {s : State} {b : Byte} {ks : List Task} {rest : List InTok}

/-! ### BUF after a stream of bytes -/

/-- A byte memory after bytes are stored in order from index k on. -/
def storedFrom : Nat → List Byte → Memory → Memory
  | _, [], m => m
  | k, b :: bs, m => storedFrom (k + 1) bs (storeWrite none m k b)

theorem storeGet_storedFrom_below {k j : Nat} (x : List Byte) (m : Memory) (hj : j < k) :
    storeGet (storedFrom k x m) j = storeGet m j := by
  induction x generalizing k m with
  | nil => rfl
  | cons b x ih => rw [storedFrom, ih _ (by omega), storeGet_storeWrite_none, if_neg (by omega)]

/-- Each byte stands at its index. -/
theorem storeGet_storedFrom {j : Nat} (k : Nat) (x : List Byte) (m : Memory) (hj : j < x.length) :
    storeGet (storedFrom k x m) (k + j) = x[j]? := by
  induction x generalizing k m j with
  | nil => cases hj
  | cons b x ih =>
    rw [storedFrom]
    cases j with
    | zero => rw [storeGet_storedFrom_below _ _ (by omega), storeGet_storeWrite_none, if_pos (by omega)]; rfl
    | succ j =>
      rw [← Nat.add_assoc, Nat.add_right_comm]
      exact ih (k + 1) _ (Nat.lt_of_succ_lt_succ hj)

theorem storeGet_storedFrom_above {k j : Nat} (x : List Byte) (m : Memory) (hj : k + x.length ≤ j) :
    storeGet (storedFrom k x m) j = storeGet m j := by
  induction x generalizing k m with
  | nil => rfl
  | cons b x ih =>
    rw [List.length_cons] at hj
    rw [storedFrom, ih _ (by omega), storeGet_storeWrite_none, if_neg (by omega)]

/-! ### One round -/

/-- A task that needs a token has no core step when none is ahead (00_scope.md R13). -/
theorem coreStep_hold {k : Task} (hs : s.seq = .run (k :: ks))
    (hk : needsToken k s = true) (ha : ahead s = []) : coreStep c s = none := by
  rw [coreStep_task hs, (runTask_hold_iff k).2 ⟨(needsToken_setAccount k s (.run ks) s.turn).trans hk, ha⟩]

/-- LOAD's first line is done, its loop is next. -/
def loadBegun (ks : List Task) (s : State) : State :=
  { s with inLen := 0, seq := .run (.loadLoop :: ks), status := { s.status with phase := .load, bufValid := false } }

theorem coreStep_load (h : s.seq = .run (.load :: ks)) : coreStep c s = some (loadBegun ks s) := by
  rw [coreStep_task h]
  rfl

theorem coreStep_loadLoop_store (h : s.seq = .run (.loadLoop :: ks)) (ha : ahead s = .byte b :: rest)
    (hne : s.inLen ≠ s.nMax) :
    coreStep c s =
      some { s with
        buf := storeWrite none s.buf s.inLen.toNat b, inLen := s.inLen + 1, la := none, inp := rest } := by
  rw [coreStep_task h, runTask, taskLoadLoop, inRead_of_ahead (s := { s with seq := .run ks }) ha]
  dsimp only
  rw [if_neg hne]
  cases s
  cases h
  rfl

theorem coreStep_loadLoop_full (h : s.seq = .run (.loadLoop :: ks)) (ha : ahead s = .byte b :: rest)
    (he : s.inLen = s.nMax) :
    coreStep c s = some { s with seq := .run (.loadDiscard :: ks), la := none, inp := rest } := by
  rw [coreStep_task h, runTask, taskLoadLoop, inRead_of_ahead (s := { s with seq := .run ks }) ha]
  dsimp only
  rw [if_pos he]
  rfl

theorem coreStep_loadLoop_end (h : s.seq = .run (.loadLoop :: ks)) (ha : ahead s = .eos :: rest) :
    coreStep c s =
      some { s with
        seq := .run ks, la := none, inp := rest, ret := counted s.inLen.toNat
        status := { s.status with bufValid := true } } := by
  rw [coreStep_task h, runTask, taskLoadLoop, inRead_of_ahead (s := { s with seq := .run ks }) ha]
  rfl

theorem coreStep_loadDiscard_byte (h : s.seq = .run (.loadDiscard :: ks)) (ha : ahead s = .byte b :: rest) :
    coreStep c s = some { s with la := none, inp := rest } := by
  rw [coreStep_task h, runTask, taskLoadDiscard, inRead_of_ahead (s := { s with seq := .run ks }) ha]
  cases s
  cases h
  rfl

theorem coreStep_loadDiscard_end (h : s.seq = .run (.loadDiscard :: ks)) (ha : ahead s = .eos :: rest) :
    coreStep c s = some (raiseError c .inputOverflow { s with la := none, inp := rest }) := by
  rw [coreStep_task h, runTask, taskLoadDiscard, inRead_of_ahead (s := { s with seq := .run ks }) ha]
  rfl

/-! ### The loops -/

/-- LOAD's loop on bytes that fit BUF: they are stored and taken, and nothing behind them is. -/
theorem coreRun_loadLoop_store (x : List Byte) (h : s.seq = .run (.loadLoop :: ks)) (ha : ahead s = inBytes x ++ rest)
    (hn : s.inLen.toNat + x.length ≤ s.nMax.toNat) :
    ∃ u, coreRun x.length c s = u ∧ ahead u = rest ∧
      u = { s with
        buf := storedFrom s.inLen.toNat x s.buf, inLen := BitVec.ofNat 32 (s.inLen.toNat + x.length), la := u.la
        inp := u.inp } := by
  induction x generalizing s with
  | nil => exact ⟨s, rfl, ha, by simp [storedFrom]⟩
  | cons b x ih =>
    rw [List.length_cons] at hn ⊢
    have hlt : s.inLen.toNat < s.nMax.toNat := by omega
    have hsucc : (s.inLen + 1).toNat = s.inLen.toNat + 1 := by bv_omega
    have hstep := coreStep_loadLoop_store (c := c) h ha fun he => Nat.ne_of_lt hlt (congrArg _ he)
    obtain ⟨u, hrun, hahead, hu⟩ := ih
      (s := { s with buf := storeWrite none s.buf s.inLen.toNat b, inLen := s.inLen + 1, la := none
                     inp := inBytes x ++ rest })
      h rfl (by simp only [hsucc]; omega)
    refine ⟨u, (coreRun_some _ hstep).trans hrun, hahead, hu.trans ?_⟩
    rw [hsucc, Nat.succ_add_eq_add_succ]
    rfl

/-- LOAD's discarding of what is left of an overlong stream, through its End. -/
theorem coreRun_loadDiscard (x : List Byte) (h : s.seq = .run (.loadDiscard :: ks))
    (ha : ahead s = inBytes x ++ .eos :: rest) :
    coreRun (x.length + 1) c s = raiseError c .inputOverflow { s with la := none, inp := rest } := by
  induction x generalizing s with
  | nil => exact coreRun_some 0 (coreStep_loadDiscard_end h ha)
  | cons b x ih =>
    have hstep := coreStep_loadDiscard_byte (c := c) h ha
    exact (coreRun_some _ hstep).trans (ih (s := { s with la := none, inp := inBytes x ++ .eos :: rest }) h rfl)

/-! ### The whole task -/

/-- LOAD's task on a stream that fits BUF. -/
theorem coreRun_load_of_fits (x : List Byte) (h : s.seq = .run (.load :: ks))
    (ha : ahead s = inBytes x ++ .eos :: rest) (hx : x.length ≤ s.nMax.toNat) :
    coreRun (x.length + 2) c s =
      { s with
        buf := storedFrom 0 x s.buf, inLen := BitVec.ofNat 32 x.length, la := none, inp := rest, seq := .run ks
        ret := counted x.length, status := { s.status with phase := .load, bufValid := true } } := by
  obtain ⟨u, hrun, hahead, hu⟩ := coreRun_loadLoop_store (c := c) (s := loadBegun ks s) x rfl ha
    ((Nat.zero_add _).trans_le hx)
  have hlen : u.inLen = BitVec.ofNat 32 x.length := by rw [hu]; simp [loadBegun]
  have hret : counted u.inLen.toNat = counted x.length := by
    rw [counted, BitVec.ofNat_toNat, BitVec.setWidth_eq, hlen]
  have hend := coreStep_loadLoop_end (c := c) (by rw [hu]; rfl) hahead
  rw [coreRun_some _ (coreStep_load h), coreRun_add, hrun, coreRun_some 0 hend, coreRun_zero, hret, hu]
  simp [loadBegun]

/-- LOAD's task on a stream that does not fit BUF. -/
theorem coreRun_load_of_overflows (x : List Byte) (h : s.seq = .run (.load :: ks))
    (ha : ahead s = inBytes x ++ .eos :: rest) (hx : s.nMax.toNat < x.length) :
    coreRun (x.length + 2) c s =
      raiseError c .inputOverflow
        { s with
          buf := storedFrom 0 (x.take s.nMax.toNat) s.buf, inLen := s.nMax, la := none, inp := rest
          status := { s.status with phase := .load, bufValid := false } } := by
  obtain ⟨b, more, hmore⟩ := List.exists_cons_of_length_pos (l := x.drop s.nMax.toNat) (by simpa using hx)
  have htake : (x.take s.nMax.toNat).length = s.nMax.toNat := List.length_take_of_le hx.le
  have hsplit : x = x.take s.nMax.toNat ++ b :: more := by rw [← hmore, List.take_append_drop]
  have hahead : ahead (loadBegun ks s) =
      inBytes (x.take s.nMax.toNat) ++ .byte b :: (inBytes more ++ .eos :: rest) := by
    refine ha.trans ?_
    conv_lhs => rw [hsplit]
    simp
  have hlen : x.length + 2 = s.nMax.toNat + (more.length + 1 + 1) + 1 := by
    have := congrArg List.length hmore
    rw [List.length_drop, List.length_cons] at this
    omega
  obtain ⟨u, hrun, hahead, hu⟩ := coreRun_loadLoop_store (c := c) _ rfl hahead
    ((Nat.zero_add _).trans_le htake.le)
  have hfull : u.inLen = u.nMax := by rw [hu]; simp [loadBegun, htake]
  have hstep := coreStep_loadLoop_full (c := c) (by rw [hu]; rfl) hahead hfull
  rw [htake] at hrun
  rw [hlen, coreRun_some _ (coreStep_load h), coreRun_add, hrun, coreRun_some _ hstep,
    coreRun_loadDiscard more rfl rfl, hu]
  simp [raiseError, loadBegun, htake]

end Sys2Proof.Machine

/-!
## FrequencyCommands

LOAD and COUNT as whole commands: the input buffer, the tally of its bytes and the number of symbols that occur
(42_frequency.md R240 to R242).
-/

namespace Sys2Proof.Machine

variable {i : Instr} {m : Nat} {s u : State}

/-! ### The check passes, or the body ends in an error -/

theorem checkFlag_true {b : Bool} (h : b = true) : checkFlag b = none := if_pos h

/-- A command whose body comes to the completion of an error in m core steps: one step more for the check, one for the
completion. -/
theorem exec_of_fail {e : ErrCode} (hs : Started s) (ht : m + 2 ≤ s.turn) (hc : (commandOf i).check s = none)
    (hb : coreRun m (commandOf i) (opened ((commandOf i).body s) s) = u) (hu : u.seq = .run [.fail e]) :
    exec i s = .next (failed e u) := by
  have hall : coreRun (m + 2) (commandOf i) s = completeError e { u with seq := .run [] } := by
    rw [coreRun_some (m + 1) (coreStep_begin hs hc), coreRun_add m 1]
    exact (congrArg _ hb).trans (coreRun_some 0 (coreStep_task hu))
  rw [exec_of_done hs ht (by rw [hall]; rfl), hall, failed_of_completeError]
  rfl

/-! ### LOAD -/

/-- A full turn has the core steps of LOAD on a stream whose tokens are there. -/
theorem load_steps_le {x : List Byte} {rest : List InTok} (ht : FullTurn s)
    (ha : ahead s = inBytes x ++ .eos :: rest) : x.length + 2 + 2 ≤ s.turn := by
  have hahead : (ahead s).length ≤ 1 + s.inp.length := by
    rw [ahead, List.length_append]
    exact Nat.add_le_add_right Option.length_toList_le _
  have hlen := congrArg List.length ha
  simp only [List.length_append, List.length_map, List.length_cons] at hlen
  have hbound : 2 ^ 60 + 64 * s.inp.length ≤ s.turn := ht
  omega

/-! ### COUNT -/

/-- COUNT's table is a fold over the bytes of BUF. -/
theorem countedFreq_eq_foldl (s : State) (n : Nat) : countedFreq s n = (bufBytes s n).foldl bumpFreq [] := by
  rw [countedFreq, bufBytes, List.foldl_map]

/-- Each counter grows by the number of its symbol's bytes. -/
theorem freqGet_foldl_bumpFreq (bs : List Byte) (f : Store Word) (a : Byte) :
    freqGet (bs.foldl bumpFreq f) a.toNat = freqGet f a.toNat + BitVec.ofNat 32 (bs.count a) := by
  induction bs generalizing f with
  | nil => simp
  | cons b bs ih =>
    rw [List.foldl_cons, ih, bumpFreq, freqGet_freqSet]
    by_cases h : a = b
    · subst h
      rw [if_pos rfl, List.count_cons_self, BitVec.add_assoc, Nat.add_comm, BitVec.ofNat_add]
      rfl
    · rw [if_neg fun he => h (BitVec.eq_of_toNat_eq he), List.count_cons_of_ne (Ne.symm h)]

/-- No counter of COUNT wraps (R242). -/
theorem countedFreq_toNat {n : Nat} (hn : n < 2 ^ 32) (s : State) (a : Byte) :
    (freqGet (countedFreq s n) a.toNat).toNat = (bufBytes s n).count a := by
  have hle : (bufBytes s n).count a ≤ n := List.count_le_length.trans_eq (by simp [bufBytes])
  rw [countedFreq_eq_foldl, freqGet_foldl_bumpFreq, freqGet_nil, zero_add, BitVec.toNat_ofNat,
    Nat.mod_eq_of_lt (by omega)]

/-- The symbols present in COUNT's table are the distinct bytes of BUF. -/
theorem presentSymbols_countedFreq {n : Nat} (hn : n < 2 ^ 32) (s : State) :
    (presentSymbols (countedFreq s n)).Perm ((bufBytes s n).dedup.map BitVec.toNat) := by
  have hpresent (a : Byte) : freqGet (countedFreq s n) a.toNat ≠ 0 ↔ a ∈ bufBytes s n := by
    rw [← List.count_pos_iff, ← countedFreq_toNat hn, Nat.pos_iff_ne_zero, Ne, Ne, BitVec.toNat_eq]
    rfl
  refine (List.perm_ext_iff_of_nodup (List.nodup_range.filter _)
    ((List.nodup_dedup _).map BitVec.toNat_injective)).2 fun k => ?_
  simp only [Config.symbols, List.mem_filter, List.mem_range, decide_eq_true_eq, List.mem_map,
    List.mem_dedup]
  constructor
  · rintro ⟨hk, hne⟩
    have hk' : (BitVec.ofNat 8 k).toNat = k := Nat.mod_eq_of_lt hk
    exact ⟨BitVec.ofNat 8 k, (hpresent _).1 (by rwa [hk']), hk'⟩
  · rintro ⟨a, ha, rfl⟩
    exact ⟨a.isLt, (hpresent a).2 ha⟩

theorem distinctCount_countedFreq {n : Nat} (hn : n < 2 ^ 32) (s : State) :
    distinctCount (countedFreq s n) = distinctBytes (bufBytes s n) :=
  (presentSymbols_countedFreq hn s).length_eq.trans (List.length_map _)

/-! ### The statements -/

/-- Settles O26: the whole task is LOAD's body. -/
theorem loadStoresTheStream : Obligations.LoadStoresTheStream := by
  intro s x rest hs ht ha hx
  have hbody := coreRun_load_of_fits (c := commandOf .load) (s := opened [.load] s) x rfl ha hx
  refine ⟨storedFrom 0 x s.buf, exec_of_returns hs (load_steps_le ht ha) rfl hbody rfl, fun j hj => ?_, fun j hj => ?_⟩
  · have := storeGet_storedFrom 0 x s.buf hj
    rwa [Nat.zero_add] at this
  · exact storeGet_storedFrom_above x s.buf (by omega)

/-- Settles O27: LOAD has no error path, so the body comes to the error's completion. -/
theorem loadOverflows : Obligations.LoadOverflows := by
  intro s x rest hs ht ha hx
  have hbody := coreRun_load_of_overflows (c := commandOf .load) (s := opened [.load] s) x rfl ha hx
  have htake : (x.take s.nMax.toNat).length = s.nMax.toNat := List.length_take_of_le hx.le
  have hexec := exec_of_fail hs (load_steps_le ht ha) rfl hbody rfl
  refine ⟨storedFrom 0 (x.take s.nMax.toNat) s.buf, hexec, fun j hj => ?_, fun j hj => ?_⟩
  · have := storeGet_storedFrom 0 (x.take s.nMax.toNat) s.buf (j := j) (by omega)
    rwa [Nat.zero_add, List.getElem?_take_of_lt hj] at this
  · exact storeGet_storedFrom_above _ s.buf (by omega)

/-- Settles O28: COUNT's body is one core step, and its table the tally. -/
theorem countTallies : Obligations.CountTallies := by
  intro s hs ht hv
  have hlen : s.inLen.toNat < 2 ^ 32 := s.inLen.isLt
  refine ⟨countedFreq s s.inLen.toNat, ?_, countedFreq_toNat hlen s⟩
  have hcheck : (commandOf .count).check s = none := checkFlag_true hv
  rw [← distinctCount_countedFreq hlen s]
  exact exec_of_returns (m := 1) hs ht hcheck rfl rfl

end Sys2Proof.Machine

/-!
## TableFrames

What LOAD, COUNT, BUILD and GENCODE leave unchanged: the parts they do not write, BUF from IN_LEN on and TREE from NODES
on (42_frequency.md R240, R241; 43_tree_builder.md R260; 44_code_table.md R280).
-/

namespace Sys2Proof.Machine

variable {m : Memory} {s t u : State}

/-! ### A memory that is the same from an index on -/

/-- `m'` lists what `m` does from index n on. -/
def KeepsFrom {α : Type} (n : Nat) (m m' : Store α) : Prop := ∀ j, n ≤ j → storeGet m' j = storeGet m j

theorem keepsFrom_refl {α : Type} (n : Nat) (m : Store α) : KeepsFrom n m m := fun _ _ => rfl

theorem KeepsFrom.mono {α : Type} {n k : Nat} {m m' : Store α} (h : KeepsFrom n m m') (hnk : n ≤ k) :
    KeepsFrom k m m' := fun j hj => h j (hnk.trans hj)

/-- A write below the index changes nothing from it on. -/
theorem KeepsFrom.write {α : Type} [DecidableEq α] {n a : Nat} {m m' : Store α} (h : KeepsFrom n m m') (ha : a < n)
    (v : α) : KeepsFrom n m (storeWrite none m' a v) := fun j hj => by
  rw [storeGet_storeWrite_none, if_neg (by omega), h j hj]

/-! ### LOAD stores below IN_LEN -/

/-- IN_LEN is within BUF, and from it on BUF is as in `m`. -/
def StoresBelow (m : Memory) (t : State) : Prop :=
  t.inLen.toNat ≤ t.nMax.toNat ∧ KeepsFrom t.inLen.toNat m t.buf

/-- A point of LOAD that was started with BUF as in `m`. -/
inductive LoadPoint (m : Memory) (t : State) : Prop where
  | begins (hq : t.seq = .start ∨ t.seq = .run [.load]) (hm : t.buf = m)
  | loops (hq : t.seq = .run [.loadLoop] ∨ t.seq = .run [.loadDiscard]) (hm : StoresBelow m t)
  | ends (hq : t.seq = .idle ∨ t.seq = .run [] ∨ ∃ e, t.seq = .run [.fail e]) (hm : StoresBelow m t)

theorem LoadPoint.keepsFrom (h : LoadPoint m t) : KeepsFrom t.inLen.toNat m t.buf := by
  obtain ⟨-, rfl⟩ | ⟨-, -, hm⟩ | ⟨-, -, hm⟩ := h
  · exact keepsFrom_refl _ _
  · exact hm
  · exact hm

/-- One more byte stored. -/
theorem StoresBelow.store (h : StoresBelow m t) (hne : t.inLen ≠ t.nMax) (b : Byte) (la : Option InTok)
    (inp : List InTok) :
    StoresBelow m
      { t with buf := storeWrite none t.buf t.inLen.toNat b, inLen := t.inLen + 1, la := la, inp := inp } := by
  obtain ⟨hle, hkeep⟩ := h
  have hlt : t.inLen.toNat < t.nMax.toNat := Nat.lt_of_le_of_ne hle fun he => hne (BitVec.eq_of_toNat_eq he)
  have hsucc : (t.inLen + 1).toNat = t.inLen.toNat + 1 := by bv_omega
  exact ⟨hsucc.trans_le hlt, ((hkeep.mono (Nat.le_succ _)).write (Nat.lt_succ_self _) b).mono hsucc.ge⟩

theorem coreStep_loadPoint (h : LoadPoint m t) (hc : coreStep (commandOf .load) t = some u) : LoadPoint m u := by
  obtain ⟨hq | hq, hm⟩ | ⟨hq | hq, hm⟩ | ⟨hq | hq | ⟨e, hq⟩, hm⟩ := h
  · cases (coreStep_begin hq rfl).symm.trans hc
    exact .begins (.inr rfl) hm
  · cases (coreStep_load hq).symm.trans hc
    exact .loops (.inl rfl) ⟨Nat.zero_le _, fun j _ => congrArg (storeGet · j) hm⟩
  · rcases ha : ahead t with _ | ⟨b | _, rest⟩
    · cases (coreStep_hold hq rfl ha).symm.trans hc
    · by_cases he : t.inLen = t.nMax
      · cases (coreStep_loadLoop_full hq ha he).symm.trans hc
        exact .loops (.inr rfl) hm
      · cases (coreStep_loadLoop_store hq ha he).symm.trans hc
        exact .loops (.inl hq) (hm.store he ..)
    · cases (coreStep_loadLoop_end hq ha).symm.trans hc
      exact .ends (.inr (.inl rfl)) hm
  · rcases ha : ahead t with _ | ⟨b | _, rest⟩
    · cases (coreStep_hold hq rfl ha).symm.trans hc
    · cases (coreStep_loadDiscard_byte hq ha).symm.trans hc
      exact .loops (.inr hq) hm
    · cases (coreStep_loadDiscard_end hq ha).symm.trans hc
      exact .ends (.inr (.inr ⟨_, rfl⟩)) hm
  · cases (coreStep_idle hq).symm.trans hc
  · cases (coreStep_nil hq).symm.trans hc
    exact .ends (.inl rfl) hm
  · cases (coreStep_task hq).symm.trans hc
    exact .ends (.inl rfl) hm

/-- LOAD, however far its turn takes it, has stored below IN_LEN only. -/
theorem exec_load_keepsFrom (hs : Started s) (h : exec .load s = .next t) : KeepsFrom t.inLen.toNat s.buf t.buf := by
  rw [exec_next, wake_started hs] at h
  cases h
  exact (coreRun_keeps (LoadPoint s.buf) (fun _ _ => coreStep_loadPoint) s.turn (.begins (.inl hs) rfl)).keepsFrom

/-! ### BUILD writes below NODES -/

section
variable {m : Store Node} {q : List QEntry} {k : Nat}

/-- BUILD's loop has allocated k entries of the arena, there is room for the rest, and from k on TREE is as in `m`. -/
def MergesBelow (m : Store Node) (q : List QEntry) (k : Nat) (t : State) : Prop :=
  q ≠ [] ∧ k + q.length ≤ 512 ∧ KeepsFrom k m t.tree

/-- BUILD's first task: fewer than two symbols raise an error, and the leaves of two or more are written. -/
theorem taskBuild_writes (s : State) :
    (∃ u, taskBuild s = .err .degenerate u ∧ u.tree = s.tree) ∨
    ∃ q k u, taskBuild s = .ok (pushTasks [.buildMerge q k] u) ∧ u.seq = s.seq ∧ MergesBelow s.tree q k u := by
  simp only [taskBuild]
  split
  · exact .inl ⟨_, rfl, rfl⟩
  · next h2 =>
    have h256 := distinctCount_le s.freq
    have hlen := congrArg List.length (leavesFrom_seq s.freq (presentSymbols s.freq) 0)
    rw [List.length_map, List.length_map, List.length_range', ← distinctCount] at hlen
    refine .inr ⟨_, _, _, rfl, by rw [writeNodes_frame]; rfl, ?_, by omega, fun j hj => ?_⟩
    · rw [← List.length_pos_iff]
      omega
    · exact (storeGet_writeNodes_leavesFrom s.freq (presentSymbols s.freq) 0 _).2 j (.inr ((Nat.zero_add _).trans_le hj))

/-- One round of BUILD's loop: the tree is made, or one more entry is written. -/
theorem taskBuildMerge_writes (h : MergesBelow m q k s) :
    (∃ u, taskBuildMerge q k s = .ok u ∧ u.seq = s.seq ∧ KeepsFrom u.treeInfo.nodes.toNat m u.tree) ∨
    ∃ r u, taskBuildMerge q k s = .ok (pushTasks [.buildMerge r (k + 1)] u) ∧ u.seq = s.seq ∧
      MergesBelow m r (k + 1) u := by
  obtain ⟨hne, hlen, hkeep⟩ := h
  unfold taskBuildMerge
  split
  · next h1 => exact absurd (extractMin_none.1 h1) hne
  · next a q1 h1 =>
    have hl1 := (extractMin_perm h1).length_eq
    rw [List.length_cons] at hl1
    split
    · have hk : (BitVec.ofNat 10 k).toNat = k := by rw [BitVec.toNat_ofNat, Nat.mod_eq_of_lt (by omega)]
      exact .inl ⟨_, rfl, rfl, hkeep.mono hk.ge⟩
    · next b q2 h2 =>
      have hl2 := (extractMin_perm h2).length_eq
      rw [List.length_cons] at hl2
      exact .inr ⟨_, _, rfl, rfl, List.cons_ne_nil _ _, by rw [List.length_cons]; omega,
        (hkeep.mono (Nat.le_succ k)).write (Nat.lt_succ_self k) _⟩

/-- A point of BUILD that was started with TREE as in `m`. -/
inductive BuildPoint (m : Store Node) (t : State) : Prop where
  | begins (hq : t.seq = .start ∨ t.seq = .run [.build]) (hm : t.tree = m)
  | merges (q : List QEntry) (k : Nat) (hq : t.seq = .run [.buildMerge q k]) (hm : MergesBelow m q k t)
  | ends (hq : t.seq = .idle ∨ t.seq = .run [] ∨ ∃ e, t.seq = .run [.fail e])
      (hm : KeepsFrom t.treeInfo.nodes.toNat m t.tree)

theorem BuildPoint.keepsFrom (h : BuildPoint m t) (hb : busy t = false) :
    KeepsFrom t.treeInfo.nodes.toNat m t.tree := by
  cases h with
  | begins hq _ => obtain hq | hq := hq <;> simp [busy, hq] at hb
  | merges q k hq _ => simp [busy, hq] at hb
  | ends _ hm => exact hm

theorem coreStep_buildPoint (h : BuildPoint m t) (hc : coreStep (commandOf .build) t = some u) : BuildPoint m u := by
  obtain ⟨hq | hq, rfl⟩ | ⟨q, k, hq, hm⟩ | ⟨hq | hq | ⟨e, hq⟩, hm⟩ := h
  · cases (coreStep_start hq).symm.trans hc
    rcases beginCommand_cases (commandOf .build) t with ⟨e, -, he⟩ | ⟨-, he⟩ <;> rw [he]
    · exact .ends (.inl rfl) (keepsFrom_refl _ _)
    · exact .begins (.inr rfl) rfl
  · have hstep := (coreStep_task hq).symm.trans hc
    rcases taskBuild_writes { t with seq := .run [] } with ⟨v, hv, htree⟩ | ⟨q, k, v, hv, hseq, hm⟩ <;>
      rw [runTask, hv] at hstep <;> cases hstep
    · exact .ends (.inr (.inr ⟨_, rfl⟩)) fun j _ => congrArg (storeGet · j) htree
    · rw [pushTasks_run v _ [] hseq]
      exact .merges q k rfl hm
  · have hstep := (coreStep_task hq).symm.trans hc
    rcases taskBuildMerge_writes (s := { t with seq := .run [] }) hm with ⟨v, hv, hseq, hm⟩ | ⟨r, v, hv, hseq, hm⟩ <;>
      rw [runTask, hv] at hstep <;> cases hstep
    · exact .ends (.inr (.inl hseq)) hm
    · rw [pushTasks_run v _ [] hseq]
      exact .merges r (k + 1) rfl hm
  · cases (coreStep_idle hq).symm.trans hc
  · cases (coreStep_nil hq).symm.trans hc
    exact .ends (.inl rfl) hm
  · cases (coreStep_task hq).symm.trans hc
    exact .ends (.inl rfl) hm

/-- A completed BUILD has written below NODES only. -/
theorem exec_build_keepsFrom (hs : Started s) (h : exec .build s = .next t) (hb : busy t = false) :
    KeepsFrom t.treeInfo.nodes.toNat s.tree t.tree := by
  rw [exec_next, wake_started hs] at h
  cases h
  exact (coreRun_keeps (BuildPoint s.tree) (fun _ _ => coreStep_buildPoint) s.turn (.begins (.inl hs) rfl)).keepsFrom hb

end

/-! ### The statements -/

/-- Settles O59: each command's turn is framed by the parts that its tasks write; LOAD's and BUILD's points say where. -/
theorem tableCommandsFrame : Obligations.TableCommandsFrame :=
  ⟨fun _ _ hr h => exec_framed hr h, fun _ _ hs h _ => exec_load_keepsFrom hs h, fun _ _ hr h => exec_framed hr h,
    fun _ _ hr h => exec_framed hr h, fun _ _ hr h => exec_framed hr h, fun _ _ hs h hb => exec_build_keepsFrom hs h hb⟩

end Sys2Proof.Machine

/-!
## ExtractMin

extract_min takes the least entry of the priority structure, by WEIGHT and among equal weights by SEQ
(43_tree_builder.md R260, R261).
-/

namespace Sys2Proof.Machine

/-- `a` is not extracted after `b`: its (WEIGHT, SEQ) is the same or less. -/
def QEntry.NotAfter (a b : QEntry) : Prop :=
  a.weight.toNat < b.weight.toNat ∨ (a.weight = b.weight ∧ a.seq.toNat ≤ b.seq.toNat)

theorem QEntry.NotAfter.trans {a b e : QEntry} (h : a.NotAfter b) (k : b.NotAfter e) : a.NotAfter e := by
  obtain h | ⟨hw, hq⟩ := h <;> obtain k | ⟨kw, kq⟩ := k
  · exact .inl (h.trans k)
  · exact .inl (kw ▸ h)
  · exact .inl (hw ▸ k)
  · exact .inr ⟨hw.trans kw, hq.trans kq⟩

theorem QEntry.NotAfter.of_extractedBefore {a b : QEntry} (h : extractedBefore a b = true) : a.NotAfter b := by
  simp only [extractedBefore, Bool.or_eq_true, Bool.and_eq_true, decide_eq_true_eq] at h
  exact h.imp id (And.imp id Nat.le_of_lt)

theorem QEntry.NotAfter.of_not_extractedBefore {a b : QEntry} (h : ¬extractedBefore b a = true) : a.NotAfter b := by
  simp only [extractedBefore, Bool.or_eq_true, Bool.and_eq_true, decide_eq_true_eq, not_or, not_and] at h
  obtain ⟨hw, hq⟩ := h
  obtain hlt | heq := Nat.lt_or_eq_of_le (Nat.le_of_not_lt hw)
  · exact .inl hlt
  · have hwe : a.weight = b.weight := BitVec.eq_of_toNat_eq heq
    exact .inr ⟨hwe, Nat.le_of_not_lt (hq hwe.symm)⟩

/-- What is extracted comes before all that is left. -/
theorem extractMin_notAfter {q rest : List QEntry} {m : QEntry} (h : extractMin q = some (m, rest)) :
    ∀ e ∈ rest, m.NotAfter e := by
  induction q generalizing m rest with
  | nil => cases h
  | cons x xs ih =>
    rw [extractMin] at h
    split at h
    · cases h
      nofun
    · next m' rest' hm =>
      have hleast := ih hm
      split at h
      · next hb =>
        cases h
        exact List.forall_mem_cons.2 ⟨.of_extractedBefore hb, hleast⟩
      · next hb =>
        cases h
        have hfirst : x.NotAfter m' := .of_not_extractedBefore hb
        intro e he
        obtain rfl | he := List.mem_cons.1 ((extractMin_perm hm).mem_iff.2 he)
        · exact hfirst
        · exact hfirst.trans (hleast e he)

/-! ### The statements -/

/-- Settles O30: extract_min keeps the entries, and the one it takes comes before the others. -/
theorem extractMinTakesTheLeast : Obligations.ExtractMinTakesTheLeast :=
  fun _ _ _ h => ⟨(extractMin_perm h).symm, extractMin_notAfter h⟩

end Sys2Proof.Machine

/-!
## Degenerate

The first task of BUILD below two symbols, and of GENCODE and WALK on a tree of one leaf, raises DEGENERATE
(43_tree_builder.md R260; 44_code_table.md R280; 47_decoder.md R343).
-/

namespace Sys2Proof.Machine

variable {i : Instr} {k : Task} {e : ErrCode} {s u : State}

/-- A command without an error path, whose only task raises an error: one core step for the check, one for the task and
one for the completion. -/
theorem exec_of_task_err (hs : Started s) (ht : 3 ≤ s.turn) (hc : (commandOf i).check s = none)
    (hb : (commandOf i).body s = [k]) (he : (commandOf i).onError = [])
    (hk : runTask k (opened [] s) = .err e u) : exec i s = .next (failed e u) := by
  have hstep : coreStep (commandOf i) (opened [k] s) = some (raiseError (commandOf i) e u) := by
    have hk' : runTask k { opened [k] s with seq := .run [] } = .err e u := hk
    rw [coreStep_task rfl, hk']
  refine exec_of_fail (m := 1) (u := raiseError (commandOf i) e u) hs ht hc ?_ ?_
  · rw [hb, coreRun_some 0 hstep, coreRun_zero]
  · rw [raiseError, he]
    rfl

/-- NDIST and PHASE as BUILD's first lines leave them, TREE_VALID cleared. -/
def buildBegun (s : State) : State :=
  { setTreeValid false (setPhase .build s) with ndist := BitVec.ofNat 9 (distinctCount s.freq) }

theorem taskBuild_of_lt (h : distinctCount s.freq < 2) : taskBuild s = .err .degenerate (buildBegun s) := if_pos h

theorem isLeaf_nodeAt {j : Nat} {sym : Byte} {w : Weight} (h : storeGet s.tree j = some (.leaf sym w)) :
    isLeaf (nodeAt s j) = true := by
  rw [nodeAt, h]
  rfl

theorem taskGencode_of_leaf (h : isLeaf (nodeAt s s.treeInfo.root.toNat) = true) :
    taskGencode s = .err .degenerate (setCodeValid false (setPhase .gencode s)) := if_pos h

theorem taskWalk_of_leaf (h : isLeaf (nodeAt s s.treeInfo.root.toNat) = true) :
    taskWalk s = .err .degenerate (setPhase .walk s) := if_pos h

/-! ### The statements -/

/-- Settles O31: the one task of each body raises DEGENERATE. -/
theorem degenerateInputs : Obligations.DegenerateInputs := by
  intro s hs ht
  refine ⟨fun hv h2 => ?_, fun hv ⟨sym, w, hroot⟩ => ?_⟩
  · have hbuild := taskBuild_of_lt (s := opened [] s) h2
    exact (exec_of_task_err (i := .build) hs ht (checkFlag_true hv) rfl rfl hbuild).trans rfl
  · have hleaf : isLeaf (nodeAt s s.treeInfo.root.toNat) = true := isLeaf_nodeAt hroot
    have hcheck : checkTree s = none := checkFlag_true hv
    have hgencode := taskGencode_of_leaf (s := opened [] s) hleaf
    have hwalk := taskWalk_of_leaf (s := opened [] s) hleaf
    exact ⟨(exec_of_task_err (i := .gencode) hs ht hcheck rfl rfl hgencode).trans rfl,
      (exec_of_task_err (i := .walk) hs ht hcheck rfl rfl hwalk).trans rfl⟩

end Sys2Proof.Machine

/-!
## GreedyMerge

What each round of BUILD's merging loop keeps of the arena and of the priority structure, and that the arena is
`BuiltTree` when one entry is left (43_tree_builder.md R260 to R263).
-/

namespace Sys2Proof.Machine

variable {f : Store Word} {m m' : Store Node} {a b e : QEntry} {q : List QEntry} {i j k n : Nat}

/-! ### An arena that is the same below an index -/

/-- `m'` lists what `m` does below index n. -/
def KeepsBelow (n : Nat) (m m' : Store Node) : Prop := ∀ j, j < n → storeGet m' j = storeGet m j

theorem KeepsBelow.mono (h : KeepsBelow n m m') (hkn : k ≤ n) : KeepsBelow k m m' := fun j hj => h j (hj.trans_le hkn)

theorem keepsBelow_write (m : Store Node) (n : Nat) (v : Node) : KeepsBelow n m (storeWrite none m n v) := by
  intro j hj
  rw [storeGet_storeWrite_none, if_neg (Nat.ne_of_lt hj)]

theorem storeGet_write_same (m : Store Node) (n : Nat) (v : Node) : storeGet (storeWrite none m n v) n = some v := by
  rw [storeGet_storeWrite_none, if_pos rfl]

theorem KeepsBelow.childrenOf (h : KeepsBelow n m m') (hj : j < n) : childrenOf m' j = childrenOf m j := by
  simp only [Machine.childrenOf, h j hj]

theorem KeepsBelow.weightAt (h : KeepsBelow n m m') (hj : j < n) : weightAt m' j = weightAt m j := by
  simp only [Machine.weightAt, h j hj]

/-- The children of the entries below n. -/
theorem KeepsBelow.children (h : KeepsBelow n m m') :
    (List.range n).flatMap (Machine.childrenOf m') = (List.range n).flatMap (Machine.childrenOf m) :=
  List.flatMap_congr fun _ hj => h.childrenOf (List.mem_range.1 hj)

theorem KeepsBelow.rootsBelow (h : KeepsBelow n m m') : rootsBelow m' n = rootsBelow m n := by
  simp only [Machine.rootsBelow, h.children]

theorem mem_rootsBelow : j ∈ rootsBelow m n ↔ j < n ∧ j ∉ (List.range n).flatMap (childrenOf m) := by
  simp [rootsBelow]

/-! ### An entry made by a merge -/

/-- Entry i joins the two least by (WEIGHT, index) of the entries below it that are no child yet, the least to the left,
and its weight is their sum (R260): the clause of `BuiltTree` about the internal nodes. -/
def MergedAt (m : Store Node) (i : Nat) : Prop :=
  ∃ l r w,
    storeGet m i = some (.internal l r w) ∧
    w.toNat = weightAt m l.toNat + weightAt m r.toNat ∧
    l.toNat ∈ rootsBelow m i ∧ r.toNat ∈ rootsBelow m i ∧ keyBefore m l.toNat r.toNat ∧
    ∀ j ∈ rootsBelow m i, j ≠ l.toNat → j ≠ r.toNat → keyBefore m r.toNat j

theorem KeepsBelow.keyBefore (h : KeepsBelow n m m') (hi : i < n) (hj : j < n) :
    keyBefore m' i j ↔ keyBefore m i j := by
  simp only [Machine.keyBefore, h.weightAt hi, h.weightAt hj]

/-- What is written above a merged entry does not change that it is merged. -/
theorem MergedAt.of_keepsBelow (h : MergedAt m i) (hk : KeepsBelow (i + 1) m m') : MergedAt m' i := by
  obtain ⟨l, r, w, hget, hw, hl, hr, hlr, hleast⟩ := h
  have hbelow : KeepsBelow i m m' := hk.mono (Nat.le_succ i)
  have hlt {x : Nat} (hx : x ∈ Machine.rootsBelow m i) : x < i := (mem_rootsBelow.1 hx).1
  refine ⟨l, r, w, (hk i (Nat.lt_succ_self i)).trans hget, ?_, ?_, ?_, ?_, ?_⟩
  · rw [hw, hbelow.weightAt (hlt hl), hbelow.weightAt (hlt hr)]
  · rwa [hbelow.rootsBelow]
  · rwa [hbelow.rootsBelow]
  · exact (hbelow.keyBefore (hlt hl) (hlt hr)).2 hlr
  · intro j hj hjl hjr
    rw [hbelow.rootsBelow] at hj
    exact (hbelow.keyBefore (hlt hr) (hlt hj)).2 (hleast j hj hjl hjr)

/-- The order of extraction is that of the arena, where the entries' weights are the arena's. -/
theorem keyBefore_of_notAfter (h : a.NotAfter b) (hne : a.seq.toNat ≠ b.seq.toNat)
    (ha : weightAt m a.seq.toNat = a.weight.toNat) (hb : weightAt m b.seq.toNat = b.weight.toNat) :
    keyBefore m a.seq.toNat b.seq.toNat := by
  rw [keyBefore, ha, hb]
  obtain hw | ⟨hw, hq⟩ := h
  · exact .inl hw
  · exact .inr ⟨congrArg BitVec.toNat hw, Nat.lt_of_le_of_ne hq hne⟩

/-! ### The symbols of a tree -/

/-- The symbols of the leaves in preorder. -/
def Shape.symbols (sh : Shape) : List Nat := sh.paths.map (fun p => p.1.toNat)

@[simp] theorem Shape.symbols_leaf (sym : Byte) : (Shape.leaf sym).symbols = [sym.toNat] := rfl

@[simp] theorem Shape.symbols_node (l r : Shape) : (Shape.node l r).symbols = l.symbols ++ r.symbols := by
  simp [Shape.symbols, Shape.paths, Function.comp_def]

/-- The symbols of the tree at an arena index, none where there is no tree. -/
def symbolsAt (m : Store Node) (i : Nat) : List Nat := ((shapeOf Config.nodeMax m i).map Shape.symbols).getD []

theorem symbolsAt_of_shapeOf {sh : Shape} (h : shapeOf Config.nodeMax m i = some sh) : symbolsAt m i = sh.symbols := by
  rw [symbolsAt, h]
  rfl

theorem shapeOf_internal {l r : NodeIdx} {w : Weight} {x y : Shape} (h : storeGet m i = some (.internal l r w))
    (hx : shapeOf n m l.toNat = some x) (hy : shapeOf n m r.toNat = some y) :
    shapeOf (n + 1) m i = some (.node x y) := by
  simp only [shapeOf, h, hx, hy]

/-- Each entry of the priority structure is the root of a tree, of a height that k bounds. -/
theorem Merging.shape (h : Merging m q k) (he : e ∈ q) (hk : k ≤ n) : ∃ sh, shapeOf n m e.seq.toNat = some sh := by
  obtain ⟨-, hall, hq, -⟩ := h
  have hlt : e.seq.toNat < k := hq e he
  obtain ⟨sh, hsh⟩ := shapeOf_below hall _ hlt
  exact ⟨sh, shapeOf_le (Nat.succ_le_of_lt (hlt.trans_le hk)) hsh⟩

theorem Merging.symbolsAt_congr (h : Merging m q k) (hk : KeepsBelow k m m') (he : e ∈ q) :
    symbolsAt m' e.seq.toNat = symbolsAt m e.seq.toNat := by
  obtain ⟨-, hall, hq, -⟩ := h
  rw [symbolsAt, symbolsAt, shapeOf_congr_below hk (fun i hi => (hall i hi).2) _ _ (hq e he)]

/-! ### The sum of FREQ -/

/-- The sum of the counters: the weight of BUILD's root. -/
def freqTotal (f : Store Word) : Nat := ((presentSymbols f).map (fun a => (freqGet f a).toNat)).sum

/-- R242: weights add without wrap in 40 bits. -/
theorem freqTotal_lt (f : Store Word) : freqTotal f < 2 ^ 40 := by
  have hle : freqTotal f ≤ distinctCount f * (2 ^ 32 - 1) := by
    refine (List.sum_le_card_nsmul _ (2 ^ 32 - 1) fun x hx => ?_).trans_eq (by simp [distinctCount])
    obtain ⟨a, -, rfl⟩ := List.mem_map.1 hx
    exact Nat.le_pred_of_lt (freqGet f a).isLt
  have h256 := distinctCount_le f
  omega

/-! ### What the loop keeps -/

/-- The node that joins two entries, the first to the left (R260). -/
def joinNode (a b : QEntry) : Node := .internal a.seq b.seq (a.weight + b.weight)

/-- Its own entry of the priority structure, the node being made at index k. -/
def joinEntry (a b : QEntry) (k : Nat) : QEntry := { weight := a.weight + b.weight, seq := BitVec.ofNat 9 k }

/-- BUILD has allocated k entries of the arena: the leaves, then merged entries. Each is a child once or in the priority
structure, whose entries have the arena's weights and share out the sum of FREQ and the symbols (R260 to R263). -/
structure GreedyMerge (f : Store Word) (m : Store Node) (q : List QEntry) (k : Nat) : Prop where
  leaves : ∀ i a, (presentSymbols f)[i]? = some a →
    storeGet m i = some (.leaf (BitVec.ofNat 8 a) ((freqGet f a).setWidth 40))
  merged : ∀ i, distinctCount f ≤ i → i < k → MergedAt m i
  once : ((List.range k).flatMap (childrenOf m) ++ q.map (fun e => e.seq.toNat)).Perm (List.range k)
  leavesMade : distinctCount f ≤ k
  toCome : k + q.length = 2 * distinctCount f
  weights : ∀ e ∈ q, weightAt m e.seq.toNat = e.weight.toNat
  total : (q.map (fun e => e.weight.toNat)).sum = freqTotal f
  symbols : (q.flatMap (fun e => symbolsAt m e.seq.toNat)).Perm (presentSymbols f)
  merging : Merging m q k

namespace GreedyMerge

/-- The order of the priority structure's list is no matter. -/
theorem perm {r : List QEntry} (h : GreedyMerge f m q k) (hp : q.Perm r) : GreedyMerge f m r k where
  leaves := h.leaves
  merged := h.merged
  once := ((hp.symm.map _).append_left _).trans h.once
  leavesMade := h.leavesMade
  toCome := hp.length_eq ▸ h.toCome
  weights e he := h.weights e (hp.mem_iff.2 he)
  total := ((hp.symm.map _).sum_eq).trans h.total
  symbols := (hp.symm.flatMap_right _).trans h.symbols
  merging := h.merging.perm hp

theorem seq_lt (h : GreedyMerge f m q k) (he : e ∈ q) : e.seq.toNat < k := by
  obtain ⟨-, -, hq, -⟩ := h.merging
  exact hq e he

/-- The priority structure holds each index once, and no child. -/
theorem nodup (h : GreedyMerge f m q k) :
    ((List.range k).flatMap (childrenOf m) ++ q.map (fun e => e.seq.toNat)).Nodup :=
  h.once.nodup_iff.2 List.nodup_range

/-- The priority structure holds what is no child yet. -/
theorem mem_rootsBelow_iff (h : GreedyMerge f m q k) : j ∈ rootsBelow m k ↔ ∃ e ∈ q, e.seq.toNat = j := by
  rw [mem_rootsBelow, ← List.mem_range, ← h.once.mem_iff, List.mem_append, ← List.mem_map]
  have hdisjoint := List.disjoint_of_nodup_append h.nodup
  exact ⟨fun ⟨hj, hn⟩ => hj.resolve_left hn, fun hj => ⟨.inr hj, fun hc => hdisjoint hc hj⟩⟩

section Join
variable (h : GreedyMerge f m (a :: b :: q) k)
include h

theorem lt_nodeMax : k < 511 := by
  have hlen := h.toCome
  have h256 := distinctCount_le f
  simp only [List.length_cons] at hlen
  omega

theorem joinEntry_seq : (joinEntry a b k).seq.toNat = k := by
  have hk := h.lt_nodeMax
  rw [joinEntry, BitVec.toNat_ofNat, Nat.mod_eq_of_lt (by omega)]

theorem joinEntry_weight : (joinEntry a b k).weight.toNat = a.weight.toNat + b.weight.toNat := by
  have htotal := h.total
  have hlt := freqTotal_lt f
  simp only [List.map_cons, List.sum_cons] at htotal
  rw [joinEntry, BitVec.toNat_add, Nat.mod_eq_of_lt (by omega)]

/-- The entry that joins the two least is merged. -/
theorem mergedAt_join (ha : ∀ e ∈ b :: q, a.NotAfter e) (hb : ∀ e ∈ q, b.NotAfter e) :
    MergedAt (storeWrite none m k (joinNode a b)) k := by
  have hkeep : KeepsBelow k m (storeWrite none m k (joinNode a b)) := keepsBelow_write m k _
  have hweight {x : QEntry} (hx : x ∈ a :: b :: q) :
      weightAt (storeWrite none m k (joinNode a b)) x.seq.toNat = x.weight.toNat :=
    (hkeep.weightAt (h.seq_lt hx)).trans (h.weights x hx)
  have hroot {x : Nat} : x ∈ rootsBelow (storeWrite none m k (joinNode a b)) k ↔
      ∃ e ∈ a :: b :: q, e.seq.toNat = x := by
    rw [hkeep.rootsBelow, h.mem_rootsBelow_iff]
  have hmemA : a ∈ a :: b :: q := List.mem_cons_self
  have hmemB : b ∈ a :: b :: q := List.mem_cons_of_mem _ List.mem_cons_self
  have hne : a.seq.toNat ≠ b.seq.toNat := by
    have hnodup := (List.nodup_append.1 h.nodup).2.1
    rw [List.map_cons, List.map_cons, List.nodup_cons] at hnodup
    exact fun he => hnodup.1 (he ▸ List.mem_cons_self)
  refine ⟨a.seq, b.seq, a.weight + b.weight, storeGet_write_same .., ?_, hroot.2 ⟨a, hmemA, rfl⟩,
    hroot.2 ⟨b, hmemB, rfl⟩, keyBefore_of_notAfter (ha b List.mem_cons_self) hne (hweight hmemA) (hweight hmemB), ?_⟩
  · rw [hweight hmemA, hweight hmemB]
    exact h.joinEntry_weight
  · intro j hj hja hjb
    obtain ⟨x, hx, rfl⟩ := hroot.1 hj
    have hxq : x ∈ q := by
      obtain rfl | rfl | hxq := List.mem_cons.1 hx |>.imp id List.mem_cons.1
      · exact absurd rfl hja
      · exact absurd rfl hjb
      · exact hxq
    exact keyBefore_of_notAfter (hb x hxq) hjb.symm (hweight hmemB) (hweight hx)

/-- The symbols of a node are those of its children. -/
theorem symbolsAt_join :
    symbolsAt (storeWrite none m k (joinNode a b)) k = symbolsAt m a.seq.toNat ++ symbolsAt m b.seq.toNat := by
  have hkeep : KeepsBelow k m (storeWrite none m k (joinNode a b)) := keepsBelow_write m k _
  have hk := h.lt_nodeMax
  have hmemA : a ∈ a :: b :: q := List.mem_cons_self
  have hmemB : b ∈ a :: b :: q := List.mem_cons_of_mem _ List.mem_cons_self
  obtain ⟨-, hall, -, -⟩ := h.merging
  have hcongr {x : QEntry} (hx : x ∈ a :: b :: q) :
      shapeOf 510 (storeWrite none m k (joinNode a b)) x.seq.toNat = shapeOf 510 m x.seq.toNat :=
    shapeOf_congr_below hkeep (fun i hi => (hall i hi).2) _ _ (h.seq_lt hx)
  obtain ⟨x, hx⟩ := h.merging.shape hmemA (n := 510) (by omega)
  obtain ⟨y, hy⟩ := h.merging.shape hmemB (n := 510) (by omega)
  have hnode : shapeOf Config.nodeMax (storeWrite none m k (joinNode a b)) k = some (.node x y) :=
    shapeOf_internal (storeGet_write_same ..) ((hcongr hmemA).trans hx) ((hcongr hmemB).trans hy)
  rw [symbolsAt_of_shapeOf hnode, symbolsAt_of_shapeOf (shapeOf_succ _ _ _ _ hx),
    symbolsAt_of_shapeOf (shapeOf_succ _ _ _ _ hy), Shape.symbols_node]

/-- One round of the loop keeps it all (R260). -/
theorem join (ha : ∀ e ∈ b :: q, a.NotAfter e) (hb : ∀ e ∈ q, b.NotAfter e) :
    GreedyMerge f (storeWrite none m k (joinNode a b)) (joinEntry a b k :: q) (k + 1) := by
  have hkeep : KeepsBelow k m (storeWrite none m k (joinNode a b)) := keepsBelow_write m k _
  have hrest {x : QEntry} (hx : x ∈ q) : x ∈ a :: b :: q := List.mem_cons_of_mem _ (List.mem_cons_of_mem _ hx)
  have hmade := h.leavesMade
  have hlen := h.toCome
  refine
    { leaves := fun i x hi => ?leaves, merged := fun i hi hik => ?merged, once := ?once, leavesMade := by omega
      toCome := ?toCome, weights := fun x hx => ?weights, total := ?total, symbols := ?symbols
      merging := merging_step _ h.lt_nodeMax h.merging }
  case leaves =>
    have hlt : i < distinctCount f := (List.getElem?_eq_some_iff.1 hi).1
    rw [hkeep i (hlt.trans_le hmade)]
    exact h.leaves i x hi
  case merged =>
    obtain hlt | rfl := Nat.lt_succ_iff_lt_or_eq.1 hik
    · exact (h.merged i hi hlt).of_keepsBelow (hkeep.mono hlt)
    · exact h.mergedAt_join ha hb
  case once =>
    have hchildren : childrenOf (storeWrite none m k (joinNode a b)) k = [a.seq.toNat, b.seq.toNat] := by
      rw [childrenOf, storeGet_write_same]
      rfl
    have honce := h.once
    simp only [List.perm_iff_count, List.range_succ, List.flatMap_append, hkeep.children, List.flatMap_singleton,
      hchildren, List.map_cons, h.joinEntry_seq, List.count_append, List.count_cons, List.count_nil] at honce ⊢
    intro x
    have := honce x
    omega
  case toCome =>
    simp only [List.length_cons] at hlen ⊢
    omega
  case weights =>
    obtain rfl | hx := List.mem_cons.1 hx
    · rw [h.joinEntry_seq, weightAt, storeGet_write_same]
      rfl
    · exact (hkeep.weightAt (h.seq_lt (hrest hx))).trans (h.weights x (hrest hx))
  case total =>
    have htotal := h.total
    simp only [List.map_cons, List.sum_cons, h.joinEntry_weight] at htotal ⊢
    omega
  case symbols =>
    have hsame : q.flatMap (fun e => symbolsAt (storeWrite none m k (joinNode a b)) e.seq.toNat) =
        q.flatMap (fun e => symbolsAt m e.seq.toNat) :=
      List.flatMap_congr fun x hx => h.merging.symbolsAt_congr hkeep (hrest hx)
    rw [List.flatMap_cons, h.joinEntry_seq, h.symbolsAt_join, hsame, List.append_assoc]
    exact h.symbols

end Join

/-! ### The last entry -/

section Last
variable (h : GreedyMerge f m [e] k)
include h

theorem last_size : k + 1 = 2 * distinctCount f := h.toCome

/-- The last entry is the last made: it alone can be no child, since children lie below their parents (R262). -/
theorem last_seq : e.seq.toNat = k - 1 := by
  obtain ⟨h2, hall, -, -⟩ := h.merging
  have hroot : k - 1 ∈ rootsBelow m k := by
    refine mem_rootsBelow.2 ⟨by omega, fun hc => ?_⟩
    obtain ⟨i, hi, hc⟩ := List.mem_flatMap.1 hc
    have hik := List.mem_range.1 hi
    have hlt := (hall i hik).2 _ hc
    omega
  obtain ⟨x, hx, hxk⟩ := h.mem_rootsBelow_iff.1 hroot
  rwa [List.mem_singleton.1 hx] at hxk

theorem builtTree : BuiltTree f m where
  leaves := h.leaves
  merged i hi hik := by
    have hsize := h.last_size
    exact h.merged i hi (by omega)
  childOnce := by
    obtain ⟨h2, -, -, -⟩ := h.merging
    have hsize := h.last_size
    have honce := h.once
    have hrange : List.range k = List.range (k - 1) ++ [k - 1] := by
      rw [← List.range_succ, Nat.succ_eq_add_one, Nat.sub_add_cancel (by omega)]
    rw [List.map_singleton, h.last_seq] at honce
    rw [show 2 * distinctCount f - 1 = k by omega, show 2 * distinctCount f - 2 = k - 1 by omega]
    exact (List.perm_append_right_iff _).1 (honce.trans (.of_eq hrange))

/-- The tree at the root: all the nodes and all the symbols. -/
theorem last_shape : ∃ sh : Shape, shapeOf Config.nodeMax m (2 * distinctCount f - 2) = some sh ∧
    sh.nodes = 2 * distinctCount f - 1 ∧ sh.symbols.Perm (presentSymbols f) := by
  have hsize := h.last_size
  have h256 := distinctCount_le f
  obtain ⟨sh, hsh, hnodes, -⟩ := merging_done (by omega) h.merging
  have hsymbols := h.symbols
  rw [List.flatMap_singleton, symbolsAt_of_shapeOf hsh] at hsymbols
  rw [h.last_seq, show k - 1 = 2 * distinctCount f - 2 by omega] at hsh
  exact ⟨sh, hsh, by omega, hsymbols⟩

/-- The root's weight. -/
theorem last_weight : weightAt m (2 * distinctCount f - 2) = freqTotal f := by
  have hsize := h.last_size
  have htotal := h.total
  rw [List.map_singleton, List.sum_singleton, ← h.weights e List.mem_cons_self, h.last_seq] at htotal
  rwa [show 2 * distinctCount f - 2 = k - 1 by omega]

end Last

end GreedyMerge

/-! ### The leaves -/

/-- The arena holds the leaves of the symbols given from index k on. -/
def LeavesAt (f : Store Word) (m : Store Node) (as : List Nat) (k : Nat) : Prop :=
  ∀ j x, as[j]? = some x → storeGet m (k + j) = some (.leaf (BitVec.ofNat 8 x) ((freqGet f x).setWidth 40))

theorem leavesAt_cons {x : Nat} {as : List Nat} (h : LeavesAt f m (x :: as) k) :
    storeGet m k = some (.leaf (BitVec.ofNat 8 x) ((freqGet f x).setWidth 40)) ∧ LeavesAt f m as (k + 1) := by
  refine ⟨h 0 x rfl, fun j y hj => ?_⟩
  rw [Nat.add_right_comm]
  exact h (j + 1) y hj

/-- The leaves' priority entries have the leaves' weights. -/
theorem weightAt_leavesFrom {as : List Nat} (h : LeavesAt f m as k) (hk : k + as.length ≤ 512) :
    ∀ e ∈ (leavesFrom f as k).2, weightAt m e.seq.toNat = e.weight.toNat := by
  induction as generalizing k with
  | nil => nofun
  | cons x as ih =>
    obtain ⟨hx, has⟩ := leavesAt_cons h
    rw [List.length_cons] at hk
    have hseq : (BitVec.ofNat 9 k).toNat = k := by rw [BitVec.toNat_ofNat, Nat.mod_eq_of_lt (by omega)]
    refine List.forall_mem_cons.2 ⟨?_, ih has (by omega)⟩
    rw [hseq, weightAt, hx]
    rfl

/-- Each is a tree of its one symbol. -/
theorem symbolsAt_leavesFrom {as : List Nat} (h : LeavesAt f m as k) (hk : k + as.length ≤ 512)
    (has : ∀ x ∈ as, x < 256) : (leavesFrom f as k).2.flatMap (fun e => symbolsAt m e.seq.toNat) = as := by
  induction as generalizing k with
  | nil => rfl
  | cons x as ih =>
    obtain ⟨hx, hrest⟩ := leavesAt_cons h
    rw [List.length_cons] at hk
    obtain ⟨hx256, has⟩ := List.forall_mem_cons.1 has
    have hseq : (BitVec.ofNat 9 k).toNat = k := by rw [BitVec.toNat_ofNat, Nat.mod_eq_of_lt (by omega)]
    have hsym : (BitVec.ofNat 8 x).toNat = x := Nat.mod_eq_of_lt hx256
    have hshape : shapeOf Config.nodeMax m k = some (.leaf (BitVec.ofNat 8 x)) := by
      simp only [Config.nodeMax, shapeOf, hx]
    rw [leavesFrom, List.flatMap_cons, ih hrest (by omega) has, hseq, symbolsAt_of_shapeOf hshape,
      Shape.symbols_leaf, hsym]
    rfl

theorem leavesFrom_weight (f : Store Word) (as : List Nat) (k : Nat) :
    (leavesFrom f as k).2.map (fun e => e.weight.toNat) = as.map (fun x => (freqGet f x).toNat) := by
  induction as generalizing k with
  | nil => rfl
  | cons x as ih => rw [leavesFrom, List.map_cons, List.map_cons, ih, BitVec.toNat_setWidth_of_le (by decide)]

/-- BUILD's arena and priority structure before the first merge (R260). -/
theorem greedyMerge_leaves (h2 : 2 ≤ distinctCount f) (s : State) :
    GreedyMerge f (writeNodes (leavesFrom f (presentSymbols f) 0).1 s).tree (leavesFrom f (presentSymbols f) 0).2
      (distinctCount f) := by
  have h256 := distinctCount_le f
  have hmerging := merging_leaves h2 s
  have hleaves : LeavesAt f (writeNodes (leavesFrom f (presentSymbols f) 0).1 s).tree (presentSymbols f) 0 :=
    (storeGet_writeNodes_leavesFrom f (presentSymbols f) 0 s).1
  have hbound : 0 + (presentSymbols f).length ≤ 512 := by rw [← distinctCount]; omega
  have hseq : (leavesFrom f (presentSymbols f) 0).2.map (fun e => e.seq.toNat) = List.range (distinctCount f) := by
    have hmap := congrArg (List.map BitVec.toNat) (leavesFrom_seq f (presentSymbols f) 0)
    rw [List.map_map, List.map_map, ← distinctCount, ← List.range_eq_range'] at hmap
    refine hmap.trans (List.map_congr_left fun x hx => ?_) |>.trans (List.map_id _)
    have hx := List.mem_range.1 hx
    exact Nat.mod_eq_of_lt (by omega)
  refine
    { leaves := fun i x hi => ?leaves, merged := fun i hi hik => by omega, once := ?once, leavesMade := Nat.le_refl _
      toCome := ?toCome, weights := weightAt_leavesFrom hleaves hbound
      total := congrArg List.sum (leavesFrom_weight f _ 0), symbols := ?symbols, merging := hmerging }
  case leaves =>
    have := hleaves i x hi
    rwa [Nat.zero_add] at this
  case once =>
    have hnone : (List.range (distinctCount f)).flatMap
        (childrenOf (writeNodes (leavesFrom f (presentSymbols f) 0).1 s).tree) = [] := by
      refine List.flatMap_eq_nil_iff.2 fun i hi => ?_
      have := hleaves i _ (List.getElem?_eq_getElem (List.mem_range.1 hi))
      rw [Nat.zero_add] at this
      simp only [childrenOf, this]
    rw [hnone, hseq]
    exact .refl _
  case toCome =>
    have hlen := congrArg List.length hseq
    rw [List.length_map, List.length_range] at hlen
    omega
  case symbols =>
    rw [symbolsAt_leavesFrom hleaves hbound fun x hx => List.mem_range.1 (List.mem_filter.1 hx).1]

end Sys2Proof.Machine

/-!
## BuildCommand

BUILD's task on the sequencer: the leaves, the rounds of its loop and the last lines, and BUILD as a whole command
(43_tree_builder.md R260 to R263).
-/

namespace Sys2Proof.Machine

variable {c : Command} {f : Store Word} {tree : Store Node} {a b e root : QEntry} {q q1 q2 : List QEntry} {k : Nat}
  {ks : List Task} {s : State}

/-! ### One core step -/

/-- The state after BUILD's first task with two symbols or more: the leaves are written, and the loop is next. -/
def leavesWritten (ks : List Task) (s : State) : State :=
  let made := leavesFrom s.freq (presentSymbols s.freq) 0
  pushTasks [.buildMerge made.2 (distinctCount s.freq)] (writeNodes made.1 (buildBegun { s with seq := .run ks }))

/-- The leaves change TREE's entries alone, beside BUILD's first lines. -/
theorem leavesWritten_frame (ks : List Task) (s : State) :
    leavesWritten ks s =
      { buildBegun s with
        seq := .run (.buildMerge (leavesFrom s.freq (presentSymbols s.freq) 0).2 (distinctCount s.freq) :: ks)
        tree := (leavesWritten ks s).tree } := by
  rw [leavesWritten, writeNodes_frame, pushTasks_run _ _ ks rfl]
  rfl

theorem leavesWritten_tree (ks : List Task) (s : State) :
    (leavesWritten ks s).tree =
      (writeNodes (leavesFrom s.freq (presentSymbols s.freq) 0).1 (buildBegun { s with seq := .run ks })).tree :=
  pushTasks_tree _ _

theorem coreStep_build (h : s.seq = .run (.build :: ks)) (h2 : 2 ≤ distinctCount s.freq) :
    coreStep c s = some (leavesWritten ks s) := by
  have hr : runTask .build { s with seq := .run ks } = .ok (leavesWritten ks s) := if_neg (Nat.not_lt.2 h2)
  rw [coreStep_task h, hr]

/-- One round of the loop: the two entries extracted are joined. -/
theorem coreStep_buildMerge_join (h : s.seq = .run (.buildMerge q k :: ks)) (h1 : extractMin q = some (a, q1))
    (h2 : extractMin q1 = some (b, q2)) :
    coreStep c s = some
      { s with
        seq := .run (.buildMerge (joinEntry a b k :: q2) (k + 1) :: ks)
        tree := storeWrite none s.tree k (joinNode a b) } := by
  have hr : runTask (.buildMerge q k) { s with seq := .run ks } = .ok
      { s with
        seq := .run (.buildMerge (joinEntry a b k :: q2) (k + 1) :: ks)
        tree := storeWrite none s.tree k (joinNode a b) } := by
    simp only [runTask, taskBuildMerge, h1, h2]
    rfl
  rw [coreStep_task h, hr]

/-- BUILD's last lines. -/
theorem coreStep_buildMerge_last (h : s.seq = .run (.buildMerge [e] k :: ks)) :
    coreStep c s = some (finishBuild e.seq k { s with seq := .run ks }) := by
  rw [coreStep_task h]
  rfl

/-! ### The loop -/

/-- BUILD's loop from any of its rounds on: one core step for each entry of the priority structure. -/
theorem coreRun_buildMerge (h : s.seq = .run (.buildMerge q k :: ks)) (hq : q ≠ []) (hm : GreedyMerge f s.tree q k) :
    ∃ (tree : Store Node) (root : QEntry),
      coreRun q.length c s =
        finishBuild root.seq (2 * distinctCount f - 1) { s with seq := .run ks, tree := tree } ∧
      GreedyMerge f tree [root] (2 * distinctCount f - 1) ∧ KeepsFrom (2 * distinctCount f - 1) s.tree tree := by
  induction hlen : q.length generalizing q k s with
  | zero => exact absurd (List.length_eq_zero_iff.1 hlen) hq
  | succ d ih =>
    cases h1 : extractMin q with
    | none => exact absurd (extractMin_none.1 h1) hq
    | some p1 =>
      obtain ⟨a, q1⟩ := p1
      have hp1 := extractMin_perm h1
      cases h2 : extractMin q1 with
      | none =>
        obtain rfl := extractMin_none.1 h2
        obtain rfl := List.perm_singleton.1 hp1.symm
        have hk : k = 2 * distinctCount f - 1 := Nat.eq_sub_of_add_eq hm.last_size
        obtain rfl : d = 0 := (Nat.succ.inj hlen).symm
        exact ⟨s.tree, a, by rw [coreRun_some 0 (coreStep_buildMerge_last h), coreRun_zero, hk], hk ▸ hm,
          keepsFrom_refl _ _⟩
      | some p2 =>
        obtain ⟨b, q2⟩ := p2
        have hp2 := extractMin_perm h2
        have hp : (a :: b :: q2).Perm q := (hp2.cons a).trans hp1
        have hafter : ∀ e ∈ b :: q2, a.NotAfter e := fun e he => extractMin_notAfter h1 e (hp2.mem_iff.1 he)
        have hjoin := (hm.perm hp.symm).join hafter (extractMin_notAfter h2)
        have hlen2 : (joinEntry a b k :: q2).length = d := by
          have := hp.length_eq
          simp only [List.length_cons] at this ⊢
          omega
        obtain ⟨tree, root, hrun, hroot, hkeep⟩ := ih (s :=
          { s with
            seq := .run (.buildMerge (joinEntry a b k :: q2) (k + 1) :: ks)
            tree := storeWrite none s.tree k (joinNode a b) }) rfl (List.cons_ne_nil _ _) hjoin hlen2
        have hbelow : k < 2 * distinctCount f - 1 := by
          have := hjoin.toCome
          simp only [List.length_cons] at this
          omega
        refine ⟨tree, root, ?_, hroot, fun j hj => ?_⟩
        · rw [coreRun_some d (coreStep_buildMerge_join h h1 h2), hrun]
        · rw [hkeep j hj, storeGet_storeWrite_none, if_neg (by omega)]

/-! ### The whole task -/

/-- The state that BUILD's body leaves with TREE as in `tree`: the root is the last entry made (R260, R262). -/
def builtWith (tree : Store Node) (s : State) : State :=
  let n := distinctCount s.freq
  { buildBegun s with
    tree := tree
    treeInfo := { root := BitVec.ofNat 9 (2 * n - 2), nodes := BitVec.ofNat 10 (2 * n - 1), rootLeaf := false }
    status := { s.status with phase := .build, treeValid := true }
    ret := counted (2 * n - 2) }

theorem finishBuild_root (h : GreedyMerge s.freq tree [root] (2 * distinctCount s.freq - 1)) (q : Seq) :
    finishBuild root.seq (2 * distinctCount s.freq - 1) { buildBegun s with seq := q, tree := tree } =
      { builtWith tree s with seq := q } := by
  have hseq : root.seq.toNat = 2 * distinctCount s.freq - 2 := h.last_seq
  have hroot : root.seq = BitVec.ofNat 9 (2 * distinctCount s.freq - 2) := by
    rw [← hseq, BitVec.ofNat_toNat, BitVec.setWidth_eq]
  rw [finishBuild, hseq, hroot]
  rfl

/-- BUILD's body with two symbols or more: a core step for the leaves, one for each merge and one for the last lines. -/
theorem coreRun_build (h : s.seq = .run (.build :: ks)) (h2 : 2 ≤ distinctCount s.freq) :
    ∃ (tree : Store Node) (root : QEntry),
      coreRun (distinctCount s.freq + 1) c s = { builtWith tree s with seq := .run ks } ∧
      GreedyMerge s.freq tree [root] (2 * distinctCount s.freq - 1) ∧
      KeepsFrom (2 * distinctCount s.freq - 1) s.tree tree := by
  have hm := greedyMerge_leaves h2 (buildBegun { s with seq := .run ks })
  rw [← leavesWritten_tree] at hm
  have hlen : (leavesFrom s.freq (presentSymbols s.freq) 0).2.length = distinctCount s.freq := by
    have := hm.toCome
    omega
  have hne : (leavesFrom s.freq (presentSymbols s.freq) 0).2 ≠ [] := List.length_pos_iff.1 (by omega)
  obtain ⟨tree, root, hrun, hroot, hkeep⟩ := coreRun_buildMerge (c := c)
    (congrArg State.seq (leavesWritten_frame ks s)) hne hm
  refine ⟨tree, root, ?_, hroot, fun j hj => ?_⟩
  · rw [coreRun_some _ (coreStep_build h h2), ← finishBuild_root hroot, ← hlen, hrun, hlen, leavesWritten_frame]
  · rw [hkeep j hj, leavesWritten_tree]
    refine (storeGet_writeNodes_leavesFrom s.freq (presentSymbols s.freq) 0 _).2 j (.inr ?_)
    rw [← distinctCount]
    omega

/-! ### The statements -/

/-- Settles O29: BUILD's body is its whole task, and the arena with one entry left to extract is the greedy merge's. -/
theorem buildMakesATree : Obligations.BuildMakesATree := by
  rintro s _ hs ht hv rfl h2
  obtain ⟨tree, root, hrun, hm, hkeep⟩ := coreRun_build (c := commandOf .build) (s := opened [.build] s) rfl h2
  obtain ⟨sh, hshape, hnodes, hsymbols⟩ := hm.last_shape
  have hcheck : (commandOf .build).check s = none := checkFlag_true hv
  have hturn : distinctCount s.freq + 1 + 2 ≤ s.turn := by
    have h256 := distinctCount_le s.freq
    have hbound : 2 ^ 60 + 64 * s.inp.length ≤ s.turn := ht
    omega
  have hroot : (BitVec.ofNat 9 (2 * distinctCount s.freq - 2)).toNat = 2 * distinctCount s.freq - 2 := by
    have h256 := distinctCount_le s.freq
    rw [BitVec.toNat_ofNat, Nat.mod_eq_of_lt (by omega)]
  have hexec := exec_of_returns hs hturn hcheck hrun rfl
  refine ⟨_, sh, hexec, ?_, ?_, ?_, hnodes, hsymbols, ?_, ?_⟩
  · simp only [succeeded, builtWith, opened]
    rfl
  · exact hm.builtTree
  · exact (congrArg (shapeOf Config.nodeMax tree) hroot).trans hshape
  · exact hkeep
  · exact hm.last_weight

end Sys2Proof.Machine

/-!
## Shapes

The leaves of a tree and their paths: how many and how long, that no leaf's path begins another's, and what an arena
holds where a tree stands (30_encoding.md R145; 10_state.md R55, R56).
-/

namespace Sys2Proof.Machine

variable {n x : Nat} {m : Store Node} {a b sh : Shape} {sym : Byte} {p q : Byte × List Bool}

/-! ### The arena where a tree stands -/

theorem storeGet_of_shapeOf_leaf (h : shapeOf n m x = some (.leaf sym)) : ∃ w, storeGet m x = some (.leaf sym w) := by
  cases n with
  | zero => cases h
  | succ n =>
    rw [shapeOf] at h
    split at h
    · cases h
    · next sym' w hx => cases h; exact ⟨w, hx⟩
    · split at h <;> cases h

theorem storeGet_of_shapeOf_node (h : shapeOf n m x = some (.node a b)) :
    ∃ l r w k, storeGet m x = some (.internal l r w) ∧ shapeOf k m l.toNat = some a ∧ shapeOf k m r.toNat = some b := by
  cases n with
  | zero => cases h
  | succ n =>
    rw [shapeOf] at h
    split at h
    · cases h
    · cases h
    · next l r w hx =>
      split at h
      · next ha hb => cases h; exact ⟨l, r, w, n, hx, ha, hb⟩
      · cases h

/-! ### Paths -/

@[simp] theorem Shape.mem_paths_leaf : p ∈ (Shape.leaf sym).paths ↔ p = (sym, []) := List.mem_singleton

@[simp] theorem Shape.mem_paths_node : p ∈ (Shape.node a b).paths ↔
    (∃ q ∈ a.paths, (q.1, false :: q.2) = p) ∨ ∃ q ∈ b.paths, (q.1, true :: q.2) = p := by
  simp only [Shape.paths, List.mem_append, List.mem_map]

/-- Each inner node joins two trees: one node less than twice the leaves. -/
theorem Shape.two_mul_leaves (sh : Shape) : 2 * sh.leaves = sh.nodes + 1 := by
  induction sh with
  | leaf sym => rfl
  | node l r ihl ihr =>
    simp only [Shape.leaves, Shape.nodes]
    omega

theorem Shape.leaves_pos (sh : Shape) : 0 < sh.leaves := by
  have := sh.two_mul_leaves
  omega

/-- Every branch of a path leaves a leaf aside. -/
theorem Shape.path_length_lt (hp : p ∈ sh.paths) : p.2.length < sh.leaves := by
  induction sh generalizing p with
  | leaf sym =>
    rw [Shape.mem_paths_leaf.1 hp]
    exact Nat.zero_lt_one
  | node l r ihl ihr =>
    have hl := l.leaves_pos
    have hr := r.leaves_pos
    rw [Shape.leaves]
    obtain ⟨q, hq, rfl⟩ | ⟨q, hq, rfl⟩ := Shape.mem_paths_node.1 hp
    · have := ihl hq
      rw [List.length_cons]
      omega
    · have := ihr hq
      rw [List.length_cons]
      omega

/-- Below a root that is no leaf every path has a branch. -/
theorem Shape.path_length_pos (hs : sh.single = false) (hp : p ∈ sh.paths) : 0 < p.2.length := by
  cases sh with
  | leaf sym => cases hs
  | node l r => obtain ⟨q, -, rfl⟩ | ⟨q, -, rfl⟩ := Shape.mem_paths_node.1 hp <;> exact Nat.succ_pos _

/-- In the arena a path has at most 255 branches. -/
theorem Shape.path_length_le (hn : sh.nodes ≤ 511) (hp : p ∈ sh.paths) : p.2.length ≤ 255 := by
  have := sh.two_mul_leaves
  have := Shape.path_length_lt hp
  omega

/-- A leaf ends its path: no other leaf's path goes on from there (44_code_table.md R283). -/
theorem Shape.eq_of_path_prefix (hp : p ∈ sh.paths) (hq : q ∈ sh.paths) (hpq : p.2 <+: q.2) : p = q := by
  induction sh generalizing p q with
  | leaf sym => rw [Shape.mem_paths_leaf.1 hp, Shape.mem_paths_leaf.1 hq]
  | node l r ihl ihr =>
    obtain ⟨p', hp', rfl⟩ | ⟨p', hp', rfl⟩ := Shape.mem_paths_node.1 hp <;>
      obtain ⟨q', hq', rfl⟩ | ⟨q', hq', rfl⟩ := Shape.mem_paths_node.1 hq <;>
      obtain ⟨hbit, htail⟩ := List.cons_prefix_cons.1 hpq
    · rw [ihl hp' hq' htail]
    · cases hbit
    · cases hbit
    · rw [ihr hp' hq' htail]

/-- The last path is one of the symbol's leaves. -/
theorem Shape.mem_paths_of_lastPath {s : Byte} {path : List Bool} (h : sh.lastPath s = some path) :
    (s, path) ∈ sh.paths := by
  obtain ⟨p, hp, rfl⟩ := List.mem_map.1 (List.mem_of_getLast? h)
  obtain ⟨hmem, hsym⟩ := List.mem_filter.1 hp
  rwa [← of_decide_eq_true hsym]

/-- The symbol of every leaf has a last path. -/
theorem Shape.exists_lastPath (hp : p ∈ sh.paths) : ∃ path, sh.lastPath p.1 = some path := by
  have hmem : p.2 ∈ (sh.paths.filter (fun q => decide (q.1 = p.1))).map Prod.snd :=
    List.mem_map_of_mem (List.mem_filter.2 ⟨hp, decide_eq_true rfl⟩)
  exact ⟨_, List.getLast?_eq_some_getLast (List.ne_nil_of_mem hmem)⟩

end Sys2Proof.Machine

/-!
## GencodeRuns

GENCODE's task on the sequencer: what each round of its walk does with the top of its stack, and the entries that the
walk of a whole tree writes (44_code_table.md R280, R281).
-/

namespace Sys2Proof.Machine

variable {c : Command} {n leaves : Nat} {s : State} {sh : Shape} {ks : List Task} {x l r : NodeIdx} {w : Weight}
  {v : Visited} {sym : Byte} {path : List Bool} {rest : List (NodeIdx × Visited)}

/-! ### The entries of a list of leaves -/

/-- CODE after the entries of leaves are written, in order. -/
def codesWritten (leaves : List (Byte × List Bool)) (cd : Store CodeEntry) : Store CodeEntry :=
  leaves.foldl (fun cd p => storeWrite (some clearedEntry) cd p.1.toNat (entryOfPath p.2)) cd

theorem codesWritten_append (ps qs : List (Byte × List Bool)) (cd : Store CodeEntry) :
    codesWritten (ps ++ qs) cd = codesWritten qs (codesWritten ps cd) := List.foldl_append

/-- A symbol's entry is that of its last leaf, or what was there. -/
theorem codeGet_codesWritten (ps : List (Byte × List Bool)) (cd : Store CodeEntry) (a : Byte) :
    codeGet (codesWritten ps cd) a.toNat =
      ((ps.filter (fun p => decide (p.1 = a))).map Prod.snd).getLast?.elim (codeGet cd a.toNat) entryOfPath := by
  induction ps using List.reverseRecOn with
  | nil => rfl
  | append_singleton ps p ih =>
    have hget : codeGet (codesWritten (ps ++ [p]) cd) a.toNat =
        if a.toNat = p.1.toNat then entryOfPath p.2 else codeGet (codesWritten ps cd) a.toNat := by
      rw [codesWritten_append]
      exact storeWrite_getD ..
    rw [hget, List.filter_append, List.map_append]
    by_cases hp : p.1 = a
    · subst hp
      simp
    · rw [if_neg fun h => hp (BitVec.eq_of_toNat_eq h).symm, ih]
      simp [hp]

/-- The entries of a whole tree, in a table that was cleared. -/
theorem codeGet_codesWritten_paths (sh : Shape) (a : Byte) :
    codeGet (codesWritten sh.paths []) a.toNat = sh.entry a := by
  rw [codeGet_codesWritten, codeGet_nil, Shape.entry, Shape.lastPath]
  split <;> next h => rw [h]; rfl

/-- The leaves of a tree that stands at the end of a path, with their paths from the root. -/
def Shape.pathsFrom (path : List Bool) (sh : Shape) : List (Byte × List Bool) :=
  sh.paths.map (fun p => (p.1, path ++ p.2))

theorem Shape.pathsFrom_nil (sh : Shape) : sh.pathsFrom [] = sh.paths := List.map_id _

theorem Shape.pathsFrom_leaf (path : List Bool) (sym : Byte) : (Shape.leaf sym).pathsFrom path = [(sym, path)] := by
  simp [Shape.pathsFrom, Shape.paths]

theorem Shape.pathsFrom_node (path : List Bool) (l r : Shape) :
    (Shape.node l r).pathsFrom path = l.pathsFrom (path ++ [false]) ++ r.pathsFrom (path ++ [true]) := by
  simp [Shape.pathsFrom, Shape.paths, Function.comp_def]

/-- The state with the entries of leaves written. -/
def withCodes (leaves : List (Byte × List Bool)) (s : State) : State :=
  { s with code := codesWritten leaves s.code }

theorem withCodes_withCodes (ps qs : List (Byte × List Bool)) (s : State) :
    withCodes qs (withCodes ps s) = withCodes (ps ++ qs) s := by
  rw [withCodes, withCodes, withCodes, codesWritten_append]

/-! ### One core step -/

theorem nodeAt_of_storeGet {i : Nat} {e : Node} (h : storeGet s.tree i = some e) : nodeAt s i = e := by
  rw [nodeAt, h]
  rfl

theorem isLeaf_root_of_treeShape (hx : treeShape s = some sh) (hs : sh.single = false) :
    isLeaf (nodeAt s s.treeInfo.root.toNat) = false := by
  cases sh with
  | leaf sym => cases hs
  | node a b =>
    obtain ⟨l, r, w, k, hnode, -, -⟩ := storeGet_of_shapeOf_node hx
    rw [nodeAt_of_storeGet hnode]
    rfl

/-- GENCODE's walk is next, at the given stack, path and count, and `ks` after it. -/
def walking (stack : List (NodeIdx × Visited)) (path : List Bool) (leaves : Nat) (ks : List Task) (s : State) : State :=
  { s with seq := .run (.gencodeWalk stack path leaves :: ks) }

/-- CODE and the flags as GENCODE's first lines leave them. -/
def gencodeBegun (s : State) : State :=
  { s with code := [], status := { s.status with phase := .gencode, codeValid := false } }

theorem coreStep_gencode (h : s.seq = .run (.gencode :: ks)) (hr : isLeaf (nodeAt s s.treeInfo.root.toNat) = false) :
    coreStep c s = some (walking [(s.treeInfo.root, .zero)] [] 0 ks (gencodeBegun s)) := by
  have hrun : runTask .gencode { s with seq := .run ks } =
      .ok (walking [(s.treeInfo.root, .zero)] [] 0 ks (gencodeBegun s)) := if_neg (Bool.eq_false_iff.1 hr)
  rw [coreStep_task h, hrun]

/-- A leaf's entry is written, and the leaf leaves the stack. -/
theorem coreStep_walking_leaf (hx : storeGet s.tree x.toNat = some (.leaf sym w)) :
    coreStep c (walking ((x, v) :: rest) path leaves ks s) =
      some (walking rest (pathAfterPop rest path) (leaves + 1) ks (withCodes [(sym, path)] s)) := by
  have hn : nodeAt { s with seq := .run ks } x.toNat = .leaf sym w := nodeAt_of_storeGet hx
  rw [coreStep_task rfl, runTask, walking, taskGencodeWalk, hn]
  rfl

/-- How the walk goes on at an inner node: its left subtree is next, then its right one, then it leaves the stack. -/
def walkingOn (x l r : NodeIdx) (v : Visited) (rest : List (NodeIdx × Visited)) (path : List Bool) (leaves : Nat)
    (ks : List Task) (s : State) : State :=
  match v with
  | .zero => walking ((l, .zero) :: (x, .one) :: rest) (path ++ [false]) leaves ks s
  | .one => walking ((r, .zero) :: (x, .two) :: rest) (path ++ [true]) leaves ks s
  | .two => walking rest (pathAfterPop rest path) leaves ks s

theorem coreStep_walking_internal (hx : storeGet s.tree x.toNat = some (.internal l r w)) :
    coreStep c (walking ((x, v) :: rest) path leaves ks s) = some (walkingOn x l r v rest path leaves ks s) := by
  have hn : nodeAt { s with seq := .run ks } x.toNat = .internal l r w := nodeAt_of_storeGet hx
  rw [coreStep_task rfl, runTask, walking, taskGencodeWalk, hn]
  cases v <;> rfl

theorem coreStep_walking_end :
    coreStep c (walking [] path leaves ks s) = some
      { s with seq := .run ks, ret := counted leaves, status := { s.status with codeValid := true } } := by
  rw [coreStep_task rfl]
  rfl

/-! ### The walk -/

theorem pathAfterPop_cons (y : NodeIdx × Visited) (b : Bool) : pathAfterPop (y :: rest) (path ++ [b]) = path :=
  List.dropLast_concat

/-- The walk of the tree on top of the stack: one core step a leaf and three an inner node. Its leaves' entries are
written in preorder, the tree leaves the stack, and the path is again the one that led to it. -/
theorem coreRun_walking (hx : shapeOf n s.tree x.toNat = some sh) :
    coreRun (2 * sh.nodes - 1) c (walking ((x, .zero) :: rest) path leaves ks s) =
      walking rest (pathAfterPop rest path) (leaves + sh.leaves) ks (withCodes (sh.pathsFrom path) s) := by
  induction sh generalizing s x rest path leaves n with
  | leaf sym =>
    obtain ⟨w, hleaf⟩ := storeGet_of_shapeOf_leaf hx
    rw [Shape.pathsFrom_leaf]
    exact coreRun_some 0 (coreStep_walking_leaf hleaf)
  | node a b iha ihb =>
    obtain ⟨l, r, w, k, hnode, ha, hb⟩ := storeGet_of_shapeOf_node hx
    have hsteps : 2 * (Shape.node a b).nodes - 1 = 2 * a.nodes - 1 + (2 * b.nodes - 1 + 1 + 1) + 1 := by
      have hapos := a.nodes_pos
      have hbpos := b.nodes_pos
      rw [Shape.nodes]
      omega
    calc coreRun (2 * (Shape.node a b).nodes - 1) c (walking ((x, .zero) :: rest) path leaves ks s)
      _ = coreRun (2 * b.nodes - 1 + 1 + 1) c
            (walking ((x, .one) :: rest) path (leaves + a.leaves) ks (withCodes (a.pathsFrom (path ++ [false])) s)) := by
        rw [hsteps, coreRun_some _ (coreStep_walking_internal hnode), walkingOn, coreRun_add, iha ha,
          pathAfterPop_cons]
      _ = coreRun 1 c
            (walking ((x, .two) :: rest) path (leaves + a.leaves + b.leaves) ks
              (withCodes ((Shape.node a b).pathsFrom path) s)) := by
        rw [coreRun_add, coreRun_some _ (coreStep_walking_internal (s := withCodes _ s) hnode), walkingOn,
          ihb (s := withCodes _ s) hb, pathAfterPop_cons, withCodes_withCodes, ← Shape.pathsFrom_node]
      _ = _ := by
        rw [coreRun_some 0 (coreStep_walking_internal (s := withCodes _ s) hnode), walkingOn, coreRun_zero,
          Shape.leaves, Nat.add_assoc]

/-- GENCODE's task on a tree of two leaves or more. -/
theorem coreRun_gencode (h : s.seq = .run (.gencode :: ks)) (hx : treeShape s = some sh) (hs : sh.single = false) :
    coreRun (2 * sh.nodes + 1) c s =
      { s with
        seq := .run ks, code := codesWritten sh.paths [], ret := counted sh.leaves
        status := { s.status with phase := .gencode, codeValid := true } } := by
  have hroot := isLeaf_root_of_treeShape hx hs
  have hsteps : 2 * sh.nodes + 1 = 2 * sh.nodes - 1 + 1 + 1 := by
    have := sh.nodes_pos
    omega
  rw [hsteps, coreRun_some _ (coreStep_gencode h hroot), coreRun_add, coreRun_walking (s := gencodeBegun s) hx,
    coreRun_some 0 coreStep_walking_end, coreRun_zero, Shape.pathsFrom_nil, Nat.zero_add]
  rfl

end Sys2Proof.Machine

/-!
## CodeTableCommands

GENCODE and EMIT as whole commands: the symbols' entries, of which none's code begins another's, and the codes of BUF
written up to its end or to a byte without a code (44_code_table.md R280 to R283).
-/

namespace Sys2Proof.Machine

variable {c : Command} {j n : Nat} {s : State} {sh : Shape} {ks : List Task} {a : Byte} {x : List Byte}

/-! ### Codes -/

theorem bitsOf_valueOfBits {m : Nat} {bits : List Bool} (h : bits.length ≤ m) :
    bitsOf bits.length (valueOfBits m bits) = bits := by
  apply List.ext_getElem?
  intro i
  rw [bitsOf_getElem?, valueOfBits_getLsbD]
  by_cases hi : i < bits.length
  · rw [if_pos hi, List.getElem?_eq_getElem hi, decide_eq_true (by omega), Bool.true_and, Option.getD_some]
  · rw [if_neg hi, List.getElem?_eq_none (Nat.le_of_not_lt hi)]

theorem entryOfPath_len {path : List Bool} (h : path.length ≤ 255) : (entryOfPath path).len.toNat = path.length :=
  Nat.mod_eq_of_lt (Nat.lt_succ_of_le h)

/-- The code of an entry made from a path is the path (44_code_table.md R281). -/
theorem codeBits_entryOfPath {path : List Bool} (h : path.length ≤ 255) : codeBits (entryOfPath path) = path := by
  rw [codeBits, entryOfPath_len h]
  exact bitsOf_valueOfBits h

/-- A symbol with a code has a leaf, and its code is the leaf's path. -/
theorem Shape.codeBits_entry (hn : sh.nodes ≤ 511) (h : (sh.entry a).len ≠ 0) :
    (a, codeBits (sh.entry a)) ∈ sh.paths := by
  rw [Shape.entry] at h ⊢
  split at h
  · next path hpath =>
    have hmem := Shape.mem_paths_of_lastPath hpath
    rwa [codeBits_entryOfPath (Shape.path_length_le hn hmem)]
  · exact absurd rfl h

/-- The symbol of every leaf has a code of one bit or more (R283). -/
theorem Shape.entry_len_pos {p : Byte × List Bool} (hn : sh.nodes ≤ 511) (hs : sh.single = false)
    (hp : p ∈ sh.paths) : 1 ≤ (sh.entry p.1).len.toNat := by
  obtain ⟨path, hpath⟩ := Shape.exists_lastPath hp
  have hmem := Shape.mem_paths_of_lastPath hpath
  rw [Shape.entry, hpath, entryOfPath_len (Shape.path_length_le hn hmem)]
  exact Shape.path_length_pos hs hmem

/-- No code begins the code of another symbol (R283). -/
theorem Shape.eq_of_codeBits_prefix {b : Byte} (hn : sh.nodes ≤ 511) (ha : (sh.entry a).len ≠ 0)
    (hb : (sh.entry b).len ≠ 0) (h : codeBits (sh.entry a) <+: codeBits (sh.entry b)) : a = b :=
  congrArg Prod.fst (Shape.eq_of_path_prefix (Shape.codeBits_entry hn ha) (Shape.codeBits_entry hn hb) h)

/-! ### EMIT's loop -/

/-- writeBits changes the packer, OUT and the count of the bytes pushed. -/
theorem writeBits_frame (bits : List Bool) (s : State) :
    writeBits bits s =
      { s with wr := (writeBits bits s).wr, out := (writeBits bits s).out, pushed := (writeBits bits s).pushed } := by
  induction bits generalizing s with
  | nil => rfl
  | cons b bs ih =>
    rw [writeBits, ih]
    rcases writeBit_cases b s with ⟨-, h⟩ | ⟨-, h⟩ <;> rw [h]

@[simp] theorem writeBits_code (bits : List Bool) (s : State) : (writeBits bits s).code = s.code := by
  rw [writeBits_frame]

@[simp] theorem writeBits_inLen (bits : List Bool) (s : State) : (writeBits bits s).inLen = s.inLen := by
  rw [writeBits_frame]

@[simp] theorem bufAt_writeBits (bits : List Bool) (s : State) (j : Nat) :
    bufAt (writeBits bits s) j = bufAt s j := by
  rw [writeBits_frame]
  rfl

@[simp] theorem bufBytes_writeBits (bits : List Bool) (s : State) (n : Nat) :
    bufBytes (writeBits bits s) n = bufBytes s n := List.map_congr_left fun j _ => bufAt_writeBits bits s j

theorem bufBytes_length (s : State) (n : Nat) : (bufBytes s n).length = n := by simp [bufBytes]

/-- What stands at the head of BUF from index j on is BUF[j]. -/
theorem bufAt_of_drop {b : Byte} (h : (bufBytes s n).drop j = b :: x) :
    j < n ∧ bufAt s j = b ∧ (bufBytes s n).drop (j + 1) = x := by
  have hj : (bufBytes s n)[j]? = some b := by rw [← List.head?_drop, h]; rfl
  have hlt : j < n := by
    obtain ⟨hlt, -⟩ := List.getElem?_eq_some_iff.1 hj
    rwa [bufBytes_length] at hlt
  refine ⟨hlt, ?_, ?_⟩
  · simpa [bufBytes, hlt] using hj
  · rw [← List.tail_drop, h, List.tail_cons]

/-- The codes of bytes, one after the other (44_code_table.md R282). -/
def codesOf (cd : Store CodeEntry) (x : List Byte) : List Bool := x.flatMap (fun b => codeBits (codeGet cd b.toNat))

theorem codesOf_cons (cd : Store CodeEntry) (b : Byte) (x : List Byte) :
    codesOf cd (b :: x) = codeBits (codeGet cd b.toNat) ++ codesOf cd x := List.flatMap_cons

/-- A code has at most 255 bits. -/
theorem codesOf_length_le (cd : Store CodeEntry) (x : List Byte) : (codesOf cd x).length ≤ 255 * x.length := by
  induction x with
  | nil => exact Nat.le_refl _
  | cons b x ih =>
    have hlen := (codeGet cd b.toNat).len.isLt
    rw [codesOf_cons, List.length_append, List.length_cons, codeBits, bitsOf_length]
    omega

/-- EMIT's loop is next, at byte j with n bits counted, and `ks` after it. -/
def emitting (j n : Nat) (ks : List Task) (s : State) : State := { s with seq := .run (.emitLoop j n :: ks) }

theorem coreStep_emit (h : s.seq = .run (.emit :: ks)) :
    coreStep c s = some (emitting 0 0 ks (setPhase .emit s)) := by
  rw [coreStep_task h]
  rfl

theorem coreStep_emitting_code (hj : j < s.inLen.toNat) (hc : (codeGet s.code (bufAt s j).toNat).len ≠ 0) :
    coreStep c (emitting j n ks s) = some
      { s with
        seq := .run (.put (codeBits (codeGet s.code (bufAt s j).toNat)) ::
          .emitLoop (j + 1) (n + (codeGet s.code (bufAt s j).toNat).len.toNat) :: ks) } := by
  have hr : taskEmitLoop j n { s with seq := .run ks } = .ok
      { s with
        seq := .run (.put (codeBits (codeGet s.code (bufAt s j).toNat)) ::
          .emitLoop (j + 1) (n + (codeGet s.code (bufAt s j).toNat).len.toNat) :: ks) } :=
    (if_neg (Nat.not_le.2 hj)).trans (if_neg hc)
  rw [coreStep_task rfl, runTask, emitting, hr]

theorem coreStep_emitting_noCode (hj : j < s.inLen.toNat) (hc : (codeGet s.code (bufAt s j).toNat).len = 0) :
    coreStep c (emitting j n ks s) = some (raiseError c .noCode s) := by
  have hr : taskEmitLoop j n { s with seq := .run ks } = .err .noCode { s with seq := .run ks } :=
    (if_neg (Nat.not_le.2 hj)).trans (if_pos hc)
  rw [coreStep_task rfl, runTask, emitting, hr]
  rfl

theorem coreStep_emitting_end (hj : s.inLen.toNat ≤ j) :
    coreStep c (emitting j n ks s) = some (setRet n { s with seq := .run ks }) := by
  have hr : taskEmitLoop j n { s with seq := .run ks } = .ok (setRet n { s with seq := .run ks }) := if_pos hj
  rw [coreStep_task rfl, runTask, emitting, hr]

/-- One round of EMIT's loop at a byte with a code: the code is written, in one core step a bit and two beside. -/
theorem coreRun_emitting_code (hj : j < s.inLen.toNat) (hc : (codeGet s.code (bufAt s j).toNat).len ≠ 0) :
    coreRun ((codeBits (codeGet s.code (bufAt s j).toNat)).length + 2) c (emitting j n ks s) =
      emitting (j + 1) (n + (codeBits (codeGet s.code (bufAt s j).toNat)).length) ks
        (writeBits (codeBits (codeGet s.code (bufAt s j).toNat)) s) := by
  have hlen : (codeBits (codeGet s.code (bufAt s j).toNat)).length = (codeGet s.code (bufAt s j).toNat).len.toNat :=
    bitsOf_length ..
  rw [coreRun_some _ (coreStep_emitting_code hj hc), coreRun_put _ _ rfl, writeBits_setSeq, hlen]
  rfl

/-- EMIT's loop on bytes that have codes: they are written in order. -/
theorem coreRun_emitting (x : List Byte) {more : List Byte} (hx : (bufBytes s s.inLen.toNat).drop j = x ++ more)
    (hc : ∀ b ∈ x, (codeGet s.code b.toNat).len ≠ 0) :
    coreRun ((codesOf s.code x).length + 2 * x.length) c (emitting j n ks s) =
      emitting (j + x.length) (n + (codesOf s.code x).length) ks (writeBits (codesOf s.code x) s) := by
  induction x generalizing s j n with
  | nil => rfl
  | cons b x ih =>
    obtain ⟨hb, hrestCodes⟩ := List.forall_mem_cons.1 hc
    obtain ⟨hj, rfl, hdrop⟩ := bufAt_of_drop hx
    have hrest := ih (s := writeBits (codeBits (codeGet s.code (bufAt s j).toNat)) s) (j := j + 1)
      (n := n + (codeBits (codeGet s.code (bufAt s j).toNat)).length) (by simpa using hdrop)
      (by simpa using hrestCodes)
    rw [writeBits_code] at hrest
    have hsteps : (codesOf s.code (bufAt s j :: x)).length + 2 * (bufAt s j :: x).length =
        (codeBits (codeGet s.code (bufAt s j).toNat)).length + 2 + ((codesOf s.code x).length + 2 * x.length) := by
      rw [codesOf_cons, List.length_append, List.length_cons]
      omega
    rw [hsteps, coreRun_add, coreRun_emitting_code hj hb, hrest, codesOf_cons, writeBits_append, List.length_append,
      List.length_cons, Nat.add_assoc n, Nat.add_right_comm j 1, Nat.add_assoc j]

/-- EMIT from its start through the bytes of BUF that `x` lists. -/
theorem coreRun_emit (x : List Byte) {more : List Byte} (h : s.seq = .run (.emit :: ks))
    (hx : bufBytes s s.inLen.toNat = x ++ more) (hc : ∀ b ∈ x, (codeGet s.code b.toNat).len ≠ 0) :
    coreRun ((codesOf s.code x).length + 2 * x.length + 1) c s =
      emitting x.length (codesOf s.code x).length ks (writeBits (codesOf s.code x) (setPhase .emit s)) := by
  have hloop := coreRun_emitting (c := c) (s := setPhase .emit s) (j := 0) (n := 0) (ks := ks) x hx hc
  rw [coreRun_some _ (coreStep_emit h)]
  rwa [Nat.zero_add, Nat.zero_add] at hloop

/-- EMIT's task where every byte of BUF has a code. -/
theorem coreRun_emit_end (h : s.seq = .run (.emit :: ks))
    (hc : ∀ b ∈ bufBytes s s.inLen.toNat, (codeGet s.code b.toNat).len ≠ 0) :
    coreRun ((codesOf s.code (bufBytes s s.inLen.toNat)).length + 2 * (bufBytes s s.inLen.toNat).length + 1 + 1) c s =
      setRet (codesOf s.code (bufBytes s s.inLen.toNat)).length
        { writeBits (codesOf s.code (bufBytes s s.inLen.toNat)) (setPhase .emit s) with seq := .run ks } := by
  rw [coreRun_add, coreRun_emit _ h (List.append_nil _).symm hc, coreRun_some 0 (coreStep_emitting_end ?_),
    coreRun_zero]
  rw [writeBits_inLen, setPhase_inLen, bufBytes_length]

/-- EMIT's task up to a byte without a code. -/
theorem coreRun_emit_noCode {pre post : List Byte} {b : Byte} (h : s.seq = .run (.emit :: ks))
    (hx : bufBytes s s.inLen.toNat = pre ++ b :: post) (hpre : ∀ b ∈ pre, (codeGet s.code b.toNat).len ≠ 0)
    (hb : (codeGet s.code b.toNat).len = 0) :
    coreRun ((codesOf s.code pre).length + 2 * pre.length + 1 + 1) c s =
      raiseError c .noCode (writeBits (codesOf s.code pre) (setPhase .emit s)) := by
  obtain ⟨hj, rfl, -⟩ := bufAt_of_drop (s := s) (j := pre.length) (by rw [hx, List.drop_left])
  rw [coreRun_add, coreRun_emit pre h hx hpre, coreRun_some 0 (coreStep_emitting_noCode ?_ ?_), coreRun_zero]
  · rwa [writeBits_inLen]
  · rwa [writeBits_code, bufAt_writeBits]

/-- A full turn has the core steps of EMIT. -/
theorem emit_steps_le (ht : FullTurn s) (cd : Store CodeEntry) (hx : x.length ≤ s.inLen.toNat) :
    (codesOf cd x).length + 2 * x.length + 1 + 1 + 2 ≤ s.turn := by
  have hcodes := codesOf_length_le cd x
  have hlen := s.inLen.isLt
  have hbound : 2 ^ 60 + 64 * s.inp.length ≤ s.turn := ht
  omega

/-! ### The statements -/

/-- Settles O32: GENCODE's body is its whole task, and a symbol's entry is the last one that the walk wrote for it. -/
theorem gencodeWritesThePaths : Obligations.GencodeWritesThePaths := by
  intro s sh hs ht hv hx hsingle hn
  have hbody := coreRun_gencode (c := commandOf .gencode) (s := opened [.gencode] s) rfl hx hsingle
  have hcheck : (commandOf .gencode).check s = none := checkFlag_true hv
  have hbound : 2 ^ 60 + 64 * s.inp.length ≤ s.turn := ht
  exact ⟨codesWritten sh.paths [], exec_of_returns hs (by omega) hcheck hbody rfl, codeGet_codesWritten_paths sh⟩

/-- Settles O33: codes are paths of leaves, and no leaf's path begins another leaf's. -/
theorem codesArePrefixFree : Obligations.CodesArePrefixFree := by
  intro s sh hs ht hv hx hsingle hn
  obtain ⟨cd, hexec, hentry⟩ := gencodeWritesThePaths s sh hs ht hv hx hsingle hn
  refine ⟨_, hexec, rfl, ?_⟩
  simp only [succeeded, hentry]
  exact ⟨fun p hp => Shape.entry_len_pos hn hsingle hp,
    fun a b hab ha hb hprefix => hab (Shape.eq_of_codeBits_prefix hn ha hb hprefix)⟩

theorem check_emit_none (hb : s.status.bufValid = true) (hc : s.status.codeValid = true) :
    (commandOf .emit).check s = none := checkFlag_true (by rw [hb, hc]; rfl)

/-- Settles O34: EMIT's loop goes through all of BUF, and ends there. -/
theorem emitWritesTheCodes : Obligations.EmitWritesTheCodes := by
  intro s hs ht hw hb hv hc bits
  have hbody := coreRun_emit_end (c := commandOf .emit) (s := opened [.emit] s) rfl hc
  have hsteps := emit_steps_le ht s.code (bufBytes_length s s.inLen.toNat).le
  rw [writeBits_eq_packed (s := setPhase .emit (opened [.emit] s)) _ hw] at hbody
  exact exec_of_returns hs hsteps (check_emit_none hb hv) hbody rfl

/-- Settles O35: EMIT's loop goes through the bytes before the one without a code, and raises NO_CODE there. -/
theorem emitStopsWithoutACode : Obligations.EmitStopsWithoutACode := by
  intro s pre post b hs ht hw hb hv hx hpre hcode
  have hbody := coreRun_emit_noCode (c := commandOf .emit) (s := opened [.emit] s) rfl hx hpre hcode
  have hlen : pre.length ≤ s.inLen.toNat := by
    rw [← bufBytes_length s s.inLen.toNat, hx, List.length_append]
    exact Nat.le_add_right _ _
  have hsteps := emit_steps_le ht s.code hlen
  rw [writeBits_eq_packed (s := setPhase .emit (opened [.emit] s)) _ hw] at hbody
  have hexec := exec_of_fail hs hsteps (check_emit_none hb hv) hbody rfl
  exact hexec

end Sys2Proof.Machine

/-!
## SerializeRuns

SERIALIZE's task on the sequencer: a tree on top of its stack is written in preorder; and SERIALIZE as a whole command
(45_tree_serializer.md R300; 30_encoding.md R145).
-/

namespace Sys2Proof.Machine

variable {c : Command} {n : Nat} {s : State} {sh : Shape} {ks : List Task} {x l r : NodeIdx} {w : Weight} {sym : Byte}
  {stack : List NodeIdx}

/-! ### The length of a serialized tree -/

/-- Ten bits a leaf, and one less an inner node (R304): 10L - 1. -/
theorem Shape.bits_length (sh : Shape) : sh.bits.length + 1 = 10 * sh.leaves := by
  induction sh with
  | leaf sym => simp [Shape.bits, Shape.leaves, bitsOf_length]
  | node a b iha ihb =>
    simp only [Shape.bits, Shape.leaves, List.length_cons, List.length_append]
    omega

/-! ### One core step -/

/-- SERIALIZE's loop is next, at the given stack with n bits counted, and `ks` after it. -/
def serializing (stack : List NodeIdx) (n : Nat) (ks : List Task) (s : State) : State :=
  { s with seq := .run (.serializeWalk stack n :: ks) }

theorem coreStep_serialize (h : s.seq = .run (.serialize :: ks)) :
    coreStep c s = some (serializing [s.treeInfo.root] 0 ks (setPhase .serialize s)) := by
  rw [coreStep_task h]
  rfl

theorem coreStep_serializing_leaf (hx : storeGet s.tree x.toNat = some (.leaf sym w)) :
    coreStep c (serializing (x :: stack) n ks s) =
      some { s with seq := .run (.put (leafBits sym) :: .serializeWalk stack (n + 9) :: ks) } := by
  have hn : nodeAt { s with seq := .run ks } x.toNat = .leaf sym w := nodeAt_of_storeGet hx
  rw [coreStep_task rfl, runTask, serializing, taskSerializeWalk, hn]
  rfl

theorem coreStep_serializing_internal (hx : storeGet s.tree x.toNat = some (.internal l r w)) :
    coreStep c (serializing (x :: stack) n ks s) =
      some { s with seq := .run (.put [true] :: .serializeWalk (l :: r :: stack) (n + 1) :: ks) } := by
  have hn : nodeAt { s with seq := .run ks } x.toNat = .internal l r w := nodeAt_of_storeGet hx
  rw [coreStep_task rfl, runTask, serializing, taskSerializeWalk, hn]
  rfl

theorem coreStep_serializing_end :
    coreStep c (serializing [] n ks s) = some { s with seq := .run ks, ret := counted n } := by
  rw [coreStep_task rfl]
  rfl

/-! ### The walk -/

@[simp] theorem writeBits_tree (bits : List Bool) (s : State) : (writeBits bits s).tree = s.tree := by
  rw [writeBits_frame]

/-- The bits of one node. -/
theorem coreRun_serializing_put (bits : List Bool) (s : State) :
    coreRun (bits.length + 1) c { s with seq := .run (.put bits :: .serializeWalk stack n :: ks) } =
      serializing stack n ks (writeBits bits s) := by
  rw [coreRun_put bits (.serializeWalk stack n :: ks) rfl, writeBits_setSeq]
  rfl

/-- The tree on top of the stack: each bit is written, in a core step of its own, with two more for each node. -/
theorem coreRun_serializing (hx : shapeOf n s.tree x.toNat = some sh) (k : Nat) :
    coreRun (sh.bits.length + 2 * sh.nodes) c (serializing (x :: stack) k ks s) =
      serializing stack (k + sh.bits.length) ks (writeBits sh.bits s) := by
  induction sh generalizing s x stack k n with
  | leaf sym =>
    obtain ⟨w, hleaf⟩ := storeGet_of_shapeOf_leaf hx
    exact (coreRun_some 10 (coreStep_serializing_leaf hleaf)).trans (coreRun_serializing_put (leafBits sym) s)
  | node a b iha ihb =>
    obtain ⟨l, r, w, m, hnode, ha, hb⟩ := storeGet_of_shapeOf_node hx
    have hsteps : (Shape.node a b).bits.length + 2 * (Shape.node a b).nodes =
        [true].length + 1 + (a.bits.length + 2 * a.nodes + (b.bits.length + 2 * b.nodes)) + 1 := by
      simp only [Shape.bits, Shape.nodes, List.length_cons, List.length_append, List.length_nil]
      omega
    have hbits : (Shape.node a b).bits = [true] ++ (a.bits ++ b.bits) := rfl
    rw [hsteps, coreRun_some _ (coreStep_serializing_internal hnode), coreRun_add, coreRun_serializing_put,
      coreRun_add,
      iha (by rwa [writeBits_tree]), ihb (by rwa [writeBits_tree, writeBits_tree]), hbits, writeBits_append,
      writeBits_append]
    simp only [List.length_append, List.length_singleton, Nat.add_assoc]

/-- SERIALIZE's task. -/
theorem coreRun_serialize (h : s.seq = .run (.serialize :: ks)) (hx : treeShape s = some sh) :
    coreRun (sh.bits.length + 2 * sh.nodes + 1 + 1) c s =
      { writeBits sh.bits (setPhase .serialize s) with seq := .run ks, ret := counted sh.bits.length } := by
  rw [coreRun_some _ (coreStep_serialize h), coreRun_add, coreRun_serializing (s := setPhase .serialize s) hx,
    coreRun_some 0 coreStep_serializing_end, coreRun_zero, Nat.zero_add]

/-! ### The statements -/

/-- Settles O36: SERIALIZE's body is its whole task, which writes the bits of the tree at ROOT. -/
theorem serializeWritesTheTree : Obligations.SerializeWritesTheTree := by
  intro s sh hs ht hw hv hx hn
  have hlen : sh.bits.length = 10 * sh.leaves - 1 := by
    have := sh.bits_length
    omega
  have hbody := coreRun_serialize (c := commandOf .serialize) (s := opened [.serialize] s) rfl hx
  have hsteps : sh.bits.length + 2 * sh.nodes + 1 + 1 + 2 ≤ s.turn := by
    have := sh.two_mul_leaves
    have hbound : 2 ^ 60 + 64 * s.inp.length ≤ s.turn := ht
    omega
  rw [writeBits_eq_packed (s := setPhase .serialize (opened [.serialize] s)) _ hw, hlen] at hbody
  rw [hlen] at hsteps
  exact exec_of_returns (i := .serialize) hs hsteps (checkFlag_true hv) hbody rfl

end Sys2Proof.Machine

/-!
## GenuineBits

The genuine bits of the stream are what readBit delivers, one after the other, before NA (41_bitio.md R204;
47_decoder.md R341), and what readBits cuts into fields (R205).
-/

namespace Sys2Proof.Machine

variable {c : Command} {b : Bool} {n : Nat} {bits more : List Bool} {rest : List InTok} {s t u : State}

/-! ### What a read leaves of the unpacker and of the tokens ahead -/

/-- `t` has the unpacker and the tokens of `s` after n bits are read: RD_FILL is within the byte, the limit is the same,
and where RD_EOS = 1 the bits are taken from those held and no token is consumed (41_bitio.md R204). -/
structure ReadOn (n : Nat) (s t : State) : Prop where
  unpk : t.unpk = s.unpk
  fill : t.rd.fill.toNat ≤ 8
  held : s.rd.eos = true →
    t.rd = { s.rd with fill := s.rd.fill - BitVec.ofNat 4 n } ∧ ahead t = ahead s ∧
      (s.unpk.limitEn = false → t.la = s.la ∧ t.inp = s.inp)

theorem readOn_zero (hf : s.rd.fill.toNat ≤ 8) : ReadOn 0 s s :=
  ⟨rfl, hf, fun _ => ⟨by simp, rfl, fun _ => ⟨rfl, rfl⟩⟩⟩

theorem readOn_of_open (hf : t.rd.fill.toNat ≤ 8) (hu : t.unpk = s.unpk) (he : s.rd.eos = false) : ReadOn n s t :=
  ⟨hu, hf, fun h => by rw [he] at h; cases h⟩

theorem ReadOn.trans {m : Nat} (h : ReadOn m s t) (k : ReadOn n t u) : ReadOn (m + n) s u := by
  refine ⟨k.unpk.trans h.unpk, k.fill, fun he => ?_⟩
  obtain ⟨hrd, hahead, hstill⟩ := h.held he
  obtain ⟨krd, kahead, kstill⟩ := k.held (by rw [hrd]; exact he)
  refine ⟨?_, kahead.trans hahead, fun hl => ?_⟩
  · rw [krd, hrd, BitVec.ofNat_add, ← sub_sub]
  · obtain ⟨hla, hinp⟩ := hstill hl
    obtain ⟨kla, kinp⟩ := kstill (h.unpk ▸ hl)
    exact ⟨kla.trans hla, kinp.trans hinp⟩

/-- The stream has ended: RD_EOS = 1, or the limit's peek has found the End (47_decoder.md R341). -/
def AtStreamEnd (t : State) : Prop := t.rd.eos = true ∨ t.la = some .eos

/-- The state after a peek at the token k. -/
def peeked (k : InTok) (rest : List InTok) (s : State) : State := { s with la := some k, inp := rest }

/-! ### The bits held -/

/-- The limit asks for a peek before the next bit held (47_decoder.md R341). -/
def LimitReached (s : State) : Prop := s.unpk.limitEn = true ∧ s.unpk.limitMb.toNat ≤ 8 - s.rd.fill.toNat

/-- The next token is the End of the stream. -/
def endIsNext (s : State) : Bool := decide ((ahead s).head? = some .eos)

theorem noneHeld_iff_limitReached (h0 : s.rd.fill ≠ 0) : noneHeld s = true ↔ LimitReached s := by
  rw [noneHeld, decide_eq_false h0, Bool.false_or, Bool.and_eq_true, decide_eq_true_eq, LimitReached]

theorem heldBits_of_limitReached (hf : s.rd.fill.toNat ≤ 8) (h0 : s.rd.fill ≠ 0) (h : LimitReached s) :
    heldBits true s = [] := heldBits_of_noneHeld hf ((noneHeld_iff_limitReached h0).2 h)

/-- The bits of a byte that is not the last are those of a byte without a limit. -/
theorem heldBits_false (s : State) :
    heldBits false s = heldBits true { s with unpk := { s.unpk with limitEn := false } } := by simp [heldBits]

theorem heldBits_of_fill_zero (final : Bool) (h0 : s.rd.fill = 0) : heldBits final s = [] := by
  have key (u : State) (hu : u.rd.fill = 0) : heldBits true u = [] :=
    heldBits_of_noneHeld (by rw [hu]; exact Nat.zero_le 8) (by simp [noneHeld, hu])
  cases final
  · rw [heldBits_false]
    exact key _ h0
  · exact key s h0

/-- The next bit held is the first of them, in a byte that the limit does not end there. -/
theorem heldBits_cons {final : Bool} (hf : s.rd.fill.toNat ≤ 8) (h0 : s.rd.fill ≠ 0)
    (h : final = true → ¬LimitReached s) : heldBits final s = nextHeld s :: heldBits final (dropHeld s) := by
  cases final
  · rw [heldBits_false, heldBits_false]
    exact heldBits_eq_cons hf (by rw [noneHeld, decide_eq_false h0]; rfl)
  · refine heldBits_eq_cons hf (Bool.eq_false_iff.2 fun hn => ?_)
    exact h rfl ((noneHeld_iff_limitReached h0).1 hn)

theorem readHeld_of_not_limitReached (h : ¬LimitReached s) : readHeld s = some (some (nextHeld s), dropHeld s) :=
  if_neg h

theorem readHeld_of_limitReached (h : LimitReached s) {k : InTok} (ha : ahead s = k :: rest) :
    readHeld s =
      some (if k = .eos then (none, peeked k rest s) else (some (nextHeld s), dropHeld (peeked k rest s))) := by
  rw [readHeld]
  refine (if_pos h).trans ?_
  rw [inPeek_of_ahead ha]
  cases k <;> rfl

theorem heldNeedsPeek_of_limitReached (h0 : s.rd.fill ≠ 0) (h : LimitReached s) : heldNeedsPeek s = true := by
  obtain ⟨hen, hmb⟩ := h
  have hlt : s.unpk.limitMb.toNat < 8 := by bv_omega
  rw [heldNeedsPeek, hen, decide_eq_true h0, decide_eq_true hlt]
  rfl

/-! ### The genuine bits -/

theorem genuineBits_atEnd (he : s.rd.eos = true) :
    genuineBits s = if heldNeedsPeek s = true ∧ ahead s = [] then none else some (heldBits (endIsNext s) s) := if_pos he

theorem genuineBits_open (he : s.rd.eos = false) :
    genuineBits s = (genuineTokens s.unpk (ahead s)).map (heldBits (endIsNext s) s ++ ·) := by
  refine (if_neg (by rw [he]; nofun)).trans ?_
  rw [endIsNext]
  cases genuineTokens s.unpk (ahead s) <;> rfl

/-- A peek changes no genuine bit. -/
theorem genuineBits_peeked {k : InTok} (ha : ahead s = k :: rest) : genuineBits (peeked k rest s) = genuineBits s := by
  have hahead : ahead (peeked k rest s) = ahead s := ha.symm
  unfold genuineBits
  rw [hahead]
  rfl

/-- Where the next bit is there to be delivered it is the first genuine one. -/
theorem genuineBits_dropHeld (hf : s.rd.fill.toNat ≤ 8) (h0 : s.rd.fill ≠ 0)
    (h : endIsNext s = true → ¬LimitReached s) (hg : genuineBits s = some bits) :
    ∃ more, bits = nextHeld s :: more ∧ genuineBits (dropHeld s) = some more := by
  have hcons := heldBits_cons hf h0 h
  cases he : s.rd.eos
  · have he' : (dropHeld s).rd.eos = false := he
    rw [genuineBits_open he, hcons] at hg
    obtain ⟨more, hmore, rfl⟩ := Option.map_eq_some_iff.1 hg
    exact ⟨_, rfl, (genuineBits_open he').trans (congrArg (Option.map _) hmore)⟩
  · have he' : (dropHeld s).rd.eos = true := he
    rw [genuineBits_atEnd he] at hg
    split at hg
    · cases hg
    · next hn =>
      have hn' : ¬(heldNeedsPeek (dropHeld s) = true ∧ ahead (dropHeld s) = []) := fun ⟨hp, ha⟩ => by
        refine hn ⟨?_, ha⟩
        simp only [heldNeedsPeek, Bool.and_eq_true, decide_eq_true_eq] at hp ⊢
        obtain ⟨⟨hl, -⟩, hlimit⟩ := hp
        exact ⟨⟨hl, h0⟩, hlimit⟩
      refine ⟨_, (Option.some.inj hg).symm.trans hcons, ?_⟩
      rw [genuineBits_atEnd he', if_neg hn']
      rfl

/-- A byte taken is held: no genuine bit changes. -/
theorem genuineBits_byteTaken {x : Byte} (h0 : s.rd.fill = 0) (he : s.rd.eos = false)
    (ha : ahead s = .byte x :: rest) : genuineBits (byteTaken x rest s) = genuineBits s := by
  have hahead : ahead (byteTaken x rest s) = rest := rfl
  have hunpk : (byteTaken x rest s).unpk = s.unpk := rfl
  rw [genuineBits_open he, genuineBits_open (s := byteTaken x rest s) rfl, heldBits_of_fill_zero _ h0, ha, hahead,
    hunpk, genuineTokens]
  cases hmore : genuineTokens s.unpk rest with
  | none => rfl
  | some more =>
    have hheld (final : Bool) : heldBits final (byteTaken x rest s) =
        if s.unpk.limitEn = true ∧ final = true then (bitsOf 8 x).take s.unpk.limitMb.toNat else bitsOf 8 x := rfl
    simp only [hheld, endIsNext, hahead, decide_eq_true_eq]
    by_cases hl : s.unpk.limitEn = true ∧ rest.head? = some .eos
    · obtain ⟨rest', rfl⟩ : ∃ rest', rest = .eos :: rest' := List.head?_eq_some_iff.1 hl.2
      obtain rfl : [] = more := Option.some.inj hmore
      simp [hl.1]
    · simp [hl]

/-! ### readBit -/

/-- What a read of one bit answers where the genuine bits are those given: the first of them, or NA at their end. -/
def Delivers (s : State) : List Bool → Option (Option Bool × State) → Prop
  | [], r => ∃ t, r = some (none, t) ∧ AtStreamEnd t ∧ ReadOn 0 s t
  | b :: more, r => ∃ t, r = some (some b, t) ∧ genuineBits t = some more ∧ ReadOn 1 s t

/-- A read goes on from `t`, which `s` comes to without reading a bit. -/
theorem Delivers.of_readOn {r : Option (Option Bool × State)} (hd : Delivers t bits r) (h : ReadOn 0 s t) :
    Delivers s bits r := by
  cases bits with
  | nil =>
    obtain ⟨u, hu, hend, hread⟩ := hd
    exact ⟨u, hu, hend, h.trans hread⟩
  | cons b more =>
    obtain ⟨u, hu, hmore, hread⟩ := hd
    exact ⟨u, hu, hmore, h.trans hread⟩

/-- A bit held and delivered. -/
theorem delivers_dropHeld (hf : s.rd.fill.toNat ≤ 8) (h0 : s.rd.fill ≠ 0) (h : endIsNext s = true → ¬LimitReached s)
    (hg : genuineBits s = some bits) : Delivers s bits (some (some (nextHeld s), dropHeld s)) := by
  obtain ⟨more, rfl, hmore⟩ := genuineBits_dropHeld hf h0 h hg
  exact ⟨_, rfl, hmore, rfl, dropHeld_fill h0 hf, fun _ => ⟨rfl, rfl, fun _ => ⟨rfl, rfl⟩⟩⟩

theorem readOn_peeked {k : InTok} (ha : ahead s = k :: rest) (hf : s.rd.fill.toNat ≤ 8) (hl : s.unpk.limitEn = true) :
    ReadOn 0 s (peeked k rest s) :=
  ⟨rfl, hf, fun _ => ⟨by simp [peeked], ha.symm, fun h => by rw [hl] at h; cases h⟩⟩

theorem readHeld_delivers (hf : s.rd.fill.toNat ≤ 8) (h0 : s.rd.fill ≠ 0) (hg : genuineBits s = some bits) :
    Delivers s bits (readHeld s) := by
  by_cases h : LimitReached s
  · rcases ha : ahead s with _ | ⟨k, rest⟩
    · cases he : s.rd.eos
      · rw [genuineBits_open he, ha] at hg
        cases hg
      · rw [genuineBits_atEnd he, if_pos ⟨heldNeedsPeek_of_limitReached h0 h, ha⟩] at hg
        cases hg
    · have hpeek := readOn_peeked ha hf h.1
      rw [readHeld_of_limitReached h ha]
      cases k with
      | eos =>
        have hnext : endIsNext s = true := by simp [endIsNext, ha]
        have hnone : bits = [] := by
          have hheld := heldBits_of_limitReached hf h0 h
          cases he : s.rd.eos
          · rw [genuineBits_open he, ha, hnext, hheld] at hg
            exact (Option.some.inj hg).symm
          · rw [genuineBits_atEnd he, hnext, hheld, if_neg (by rw [ha]; nofun)] at hg
            exact (Option.some.inj hg).symm
        subst hnone
        exact ⟨_, rfl, .inr rfl, hpeek⟩
      | byte x =>
        exact (delivers_dropHeld (s := peeked (.byte x) rest s) hf h0 nofun
          ((genuineBits_peeked ha).trans hg)).of_readOn hpeek
  · rw [readHeld_of_not_limitReached h]
    exact delivers_dropHeld hf h0 (fun _ => h) hg

/-- The unpacker once End is taken (41_bitio.md R204). -/
def endTaken (rest : List InTok) (s : State) : State :=
  { s with rd := { s.rd with eos := true }, la := none, inp := rest }

theorem readBit_of_ended (h0 : s.rd.fill = 0) (he : s.rd.eos = true) : readBit s = some (none, s) :=
  (if_pos h0).trans (if_pos he)

theorem readBit_of_inRead (h0 : s.rd.fill = 0) (he : s.rd.eos = false) {k : InTok} (ha : ahead s = k :: rest) :
    readBit s =
      match k with
      | .eos => some (none, endTaken rest s)
      | .byte x => readHeld (byteTaken x rest s) := by
  have hempty : readBit s = _ := if_pos h0
  rw [hempty, if_neg (by rw [he]; nofun), inRead_of_ahead ha]
  cases k with
  | eos => rfl
  | byte x =>
    show _ = readHeld (byteTaken x rest s)
    rw [byteTaken, ← he]

/-- readBit delivers the genuine bits, and NA at their end (41_bitio.md R204). -/
theorem readBit_delivers (hf : s.rd.fill.toNat ≤ 8) (hg : genuineBits s = some bits) : Delivers s bits (readBit s) := by
  by_cases h0 : s.rd.fill = 0
  · have hheld := heldBits_of_fill_zero (endIsNext s) h0
    have hneeds : ¬(heldNeedsPeek s = true ∧ ahead s = []) := by simp [heldNeedsPeek, h0]
    cases he : s.rd.eos
    · rcases ha : ahead s with _ | ⟨x | _, rest⟩
      · rw [genuineBits_open he, ha] at hg
        cases hg
      · have hdeliver := readHeld_delivers (s := byteTaken x rest s) le_rfl (by simp [byteTaken])
          ((genuineBits_byteTaken h0 he ha).trans hg)
        rw [readBit_of_inRead h0 he ha]
        exact hdeliver.of_readOn (readOn_of_open le_rfl rfl he)
      · rw [genuineBits_open he, hheld, ha] at hg
        obtain rfl : [] = bits := Option.some.inj hg
        exact ⟨_, readBit_of_inRead h0 he ha, .inl rfl, readOn_of_open hf rfl he⟩
    · rw [genuineBits_atEnd he, hheld, if_neg hneeds] at hg
      obtain rfl : [] = bits := Option.some.inj hg
      exact ⟨s, readBit_of_ended h0 he, .inl he, readOn_zero hf⟩
  · rw [readBit, if_neg h0]
    exact readHeld_delivers hf h0 hg

/-! ### readBits -/

/-- A read changes the unpacker and the tokens alone. -/
def StreamFrame (s t : State) : Prop := t = { s with rd := t.rd, la := t.la, inp := t.inp }

theorem StreamFrame.trans (h : StreamFrame s t) (k : StreamFrame t u) : StreamFrame s u := by
  rw [StreamFrame] at h k ⊢
  rw [k, h]

/-- readBits of a field that is there: its value, and the genuine bits behind it are left (41_bitio.md R205). -/
theorem readBitsFrom_genuine {k : Nat} {v : Word} (hf : s.rd.fill.toNat ≤ 8)
    (hg : genuineBits s = some (bits ++ more)) (hv : v.toNat < 2 ^ k) :
    ∃ t, readBitsFrom bits.length k v s = some (.ok (v ||| (valueOfBits 32 bits <<< k)), t) ∧ StreamFrame s t ∧
      genuineBits t = some more ∧ ReadOn bits.length s t := by
  induction bits generalizing s k v with
  | nil => exact ⟨s, by simp [readBitsFrom, valueOfBits], rfl, hg, readOn_zero hf⟩
  | cons b bits ih =>
    obtain ⟨t, ht, hmore, hread⟩ := readBit_delivers hf hg
    have hset := setBitAt_fresh v k b hv
    obtain ⟨u, hu, hframe, hgu, hreadu⟩ := ih (s := t) (k := k + 1) (v := setBitAt v k b) hread.fill hmore
      (by rw [hset]; exact setBit_lt v k b hv)
    refine ⟨u, ?_, StreamFrame.trans (readBit_frame ht) hframe, hgu, ?_⟩
    · rw [List.length_cons, readBitsFrom, ht]
      rw [setBitAt_or_shiftLeft _ _ _ _ hv, hset] at hu
      exact hu
    · rw [List.length_cons, Nat.add_comm]
      exact hread.trans hreadu

/-- readBits of a field that the stream's end cuts short: NA (41_bitio.md R205). -/
theorem readBitsFrom_cut {k : Nat} {v : Word} (hf : s.rd.fill.toNat ≤ 8) (hg : genuineBits s = some bits)
    (hn : bits.length < n) :
    ∃ x j t, readBitsFrom n k v s = some (.na x j, t) ∧ StreamFrame s t ∧ AtStreamEnd t ∧ ReadOn bits.length s t := by
  induction bits generalizing s k v n with
  | nil =>
    obtain ⟨n, rfl⟩ := Nat.exists_eq_add_of_lt hn
    obtain ⟨t, ht, hend, hread⟩ := readBit_delivers hf hg
    exact ⟨v, k, t, by rw [readBitsFrom, ht], readBit_frame ht, hend, hread⟩
  | cons b bits ih =>
    obtain ⟨n, rfl⟩ := Nat.exists_eq_succ_of_ne_zero (Nat.ne_zero_of_lt hn)
    obtain ⟨t, ht, hmore, hread⟩ := readBit_delivers hf hg
    obtain ⟨x, j, u, hu, hframe, hend, hreadu⟩ := ih (s := t) (k := k + 1)
      (v := if b then v ||| BitVec.twoPow 32 k else v) (n := n) hread.fill hmore (Nat.lt_of_succ_lt_succ hn)
    refine ⟨x, j, u, by rw [readBitsFrom, ht]; exact hu, StreamFrame.trans (readBit_frame ht) hframe, hend, ?_⟩
    rw [List.length_cons, Nat.add_comm]
    exact hread.trans hreadu

/-! ### readBits on the sequencer -/

section
variable {ks : List Task} {w w' : State} {r : ReadResult}

/-- Task `x` is next, and what is left of `w` after it. -/
def taskNext (x : Task) (w : State) : State := pushTasks [x] w

theorem taskNext_eq (x : Task) (hw : w.seq = .run ks) : taskNext x w = { w with seq := .run (x :: ks) } :=
  pushTasks_run w [x] ks hw

theorem taskNext_seq (x : Task) (hw : w.seq = .run ks) :
    (taskNext x w).seq = .run (x :: ks) ∧ ({ taskNext x w with seq := .run ks } : State) = w := by
  rw [taskNext_eq x hw]
  exact ⟨rfl, by rw [← hw]⟩

theorem coreStep_taskNext_ok {x : Task} (hw : w.seq = .run ks) (hx : runTask x w = .ok u) :
    coreStep c (taskNext x w) = some u := by
  obtain ⟨hseq, hrest⟩ := taskNext_seq x hw
  rw [coreStep_task hseq, hrest, hx]

theorem coreStep_taskNext_err {x : Task} {e : ErrCode} (hw : w.seq = .run ks) (hx : runTask x w = .err e u) :
    coreStep c (taskNext x w) = some (raiseError c e u) := by
  obtain ⟨hseq, hrest⟩ := taskNext_seq x hw
  rw [coreStep_task hseq, hrest, hx]

/-- A readBits of n bits is next, and then task `x`, which takes its answer. -/
def fieldNext (n : Nat) (x : Task) (w : State) : State := pushTasks [.get n 0 0, x] w

/-- `t` is `s` with a readBits done that read n bits, and its answer there. -/
structure Answered (r : ReadResult) (n : Nat) (s t : State) : Prop where
  frame : t = { s with got := r, rd := t.rd, la := t.la, inp := t.inp }
  read : ReadOn n s t

theorem coreRun_fieldNext {x : Task} (hw : w.seq = .run ks)
    (hr : readBitsFrom n 0 0 (taskNext x w) = some (r, t)) (hframe : StreamFrame (taskNext x w) t) :
    ∃ m, m ≤ 2 * n + 1 ∧
      coreRun m c (fieldNext n x w) = taskNext x { w with got := r, rd := t.rd, la := t.la, inp := t.inp } := by
  have hnext := taskNext_eq x hw
  have hfield : (fieldNext n x w).seq = .run (.get (0 + n) 0 0 :: x :: ks) := by
    rw [Nat.zero_add]
    exact congrArg State.seq (pushTasks_run w [.get n 0 0, x] ks hw)
  have hback : ({ fieldNext n x w with seq := .run (x :: ks) } : State) = taskNext x w := by
    rw [hnext, fieldNext, pushTasks_run w _ ks hw]
  rw [← hback] at hr
  obtain ⟨-, m, hm, hrun⟩ := coreRun_get (c := c) n 0 0 (x :: ks) hfield (by simp) hr
  have ht : t = { taskNext x w with rd := t.rd, la := t.la, inp := t.inp } := hframe
  rw [hnext] at ht
  refine ⟨m, hm, hrun.trans ?_⟩
  rw [taskNext_eq (w := { w with got := r, rd := t.rd, la := t.la, inp := t.inp }) x hw, ht]

/-- A field that is there. -/
theorem coreRun_fieldNext_genuine (x : Task) (hw : w.seq = .run ks) (hf : w.rd.fill.toNat ≤ 8)
    (hg : genuineBits w = some (bits ++ more)) :
    ∃ m w', m ≤ 2 * bits.length + 1 ∧ coreRun m c (fieldNext bits.length x w) = taskNext x w' ∧
      Answered (.ok (valueOfBits 32 bits)) bits.length w w' ∧ genuineBits w' = some more := by
  have hnext := taskNext_eq x hw
  obtain ⟨t, ht, hframe, hmore, hread⟩ :=
    readBitsFrom_genuine (s := taskNext x w) (k := 0) (v := 0) (bits := bits) (more := more) (by rw [hnext]; exact hf)
      (by rw [hnext]; exact hg) (by simp)
  rw [BitVec.shiftLeft_zero, BitVec.ofNat_eq_ofNat, BitVec.zero_or] at ht
  obtain ⟨m, hm, hrun⟩ := coreRun_fieldNext (c := c) hw ht hframe
  have hunpk := hread.unpk
  rw [hnext] at hread hunpk
  refine ⟨m, _, hm, hrun, ⟨rfl, rfl, hread.fill, hread.held⟩, ?_⟩
  rw [← hmore]
  exact congrArg (fun u => genuineBits { t with unpk := u }) hunpk.symm

/-- A field that the stream's end cuts short. -/
theorem coreRun_fieldNext_cut (x : Task) (hw : w.seq = .run ks) (hf : w.rd.fill.toNat ≤ 8)
    (hg : genuineBits w = some bits) (hn : bits.length < n) :
    ∃ m w' v j, m ≤ 2 * n + 1 ∧ coreRun m c (fieldNext n x w) = taskNext x w' ∧
      Answered (.na v j) bits.length w w' ∧ AtStreamEnd w' := by
  have hnext := taskNext_eq x hw
  obtain ⟨v, j, t, ht, hframe, hend, hread⟩ :=
    readBitsFrom_cut (s := taskNext x w) (k := 0) (v := 0) (by rw [hnext]; exact hf) (by rw [hnext]; exact hg) hn
  obtain ⟨m, hm, hrun⟩ := coreRun_fieldNext (c := c) hw ht hframe
  rw [hnext] at hread hframe
  exact ⟨m, _, v, j, hm, hrun, ⟨rfl, rfl, hread.fill, hread.held⟩, hend⟩

end

end Sys2Proof.Machine

/-!
## Preorder

The nodes of a serialized tree in preorder, and the tree that DESERIALIZE has begun once it has read some of them:
each comes into the first gap (30_encoding.md R145; 45_tree_serializer.md R301).
-/

namespace Sys2Proof.Machine

variable {i j n : Nat} {m tree : Store Node} {sh : Shape} {p q new : Partial} {tag : Option Byte}
  {ns : List (Option Byte)} {s : State}

/-! ### The nodes of a tree -/

/-- The nodes in preorder, as DESERIALIZE reads them. -/
def Shape.tags : Shape → List (Option Byte)
  | .leaf sym => [some sym]
  | .node l r => none :: (l.tags ++ r.tags)

theorem nodesBits_append (ns ns' : List (Option Byte)) : nodesBits (ns ++ ns') = nodesBits ns ++ nodesBits ns' :=
  List.flatMap_append

theorem nodesBits_cons (tag : Option Byte) (ns : List (Option Byte)) :
    nodesBits (tag :: ns) = tagBits tag ++ nodesBits ns := List.flatMap_cons

theorem Shape.nodesBits_tags (sh : Shape) : nodesBits sh.tags = sh.bits := by
  induction sh with
  | leaf sym => exact List.append_nil _
  | node l r ihl ihr => rw [Shape.tags, nodesBits_cons, nodesBits_append, ihl, ihr]; rfl

theorem Shape.tags_length (sh : Shape) : sh.tags.length = sh.nodes := by
  induction sh with
  | leaf sym => rfl
  | node l r ihl ihr =>
    rw [Shape.tags, Shape.nodes, List.length_cons, List.length_append, ihl, ihr]
    omega

/-- A whole tree fills one gap. -/
theorem Shape.unfinished_tags (sh : Shape) (gaps : Nat) (ns : List (Option Byte)) :
    unfinished (gaps + 1) (sh.tags ++ ns) = unfinished gaps ns := by
  induction sh generalizing gaps ns with
  | leaf sym => simp [Shape.tags, unfinished]
  | node l r ihl ihr => simp [Shape.tags, unfinished, ihl, ihr]

/-- The last node of a tree is a leaf, and the nodes before it do not complete the tree. -/
theorem Shape.tags_eq_concat (sh : Shape) :
    ∃ ns sym, sh.tags = ns ++ [some sym] ∧ ∀ gaps, unfinished (gaps + 1) ns = true := by
  induction sh with
  | leaf sym => exact ⟨[], sym, rfl, fun _ => rfl⟩
  | node l r ihl ihr =>
    obtain ⟨ns, sym, hns, hun⟩ := ihr
    refine ⟨none :: (l.tags ++ ns), sym, by rw [Shape.tags, hns]; simp, fun gaps => ?_⟩
    simp [unfinished, l.unfinished_tags, hun]

/-! ### Trees begun -/

/-- A node just allocated, its children still to come. -/
def newNode : Option Byte → Partial
  | none => .node .gap .gap
  | some sym => .leaf sym

/-- A whole tree as one that is begun. -/
def Shape.begun : Shape → Partial
  | .leaf sym => .leaf sym
  | .node l r => .node l.begun r.begun

namespace Partial

/-- The children still to come. -/
def gaps : Partial → Nat
  | .gap => 1
  | .leaf _ => 0
  | .node l r => l.gaps + r.gaps

/-- The tree is a single leaf. -/
def single : Partial → Bool
  | .leaf _ => true
  | _ => false

theorem whole_eq_gaps (p : Partial) : p.whole = decide (p.gaps = 0) := by
  induction p with
  | gap | leaf => rfl
  | node l r ihl ihr => simp [whole, gaps, ihl, ihr]

theorem gaps_ne_zero : p.gaps ≠ 0 ↔ p.whole = false := by simp [whole_eq_gaps]

theorem gaps_fill (hw : p.whole = false) : (fill new p).gaps + 1 = p.gaps + new.gaps := by
  induction p with
  | gap => rw [fill, gaps, Nat.add_comm]
  | leaf sym => cases hw
  | node l r ihl ihr =>
    cases hl : l.whole
    · simp only [fill, hl, Bool.false_eq_true, if_false, gaps]
      have := ihl hl
      omega
    · have hr : r.whole = false := by simpa [whole, hl] using hw
      simp only [fill, hl, if_true, gaps]
      have := ihr hr
      omega

/-- What fills the first gap of what fills the first gap. -/
theorem fill_fill (hq : q.whole = false) (hp : p.whole = false) : fill new (fill q p) = fill (fill new q) p := by
  induction p with
  | gap => rfl
  | leaf sym => cases hp
  | node l r ihl ihr =>
    cases hl : l.whole
    · have hfill : (fill q l).whole = false := by
        have := gaps_fill (new := q) hl
        have := gaps_ne_zero.2 hl
        have := gaps_ne_zero.2 hq
        rw [← gaps_ne_zero]
        omega
      simp [fill, hl, hfill, ihl hl]
    · have hr : r.whole = false := by simpa [whole, hl] using hp
      simp [fill, hl, ihr hr]

/-- The tree after nodes have come, each into the first gap. -/
def fillAll (ns : List (Option Byte)) (p : Partial) : Partial := ns.foldl (fun p tag => fill (newNode tag) p) p

@[simp] theorem fillAll_nil (p : Partial) : fillAll [] p = p := rfl

theorem fillAll_cons (tag : Option Byte) (ns : List (Option Byte)) (p : Partial) :
    fillAll (tag :: ns) p = fillAll ns (fill (newNode tag) p) := rfl

theorem fillAll_append (ns ns' : List (Option Byte)) (p : Partial) :
    fillAll (ns ++ ns') p = fillAll ns' (fillAll ns p) := List.foldl_append

end Partial

theorem Shape.whole_begun (sh : Shape) : sh.begun.whole = true := by
  induction sh with
  | leaf sym => rfl
  | node l r ihl ihr => rw [Shape.begun, Partial.whole, ihl, ihr]; rfl

theorem Shape.nodes_begun (sh : Shape) : sh.begun.nodes = sh.nodes := by
  induction sh with
  | leaf sym => rfl
  | node l r ihl ihr => rw [Shape.begun, Partial.nodes, ihl, ihr, Shape.nodes]

theorem Shape.single_begun (sh : Shape) : sh.begun.single = sh.single := by cases sh <;> rfl

/-- The nodes of a tree come into the first gap as the tree. -/
theorem Shape.fillAll_tags (sh : Shape) (hp : p.whole = false) : p.fillAll sh.tags = Partial.fill sh.begun p := by
  induction sh generalizing p with
  | leaf sym => rfl
  | node l r ihl ihr =>
    have hwhole (q : Partial) (hq : q.whole = false) : (Partial.fill q p).whole = false := by
      have := Partial.gaps_fill (new := q) hp
      have := Partial.gaps_ne_zero.2 hp
      have := Partial.gaps_ne_zero.2 hq
      rw [← Partial.gaps_ne_zero]
      omega
    have hl : Partial.fill l.begun (.node .gap .gap) = .node l.begun .gap := rfl
    have hr : Partial.fill r.begun (.node l.begun .gap) = .node l.begun r.begun := by
      simp [Partial.fill, l.whole_begun]
    rw [Shape.tags, Partial.fillAll_cons, Partial.fillAll_append, newNode, ihl (hwhole _ rfl),
      Partial.fill_fill rfl hp, hl, ihr (hwhole _ (by simp [Partial.whole])),
      Partial.fill_fill (by simp [Partial.whole]) hp, hr, Shape.begun]

/-! ### The arena -/

/-- A whole tree laid out in preorder is the shape at its index. -/
theorem shapeOf_begun (hl : sh.begun.laidOut tree i) : shapeOf sh.nodes tree i = some sh := by
  induction sh generalizing i with
  | leaf sym =>
    obtain ⟨w, hw⟩ := hl
    simp [Shape.nodes, shapeOf, hw]
  | node l r ihl ihr =>
    obtain ⟨⟨a, b, w, hw, ha, hb⟩, hll, hlr⟩ := hl
    have hx := shapeOf_le (Nat.le_add_right l.nodes r.nodes) (ihl hll)
    have hy := shapeOf_le (Nat.le_add_left r.nodes l.nodes) (ihr hlr)
    rw [Shape.nodes, Nat.add_assoc, Nat.add_comm 1, shapeOf, hw]
    simp only [ha (Partial.whole_ne_gap l.whole_begun), hb (Partial.whole_ne_gap r.whole_begun), hx, hy]

/-- In a whole tree laid out in preorder every left child is at the next index (R301). -/
theorem Partial.left_next (hw : p.whole = true) (hl : p.laidOut tree i) (hi : i ≤ j) (hj : j < i + p.nodes)
    {l r : NodeIdx} {w : Weight} (hn : storeGet tree j = some (.internal l r w)) : l.toNat = j + 1 := by
  induction p generalizing i with
  | gap => cases hw
  | leaf sym =>
    obtain ⟨v, hv⟩ := hl
    rw [Partial.nodes] at hj
    obtain rfl : i = j := by omega
    rw [hv] at hn
    cases hn
  | node a b iha ihb =>
    obtain ⟨⟨x, y, v, hv, hx, -⟩, hla, hlb⟩ := hl
    rw [Partial.whole, Bool.and_eq_true] at hw
    obtain ⟨hwa, hwb⟩ := hw
    rw [Partial.nodes] at hj
    by_cases hij : i = j
    · subst hij
      rw [hv] at hn
      cases hn
      exact hx (Partial.whole_ne_gap hwa)
    · by_cases hja : j < i + 1 + a.nodes
      · exact iha hwa hla (by omega) hja
      · exact ihb hwb hlb (by omega) (by omega)

/-- Every node that waits for a child is internal, and stands in the tree. -/
theorem Partial.pending_internal (hl : p.laidOut tree i) (hi : i + p.nodes ≤ 512) :
    ∀ x ∈ p.pending i, x.node.toNat < i + p.nodes ∧
      ∃ l r w, storeGet tree x.node.toNat = some (.internal l r w) := by
  induction p generalizing i with
  | gap | leaf => nofun
  | node a b iha ihb =>
    obtain ⟨⟨x, y, v, hv, -⟩, hla, hlb⟩ := hl
    rw [Partial.nodes] at hi ⊢
    have hidx : (BitVec.ofNat 9 i).toNat = i := by rw [BitVec.toNat_ofNat, Nat.mod_eq_of_lt (by omega)]
    rw [Partial.pending]
    intro z hz
    split at hz
    · rcases List.mem_append.1 hz with hz | hz
      · obtain ⟨hlt, hz⟩ := iha hla (by omega) z hz
        exact ⟨by omega, hz⟩
      · rw [List.mem_singleton.1 hz, hidx]
        exact ⟨by omega, x, y, v, hv⟩
    · obtain ⟨hlt, hz⟩ := ihb hlb (by omega) z hz
      exact ⟨by omega, hz⟩

/-- What DESERIALIZE has written of the arena that was `m`: the tree begun, in preorder from index 0, with weights 0,
and no entry beyond it. -/
structure ArenaBegun (m : Store Node) (p : Partial) (tree : Store Node) : Prop where
  laidOut : p.laidOut tree 0
  weights : ∀ i n, i < p.nodes → storeGet tree i = some n → nodeWeight n = 0
  keeps : KeepsFrom p.nodes m tree

/-- The entry of a node just allocated. -/
def newEntry : Option Byte → Node
  | none => .internal 0 0 0
  | some sym => .leaf sym 0

/-- Linking a node writes one of the parents that wait. -/
theorem linkChild_keepsFrom {ps : List Pending} (h : ∀ x ∈ ps, x.node.toNat < n) (k : Nat) (s : State) :
    KeepsFrom n s.tree (linkChild ps k s).2.tree := by
  cases ps with
  | nil => exact keepsFrom_refl _ _
  | cons x rest =>
    have hx := h x List.mem_cons_self
    rw [linkChild]
    split <;> exact (keepsFrom_refl _ _).write hx _

/-- It changes no weight, where the parents that wait are internal. -/
theorem linkChild_weight {ps : List Pending}
    (h : ∀ x ∈ ps, ∃ l r w, storeGet s.tree x.node.toNat = some (.internal l r w)) (k : Nat) {e : Node}
    (he : storeGet (linkChild ps k s).2.tree j = some e) :
    ∃ e', storeGet s.tree j = some e' ∧ nodeWeight e = nodeWeight e' := by
  cases ps with
  | nil => exact ⟨e, he, rfl⟩
  | cons x rest =>
    obtain ⟨l, r, w, hx⟩ := h x List.mem_cons_self
    have hwrite (v : Node) (hv : nodeWeight v = w) (he : storeGet (writeNode x.node.toNat v s).tree j = some e) :
        ∃ e', storeGet s.tree j = some e' ∧ nodeWeight e = nodeWeight e' := by
      rw [writeNode, storeGet_storeWrite_none] at he
      split at he
      · next hj =>
        cases he
        exact ⟨.internal l r w, hj ▸ hx, hv⟩
      · exact ⟨e, he, rfl⟩
    rw [linkChild, nodeAt_of_storeGet hx] at he
    split at he <;> exact hwrite _ rfl he

/-- One node more (R301): it is written at the next index and linked under the top of the stack. -/
theorem arenaBegun_link (h : ArenaBegun m p s.tree) (hp : p.preorder = true) (hw : p.whole = false)
    (hk : p.nodes < 511) (tag : Option Byte) :
    let linked := linkChild (p.pending 0) p.nodes (writeNode p.nodes (newEntry tag) s)
    ArenaBegun m (Partial.fill (newNode tag) p) linked.2.tree ∧
      (Partial.fill (newNode tag) p).pending 0 = (newNode tag).pending p.nodes ++ linked.1 := by
  obtain ⟨hl, hweights, hkeeps⟩ := h
  have hnew : (newNode tag).nodes = 1 := by cases tag <;> rfl
  have hnl : (newNode tag).laidOut (writeNode p.nodes (newEntry tag) s).tree p.nodes := by
    cases tag with
    | none =>
      have hentry : storeGet (writeNode p.nodes (newEntry none) s).tree p.nodes = some (.internal 0 0 0) := by
        simp [writeNode, newEntry]
      exact ⟨⟨0, 0, 0, hentry, fun h => (h rfl).elim, fun h => (h rfl).elim⟩, trivial, trivial⟩
    | some sym => exact ⟨0, by simp [writeNode, newEntry]⟩
  have hl' := laidOut_writeNode (s := s) (newEntry tag) rfl hl
  obtain ⟨hlaid, hpend⟩ := linkChild_begun hp hw rfl hk hl' hnew hnl
  have hpending := Partial.pending_internal hl' (by omega)
  rw [Nat.zero_add] at hpending
  have hbeyond := linkChild_keepsFrom (fun x hx => (hpending x hx).1) p.nodes (writeNode p.nodes (newEntry tag) s)
  refine ⟨⟨hlaid, fun i e hi he => ?_, fun j hj => ?_⟩, hpend⟩
  · rw [Partial.nodes_fill _ _ hw, hnew] at hi
    obtain ⟨e', he', hweight⟩ := linkChild_weight (fun x hx => (hpending x hx).2) p.nodes he
    rw [hweight]
    rw [writeNode, storeGet_storeWrite_none] at he'
    split at he'
    · cases he'
      cases tag <;> rfl
    · exact hweights i e' (by omega) he'
  · rw [Partial.nodes_fill _ _ hw, hnew] at hj
    rw [hbeyond j (by omega), writeNode, storeGet_storeWrite_none, if_neg (by omega), hkeeps j (by omega)]

end Sys2Proof.Machine

/-!
## DeserializeRuns

DESERIALIZE's task on the sequencer: each round of its loop reads one node and links it into the first gap of the tree
begun; and where the bits stop, or the arena is full (45_tree_serializer.md R301).
-/

namespace Sys2Proof.Machine

variable {c : Command} {b : Bool} {j k n : Nat} {p : Partial} {tag : Option Byte} {ns : List (Option Byte)}
  {bits more : List Bool} {ks : List Task} {r : ReadResult} {s t u w : State}

/-! ### The state in the midst of DESERIALIZE -/

/-- `w` is what DESERIALIZE, begun in `s`, has made once n bits are read and k nodes allocated; `p` is the tree
begun. -/
structure Begun (s : State) (n k : Nat) (p : Partial) (w : State) : Prop where
  frame : w =
    { s with
      got := w.got, rd := w.rd, la := w.la, inp := w.inp, tree := w.tree
      treeInfo := { root := 0, nodes := BitVec.ofNat 10 k, rootLeaf := p.single }
      status := { s.status with phase := .deserialize, treeValid := false } }
  arena : ArenaBegun s.tree p w.tree
  preorder : p.preorder = true
  read : ReadOn n s w

theorem Begun.seq (h : Begun s n k p w) : w.seq = s.seq := by rw [h.frame]

theorem Begun.treeInfo (h : Begun s n k p w) :
    w.treeInfo = { root := 0, nodes := BitVec.ofNat 10 k, rootLeaf := p.single } := by rw [h.frame]

theorem Begun.nodes_toNat (h : Begun s n k p w) (hk : k ≤ 511) : w.treeInfo.nodes.toNat = k := by
  rw [h.treeInfo]
  exact Nat.mod_eq_of_lt (by omega)

/-- A field read. -/
theorem Begun.answered (h : Begun s n k p w) (ha : Answered r j w t) : Begun s (n + j) k p t := by
  obtain ⟨hw, harena, hp, hread⟩ := h
  obtain ⟨ht, hmore⟩ := ha
  have htree : t.tree = w.tree := by rw [ht]
  refine ⟨?_, htree ▸ harena, hp, hread.trans hmore⟩
  rw [ht, hw]

/-- The state with a node counted. -/
def nodeCounted (w : State) : State := { w with treeInfo := { w.treeInfo with nodes := w.treeInfo.nodes + 1 } }

theorem Begun.nodeCounted (h : Begun s n k p w) : Begun s n (k + 1) p (nodeCounted w) := by
  have hinfo := h.treeInfo
  obtain ⟨hw, harena, hp, hunpk, hfill, hheld⟩ := h
  refine ⟨?_, harena, hp, hunpk, hfill, hheld⟩
  rw [Machine.nodeCounted, hinfo, hw, BitVec.ofNat_add]
  rfl

/-- The state with a node written at index k; a leaf there alone is the whole tree. -/
def nodePlaced (tag : Option Byte) (k : Nat) (w : State) : State :=
  writeNode k (newEntry tag)
    { w with treeInfo := { w.treeInfo with rootLeaf := w.treeInfo.rootLeaf || (tag.isSome && decide (k = 0)) } }

/-- The node counted last, written and linked (R301). -/
def nodeLinked (tag : Option Byte) (p : Partial) (w : State) : State :=
  (linkChild (p.pending 0) p.nodes (nodePlaced tag p.nodes w)).2

theorem newNode_ne_gap (tag : Option Byte) : newNode tag ≠ .gap := by cases tag <;> nofun

theorem newNode_preorder (tag : Option Byte) : (newNode tag).preorder = true := by cases tag <;> rfl

theorem Partial.single_fill (hw : p.whole = false) :
    (fill (newNode tag) p).single = (p.single || (tag.isSome && decide (p.nodes = 0))) := by
  cases p with
  | gap => cases tag <;> rfl
  | leaf sym => cases hw
  | node l r =>
    have hnodes : (node l r).nodes ≠ 0 := by simp
    rw [decide_eq_false hnodes, fill]
    split <;> simp [single]

theorem Begun.nodeLinked (h : Begun s n (p.nodes + 1) p w) (hw : p.whole = false) (hk : p.nodes < 511)
    (tag : Option Byte) :
    Begun s n (p.nodes + 1) (Partial.fill (newNode tag) p) (nodeLinked tag p w) ∧
      (Partial.fill (newNode tag) p).pending 0 =
        (newNode tag).pending p.nodes ++ (linkChild (p.pending 0) p.nodes (nodePlaced tag p.nodes w)).1 := by
  have hinfo := h.treeInfo
  obtain ⟨hframe, harena, hp, hunpk, hfill, hheld⟩ := h
  obtain ⟨harena', hpending⟩ := arenaBegun_link (m := s.tree) (p := p)
    (s := { w with
      treeInfo := { w.treeInfo with rootLeaf := w.treeInfo.rootLeaf || (tag.isSome && decide (p.nodes = 0)) } })
    harena hp hw hk tag
  have hlink : Machine.nodeLinked tag p w =
      { nodePlaced tag p.nodes w with tree := (Machine.nodeLinked tag p w).tree } := linkChild_frame ..
  refine ⟨⟨?_, harena', Partial.preorder_fill (newNode_ne_gap tag) (newNode_preorder tag) p hp hw, ?_⟩, hpending⟩
  · rw [hlink, nodePlaced, hinfo, ← Partial.single_fill hw, hframe]
    rfl
  · rw [hlink]
    exact ⟨hunpk, hfill, hheld⟩

/-! ### One core step -/

/-- The end of a round: the tree is complete, or the next node is asked for (`deserNext`). -/
def roundEnd (p : Partial) (w : State) : State :=
  if p.whole then { w with ret := counted p.nodes, status := { w.status with treeValid := true } }
  else askTag (p.pending 0) w

theorem deserNext_roundEnd (h : Begun s n p.nodes p w) (hg : p ≠ .gap) (hk : p.nodes ≤ 511) :
    deserNext (p.pending 0) w = .ok (roundEnd p w) := by
  have hnil := Partial.pending_eq_nil h.preorder hg 0
  rw [deserNext, roundEnd, h.nodes_toNat hk]
  cases hw : p.whole
  · have hne : (p.pending 0).isEmpty = false := by simpa [hw] using hnil
    rw [hne]
    rfl
  · rw [hnil.2 hw]
    rfl

theorem nodePlaced_none (k : Nat) (w : State) : nodePlaced none k w = writeNode k (.internal 0 0 0) w := by
  simp [nodePlaced, newEntry]

theorem nodePlaced_some (sym : Byte) (k : Nat) (w : State) :
    nodePlaced (some sym) k w =
      let placed := writeNode k (.leaf sym 0) w
      if k = 0 then { placed with treeInfo := { placed.treeInfo with rootLeaf := true } } else placed := by
  by_cases hk : k = 0
  · simp [nodePlaced, newEntry, hk, writeNode]
  · simp [nodePlaced, newEntry, hk]

/-- A tag bit read while the arena has room: a node is counted; an internal one is linked, and a leaf's symbol is asked
for. -/
theorem taskDeserTag_ok (h : Begun s n p.nodes p w) (hw : p.whole = false) (hk : p.nodes < 511)
    (hb : w.got = .ok (valueOfBits 32 [b])) :
    runTask (.deserTag (p.pending 0)) w =
      .ok (if b then roundEnd (Partial.fill (newNode none) p) (nodeLinked none p (nodeCounted w))
        else fieldNext 8 (.deserSymbol (p.pending 0) p.nodes) (nodeCounted w)) := by
  have hbit : (valueOfBits 32 [b]).getLsbD 0 = b := valueOfBits_getLsbD 32 [b] 0
  obtain ⟨hlinked, hpending⟩ := h.nodeCounted.nodeLinked hw hk none
  have hfill : (Partial.fill (newNode none) p).nodes = p.nodes + 1 := Partial.nodes_fill _ _ hw
  rw [← hfill] at hlinked
  have hend := deserNext_roundEnd hlinked (Partial.fill_ne_gap (newNode_ne_gap _) p) (by omega)
  rw [hpending, nodeLinked, nodePlaced_none] at hend
  have hroom : w.treeInfo.nodes.toNat ≠ Config.nodeMax := by
    rw [h.nodes_toNat (by omega)]
    exact hk.ne
  simp only [runTask, taskDeserTag]
  split
  · next hna => rw [hb] at hna; cases hna
  · next v hv =>
    obtain rfl : valueOfBits 32 [b] = v := ReadResult.ok.inj (hb.symm.trans hv)
    rw [if_neg hroom, hbit, h.nodes_toNat (by omega)]
    cases b
    · rfl
    · rw [if_pos rfl, if_pos rfl, nodeLinked, nodePlaced_none]
      exact hend

/-- A leaf's symbol read: the leaf is linked. -/
theorem taskDeserSymbol_ok {sym : Byte} (h : Begun s n (p.nodes + 1) p w) (hw : p.whole = false) (hk : p.nodes < 511)
    (hb : w.got = .ok (valueOfBits 32 (bitsOf 8 sym))) :
    runTask (.deserSymbol (p.pending 0) p.nodes) w =
      .ok (roundEnd (Partial.fill (newNode (some sym)) p) (nodeLinked (some sym) p w)) := by
  have hsym : (valueOfBits 32 (bitsOf 8 sym)).setWidth 8 = sym := by
    rw [valueOfBits_bitsOf 8 sym (BitVec.ushiftRight_eq_zero le_rfl)]
    simp
  obtain ⟨hlinked, hpending⟩ := h.nodeLinked hw hk (some sym)
  have hfill : (Partial.fill (newNode (some sym)) p).nodes = p.nodes + 1 := Partial.nodes_fill _ _ hw
  rw [← hfill] at hlinked
  have hend := deserNext_roundEnd hlinked (Partial.fill_ne_gap (newNode_ne_gap _) p) (by omega)
  rw [hpending, nodeLinked, nodePlaced_some] at hend
  rw [nodeLinked, nodePlaced_some]
  simp only [runTask, taskDeserSymbol]
  split
  · next hna => rw [hb] at hna; cases hna
  · next v hv =>
    obtain rfl : valueOfBits 32 (bitsOf 8 sym) = v := ReadResult.ok.inj (hb.symm.trans hv)
    rw [hsym]
    exact hend

/-! ### A round of the loop -/

theorem genuineBits_nodeLinked (tag : Option Byte) (p : Partial) (w : State) :
    genuineBits (nodeLinked tag p w) = genuineBits w := by
  rw [nodeLinked, linkChild_frame]
  rfl

/-- The next tag bit, where it is there. -/
theorem coreRun_askTag (hs : s.seq = .run ks) (h : Begun s n k p w) (hg : genuineBits w = some (b :: more)) :
    ∃ m w', m ≤ 3 ∧ coreRun m c (askTag (p.pending 0) w) = taskNext (.deserTag (p.pending 0)) w' ∧
      Begun s (n + 1) k p w' ∧ w'.got = .ok (valueOfBits 32 [b]) ∧ genuineBits w' = some more := by
  obtain ⟨m, w', hm, hrun, hansw, hg'⟩ :=
    coreRun_fieldNext_genuine (c := c) (bits := [b]) (.deserTag (p.pending 0)) (h.seq.trans hs) h.read.fill hg
  exact ⟨m, w', hm, hrun, h.answered hansw, by rw [hansw.frame], hg'⟩

/-- A round up to its tag bit, where the arena has room. -/
theorem coreRun_tag (hs : s.seq = .run ks) (h : Begun s n p.nodes p w) (hw : p.whole = false) (hk : p.nodes < 511)
    (hg : genuineBits w = some (b :: more)) :
    ∃ m w', m ≤ 4 ∧
      coreRun m c (askTag (p.pending 0) w) =
        (if b then roundEnd (Partial.fill (newNode none) p) (nodeLinked none p w')
          else fieldNext 8 (.deserSymbol (p.pending 0) p.nodes) w') ∧
      Begun s (n + 1) (p.nodes + 1) p w' ∧ genuineBits w' = some more := by
  obtain ⟨m, w1, hm, hrun, h1, hgot, hg1⟩ := coreRun_askTag (c := c) hs h hg
  have hstep := coreStep_taskNext_ok (c := c) (h1.seq.trans hs) (taskDeserTag_ok h1 hw hk hgot)
  exact ⟨m + 1, _, by omega, by rw [coreRun_add, hrun, coreRun_some 0 hstep, coreRun_zero], h1.nodeCounted, hg1⟩

/-- One node that is there: its bits are read, and it comes into the first gap. -/
theorem coreRun_node (hs : s.seq = .run ks) (h : Begun s n p.nodes p w) (hw : p.whole = false) (hk : p.nodes < 511)
    (tag : Option Byte) (hg : genuineBits w = some (tagBits tag ++ more)) :
    ∃ m w', m ≤ 22 ∧
      coreRun m c (askTag (p.pending 0) w) = roundEnd (Partial.fill (newNode tag) p) w' ∧
      Begun s (n + (tagBits tag).length) (p.nodes + 1) (Partial.fill (newNode tag) p) w' ∧
      genuineBits w' = some more := by
  cases tag with
  | none =>
    obtain ⟨m, w1, hm, hrun, h1, hg1⟩ := coreRun_tag (c := c) (b := true) hs h hw hk hg
    obtain ⟨hlinked, -⟩ := h1.nodeLinked hw hk none
    exact ⟨m, _, by omega, hrun, hlinked, (genuineBits_nodeLinked _ _ _).trans hg1⟩
  | some sym =>
    obtain ⟨m, w1, hm, hrun, h1, hg1⟩ := coreRun_tag (c := c) (b := false) hs h hw hk hg
    obtain ⟨m2, w2, hm2, hrun2, hansw, hg2⟩ := coreRun_fieldNext_genuine (c := c) (bits := bitsOf 8 sym)
      (.deserSymbol (p.pending 0) p.nodes) (h1.seq.trans hs) h1.read.fill hg1
    have h2 := h1.answered hansw
    have hstep := coreStep_taskNext_ok (c := c) (h2.seq.trans hs)
      (taskDeserSymbol_ok h2 hw hk (by rw [hansw.frame]))
    obtain ⟨hlinked, -⟩ := h2.nodeLinked hw hk (some sym)
    rw [Nat.add_assoc, bitsOf_length] at hlinked
    rw [bitsOf_length] at hm2 hrun2
    refine ⟨m + (m2 + 1), _, by omega, ?_, hlinked, (genuineBits_nodeLinked _ _ _).trans hg2⟩
    rw [coreRun_add, hrun, if_neg nofun, coreRun_add, hrun2, coreRun_some 0 hstep, coreRun_zero]

/-! ### The loop -/

theorem unfinished_ne_zero {gaps : Nat} (h : unfinished gaps ns = true) : gaps ≠ 0 := by
  cases ns with
  | nil => simpa [unfinished] using h
  | cons tag ns => cases tag <;> simp_all [unfinished]

/-- A node that leaves the tree unfinished leaves the nodes after it to come. -/
theorem unfinished_fill (hw : p.whole = false) (h : unfinished p.gaps (tag :: ns) = true) :
    unfinished (Partial.fill (newNode tag) p).gaps ns = true := by
  have hgaps := Partial.gaps_fill (new := newNode tag) hw
  cases tag with
  | none =>
    have hnew : (Partial.fill (newNode none) p).gaps = p.gaps + 1 := by
      simp only [newNode, Partial.gaps] at hgaps ⊢
      omega
    rw [hnew]
    simp_all [unfinished]
  | some sym =>
    have hnew : (Partial.fill (newNode (some sym)) p).gaps = p.gaps - 1 := by
      simp only [newNode, Partial.gaps] at hgaps ⊢
      omega
    rw [hnew]
    simp_all [unfinished]

/-- Nodes that are there and do not complete the tree. -/
theorem coreRun_nodes (hs : s.seq = .run ks) (ns : List (Option Byte)) (h : Begun s n p.nodes p w)
    (hun : unfinished p.gaps ns = true) (hk : p.nodes + ns.length ≤ 511)
    (hg : genuineBits w = some (nodesBits ns ++ more)) :
    ∃ m w', m ≤ 22 * ns.length ∧
      coreRun m c (askTag (p.pending 0) w) = askTag ((p.fillAll ns).pending 0) w' ∧
      Begun s (n + (nodesBits ns).length) (p.fillAll ns).nodes (p.fillAll ns) w' ∧
      (p.fillAll ns).whole = false ∧ (p.fillAll ns).nodes = p.nodes + ns.length ∧ genuineBits w' = some more := by
  have hw := Partial.gaps_ne_zero.1 (unfinished_ne_zero hun)
  induction ns generalizing n p w with
  | nil => exact ⟨0, w, Nat.zero_le _, rfl, h, hw, rfl, hg⟩
  | cons tag ns ih =>
    rw [nodesBits_cons, List.append_assoc] at hg
    rw [List.length_cons] at hk
    obtain ⟨m, w1, hm, hrun, h1, hg1⟩ := coreRun_node (c := c) hs h hw (by omega) tag hg
    have hun1 := unfinished_fill hw hun
    have hw1 := Partial.gaps_ne_zero.1 (unfinished_ne_zero hun1)
    have hnodes : (Partial.fill (newNode tag) p).nodes = p.nodes + 1 := by
      rw [Partial.nodes_fill _ _ hw]
      cases tag <;> rfl
    rw [← hnodes] at h1
    rw [roundEnd, hw1, if_neg nofun] at hrun
    obtain ⟨m2, w2, hm2, hrun2, h2, hw2, hnodes2, hg2⟩ := ih h1 hun1 (by omega) hg1 hw1
    rw [hnodes] at hnodes2
    rw [Nat.add_assoc, ← List.length_append, ← nodesBits_cons] at h2
    refine ⟨m + m2, w2, by rw [List.length_cons]; omega, ?_, h2, hw2, ?_, hg2⟩
    · rw [coreRun_add, hrun, hrun2]
      rfl
    · rw [Partial.fillAll_cons, hnodes2, List.length_cons]
      omega

end Sys2Proof.Machine

/-!
## DeserializeCommands

DESERIALIZE as a whole command: on a tree that is there, where its bits stop, and where the arena is full; and the
round trip with SERIALIZE and FLUSH (45_tree_serializer.md R301, R303; 60_exceptions.md R374).
-/

namespace Sys2Proof.Machine

variable {c : Command} {b : Bool} {e : ErrCode} {k m n : Nat} {p : Partial} {sh : Shape} {ns : List (Option Byte)}
  {bits cut more : List Bool} {x : Task} {rest : List InTok} {s w : State}

/-! ### The start -/

/-- DESERIALIZE's state where its loop begins. -/
def deserBegun (s : State) : State :=
  { setTreeValid false (setPhase .deserialize (opened [] s)) with
    treeInfo := { root := 0, nodes := 0, rootLeaf := false } }

theorem coreStep_deserialize : coreStep c (opened [.deserialize] s) = some (askTag [] (deserBegun s)) := by
  rw [coreStep_task rfl]
  rfl

theorem begun_deserBegun (hf : s.rd.fill.toNat ≤ 8) : Begun (opened [] s) 0 0 .gap (deserBegun s) := by
  obtain ⟨hunpk, hfill, hheld⟩ := readOn_zero (s := opened [] s) hf
  exact ⟨rfl, ⟨trivial, fun _ _ hi => absurd hi (Nat.not_lt_zero _), fun _ _ => rfl⟩, rfl, hunpk, hfill, hheld⟩

theorem FullTurn.le (ht : FullTurn s) (hm : m ≤ 2 ^ 60) : m ≤ s.turn :=
  hm.trans ((Nat.le_add_right _ _).trans ht)

/-- DESERIALIZE's task over the nodes that begin the stream and do not complete a tree. -/
theorem coreRun_deserialize (hf : s.rd.fill.toNat ≤ 8) (hun : unfinished 1 ns = true) (hn : ns.length ≤ 511)
    (hg : genuineBits s = some (nodesBits ns ++ more)) :
    ∃ m w p, m ≤ 22 * ns.length + 1 ∧ p = Partial.fillAll ns .gap ∧
      coreRun m c (opened [.deserialize] s) = askTag (p.pending 0) w ∧
      Begun (opened [] s) (nodesBits ns).length p.nodes p w ∧ p.whole = false ∧ p.nodes = ns.length ∧
      genuineBits w = some more := by
  obtain ⟨m, w, hm, hrun, h, hw, hnodes, hmore⟩ := coreRun_nodes (c := c) (p := .gap) rfl ns (begun_deserBegun hf) hun
    ((Nat.zero_add _).trans_le hn) hg
  rw [Nat.zero_add] at h
  refine ⟨m + 1, w, _, Nat.succ_le_succ hm, rfl, ?_, h, hw, hnodes.trans (Nat.zero_add _), hmore⟩
  rw [coreRun_some m coreStep_deserialize]
  exact hrun

/-! ### A tree that is there -/

/-- DESERIALIZE's task over the bits of a tree. -/
theorem coreRun_deserialize_shape (hf : s.rd.fill.toNat ≤ 8) (hn : sh.nodes ≤ 511)
    (hg : genuineBits s = some (sh.bits ++ more)) :
    ∃ m w n, m ≤ 22 * 512 ∧ coreRun m c (opened [.deserialize] s) = roundEnd sh.begun w ∧
      Begun (opened [] s) n sh.nodes sh.begun w ∧ genuineBits w = some more := by
  obtain ⟨ns, sym, htags, hun⟩ := sh.tags_eq_concat
  have hlen : ns.length + 1 = sh.nodes := by rw [← sh.tags_length, htags, List.length_append, List.length_singleton]
  have hbits : sh.bits = nodesBits ns ++ tagBits (some sym) := by
    rw [← sh.nodesBits_tags, htags, nodesBits_append, nodesBits_cons]
    exact congrArg _ (List.append_nil _)
  rw [hbits, List.append_assoc] at hg
  obtain ⟨m, w, p, hm, hp, hrun, h, hw, hnodes, hg1⟩ := coreRun_deserialize (c := c) hf (hun 0) (by omega) hg
  obtain ⟨m2, w2, hm2, hrun2, h2, hg2⟩ := coreRun_node (c := c) rfl h hw (by omega) (some sym) hg1
  have hfill : Partial.fill (newNode (some sym)) p = sh.begun := by
    have hall := sh.fillAll_tags (p := .gap) rfl
    rw [htags, Partial.fillAll_append, ← hp] at hall
    exact hall
  rw [hfill, hnodes, hlen] at h2
  rw [hfill] at hrun2
  exact ⟨m + m2, w2, _, by omega, by rw [coreRun_add, hrun, hrun2], h2, hg2⟩

/-- The completion, in the state that DESERIALIZE has made. -/
theorem Begun.succeeded (h : Begun (opened [] s) n k p w) (r : Option Word) :
    succeeded r { w with status := { w.status with treeValid := true } } =
      succeeded r
        { s with
          rd := w.rd, la := w.la, inp := w.inp, tree := w.tree
          treeInfo := { root := 0, nodes := BitVec.ofNat 10 k, rootLeaf := p.single }
          status := { s.status with treeValid := true } } :=
  congrArg (fun u => Machine.succeeded r { u with status := { u.status with treeValid := true } }) h.frame

/-! ### Where it ends in an error -/

theorem Begun.failed (h : Begun (opened [] s) n k p w) (hw : p.whole = false) (e : ErrCode) :
    failed e w =
      failed e
        { s with
          rd := w.rd, la := w.la, inp := w.inp, tree := w.tree
          treeInfo := { root := 0, nodes := BitVec.ofNat 10 k, rootLeaf := false }
          status := { s.status with treeValid := false } } := by
  have hsingle : p.single = false := by
    cases p with
    | leaf sym => cases hw
    | gap | node => rfl
  have hfail := congrArg (Machine.failed e) h.frame
  rwa [hsingle] at hfail

/-- DESERIALIZE whose run comes to a task that raises an error: it ends with that error. -/
theorem exec_deserialize_err (hs : Started s) (ht : m + 3 ≤ s.turn)
    (hrun : coreRun m (commandOf .deserialize) (opened [.deserialize] s) = taskNext x w) (hw : w.seq = .run [])
    (hx : runTask x w = .err e w) : exec .deserialize s = .next (failed e w) := by
  have hstep := coreStep_taskNext_err (c := commandOf .deserialize) hw hx
  refine exec_of_fail (i := .deserialize) (m := m + 1) (u := raiseError (commandOf .deserialize) e w) hs ht rfl ?_ rfl
  exact (coreRun_add m 1 _ _).trans ((congrArg _ hrun).trans (coreRun_some 0 hstep))

theorem taskDeserTag_na {v : Word} {j : Nat} (ps : List Pending) (hn : w.got = .na v j) :
    runTask (.deserTag ps) w = .err .truncated w := by
  rw [runTask, taskDeserTag, hn]

theorem taskDeserSymbol_na {v : Word} {j : Nat} (ps : List Pending) (i : Nat) (hn : w.got = .na v j) :
    runTask (.deserSymbol ps i) w = .err .truncated w := by
  rw [runTask, taskDeserSymbol, hn]

/-- The bits stop before a node's tag, or inside a leaf's symbol: the next task raises TRUNCATED. -/
theorem coreRun_cut {s : State} (hs : s.seq = .run []) (h : Begun s n p.nodes p w) (hw : p.whole = false)
    (hg : genuineBits w = some cut) (hcut : cut = [] ∨ cut.head? = some false ∧ cut.length < 9 ∧ p.nodes < 511) :
    ∃ m w' x, m ≤ 22 ∧ coreRun m c (askTag (p.pending 0) w) = taskNext x w' ∧ runTask x w' = .err .truncated w' ∧
      Begun s (n + cut.length) (p.nodes + if cut = [] then 0 else 1) p w' ∧ AtStreamEnd w' := by
  rcases hcut with rfl | ⟨hhead, hlen, hk⟩
  · obtain ⟨m, w', v, j, hm, hrun, hansw, hend⟩ := coreRun_fieldNext_cut (c := c) (n := 1)
      (.deserTag (p.pending 0)) (h.seq.trans hs) h.read.fill hg Nat.zero_lt_one
    exact ⟨m, w', _, by omega, hrun, taskDeserTag_na _ (by rw [hansw.frame]), h.answered hansw, hend⟩
  · obtain ⟨bits, rfl⟩ := List.head?_eq_some_iff.1 hhead
    obtain ⟨m, w1, hm, hrun, h1, hg1⟩ := coreRun_tag (c := c) hs h hw hk hg
    obtain ⟨m2, w2, v, j, hm2, hrun2, hansw, hend⟩ := coreRun_fieldNext_cut (c := c) (n := 8)
      (.deserSymbol (p.pending 0) p.nodes) (h1.seq.trans hs) h1.read.fill hg1 (Nat.lt_of_succ_lt_succ hlen)
    have h2 := h1.answered hansw
    rw [Nat.add_assoc, Nat.add_comm 1] at h2
    exact ⟨m + m2, w2, _, by omega, by rw [coreRun_add, hrun, if_neg nofun, hrun2],
      taskDeserSymbol_na _ _ (by rw [hansw.frame]), h2, hend⟩

/-- A tag bit follows, but the arena is full: the next task raises TREE_OVERFLOW. -/
theorem coreRun_full {s : State} (hs : s.seq = .run []) (h : Begun s n 511 p w)
    (hg : genuineBits w = some (b :: more)) :
    ∃ m w' x, m ≤ 3 ∧ coreRun m c (askTag (p.pending 0) w) = taskNext x w' ∧
      runTask x w' = .err .treeOverflow w' ∧ Begun s (n + 1) 511 p w' ∧ genuineBits w' = some more := by
  obtain ⟨m, w', hm, hrun, h', hgot, hg'⟩ := coreRun_askTag (c := c) hs h hg
  refine ⟨m, w', _, hm, hrun, ?_, h', hg'⟩
  rw [runTask, taskDeserTag, hgot]
  exact if_pos (h'.nodes_toNat le_rfl)

/-- No bit is held after the stream's end: the first tag is NA, and nothing is read. -/
theorem coreRun_ended {ks : List Task} (hw : w.seq = .run ks) (he : w.rd.eos = true) (h0 : w.rd.fill = 0) :
    ∃ m, m ≤ 3 ∧ coreRun m c (askTag [] w) = taskNext (.deserTag []) { w with got := .na 0 0 } := by
  have hnext := taskNext_eq (.deserTag []) hw
  have hread : readBit (taskNext (.deserTag []) w) = some (none, taskNext (.deserTag []) w) := by
    rw [hnext]
    exact readBit_of_ended h0 he
  obtain ⟨m, hm, hrun⟩ := coreRun_fieldNext (c := c) (n := 1) (t := taskNext (.deserTag []) w) hw
    (by rw [readBitsFrom, hread]) rfl
  rw [hnext] at hrun
  exact ⟨m, hm, hrun⟩

/-! ### The bytes of a serialized tree -/

/-- The bytes that bits give with an empty packer and a FLUSH after them (41_bitio.md R202, R209). -/
def flushedBytes (bits : List Bool) : List Byte :=
  wholeBytes bits ++ if restBits bits = [] then [] else [valueOfBits 8 (restBits bits)]

theorem byteBits_wholeBytes (bits : List Bool) : byteBits (wholeBytes bits) ++ restBits bits = bits := by
  induction bits using wholeBytes.induct with
  | case1 b0 b1 b2 b3 b4 b5 b6 b7 rest ih =>
    have hbyte := bitsOf_valueOfBits (m := 8) (bits := [b0, b1, b2, b3, b4, b5, b6, b7]) le_rfl
    rw [wholeBytes, restBits, byteBits, List.flatMap_cons, List.append_assoc]
    exact congrArg₂ _ hbyte ih
  | case2 bits h =>
    rw [wholeBytes, restBits]
    · rfl
    · exact h
    · exact h

theorem byteBits_flushedBytes (bits : List Bool) : ∃ pad, byteBits (flushedBytes bits) = bits ++ pad := by
  have hlen : (restBits bits).length ≤ 8 := by
    rw [restBits_length]
    omega
  have hpad : restBits bits <+: bitsOf 8 (valueOfBits 8 (restBits bits)) := by
    rw [List.prefix_iff_eq_take, bitsOf_take, Nat.min_eq_left hlen, bitsOf_valueOfBits hlen]
  obtain ⟨pad, hpad⟩ := hpad
  have happend (ys : List Byte) : byteBits (wholeBytes bits ++ ys) = byteBits (wholeBytes bits) ++ byteBits ys :=
    List.flatMap_append
  rw [flushedBytes, happend]
  split
  · next hnil =>
    refine ⟨[], ?_⟩
    conv_rhs => rw [← byteBits_wholeBytes bits, hnil]
    simp [byteBits]
  · refine ⟨pad, ?_⟩
    conv_rhs => rw [← byteBits_wholeBytes bits, List.append_assoc, hpad]
    simp [byteBits]

/-- The genuine bits of bytes with an End after them and no limit are the bytes' bits. -/
theorem genuineTokens_inBytes {u : UnpkCfgReg} (hl : u.limitEn = false) (y : List Byte) :
    genuineTokens u (inBytes y ++ .eos :: rest) = some (byteBits y) := by
  induction y with
  | nil => rfl
  | cons a y ih => simp_all [genuineTokens, byteBits]

/-- What FLUSH adds to OUT (R209). -/
theorem exec_flush_out (hs : Started s) (ht : 4 ≤ s.turn) :
    ∃ t, exec .flush s = .next t ∧ t.out = s.out ++ if s.wr.fill = 0 then [] else [.byte s.wr.acc] := by
  rw [flushEmits s hs ht]
  split
  · exact ⟨_, rfl, (List.append_nil _).symm⟩
  · exact ⟨_, rfl, rfl⟩

theorem packerOf_fill_eq_zero (h : bits.length < 8) : (packerOf bits).fill = 0 ↔ bits = [] := by
  rw [packerOf, ← List.length_eq_zero_iff, ← BitVec.toNat_inj, BitVec.toNat_ofNat, Nat.mod_eq_of_lt (by omega)]
  rfl

theorem outBytes_flushedBytes (out : List OutTok) (bits : List Bool) :
    out ++ outBytes (flushedBytes bits) =
      out ++ outBytes (wholeBytes bits) ++
        if (packerOf (restBits bits)).fill = 0 then [] else [.byte (packerOf (restBits bits)).acc] := by
  have hrest : (restBits bits).length < 8 := by
    rw [restBits_length]
    omega
  rw [flushedBytes, outBytes, outBytes, List.map_append, List.append_assoc]
  simp only [packerOf_fill_eq_zero hrest]
  split <;> rfl

theorem packed_of_empty (hw : s.wr = { acc := 0, fill := 0 }) :
    packed bits s = { s with out := s.out ++ outBytes (wholeBytes bits), wr := packerOf (restBits bits) } := by
  rw [packed, hw]
  rfl

/-- SERIALIZE from an empty packer and then FLUSH. -/
theorem exec_flush_serialized (hs : Started s) (ht : FullTurn s) (hw : s.wr = { acc := 0, fill := 0 })
    (hv : s.status.treeValid = true) (hx : treeShape s = some sh) (hn : sh.nodes ≤ 511) (hk : 4 ≤ k) :
    ∃ t t2, exec .serialize s = .next t ∧ exec .flush { startCommand t with turn := k } = .next t2 ∧
      t2.out = s.out ++ outBytes (flushedBytes sh.bits) := by
  have hser := serializeWritesTheTree s sh hs ht (by rw [hw]; exact ⟨by decide, rfl⟩) hv hx hn
  rw [packed_of_empty hw] at hser
  obtain ⟨t2, hflush, hout⟩ := exec_flush_out (s := { startCommand _ with turn := k }) rfl hk
  exact ⟨_, t2, hser, hflush, hout.trans (outBytes_flushedBytes _ sh.bits).symm⟩

/-! ### The statements -/

/-- Settles O37: each node of the tree comes into the first gap of the tree begun, which the last one completes. -/
theorem deserializeRebuildsTheTree : Obligations.DeserializeRebuildsTheTree := by
  intro s sh more hs ht _ hf hg hn
  obtain ⟨m, w, n, hm, hrun, h, hmore⟩ := coreRun_deserialize_shape (c := commandOf .deserialize) hf hn hg
  obtain ⟨hlaid, hweights, hkeeps⟩ := h.arena
  rw [sh.nodes_begun] at hweights hkeeps
  have hexec := exec_of_returns (i := .deserialize) hs (ht.le (by omega)) rfl hrun
    (by rw [roundEnd, sh.whole_begun]; exact h.seq)
  rw [roundEnd, sh.whole_begun, if_pos rfl, sh.nodes_begun] at hexec
  have hend := h.succeeded (counted sh.nodes)
  rw [sh.single_begun] at hend
  refine ⟨_, hexec, hend, ?_, fun i e he hi => hweights i e hi he, fun i l r v hi he => ?_, hkeeps, hmore⟩
  · have hroot : w.treeInfo.root = 0 := by rw [h.treeInfo]
    have hshape := shapeOf_le hn (shapeOf_begun hlaid)
    rw [show (0 : Nat) = w.treeInfo.root.toNat by rw [hroot]; rfl] at hshape
    exact hshape
  · exact Partial.left_next sh.whole_begun hlaid (Nat.zero_le i) (by rw [sh.nodes_begun]; omega) he

/-- Settles O38: the nodes that are there come into the tree begun, and the task that then finds no bit, or no room,
raises the error. -/
theorem deserializeErrors : Obligations.DeserializeErrors := by
  intro s hs ht
  refine ⟨fun ns cut hf hun hg hcut => ?_, fun ns tag more he hf hun hlen hg => ?_, fun he h0 => ?_⟩
  · obtain ⟨m, w, p, hm, -, hrun, h, hw, hnodes, hg1⟩ :=
      coreRun_deserialize (c := commandOf .deserialize) hf hun (by omega) hg
    obtain ⟨m2, w2, x, hm2, hrun2, hx, h2, hend⟩ := coreRun_cut (c := commandOf .deserialize) rfl h hw hg1
      (hcut.imp And.left fun ⟨hhead, hlen, hle⟩ => ⟨hhead, hlen, by omega⟩)
    have hexec := exec_deserialize_err (m := m + m2) hs (ht.le (by omega)) (by rw [coreRun_add, hrun, hrun2]) h2.seq hx
    rw [hnodes, ← List.length_append] at h2
    exact ⟨_, hexec, h2.failed hw _, hend, h2.read.held⟩
  · obtain ⟨m, w, p, hm, -, hrun, h, hw, hnodes, hg1⟩ :=
      coreRun_deserialize (c := commandOf .deserialize) hf hun hlen.le hg
    rw [hnodes, hlen] at h
    obtain ⟨m2, w2, x, hm2, hrun2, hx, h2, hg2⟩ := coreRun_full (c := commandOf .deserialize) rfl h hg1
    have hexec := exec_deserialize_err (m := m + m2) hs (ht.le (by omega)) (by rw [coreRun_add, hrun, hrun2]) h2.seq hx
    exact ⟨_, hexec, h2.failed hw _, hg2⟩
  · obtain ⟨m, hm, hrun⟩ := coreRun_ended (c := commandOf .deserialize) (w := deserBegun s) rfl he h0
    have hexec := exec_deserialize_err (m := m + 1) hs (ht.le (by omega))
      ((coreRun_some m coreStep_deserialize).trans hrun) rfl (taskDeserTag_na _ rfl)
    exact hexec

/-- Settles O39: the bytes' bits begin with those of the tree, and the padding behind them is not read. -/
theorem treeRoundTrip : Obligations.TreeRoundTrip := by
  intro s sh k hs ht hw hv hx hn hk
  obtain ⟨t, t2, hser, hflush, hout⟩ := exec_flush_serialized hs ht hw hv hx hn hk
  refine ⟨t, t2, _, hser, hflush, hout, fun u rest hu htu h0 he hl ha => ?_⟩
  obtain ⟨pad, hpad⟩ := byteBits_flushedBytes sh.bits
  have hg : genuineBits u = some (sh.bits ++ pad) := by
    rw [genuineBits_open he, ha, genuineTokens_inBytes hl, hpad, heldBits_of_fill_zero _ h0]
    rfl
  obtain ⟨v, hexec, hend, hshape, -⟩ := deserializeRebuildsTheTree u sh pad hu htu he (by rw [h0]; decide) hg hn
  refine ⟨v, hexec, ?_, ?_, ?_, hshape, ?_⟩ <;> rw [hend] <;> rfl

end Sys2Proof.Machine

/-!
## CodecFrames

What DESERIALIZE, ENCODE and DECODE leave unchanged: the parts they do not write, TREE from NODES on and BUF from IN_LEN
on (45_tree_serializer.md R301; 46_encoder.md R320; 47_decoder.md R345). The two memories are followed through every
command's tasks: one task at most makes TREE, and one at most loads BUF.
-/

namespace Sys2Proof.Machine

variable {i : Instr} {s t u : State}

/-! ### TREE is written below NODES -/

section
variable {m : Store Node} {ps : List Pending} {rest : List Task} {k : Nat}

/-- DESERIALIZE's stack is below NODES, and from NODES on TREE is as in `m`. -/
def LinksBelow (m : Store Node) (ps : List Pending) (t : State) : Prop :=
  t.treeInfo.nodes.toNat ≤ 511 ∧ KeepsFrom t.treeInfo.nodes.toNat m t.tree ∧
    ∀ x ∈ ps, x.node.toNat < t.treeInfo.nodes.toNat

/-- What a task left to do finds of the TREE that was `m`: one in the midst of making TREE has written below its index
only, and one that comes to it later finds TREE as it was. -/
def WritesBelow (m : Store Node) (t : State) : Task → Prop
  | .buildMerge q k => MergesBelow m q k t
  | .deserTag ps => LinksBelow m ps t
  | .deserSymbol ps k => k < t.treeInfo.nodes.toNat ∧ LinksBelow m ps t
  | x => makesTree x = true → t.tree = m

theorem writesBelow_of_plain {x : Task} (hx : carriesData x = false) (h : makesTree x = true → t.tree = m) :
    WritesBelow m t x := by
  cases x
  case buildMerge | deserTag | deserSymbol => cases hx
  all_goals exact h

theorem writesBelow_of_makesNone {x : Task} (hx : makesTree x = false) : WritesBelow m t x := by
  cases x
  case buildMerge | deserTag | deserSymbol => cases hx
  all_goals exact fun h => absurd (hx.symm.trans h) nofun

theorem WritesBelow.of_same {x : Task} (h : WritesBelow m s x) (hs : Part.tree.Same s t) : WritesBelow m t x := by
  obtain ⟨htree, hinfo, -⟩ := hs
  cases x <;> simpa only [WritesBelow, MergesBelow, LinksBelow, htree, hinfo] using h

/-- A task that does not write TREE itself, but comes to one that does, finds TREE as it was. -/
theorem WritesBelow.tree_eq {x : Task} (h : WritesBelow m t x) (hx : makesTree x = true) (hw : .tree ∉ x.writes) :
    t.tree = m := by
  cases x
  case buildMerge | deserTag | deserSymbol => exact absurd (List.mem_singleton.2 rfl) hw
  all_goals exact h hx

/-- TREE as the tasks `ts` find it: as in `m` from NODES on, but in BUILD's loop, which has not set NODES yet. -/
def TreeKept (m : Store Node) (ts : List Task) (t : State) : Prop :=
  KeepsFrom t.treeInfo.nodes.toNat m t.tree ∨ ∃ q k, ts.head? = some (.buildMerge q k)

theorem TreeKept.keepsFrom {x : Task} {ts : List Task} (h : TreeKept m (x :: ts) t) (hw : .tree ∉ x.writes) :
    KeepsFrom t.treeInfo.nodes.toNat m t.tree := by
  obtain hkeeps | ⟨q, k, hx⟩ := h
  · exact hkeeps
  · cases hx
    exact absurd (List.mem_singleton.2 rfl) hw

/-- What a task that writes TREE leaves, with `rest` left on the list. -/
def LeavesBelow (m : Store Node) (rest : List Task) : TaskResult → Prop
  | .hold => True
  | .ok t => ∃ ts, t.seq = .run (ts ++ rest) ∧ TreeKept m ts t ∧ ∀ x ∈ ts, WritesBelow m t x
  | .err _ t => KeepsFrom t.treeInfo.nodes.toNat m t.tree

theorem leavesBelow_push {ts : List Task} (hs : t.seq = .run rest) (hk : TreeKept m ts t)
    (hts : ∀ x ∈ ts, WritesBelow m t x) : LeavesBelow m rest (.ok (pushTasks ts t)) := by
  refine ⟨ts, pushTasks_seq_run t ts rest hs, ?_, fun x hx => (hts x hx).of_same (pushTasks_tree_same ts t)⟩
  simpa only [TreeKept, pushTasks_tree, pushTasks_treeInfo] using hk

/-! #### The tasks that write TREE -/

theorem taskBuild_below (hs : s.seq = .run rest) (hm : s.tree = m) : LeavesBelow m rest (taskBuild s) := by
  subst hm
  rcases taskBuild_writes s with ⟨u, hu, htree⟩ | ⟨q, k, u, hu, hseq, hq⟩ <;> rw [hu]
  · exact fun j _ => congrArg (storeGet · j) htree
  · refine leavesBelow_push (hseq.trans hs) (.inr ⟨q, k, rfl⟩) fun x hx => ?_
    rw [List.mem_singleton.1 hx]
    exact hq

theorem taskBuildMerge_below {q : List QEntry} (hs : s.seq = .run rest) (hq : MergesBelow m q k s) :
    LeavesBelow m rest (taskBuildMerge q k s) := by
  rcases taskBuildMerge_writes hq with ⟨u, hu, hseq, hm⟩ | ⟨r, u, hu, hseq, hr⟩ <;> rw [hu]
  · exact ⟨[], hseq.trans hs, .inl hm, nofun⟩
  · refine leavesBelow_push (hseq.trans hs) (.inr ⟨r, k + 1, rfl⟩) fun x hx => ?_
    rw [List.mem_singleton.1 hx]
    exact hr

theorem askTag_below (hs : s.seq = .run rest) (h : LinksBelow m ps s) : LeavesBelow m rest (.ok (askTag ps s)) := by
  obtain ⟨-, hkeeps, -⟩ := id h
  refine leavesBelow_push hs (.inl hkeeps) fun x hx => ?_
  obtain rfl | rfl : x = .get 1 0 0 ∨ x = .deserTag ps := by simpa using hx
  · exact writesBelow_of_makesNone rfl
  · exact h

theorem taskDeserialize_below (hs : s.seq = .run rest) (hm : s.tree = m) : LeavesBelow m rest (taskDeserialize s) :=
  askTag_below (s := { setTreeValid false (setPhase .deserialize s) with
    treeInfo := { root := 0, nodes := 0, rootLeaf := false } }) hs
    ⟨Nat.zero_le _, fun j _ => congrArg (storeGet · j) hm, nofun⟩

theorem deserNext_below (hs : s.seq = .run rest) (h : LinksBelow m ps s) : LeavesBelow m rest (deserNext ps s) := by
  rw [deserNext]
  split
  · obtain ⟨-, hkeeps, -⟩ := h
    exact ⟨[], hs, .inl hkeeps, nofun⟩
  · exact askTag_below hs h

/-- A write below NODES. -/
theorem LinksBelow.writeNode (h : LinksBelow m ps s) (hk : k < s.treeInfo.nodes.toNat) (e : Node) :
    LinksBelow m ps (writeNode k e s) := by
  obtain ⟨hn, hkeeps, hps⟩ := h
  exact ⟨hn, hkeeps.write hk e, hps⟩

/-- The parents that wait once the top one has its child, with a new one or none on top of them. -/
theorem LinksBelow.linkChild {new : List Pending} (h : LinksBelow m ps s)
    (hnew : ∀ x ∈ new, x.node.toNat < s.treeInfo.nodes.toNat) (k : Nat) :
    LinksBelow m (new ++ (linkChild ps k s).1) (linkChild ps k s).2 := by
  obtain ⟨hn, hkeeps, hps⟩ := h
  have htree := linkChild_keepsFrom hps k s
  have hwait : ∀ x ∈ (Machine.linkChild ps k s).1, x.node.toNat < s.treeInfo.nodes.toNat := by
    cases ps with
    | nil => nofun
    | cons x ps =>
      obtain ⟨hx, hps⟩ := List.forall_mem_cons.1 hps
      rw [Machine.linkChild]
      split
      · exact hps
      · exact List.forall_mem_cons.2 ⟨hx, hps⟩
  have hinfo : (Machine.linkChild ps k s).2.treeInfo = s.treeInfo := by rw [linkChild_frame]
  rw [LinksBelow, hinfo]
  exact ⟨hn, fun j hj => (htree j hj).trans (hkeeps j hj), List.forall_mem_append.2 ⟨hnew, hwait⟩⟩

theorem linkChild_seq (ps : List Pending) (k : Nat) (s : State) : (linkChild ps k s).2.seq = s.seq := by
  rw [linkChild_frame]

theorem taskDeserTag_below (hs : s.seq = .run rest) (h : LinksBelow m ps s) :
    LeavesBelow m rest (taskDeserTag ps s) := by
  obtain ⟨hn, hkeeps, hps⟩ := id h
  simp only [taskDeserTag]
  split
  · exact hkeeps
  · split
    · exact hkeeps
    · next hne =>
      simp only [Config.nodeMax] at hne
      have hsucc : (s.treeInfo.nodes + 1).toNat = s.treeInfo.nodes.toNat + 1 := by bv_omega
      have hlt : s.treeInfo.nodes.toNat < (s.treeInfo.nodes + 1).toNat := by omega
      have h1 : LinksBelow m ps { s with treeInfo := { s.treeInfo with nodes := s.treeInfo.nodes + 1 } } := by
        refine ⟨?_, hkeeps.mono hlt.le, fun x hx => (hps x hx).trans hlt⟩
        show (s.treeInfo.nodes + 1).toNat ≤ 511
        omega
      split
      · refine deserNext_below ((linkChild_seq ..).trans hs)
          ((h1.writeNode hlt _).linkChild (new := [_]) (fun x hx => ?_) s.treeInfo.nodes.toNat)
        rw [List.mem_singleton.1 hx]
        exact (BitVec.toNat_ofNat ..).trans_lt ((Nat.mod_le _ _).trans_lt hlt)
      · obtain ⟨-, hkeeps1, -⟩ := id h1
        refine leavesBelow_push
          (t := { s with treeInfo := { s.treeInfo with nodes := s.treeInfo.nodes + 1 } }) hs (.inl hkeeps1)
          fun x hx => ?_
        obtain rfl | rfl : x = .get 8 0 0 ∨ x = .deserSymbol ps s.treeInfo.nodes.toNat := by simpa using hx
        · exact writesBelow_of_makesNone rfl
        · exact ⟨hlt, h1⟩

theorem taskDeserSymbol_below (hs : s.seq = .run rest) (hk : k < s.treeInfo.nodes.toNat) (h : LinksBelow m ps s) :
    LeavesBelow m rest (taskDeserSymbol ps k s) := by
  simp only [taskDeserSymbol]
  split
  · obtain ⟨-, hkeeps, -⟩ := h
    exact hkeeps
  · next v _ =>
    have h1 := h.writeNode hk (.leaf (v.setWidth 8) 0)
    split
    · exact deserNext_below ((linkChild_seq ..).trans hs)
        (LinksBelow.linkChild (new := []) (s := { writeNode k (.leaf (v.setWidth 8) 0) s with
          treeInfo := { s.treeInfo with rootLeaf := true } }) h1 nofun k)
    · exact deserNext_below ((linkChild_seq ..).trans hs) (h1.linkChild (new := []) nofun k)

/-- Every task that writes TREE. -/
theorem runTask_below {x : Task} (hw : .tree ∈ x.writes) (hs : s.seq = .run rest) (hx : WritesBelow m s x) :
    LeavesBelow m rest (runTask x s) := by
  cases x
  case build => exact taskBuild_below hs (hx rfl)
  case buildMerge q k => exact taskBuildMerge_below hs hx
  case deserialize => exact taskDeserialize_below hs (hx rfl)
  case deserTag ps => exact taskDeserTag_below hs hx
  case deserSymbol ps k =>
    obtain ⟨hk, hx⟩ := hx
    exact taskDeserSymbol_below hs hk hx
  all_goals simp [Task.writes] at hw

/-! #### A command's points -/

/-- A point of a command that was started with TREE as in `m`. -/
def TreePoint (m : Store Node) (t : State) : Prop :=
  match t.seq with
  | .idle => KeepsFrom t.treeInfo.nodes.toNat m t.tree
  | .start => t.tree = m
  | .run ts => TreeKept m ts t ∧ (ts.filter makesTree).length ≤ 1 ∧ ∀ x ∈ ts, WritesBelow m t x

theorem treePoint_idle (h : t.seq = .idle) : TreePoint m t ↔ KeepsFrom t.treeInfo.nodes.toNat m t.tree := by
  simp only [TreePoint, h]

theorem treePoint_run {ts : List Task} (h : t.seq = .run ts) :
    TreePoint m t ↔ TreeKept m ts t ∧ (ts.filter makesTree).length ≤ 1 ∧ ∀ x ∈ ts, WritesBelow m t x := by
  simp only [TreePoint, h]

theorem TreePoint.keepsFrom (h : TreePoint m t) (hq : ∀ ts q k, t.seq = .run ts → .buildMerge q k ∉ ts) :
    KeepsFrom t.treeInfo.nodes.toNat m t.tree := by
  rcases hs : t.seq with _ | _ | ts
  · exact (treePoint_idle hs).1 h
  · simp only [TreePoint, hs] at h
    exact fun j _ => congrArg (storeGet · j) h
  · obtain ⟨hk | ⟨q, k, hmem⟩, -⟩ := (treePoint_run hs).1 h
    · exact hk
    · exact absurd (List.mem_of_head? hmem) (hq ts q k hs)

/-- A task's step, where no task is left but those that may follow. -/
theorem treePoint_task {k : Task} {ks ts : List Task} (h : TreePoint m s) (hs : s.seq = .run (k :: ks))
    (hr : runTask k { s with seq := .run ks } = .ok t) (hkeep : KeepsBut k.writes s t) (hf : mayFollow k ts = true)
    (ht : t.seq = .run (ts ++ ks)) : TreePoint m t := by
  obtain ⟨hkept, hone, hall⟩ := (treePoint_run hs).1 h
  obtain ⟨hk, hks⟩ := List.forall_mem_cons.1 hall
  have hts := makesTree_of_mayFollow hf
  rw [makesTree_cons] at hone
  have hone' : ((ts ++ ks).filter makesTree).length ≤ 1 := by
    rw [List.filter_append, List.length_append]
    omega
  by_cases hw : .tree ∈ k.writes
  · rw [makesTree_of_writes hw, Bool.toNat_true] at hone
    have hnone : ks.filter makesTree = [] := List.length_eq_zero_iff.1 (by omega)
    have hl := runTask_below (s := { s with seq := .run ks }) hw rfl (hk.of_same (Part.same_setSeq ..))
    rw [hr] at hl
    obtain ⟨ts', hseq, hkept', hts'⟩ := hl
    obtain rfl : ts = ts' := List.append_cancel_right (Seq.run.inj (ht.symm.trans hseq))
    refine (treePoint_run ht).2 ⟨?_, hone', List.forall_mem_append.2 ⟨hts', fun x hx => writesBelow_of_makesNone ?_⟩⟩
    · exact hkept'.imp id fun ⟨q, j, hq⟩ => ⟨q, j, by rw [List.head?_append, hq]; rfl⟩
    · simpa using List.filter_eq_nil_iff.1 hnone x hx
  · have hsame := hkeep .tree hw
    obtain ⟨htree, hinfo, -⟩ := id hsame
    refine (treePoint_run ht).2
      ⟨?_, hone', List.forall_mem_append.2 ⟨fun x hx => ?_, fun x hx => (hks x hx).of_same hsame⟩⟩
    · have hkeeps := hkept.keepsFrom hw
      exact .inl (by rwa [htree, hinfo])
    · refine writesBelow_of_plain (carriesData_of_mayFollow hf hw hx) fun hm => htree.trans (hk.tree_eq ?_ hw)
      have hpos : 0 < (ts.filter makesTree).length := List.length_pos_of_mem (List.mem_filter.2 ⟨hx, hm⟩)
      by_contra hno
      rw [Bool.eq_false_iff.2 hno] at hts
      exact absurd (hpos.trans_le hts) (Nat.lt_irrefl 0)

theorem coreStep_treePoint (h : TreePoint m s) (hc : coreStep (commandOf i) s = some t) : TreePoint m t := by
  rcases coreStep_does hc with ⟨hs, rfl⟩ | ⟨hs, rfl⟩ | ⟨e, ks, hs, rfl⟩ | ⟨k, ks, ts, hs, -, hr, hkeep, hf, ht⟩ |
    ⟨k, ks, e, v, hs, -, hr, hkeep, -, -, rfl⟩
  · simp only [TreePoint, hs] at h
    rcases beginCommand_cases (commandOf i) s with ⟨e, -, he⟩ | ⟨-, he⟩ <;> rw [he]
    · exact fun j _ => congrArg (storeGet · j) h
    · exact ⟨.inl fun j _ => congrArg (storeGet · j) h, commandOf_body_makesTree i s,
        fun x hx => writesBelow_of_plain (commandOf_body hx).2 fun _ => h⟩
  · obtain ⟨hkeeps | ⟨q, k, hq⟩, -⟩ := (treePoint_run hs).1 h
    · exact hkeeps
    · cases hq
  · obtain ⟨hkept, -⟩ := (treePoint_run hs).1 h
    exact hkept.keepsFrom (x := .fail e) (by simp [Task.writes])
  · exact treePoint_task h hs hr hkeep hf ht
  · obtain ⟨hkept, -, hall⟩ := (treePoint_run hs).1 h
    have hkeeps : KeepsFrom v.treeInfo.nodes.toNat m v.tree := by
      by_cases hw : .tree ∈ k.writes
      · have hl := runTask_below (s := { s with seq := .run ks }) hw rfl
          ((hall k List.mem_cons_self).of_same (Part.same_setSeq ..))
        rwa [hr] at hl
      · obtain ⟨htree, hinfo, -⟩ := hkeep .tree hw
        have hkeeps := hkept.keepsFrom hw
        rwa [htree, hinfo]
    have hplain : ∀ x ∈ (commandOf i).onError ++ [.fail e], makesTree x = false := by
      refine List.forall_mem_append.2 ⟨fun x hx => ?_, fun x hx => ?_⟩
      · obtain ⟨-, -, hnone⟩ := commandOf_onError hx
        exact hnone
      · rw [List.mem_singleton.1 hx]
        rfl
    refine (treePoint_run (raiseError_seq v (commandOf i) e)).2
      ⟨.inl hkeeps, ?_, fun x hx => writesBelow_of_makesNone (hplain x hx)⟩
    rw [List.filter_eq_nil_iff.2 fun x hx => by simp [hplain x hx]]
    exact Nat.zero_le 1

/-- A command, however far its turn takes it, has written TREE below NODES only, but in BUILD's loop. -/
theorem exec_keepsTree (hs : Started s) (h : exec i s = .next t)
    (hq : ∀ ts q k, t.seq = .run ts → .buildMerge q k ∉ ts) : KeepsFrom t.treeInfo.nodes.toNat s.tree t.tree := by
  rw [exec_next, wake_started hs] at h
  cases h
  have hpoint : TreePoint s.tree s := by simp only [TreePoint, hs]
  exact (coreRun_keeps (TreePoint s.tree) (fun _ _ => coreStep_treePoint) s.turn hpoint).keepsFrom hq

/-- So has a command without BUILD's loop, at any point. -/
theorem exec_keepsTree_of_noBuild (hi : ∀ q k, ownTask i (.buildMerge q k) = false) (hs : Started s)
    (h : exec i s = .next t) : KeepsFrom t.treeInfo.nodes.toNat s.tree t.tree := by
  have hstart : Runs i s := by simp [Runs, hs]
  obtain ⟨hr, -⟩ := exec_runs hstart h
  refine exec_keepsTree hs h fun ts q k hts hq => ?_
  have hown := (runs_iff hts).1 hr _ hq
  rw [hi] at hown
  cases hown

end

/-! ### BUF is written below IN_LEN -/

section
variable {m : Memory} {rest ts : List Task} {k x : Task}

/-- A task of LOAD. -/
def loads : Task → Bool
  | .load | .loadLoop | .loadDiscard => true
  | _ => false

/-- A task of ENCODE's own that puts tasks of others on the list, or begins ENCODE. -/
def framesEncode : Task → Bool
  | .encodeInit | .encodeMode | .encodeHeader | .encodeFinish _ => true
  | _ => false

theorem ownTask_of_loads {j : Instr} (hx : loads x = true) (h : ownTask j x = true) : j = .load ∨ j = .encode := by
  cases x
  case load | loadLoop | loadDiscard =>
    cases j
    case load => exact .inl rfl
    case encode => exact .inr rfl
    all_goals cases h
  all_goals cases hx

/-- Every other task can stand on the list of a command that is neither LOAD nor ENCODE. -/
theorem ownTask_other (hk : loads k = false) (he : framesEncode k = false) :
    commands.any (fun j => decide (j ≠ .load ∧ j ≠ .encode) && ownTask j k) = true := by
  cases k
  case load | loadLoop | loadDiscard => cases hk
  case encodeInit | encodeMode | encodeHeader | encodeFinish => cases he
  all_goals rfl

/-- The tasks put before `rest` are none of LOAD's. -/
def PushesNoLoads (rest : List Task) (t : State) : Prop := ∃ ts, t.seq = .run (ts ++ rest) ∧ ∀ x ∈ ts, loads x = false

theorem pushesNoLoads (hs : s.seq = .run rest) (hts : ts.all (fun x => !loads x) = true) :
    PushesNoLoads rest (pushTasks ts s) := ⟨ts, pushTasks_seq_run s ts rest hs, by simpa using hts⟩

/-- What ENCODE's own tasks put on the list. -/
theorem runTask_framesEncode (hk : framesEncode k = true) (hs : s.seq = .run rest) (hr : runTask k s = .ok t) :
    PushesNoLoads rest t := by
  cases k
  case encodeInit =>
    cases hr
    exact ⟨[], hs, nofun⟩
  case encodeMode =>
    simp only [runTask, taskEncodeMode] at hr
    split at hr
    · cases hr
      exact pushesNoLoads (s := setMode 0 s) hs rfl
    · split at hr
      · cases hr
        exact pushesNoLoads (s := setMode 1 s) hs rfl
      · cases hr
        exact pushesNoLoads (s := setMode 2 s) hs rfl
  case encodeHeader =>
    cases hr
    exact pushesNoLoads hs rfl
  case encodeFinish n =>
    cases hr
    exact pushesNoLoads hs rfl
  all_goals cases hk

/-- Only a task of LOAD leaves a task of LOAD to do. -/
theorem loads_of_runTask (hk : loads k = false) (hs : s.seq = .run rest) (hr : runTask k s = .ok t)
    (hf : mayFollow k ts = true) (ht : t.seq = .run (ts ++ rest)) : ∀ x ∈ ts, loads x = false := by
  cases he : framesEncode k
  · obtain ⟨j, -, hj⟩ := List.any_eq_true.1 (ownTask_other hk he)
    simp only [Bool.and_eq_true, decide_eq_true_eq] at hj
    obtain ⟨⟨hload, hencode⟩, hown⟩ := hj
    intro x hx
    by_contra hl
    exact (ownTask_of_loads (by simpa using hl) (ownTask_of_mayFollow hf hown hx)).elim hload hencode
  · obtain ⟨ts', ht', hts'⟩ := runTask_framesEncode he hs hr
    obtain rfl : ts = ts' := List.append_cancel_right (Seq.run.inj (ht.symm.trans ht'))
    exact hts'

/-- What a task left to do finds of the BUF that was `m`. -/
def StoresReady (m : Memory) (t : State) : Task → Prop
  | .load => t.buf = m
  | .loadLoop => StoresBelow m t
  | _ => True

theorem storesReady_of_not_loads (hx : loads x = false) : StoresReady m t x := by
  cases x
  case load | loadLoop => cases hx
  all_goals trivial

theorem StoresReady.of_same (h : StoresReady m s x) (hs : Part.buffer.Same s t) (hn : t.nMax = s.nMax) :
    StoresReady m t x := by
  obtain ⟨hbuf, hlen, -⟩ := hs
  cases x
  case load => exact hbuf.trans h
  case loadLoop => simpa only [StoresReady, StoresBelow, hbuf, hlen, hn] using h
  all_goals trivial

theorem loads_of_writes (h : .buffer ∈ k.writes) : loads k = true := by
  cases k <;> simp_all [Task.writes, loads]

/-- A point of a command that was started with BUF as in `m`. -/
def BufPoint (m : Memory) (t : State) : Prop :=
  match t.seq with
  | .idle => KeepsFrom t.inLen.toNat m t.buf
  | .start => t.buf = m
  | .run ts => KeepsFrom t.inLen.toNat m t.buf ∧ (ts.filter loads).length ≤ 1 ∧ ∀ x ∈ ts, StoresReady m t x

theorem bufPoint_run (h : t.seq = .run ts) :
    BufPoint m t ↔
      KeepsFrom t.inLen.toNat m t.buf ∧ (ts.filter loads).length ≤ 1 ∧ ∀ x ∈ ts, StoresReady m t x := by
  simp only [BufPoint, h]

theorem bufPoint_cons_iff (h : t.seq = .run (k :: rest)) :
    BufPoint m t ↔
      KeepsFrom t.inLen.toNat m t.buf ∧ (loads k).toNat + (rest.filter loads).length ≤ 1 ∧ StoresReady m t k ∧
        ∀ x ∈ rest, StoresReady m t x := by
  have hlen : ((k :: rest).filter loads).length = (loads k).toNat + (rest.filter loads).length := by
    cases hk : loads k <;> simp [hk, Nat.add_comm]
  rw [bufPoint_run h, hlen, List.forall_mem_cons]

/-- Behind a task of LOAD there is none. -/
theorem loads_rest (hk : loads k = true) (h : (loads k).toNat + (rest.filter loads).length ≤ 1) :
    ∀ x ∈ rest, loads x = false := by
  rw [hk, Bool.toNat_true] at h
  have hnone : rest.filter loads = [] := List.length_eq_zero_iff.1 (by omega)
  simpa using List.filter_eq_nil_iff.1 hnone

theorem BufPoint.keepsFrom (h : BufPoint m t) : KeepsFrom t.inLen.toNat m t.buf := by
  rcases hs : t.seq with _ | _ | ts
  · simpa only [BufPoint, hs] using h
  · simp only [BufPoint, hs] at h
    exact fun j _ => congrArg (storeGet · j) h
  · obtain ⟨hm, -⟩ := (bufPoint_run hs).1 h
    exact hm

/-- A point with no task of LOAD left. -/
theorem bufPoint_of_not_loads (h : t.seq = .run ts) (hts : ∀ x ∈ ts, loads x = false)
    (hm : KeepsFrom t.inLen.toNat m t.buf) : BufPoint m t := by
  refine (bufPoint_run h).2 ⟨hm, ?_, fun x hx => storesReady_of_not_loads (hts x hx)⟩
  rw [List.filter_eq_nil_iff.2 fun x hx => by simp [hts x hx]]
  exact Nat.zero_le 1

/-- A point where a task of LOAD is next. -/
theorem bufPoint_cons (h : t.seq = .run (k :: rest)) (hrest : ∀ x ∈ rest, loads x = false) (hk : StoresReady m t k)
    (hm : KeepsFrom t.inLen.toNat m t.buf) : BufPoint m t := by
  have hnone : rest.filter loads = [] := List.filter_eq_nil_iff.2 fun x hx => by simp [hrest x hx]
  refine (bufPoint_cons_iff h).2 ⟨hm, ?_, hk, fun x hx => storesReady_of_not_loads (hrest x hx)⟩
  rw [hnone]
  exact Bool.toNat_le _

theorem bufPoint_raiseError {e : ErrCode} (hm : KeepsFrom s.inLen.toNat m s.buf) :
    BufPoint m (raiseError (commandOf i) e s) := by
  have herr : (commandOf i).onError.all (fun x => !loads x) = true := by cases i <;> rfl
  refine bufPoint_of_not_loads (raiseError_seq s (commandOf i) e) (List.forall_mem_append.2 ⟨?_, fun x hx => ?_⟩) hm
  · simpa using herr
  · rw [List.mem_singleton.1 hx]
    rfl

/-- A step of LOAD's. -/
theorem coreStep_loads (hk : loads k = true) (hs : s.seq = .run (k :: rest)) (hrest : ∀ x ∈ rest, loads x = false)
    (hready : StoresReady m s k) (hm : KeepsFrom s.inLen.toNat m s.buf)
    (hc : coreStep (commandOf i) s = some t) : BufPoint m t := by
  cases k
  case load =>
    cases (coreStep_load hs).symm.trans hc
    have hkeeps : KeepsFrom 0 m s.buf := fun j _ => congrArg (storeGet · j) hready
    exact bufPoint_cons rfl hrest ⟨Nat.zero_le _, hkeeps⟩ hkeeps
  case loadLoop =>
    rcases ha : ahead s with _ | ⟨b | _, tokens⟩
    · cases (coreStep_hold hs rfl ha).symm.trans hc
    · by_cases he : s.inLen = s.nMax
      · cases (coreStep_loadLoop_full hs ha he).symm.trans hc
        exact bufPoint_cons (k := .loadDiscard) rfl hrest trivial hm
      · cases (coreStep_loadLoop_store hs ha he).symm.trans hc
        have hstore := StoresBelow.store hready he b none tokens
        obtain ⟨-, hkeeps⟩ := id hstore
        exact bufPoint_cons hs hrest hstore hkeeps
    · cases (coreStep_loadLoop_end hs ha).symm.trans hc
      exact bufPoint_of_not_loads rfl hrest hm
  case loadDiscard =>
    rcases ha : ahead s with _ | ⟨b | _, tokens⟩
    · cases (coreStep_hold hs rfl ha).symm.trans hc
    · cases (coreStep_loadDiscard_byte hs ha).symm.trans hc
      exact bufPoint_cons hs hrest trivial hm
    · cases (coreStep_loadDiscard_end hs ha).symm.trans hc
      exact bufPoint_raiseError hm
  all_goals cases hk

/-- A command's body begins with BUF as it was, and comes to LOAD's task once at most. -/
theorem bufPoint_body (i : Instr) (s : State) :
    BufPoint s.buf { clearWorking s with seq := .run ((commandOf i).body s) } := by
  have key : ((commandOf i).body s).all (fun x => !loads x || decide (x = .load)) = true := by cases i <;> rfl
  refine (bufPoint_run rfl).2 ⟨keepsFrom_refl _ _, by cases i <;> exact Nat.le_of_ble_eq_true rfl, fun x hx => ?_⟩
  cases hl : loads x
  · exact storesReady_of_not_loads hl
  · have hx := List.all_eq_true.1 key x hx
    simp only [hl, Bool.not_true, Bool.false_or, decide_eq_true_eq] at hx
    subst hx
    rfl

theorem coreStep_bufPoint (h : BufPoint m s) (hc : coreStep (commandOf i) s = some t) : BufPoint m t := by
  have hcases := coreStep_does hc
  rcases hcases with ⟨hs, rfl⟩ | ⟨-, rfl⟩ | ⟨e, ks, -, rfl⟩ | ⟨k, ks, ts, hs, -, hr, hkeep, hf, ht⟩ |
    ⟨k, ks, e, v, hs, -, hr, hkeep, -, -, rfl⟩
  · simp only [BufPoint, hs] at h
    subst h
    rcases beginCommand_cases (commandOf i) s with ⟨e, -, he⟩ | ⟨-, he⟩ <;> rw [he]
    · exact keepsFrom_refl _ _
    · exact bufPoint_body i s
  · exact h.keepsFrom
  · exact h.keepsFrom
  · obtain ⟨hm, hone, hk, hks⟩ := (bufPoint_cons_iff hs).1 h
    cases hl : loads k
    · obtain ⟨hbuf, hlen, hvalid⟩ := hkeep .buffer fun hw => by rw [loads_of_writes hw] at hl; cases hl
      obtain ⟨hn, -⟩ := runTask_hostSame k (s := { s with seq := .run ks }) (t := t) (by rw [hr]; rfl)
      have hts := loads_of_runTask hl (s := { s with seq := .run ks }) rfl hr hf ht
      have hnone : ts.filter loads = [] := List.filter_eq_nil_iff.2 fun x hx => by simp [hts x hx]
      refine (bufPoint_run ht).2 ⟨by rwa [hbuf, hlen], ?_, List.forall_mem_append.2
        ⟨fun x hx => storesReady_of_not_loads (hts x hx), fun x hx => (hks x hx).of_same ⟨hbuf, hlen, hvalid⟩ hn⟩⟩
      rw [List.filter_append, hnone]
      exact (Nat.le_add_left ..).trans hone
    · exact coreStep_loads hl hs (loads_rest hl hone) hk hm hc
  · obtain ⟨hm, hone, hk, -⟩ := (bufPoint_cons_iff hs).1 h
    cases hl : loads k
    · obtain ⟨hbuf, hlen, -⟩ := hkeep .buffer fun hw => by rw [loads_of_writes hw] at hl; cases hl
      exact bufPoint_raiseError (by rwa [hbuf, hlen])
    · exact coreStep_loads hl hs (loads_rest hl hone) hk hm hc

/-- A command, however far its turn takes it, has written BUF below IN_LEN only. -/
theorem exec_keepsBuf (hs : Started s) (h : exec i s = .next t) : KeepsFrom t.inLen.toNat s.buf t.buf := by
  rw [exec_next, wake_started hs] at h
  cases h
  have hpoint : BufPoint s.buf s := by simp only [BufPoint, hs]
  exact (coreRun_keeps (BufPoint s.buf) (fun _ _ => coreStep_bufPoint) s.turn hpoint).keepsFrom

end

/-! ### The statements -/

/-- Settles O60: each command's turn is framed by the parts that its tasks write; the points of a command say where TREE
and BUF are written. -/
theorem codecCommandsFrame : Obligations.CodecCommandsFrame := by
  refine ⟨fun s t hr h => exec_framed hr h, fun s t hs h _ => exec_keepsTree_of_noBuild (fun _ _ => rfl) hs h,
    fun s t hr h => exec_framed hr h, fun s t hr h => exec_framed hr h, fun s t hs h _ => exec_keepsBuf hs h,
    fun s t hs h hb => exec_keepsTree hs h fun ts q k hts => ?_,
    fun s t hs h => exec_keepsTree_of_noBuild (fun _ _ => rfl) hs h⟩
  rw [busy_run hts] at hb
  cases hb

end Sys2Proof.Machine

/-!
## FrameRuns

The frame that ENCODE writes, from an empty packer to its End: the bits written so far, cut into bytes, and the tasks
that write more of them (30_encoding.md R141 to R147; 46_encoder.md R320).
-/

namespace Sys2Proof.Machine

variable {c : Command} {s t : State} {sh : Shape} {ks : List Task} {bits more : List Bool}

/-! ### The packer that holds given bits -/

theorem pendingBits_packerOf (h : bits.length < 8) : pendingBits (packerOf bits) = bits := by
  have hfill : (packerOf bits).fill.toNat = bits.length := Nat.mod_eq_of_lt (by omega)
  rw [pendingBits, hfill]
  exact bitsOf_valueOfBits h.le

theorem packerWf_packerOf (h : bits.length < 8) : PackerWf (packerOf bits) := by
  have hfill : (packerOf bits).fill.toNat = bits.length := Nat.mod_eq_of_lt (by omega)
  refine ⟨by omega, BitVec.eq_of_getLsbD_eq fun i _ => ?_⟩
  rw [hfill, BitVec.getLsbD_ushiftRight, packerOf, valueOfBits_getLsbD, List.getElem?_eq_none (by omega)]
  simp

/-- Zeros above a value's bits do not change it. -/
theorem valueOfBits_append_zeros (w k : Nat) (bits : List Bool) :
    valueOfBits w (bits ++ List.replicate k false) = valueOfBits w bits := by
  apply BitVec.eq_of_getLsbD_eq
  intro i _
  rw [valueOfBits_getLsbD, valueOfBits_getLsbD, List.getElem?_append]
  split
  · rfl
  · next hi => rw [List.getElem?_eq_none (Nat.le_of_not_lt hi), List.getElem?_replicate]; split <;> rfl

theorem restBits_length_lt (bits : List Bool) : (restBits bits).length < 8 := by
  rw [restBits_length]
  omega

/-- Padding with zeros is what a flush does (30_encoding.md R147, 41_bitio.md R203). -/
theorem frameBytes_eq_flushedBytes (bits : List Bool) : frameBytes bits = flushedBytes bits := by
  have hlen := restBits_length bits
  rw [frameBytes, wholeBytes_append, flushedBytes]
  split
  · next hnil =>
    rw [hnil, List.length_nil] at hlen
    rw [hnil, ← hlen]
    rfl
  · next hne =>
    have hpos := List.length_pos_iff.2 hne
    have hbyte := wholeBytes_append_of_byte
      (l := restBits bits ++ List.replicate ((8 - bits.length % 8) % 8) false)
      (by rw [List.length_append, List.length_replicate]; omega) []
    rw [List.append_nil, valueOfBits_append_zeros] at hbyte
    rw [hbyte.1]
    rfl

/-! ### A frame begun -/

@[simp] theorem setPhase_setPhase (p q : Phase) (t : State) : setPhase p (setPhase q t) = setPhase p t := rfl

@[simp] theorem setPhase_setRet_setPhase (n : Nat) (p q : Phase) (t : State) :
    setPhase p (setRet n (setPhase q t)) = setRet n (setPhase p t) := rfl

@[simp] theorem setRet_setRet (m n : Nat) (t : State) : setRet m (setRet n t) = setRet m t := rfl


/-- The bytes BUF[0..IN_LEN-1]. -/
def inputOf (t : State) : List Byte := bufBytes t t.inLen.toNat

theorem inputOf_length (t : State) : (inputOf t).length = t.inLen.toNat := bufBytes_length ..

@[simp] theorem inputOf_setPhase (p : Phase) (t : State) : inputOf (setPhase p t) = inputOf t := rfl

@[simp] theorem inputOf_setRet (n : Nat) (t : State) : inputOf (setRet n t) = inputOf t := rfl

@[simp] theorem inputOf_setMode (tag : BitVec 2) (t : State) : inputOf (setMode tag t) = inputOf t := rfl

@[simp] theorem treeShape_setPhase (p : Phase) (t : State) : treeShape (setPhase p t) = treeShape t := rfl

/-- The state in which ENCODE has written `bits` of its frame since its packer was emptied, and has the tasks `ks` left.
Beside the packer, OUT, the bytes pushed and the tasks it is `t`, whose OUT is that before the frame. -/
def framing (bits : List Bool) (ks : List Task) (t : State) : State :=
  { t with
    seq := .run ks, out := t.out ++ outBytes (wholeBytes bits), wr := packerOf (restBits bits)
    pushed := (wholeBytes bits).length }

/-- With an empty packer the frame has no bit yet. -/
theorem framing_nil (hw : t.wr = { acc := 0, fill := 0 }) (hp : t.pushed = 0) :
    framing [] ks t = { t with seq := .run ks } := by
  cases t
  cases hw
  cases hp
  simp only [framing, wholeBytes, outBytes, List.map_nil, List.append_nil]
  rfl

/-- Bits written follow those of the frame. -/
theorem writeBits_framing (bits more : List Bool) (ks : List Task) (t : State) :
    writeBits more (framing bits ks t) = framing (bits ++ more) ks t := by
  have hlen := restBits_length_lt bits
  have hpending : pendingBits (framing bits ks t).wr = restBits bits := pendingBits_packerOf hlen
  rw [writeBits_eq_packed more (s := framing bits ks t) (packerWf_packerOf hlen), packedCount, packed, hpending]
  simp only [framing, wholeBytes_append bits more, restBits_append bits more, outBytes, List.map_append,
    List.append_assoc, List.length_append]

/-! ### The tasks that write it -/

/-- One core step in the midst of a frame. -/
theorem coreStep_framing {k : Task} (hk : runTask k (framing bits ks t) = .ok s) :
    coreStep c (framing bits (k :: ks) t) = some s := by
  have hk' : runTask k { framing bits (k :: ks) t with seq := .run ks } = .ok s := hk
  rw [coreStep_task rfl, hk']

theorem coreStep_framing_enter (p : Phase) :
    coreStep c (framing bits (.enter p :: ks) t) = some (framing bits ks (setPhase p t)) := coreStep_framing rfl

theorem coreRun_framing_put (more : List Bool) :
    coreRun (more.length + 1) c (framing bits (.put more :: ks) t) = framing (bits ++ more) ks t := by
  rw [coreRun_put more ks rfl, writeBits_framing]
  rfl

/-- SERIALIZE's task within ENCODE (46_encoder.md R320). -/
theorem coreRun_framing_serialize (hx : treeShape t = some sh) :
    coreRun (sh.bits.length + 2 * sh.nodes + 1 + 1) c (framing bits (.serialize :: ks) t) =
      framing (bits ++ sh.bits) ks (setRet sh.bits.length (setPhase .serialize t)) := by
  have hphase : setPhase .serialize (framing bits (.serialize :: ks) t) =
      framing bits (.serialize :: ks) (setPhase .serialize t) := rfl
  rw [coreRun_serialize (s := framing bits (.serialize :: ks) t) rfl hx, hphase, writeBits_framing]
  rfl

/-- EMIT's task within ENCODE, where the codes of the bytes in BUF are `more` (46_encoder.md R320). -/
theorem coreRun_framing_emit (hm : codesOf t.code (inputOf t) = more)
    (hc : ∀ b ∈ inputOf t, (codeGet t.code b.toNat).len ≠ 0) :
    coreRun (more.length + 2 * (inputOf t).length + 1 + 1) c (framing bits (.emit :: ks) t) =
      framing (bits ++ more) ks (setRet more.length (setPhase .emit t)) := by
  subst hm
  have hphase : setPhase .emit (framing bits (.emit :: ks) t) = framing bits (.emit :: ks) (setPhase .emit t) := rfl
  have hrun := coreRun_emit_end (c := c) (s := framing bits (.emit :: ks) t) rfl hc
  rw [hphase] at hrun
  refine hrun.trans ?_
  rw [writeBits_framing]
  rfl

/-- The flush at the end of a frame pads it to whole bytes. -/
theorem flushPacker_framing (bits : List Bool) (ks : List Task) (t : State) :
    flushPacker (framing bits ks t) =
      { t with
        seq := .run ks, out := t.out ++ outBytes (frameBytes bits), wr := { acc := 0, fill := 0 }
        pushed := (frameBytes bits).length } := by
  have hfill : (framing bits ks t).wr.fill = 0 ↔ restBits bits = [] := packerOf_fill_eq_zero (restBits_length_lt bits)
  rw [frameBytes_eq_flushedBytes, flushedBytes]
  rcases flushPacker_cases (framing bits ks t) with ⟨h0, hf⟩ | ⟨h0, hf⟩
  · have hnil := hfill.1 h0
    rw [hf, if_pos hnil, List.append_nil, framing, hnil]
    rfl
  · rw [hf, if_neg fun hnil => h0 (hfill.2 hnil), framing]
    simp [outBytes]
    rfl

/-- ENCODE's end: the flush, the End and T as the value. -/
theorem coreRun_framing_finish (total : Nat) :
    coreRun 5 c (framing bits [.encodeFinish total] t) =
      { setPhase .finish t with
        seq := .run [], out := t.out ++ outBytes (frameBytes bits) ++ [.eos], wr := { acc := 0, fill := 0 }
        pushed := (frameBytes bits).length, ret := counted total } := by
  have hfinish : coreStep c (framing bits [.encodeFinish total] t) =
      some (framing bits [.enter .finish, .flush, .out .eos, .setRet total] t) := coreStep_framing rfl
  have hflush : coreStep c (framing bits [.flush, .out .eos, .setRet total] (setPhase .finish t)) =
      some (flushPacker (framing bits [.out .eos, .setRet total] (setPhase .finish t))) := coreStep_framing rfl
  rw [coreRun_some _ hfinish, coreRun_some _ (coreStep_framing_enter _), coreRun_some _ hflush, flushPacker_framing]
  rfl

/-- ENCODE once its frame is written: it completes with T. -/
theorem exec_encode_of_framing {m total : Nat} (hs : Started s) (ht : m + 7 ≤ s.turn)
    (hm : coreRun m cmdEncode (opened (cmdEncode.body s) s) = framing bits [.encodeFinish total] t) :
    exec .encode s =
      .next (succeeded (counted total)
        { t with out := t.out ++ outBytes (frameBytes bits) ++ [.eos], wr := { acc := 0, fill := 0 } }) := by
  have hbody := coreRun_framing_finish (c := cmdEncode) (bits := bits) (t := t) total
  rw [← hm, ← coreRun_add] at hbody
  exact exec_of_returns (i := .encode) hs ht rfl hbody rfl

end Sys2Proof.Machine

/-!
## EncodeRuns

ENCODE on the sequencer: its input loaded and counted, and then the tasks of each framing mode up to its end
(46_encoder.md R320 to R325).
-/

namespace Sys2Proof.Machine

variable {c : Command} {s t : State} {sh : Shape} {x : List Byte} {rest : List InTok} {ks : List Task}
  {bits : List Bool}

/-! ### The input, loaded and counted -/

/-- ENCODE's first lines are done: a fresh write session is begun and MODE is cleared. -/
def encodeBegun (s : State) : State :=
  { clearWorking s with wr := { acc := 0, fill := 0 }, mode := { tag := 0, valid := false, mb := 0 } }

theorem coreStep_encodeInit : coreStep c (opened (.encodeInit :: ks) s) = some (framing [] ks (encodeBegun s)) := by
  rw [coreStep_task rfl, framing_nil rfl rfl]
  rfl

/-- ENCODE's input `x` is in BUF. -/
def encodeLoaded (x : List Byte) (rest : List InTok) (s : State) : State :=
  { encodeBegun s with
    buf := storedFrom 0 x s.buf, inLen := BitVec.ofNat 32 x.length, la := none, inp := rest, ret := counted x.length
    status := { s.status with phase := .load, bufValid := true } }

theorem inputOf_encodeLoaded (hx : x.length ≤ s.nMax.toNat) (rest : List InTok) :
    inputOf (encodeLoaded x rest s) = x := by
  have hlen : (BitVec.ofNat 32 x.length).toNat = x.length :=
    Nat.mod_eq_of_lt (lt_of_le_of_lt hx s.nMax.isLt)
  refine List.ext_getElem ((inputOf_length _).trans hlen) fun j hj hjx => ?_
  have hget := storeGet_storedFrom 0 x s.buf hjx
  rw [Nat.zero_add, List.getElem?_eq_getElem hjx] at hget
  simp [inputOf, bufBytes, bufAt, encodeLoaded, hget]

/-- FREQ and NDIST are made of the bytes in BUF. -/
def tallied (t : State) : State :=
  { setFreqValid true (setPhase .count t) with
    freq := countedFreq t t.inLen.toNat, ndist := BitVec.ofNat 9 (distinctBytes (inputOf t))
    ret := counted (distinctBytes (inputOf t)) }

theorem distinctCount_tallied (t : State) : distinctCount (tallied t).freq = distinctBytes (inputOf t) :=
  distinctCount_countedFreq t.inLen.isLt t

theorem presentSymbols_tallied (t : State) :
    (presentSymbols (tallied t).freq).Perm ((inputOf t).dedup.map BitVec.toNat) :=
  presentSymbols_countedFreq t.inLen.isLt t

theorem freqGet_tallied (t : State) (a : Byte) : (freqGet (tallied t).freq a.toNat).toNat = (inputOf t).count a :=
  countedFreq_toNat t.inLen.isLt t a

@[simp] theorem inputOf_tallied (t : State) : inputOf (tallied t) = inputOf t := rfl

theorem coreStep_framing_count :
    coreStep c (framing bits (.count :: ks) t) = some (framing bits ks (tallied t)) := by
  refine coreStep_framing ?_
  rw [tallied, inputOf, ← distinctCount_countedFreq t.inLen.isLt]
  rfl

/-- ENCODE up to its choice of the framing mode. -/
theorem coreRun_encode_tallied (ha : ahead s = inBytes x ++ .eos :: rest) (hx : x.length ≤ s.nMax.toNat) :
    coreRun (x.length + 4) c (opened (cmdEncode.body s) s) =
      framing [] [.encodeMode] (tallied (encodeLoaded x rest s)) := by
  have hload := coreRun_load_of_fits (c := c) (s := framing [] [.load, .count, .encodeMode] (encodeBegun s)) x rfl ha hx
  calc coreRun (x.length + 4) c (opened (cmdEncode.body s) s)
    _ = coreRun 1 c (coreRun (x.length + 2) c (framing [] [.load, .count, .encodeMode] (encodeBegun s))) := by
      rw [← coreRun_add]
      exact coreRun_some _ coreStep_encodeInit
    _ = coreRun 1 c (framing [] [.count, .encodeMode] (encodeLoaded x rest s)) := congrArg _ hload
    _ = _ := coreRun_some 0 coreStep_framing_count

/-- An input that does not fit BUF is discarded through its End. -/
def encodeOverflowed (x : List Byte) (rest : List InTok) (s : State) : State :=
  { encodeBegun s with
    buf := storedFrom 0 (x.take s.nMax.toNat) s.buf, inLen := s.nMax, la := none, inp := rest
    status := { s.status with phase := .load, bufValid := false } }

/-- ENCODE on such an input: Abort, and only the completion of the error is left (60_exceptions.md R371). -/
theorem coreRun_encode_overflows (ha : ahead s = inBytes x ++ .eos :: rest) (hx : s.nMax.toNat < x.length) :
    coreRun (x.length + 5) cmdEncode (opened (cmdEncode.body s) s) =
      outWrite .abort (framing [] [.fail .inputOverflow] (setPhase .finish (encodeOverflowed x rest s))) := by
  have hload := coreRun_load_of_overflows (c := cmdEncode)
    (s := framing [] [.load, .count, .encodeMode] (encodeBegun s)) x rfl ha hx
  calc coreRun (x.length + 5) cmdEncode (opened (cmdEncode.body s) s)
    _ = coreRun 2 cmdEncode
          (coreRun (x.length + 2) cmdEncode (framing [] [.load, .count, .encodeMode] (encodeBegun s))) := by
      rw [← coreRun_add]
      exact coreRun_some _ coreStep_encodeInit
    _ = coreRun 2 cmdEncode
          (framing [] [.enter .finish, .out .abort, .fail .inputOverflow] (encodeOverflowed x rest s)) :=
      congrArg _ hload
    _ = _ := (coreRun_some 1 (coreStep_framing_enter _)).trans (coreRun_some 0 (coreStep_framing rfl))

/-! ### The raw and the single-symbol frame -/

/-- Fewer than eight bytes: the raw frame (46_encoder.md R321, R322). -/
theorem coreRun_encodeMode_raw (h : (inputOf t).length < 8) :
    coreRun ([false, false].length + 1 + ((byteBits (inputOf t)).length + 1 + 1) + 1 + 1) c
        (framing [] [.encodeMode] t) =
      framing (rawFrame (inputOf t)) [.encodeFinish (2 + 8 * (inputOf t).length)]
        (setPhase .rawBody (setPhase .header (setMode 0 t))) := by
  rw [inputOf_length] at h
  have hmode : coreStep c (framing [] [.encodeMode] t) = some (framing []
      [.enter .header, .put [false, false], .enter .rawBody, .put (byteBits (inputOf t)),
        .encodeFinish (2 + 8 * (inputOf t).length)] (setMode 0 t)) := by
    rw [inputOf_length]
    exact coreStep_framing (if_pos h)
  rw [coreRun_some _ hmode, coreRun_some _ (coreStep_framing_enter _), coreRun_add, coreRun_framing_put,
    coreRun_some _ (coreStep_framing_enter _), coreRun_framing_put, rawFrame, List.nil_append]

/-- At least eight bytes of one symbol: the single-symbol frame (46_encoder.md R321, R323). -/
theorem coreRun_encodeMode_single (h : 8 ≤ (inputOf t).length) (hd : t.ndist = 1) :
    coreRun ((singleFrame (onlySymbol t.freq) (inputOf t).length).length + 1 + 1 + 1) c
        (framing [] [.encodeMode] t) =
      framing (singleFrame (onlySymbol t.freq) (inputOf t).length) [.encodeFinish 42]
        (setPhase .header (setMode 1 t)) := by
  have hmode : coreStep c (framing [] [.encodeMode] t) = some (framing []
      [.enter .header, .put (singleFrame (onlySymbol t.freq) (inputOf t).length), .encodeFinish 42] (setMode 1 t)) := by
    rw [inputOf_length] at h
    rw [inputOf_length, singleFrame, BitVec.ofNat_toNat, BitVec.setWidth_eq]
    exact coreStep_framing ((if_neg (Nat.not_lt.2 h)).trans (if_pos hd))
  rw [coreRun_some _ hmode, coreRun_some _ (coreStep_framing_enter _), coreRun_framing_put, List.nil_append]

/-! ### The Huffman frame: the tree and the codes -/

/-- At least eight bytes of two symbols or more: the tree is built first (46_encoder.md R321, R324). -/
theorem coreStep_encodeMode_huffman (h : 8 ≤ (inputOf t).length) (hd : t.ndist ≠ 1) :
    coreStep c (framing [] [.encodeMode] t) = some (framing [] [.build, .gencode, .encodeHeader] (setMode 2 t)) := by
  rw [inputOf_length] at h
  exact coreStep_framing ((if_neg (Nat.not_lt.2 h)).trans (if_neg hd))

/-- TREE and CODE are those that BUILD and GENCODE make. -/
def encodeCoded (tree : Store Node) (sh : Shape) (t : State) : State :=
  { builtWith tree t with
    code := codesWritten sh.paths [], ret := counted sh.leaves
    status := { t.status with phase := .gencode, treeValid := true, codeValid := true } }

theorem treeShape_builtWith (tree : Store Node) (t : State) :
    treeShape (builtWith tree t) = shapeOf Config.nodeMax tree (2 * distinctCount t.freq - 2) := by
  have h256 := distinctCount_le t.freq
  have hroot : (BitVec.ofNat 9 (2 * distinctCount t.freq - 2)).toNat = 2 * distinctCount t.freq - 2 :=
    Nat.mod_eq_of_lt (by omega)
  exact congrArg (shapeOf Config.nodeMax tree) hroot

/-- BUILD's and GENCODE's tasks within ENCODE. -/
theorem coreRun_framing_codes (h2 : 2 ≤ distinctCount t.freq) :
    ∃ (tree : Store Node) (sh : Shape),
      coreRun (distinctCount t.freq + 1 + (2 * sh.nodes + 1)) c (framing bits (.build :: .gencode :: ks) t) =
        framing bits ks (encodeCoded tree sh t) ∧
      BuiltTree t.freq tree ∧ treeShape (builtWith tree t) = some sh ∧ sh.nodes = 2 * distinctCount t.freq - 1 ∧
      sh.symbols.Perm (presentSymbols t.freq) := by
  obtain ⟨tree, root, hbuild, hm, -⟩ :=
    coreRun_build (c := c) (s := framing bits (.build :: .gencode :: ks) t) rfl h2
  obtain ⟨sh, hshape, hnodes, hsymbols⟩ := hm.last_shape
  replace hshape : treeShape (builtWith tree t) = some sh := (treeShape_builtWith tree t).trans hshape
  change sh.nodes = 2 * distinctCount t.freq - 1 at hnodes
  have hinner : sh.single = false := by
    rw [Bool.eq_false_iff, Ne, sh.single_iff, hnodes]
    omega
  have hgencode := coreRun_gencode (c := c) (s := framing bits (.gencode :: ks) (builtWith tree t)) rfl hshape hinner
  refine ⟨tree, sh, ?_, hm.builtTree, hshape, hnodes, hsymbols⟩
  rw [coreRun_add]
  exact (congrArg (coreRun _ c) hbuild).trans hgencode

/-! ### The Huffman frame: its header and its bits -/

/-- What ENCODE's Huffman header needs: FREQ, NDIST, TREE and CODE are those of the input in BUF
(46_encoder.md R324). -/
structure FrameReady (sh : Shape) (t : State) : Prop where
  tree : treeShape t = some sh
  nodes : sh.nodes ≤ 511
  inner : sh.single = false
  leaves : t.ndist.toNat = sh.leaves
  codes : ∀ a : Byte, codeGet t.code a.toNat = sh.entry a
  tally : ∀ a : Byte, (freqGet t.freq a.toNat).toNat = (inputOf t).count a
  symbols : ∀ b ∈ inputOf t, b ∈ sh.paths.map Prod.fst

/-- A symbol's code is its last leaf's path, and none where it has no leaf. -/
theorem Shape.codeBits_entry_eq (hn : sh.nodes ≤ 511) (a : Byte) :
    codeBits (sh.entry a) = (sh.lastPath a).getD [] := by
  rw [Shape.entry]
  split
  · next path hpath =>
    rw [hpath, codeBits_entryOfPath (Shape.path_length_le hn (Shape.mem_paths_of_lastPath hpath))]
    rfl
  · next hnone => rw [hnone]; rfl

theorem codedBits_length (hn : sh.nodes ≤ 511) (x : List Byte) :
    (codedBits sh x).length = (x.map (fun b => (sh.entry b).len.toNat)).sum := by
  rw [codedBits, List.length_flatMap]
  refine congrArg List.sum (List.map_congr_left fun b _ => ?_)
  rw [← Shape.codeBits_entry_eq hn, codeBits, bitsOf_length]

/-- In the arena a byte of the input takes at most 255 bits. -/
theorem codedBits_length_le (hn : sh.nodes ≤ 511) (x : List Byte) : (codedBits sh x).length ≤ 255 * x.length := by
  rw [codedBits_length hn, Nat.mul_comm]
  refine (List.sum_le_card_nsmul _ 255 fun k hk => ?_).trans_eq (by rw [List.length_map, smul_eq_mul])
  obtain ⟨b, -, rfl⟩ := List.mem_map.1 hk
  exact Nat.le_of_lt_succ (sh.entry b).len.isLt

/-- A sum over a list is one over the values it can take, each as often as it occurs. -/
theorem sum_range_count_mul {n : Nat} {l : List Nat} (hl : ∀ a ∈ l, a < n) (g : Nat → Nat) :
    ((List.range n).map (fun a => l.count a * g a)).sum = (l.map g).sum := by
  have hsub : l.toFinset ⊆ Finset.range n := fun a ha => Finset.mem_range.2 (hl a (List.mem_toFinset.1 ha))
  rw [Finset.sum_list_map_count l g]
  refine (Finset.sum_subset hsub fun a _ ha => ?_).symm
  rw [List.count_eq_zero_of_not_mem fun h => ha (List.mem_toFinset.2 h), zero_mul]

namespace FrameReady

variable (h : FrameReady sh t)
include h

/-- D is the number of bits that the input's codes take (46_encoder.md R320). -/
theorem codeTotal_eq : codeTotal t = (codedBits sh (inputOf t)).length := by
  have hterm : ∀ a ∈ List.range Config.symbols, (freqGet t.freq a).toNat * (codeGet t.code a).len.toNat =
      ((inputOf t).map BitVec.toNat).count a * (sh.entry (BitVec.ofNat 8 a)).len.toNat := by
    intro a ha
    have ha' : (BitVec.ofNat 8 a).toNat = a := Nat.mod_eq_of_lt (List.mem_range.1 ha)
    rw [← ha', h.tally, h.codes, List.count_map_of_injective _ _ BitVec.toNat_injective, ha']
  have hlt : ∀ a ∈ (inputOf t).map BitVec.toNat, a < Config.symbols := by
    intro a ha
    obtain ⟨b, -, rfl⟩ := List.mem_map.1 ha
    exact b.isLt
  rw [codeTotal, List.map_congr_left hterm,
    sum_range_count_mul hlt (fun a => (sh.entry (BitVec.ofNat 8 a)).len.toNat), codedBits_length h.nodes, List.map_map]
  refine congrArg List.sum (List.map_congr_left fun b _ => ?_)
  simp

/-- T is the number of the frame's bits (46_encoder.md R320). -/
theorem huffmanTotal_eq : huffmanTotal t = frameTotal sh (inputOf t) := by
  have hbits := sh.bits_length
  rw [huffmanTotal, frameTotal, h.codeTotal_eq, h.leaves]
  omega

theorem entry_len_ne_zero {b : Byte} (hb : b ∈ inputOf t) : (codeGet t.code b.toNat).len ≠ 0 := by
  obtain ⟨p, hp, rfl⟩ := List.mem_map.1 (h.symbols b hb)
  have hpos := Shape.entry_len_pos h.nodes h.inner hp
  rw [h.codes]
  intro h0
  rw [h0] at hpos
  cases hpos

theorem codesOf_eq : codesOf t.code (inputOf t) = codedBits sh (inputOf t) :=
  List.flatMap_congr fun b _ => by rw [h.codes, Shape.codeBits_entry_eq h.nodes]

end FrameReady

/-- mb as MODE holds it (46_encoder.md R325). -/
theorem mbOfField_mbField (total : Nat) : mbOfField (mbField total) = BitVec.ofNat 4 ((total - 1) % 8 + 1) := by
  have h8 : (total - 1) % 8 < 8 := Nat.mod_lt _ (by decide)
  rw [mbOfField, mbField]
  bv_omega

/-- MODE as the header of a frame of `total` bits leaves it. -/
def encodeHeaded (total : Nat) (t : State) : State :=
  { t with mode := { t.mode with mb := BitVec.ofNat 4 ((total - 1) % 8 + 1) } }

@[simp] theorem inputOf_encodeHeaded (total : Nat) (t : State) : inputOf (encodeHeaded total t) = inputOf t := rfl

@[simp] theorem treeShape_encodeHeaded (total : Nat) (t : State) : treeShape (encodeHeaded total t) = treeShape t := rfl

@[simp] theorem encodeHeaded_code (total : Nat) (t : State) : (encodeHeaded total t).code = t.code := rfl

/-- The first five bits of a Huffman frame of `total` bits: its tag and mb (30_encoding.md R143). -/
def huffmanHeader (total : Nat) : List Bool := [false, true] ++ bitsOf 3 (mbField total)

theorem huffmanHeader_length (total : Nat) : (huffmanHeader total).length = 5 := rfl

theorem huffmanFrame_eq (sh : Shape) (x : List Byte) :
    huffmanFrame sh x = huffmanHeader (frameTotal sh x) ++ sh.bits ++ codedBits sh x := rfl

theorem coreStep_encodeHeader (h : FrameReady sh t) :
    coreStep c (framing bits [.encodeHeader] t) = some (framing bits
      [.enter .header, .put (huffmanHeader (frameTotal sh (inputOf t))), .serialize, .emit,
        .encodeFinish (frameTotal sh (inputOf t))]
      (encodeHeaded (frameTotal sh (inputOf t)) t)) := by
  rw [encodeHeaded, ← mbOfField_mbField, ← h.huffmanTotal_eq]
  exact coreStep_framing rfl

/-- ENCODE's Huffman frame, once the tree and the codes are made (46_encoder.md R324, R325). -/
theorem coreRun_encodeHeader (h : FrameReady sh t) :
    coreRun ((huffmanHeader (frameTotal sh (inputOf t))).length + 1 + (sh.bits.length + 2 * sh.nodes + 1 + 1 +
        ((codedBits sh (inputOf t)).length + 2 * (inputOf t).length + 1 + 1)) + 1 + 1) c
        (framing [] [.encodeHeader] t) =
      framing (huffmanFrame sh (inputOf t)) [.encodeFinish (frameTotal sh (inputOf t))]
        (setRet (codedBits sh (inputOf t)).length
          (setPhase .emit (encodeHeaded (frameTotal sh (inputOf t)) t))) := by
  have hserialize (bits : List Bool) (ks : List Task) :=
    coreRun_framing_serialize (c := c) (bits := bits) (ks := ks)
      (t := setPhase .header (encodeHeaded (frameTotal sh (inputOf t)) t)) (by simpa using h.tree)
  have hemit (bits : List Bool) (ks : List Task) :=
    coreRun_framing_emit (c := c) (bits := bits) (ks := ks)
      (t := setRet sh.bits.length (setPhase .serialize (setPhase .header (encodeHeaded (frameTotal sh (inputOf t)) t))))
      (more := codedBits sh (inputOf t)) (by simpa using h.codesOf_eq) (by simpa using fun b => h.entry_len_ne_zero)
  simp only [inputOf_setRet, inputOf_setPhase, inputOf_encodeHeaded] at hemit
  rw [coreRun_some _ (coreStep_encodeHeader h), coreRun_some _ (coreStep_framing_enter _), coreRun_add,
    coreRun_framing_put, coreRun_add, hserialize, hemit, huffmanFrame_eq, List.nil_append, setPhase_setRet_setPhase,
    setPhase_setPhase, setRet_setRet]

/-! ### The tree's symbols are the input's -/

/-- BUILD's tree has one leaf for each symbol of the input. -/
theorem paths_perm_dedup {f : Store Word} (hs : sh.symbols.Perm (presentSymbols f))
    (hp : (presentSymbols f).Perm (x.dedup.map BitVec.toNat)) : (sh.paths.map Prod.fst).Perm x.dedup := by
  have hmap : sh.symbols = (sh.paths.map Prod.fst).map BitVec.toNat := by
    rw [Shape.symbols, List.map_map]
    rfl
  rw [hmap] at hs
  exact (List.map_perm_map_iff BitVec.toNat_injective).1 (hs.trans hp)

theorem inputOf_encodeCoded (tree : Store Node) (sh : Shape) (t : State) :
    inputOf (encodeCoded tree sh t) = inputOf t := rfl

theorem encodeCoded_code (tree : Store Node) (sh : Shape) (t : State) :
    (encodeCoded tree sh t).code = codesWritten sh.paths [] := rfl

theorem encodeCoded_freq (tree : Store Node) (sh : Shape) (t : State) :
    (encodeCoded tree sh t).freq = t.freq := rfl

theorem encodeCoded_ndist (tree : Store Node) (sh : Shape) (t : State) :
    (encodeCoded tree sh t).ndist = BitVec.ofNat 9 (distinctCount t.freq) := rfl

theorem treeShape_encodeCoded (tree : Store Node) (sh : Shape) (t : State) :
    treeShape (encodeCoded tree sh t) = treeShape (builtWith tree t) := rfl

/-- What BUILD and GENCODE make of the input's tally is what the header needs. -/
theorem frameReady_encodeCoded {tree : Store Node} (h2 : 2 ≤ distinctCount t.freq)
    (hshape : treeShape (builtWith tree t) = some sh) (hnodes : sh.nodes = 2 * distinctCount t.freq - 1)
    (htally : ∀ a : Byte, (freqGet t.freq a.toNat).toNat = (inputOf t).count a)
    (hsymbols : (sh.paths.map Prod.fst).Perm (inputOf t).dedup) : FrameReady sh (encodeCoded tree sh t) where
  tree := (treeShape_encodeCoded tree sh t).trans hshape
  nodes := by
    have h256 := distinctCount_le t.freq
    omega
  inner := by
    rw [Bool.eq_false_iff, Ne, sh.single_iff]
    omega
  leaves := by
    have hleaves := sh.two_mul_leaves
    rw [encodeCoded_ndist, distinctCount_toNat]
    omega
  codes a := by rw [encodeCoded_code, codeGet_codesWritten_paths]
  tally a := by rw [encodeCoded_freq, inputOf_encodeCoded, htally]
  symbols b hb := hsymbols.mem_iff.2 (List.mem_dedup.2 hb)

/-! ### The whole Huffman frame -/

/-- The state that ENCODE's Huffman frame leaves, but for the frame itself. -/
def encodeEmitted (tree : Store Node) (sh : Shape) (t : State) : State :=
  setRet (codedBits sh (inputOf t)).length
    (setPhase .emit (encodeHeaded (frameTotal sh (inputOf t)) (encodeCoded tree sh (setMode 2 (tallied t)))))

theorem encodeEmitted_eq (tree : Store Node) (sh : Shape) (t : State) :
    encodeEmitted tree sh t =
      { t with
        freq := (tallied t).freq, ndist := BitVec.ofNat 9 (distinctBytes (inputOf t)), tree := tree
        code := codesWritten sh.paths []
        treeInfo :=
          { root := BitVec.ofNat 9 (2 * distinctBytes (inputOf t) - 2)
            nodes := BitVec.ofNat 10 (2 * distinctBytes (inputOf t) - 1), rootLeaf := false }
        mode := { tag := 2, valid := true, mb := BitVec.ofNat 4 ((frameTotal sh (inputOf t) - 1) % 8 + 1) }
        status := { t.status with phase := .emit, freqValid := true, treeValid := true, codeValid := true }
        ret := counted (codedBits sh (inputOf t)).length } := by
  simp only [encodeEmitted, encodeHeaded, encodeCoded, builtWith, buildBegun, setMode_freq, distinctCount_tallied]
  rfl

/-- At least eight bytes of two symbols or more: the Huffman frame of the tree that BUILD makes of their tally
(46_encoder.md R321, R324). -/
theorem coreRun_encodeMode_huffman (h8 : 8 ≤ (inputOf t).length) (h2 : 2 ≤ distinctBytes (inputOf t)) :
    ∃ (m : Nat) (tree : Store Node) (sh : Shape),
      m ≤ 257 * (inputOf t).length + 5000 ∧
      coreRun m c (framing [] [.encodeMode] (tallied t)) =
        framing (huffmanFrame sh (inputOf t)) [.encodeFinish (frameTotal sh (inputOf t))] (encodeEmitted tree sh t) ∧
      BuiltTree (tallied t).freq tree ∧ treeShape (builtWith tree (setMode 2 (tallied t))) = some sh ∧
      (sh.paths.map Prod.fst).Perm (inputOf t).dedup := by
  have hdistinct : distinctCount (setMode 2 (tallied t)).freq = distinctBytes (inputOf t) := distinctCount_tallied t
  have htwo : 2 ≤ distinctCount (setMode 2 (tallied t)).freq := h2.trans_eq hdistinct.symm
  have h256 := distinctCount_le (setMode 2 (tallied t)).freq
  have hone : (tallied t).ndist ≠ 1 := by
    have hndist : (tallied t).ndist = BitVec.ofNat 9 (distinctCount (setMode 2 (tallied t)).freq) := by
      rw [hdistinct]
      rfl
    rw [hndist, Ne, BitVec.toNat_eq, distinctCount_toNat]
    exact fun h1 => absurd h1 (Nat.ne_of_gt htwo)
  obtain ⟨tree, sh, hcodes, hbuilt, hshape, hnodes, hsymbols⟩ := coreRun_framing_codes (c := c) (bits := [])
    (ks := [.encodeHeader]) htwo
  have hpaths := paths_perm_dedup hsymbols (presentSymbols_tallied t)
  have hready := frameReady_encodeCoded htwo hshape hnodes (freqGet_tallied t) hpaths
  have hheader := coreRun_encodeHeader (c := c) hready
  rw [inputOf_encodeCoded, inputOf_setMode, inputOf_tallied, ← hcodes, ← coreRun_add] at hheader
  have hmode := coreStep_encodeMode_huffman (c := c) (t := tallied t) h8 hone
  refine ⟨_, tree, sh, ?_, (coreRun_some _ hmode).trans hheader, hbuilt, hshape, hpaths⟩
  have hcoded := codedBits_length_le hready.nodes (inputOf t)
  have hbits := sh.bits_length
  have hleaves := sh.two_mul_leaves
  have hn := hready.nodes
  rw [huffmanHeader_length]
  omega

end Sys2Proof.Machine

/-!
## EncodeCommand

ENCODE as a whole command: the frame of each framing mode, and the input that does not fit BUF (46_encoder.md R320 to
R325; 42_frequency.md R240; 60_exceptions.md R371).
-/

namespace Sys2Proof.Machine

variable {s : State} {x : List Byte} {rest : List InTok}

/-! ### BUF, FREQ and NDIST -/

theorem storeGet_storedFrom_zero (x : List Byte) (m : Memory) :
    (∀ j, j < x.length → storeGet (storedFrom 0 x m) j = x[j]?) ∧
      ∀ j, x.length ≤ j → storeGet (storedFrom 0 x m) j = storeGet m j := by
  refine ⟨fun j hj => ?_, fun j hj => storeGet_storedFrom_above x m (by omega)⟩
  have := storeGet_storedFrom 0 x m hj
  rwa [Nat.zero_add] at this

/-- The state in which ENCODE chooses its mode, with its table of symbols named. -/
theorem tallied_encodeLoaded (hx : x.length ≤ s.nMax.toNat) (rest : List InTok) :
    tallied (encodeLoaded x rest s) =
      { encodeLoaded x rest s with
        freq := (tallied (encodeLoaded x rest s)).freq, ndist := BitVec.ofNat 9 (distinctBytes x)
        ret := counted (distinctBytes x)
        status := { s.status with phase := .count, bufValid := true, freqValid := true } } := by
  have hd := congrArg distinctBytes (inputOf_encodeLoaded hx rest)
  rw [← hd]
  rfl

theorem freqGet_tallied_encodeLoaded (hx : x.length ≤ s.nMax.toNat) (rest : List InTok) (a : Byte) :
    (freqGet (tallied (encodeLoaded x rest s)).freq a.toNat).toNat = x.count a := by
  rw [freqGet_tallied, inputOf_encodeLoaded hx]

theorem distinctCount_tallied_encodeLoaded (hx : x.length ≤ s.nMax.toNat) (rest : List InTok) :
    distinctCount (tallied (encodeLoaded x rest s)).freq = distinctBytes x := by
  rw [distinctCount_tallied, inputOf_encodeLoaded hx]

/-- With one symbol in the input, it is the only one with a counter that is not 0. -/
theorem onlySymbol_of_perm {f : Store Word} {sym : Byte} (h : (presentSymbols f).Perm [sym.toNat]) :
    onlySymbol f = sym := by
  simp [onlySymbol, List.perm_singleton.1 h]

/-! ### The steps of a turn -/

/-- The tokens of a stream of which at most one is in the lookahead stand in IN. -/
theorem length_le_inp (ha : ahead s = inBytes x ++ .eos :: rest) : x.length ≤ s.inp.length := by
  have hlen := congrArg List.length ha
  have hla := Option.length_toList_le (o := s.la)
  simp only [ahead, List.length_append, List.length_map, List.length_cons] at hlen
  omega

theorem byteBits_length (x : List Byte) : (byteBits x).length = 8 * x.length := by
  rw [byteBits, List.length_flatMap]
  simp [bitsOf_length, Nat.mul_comm]

/-! ### The single-symbol frame -/

/-- ENCODE on at least eight bytes of one symbol. -/
theorem exec_encode_of_single {sym : Byte} (hs : Started s) (ht : FullTurn s) (ha : ahead s = inBytes x ++ .eos :: rest)
    (h8 : 8 ≤ x.length) (hx : x.length ≤ s.nMax.toNat) (hdedup : x.dedup = [sym]) :
    exec .encode s =
      .next (succeeded (counted 42)
        { s with
          buf := storedFrom 0 x s.buf, inLen := BitVec.ofNat 32 x.length, la := none, inp := rest
          freq := (tallied (encodeLoaded x rest s)).freq, ndist := 1, mode := { tag := 1, valid := true, mb := 0 }
          wr := { acc := 0, fill := 0 }, out := s.out ++ outBytes (frameBytes (singleFrame sym x.length)) ++ [.eos]
          status := { s.status with bufValid := true, freqValid := true } }) := by
  have hinput := inputOf_encodeLoaded hx rest
  have hdistinct : distinctBytes x = 1 := congrArg List.length hdedup
  have hpresent := presentSymbols_tallied (encodeLoaded x rest s)
  rw [hinput, hdedup] at hpresent
  have hmode := coreRun_encodeMode_single (c := cmdEncode) (t := tallied (encodeLoaded x rest s))
    (by rwa [inputOf_tallied, hinput]) (by rw [tallied_encodeLoaded hx, hdistinct]; rfl)
  rw [← coreRun_encode_tallied ha hx, ← coreRun_add, inputOf_tallied, hinput, onlySymbol_of_perm hpresent] at hmode
  have hbound : 2 ^ 60 + 64 * s.inp.length ≤ s.turn := ht
  have hlen := length_le_inp ha
  have hbits : (singleFrame sym x.length).length = 42 := rfl
  rw [exec_encode_of_framing hs (by omega) hmode, tallied_encodeLoaded hx, hdistinct]
  rfl

/-! ### The statements -/

/-- Settles O42: the raw frame's tasks write the tag and the bytes in BUF. -/
theorem encodeRawFrame : Obligations.EncodeRawFrame := by
  intro s x rest hs ht ha h8 hx
  obtain ⟨hget, habove⟩ := storeGet_storedFrom_zero x s.buf
  have hinput := inputOf_encodeLoaded hx rest
  have hmode := coreRun_encodeMode_raw (c := cmdEncode) (t := tallied (encodeLoaded x rest s))
    (by rwa [inputOf_tallied, hinput])
  rw [← coreRun_encode_tallied ha hx, ← coreRun_add, inputOf_tallied, hinput] at hmode
  have hbound : 2 ^ 60 + 64 * s.inp.length ≤ s.turn := ht
  have hbits := byteBits_length x
  have hexec := exec_encode_of_framing hs (by simp only [List.length_cons, List.length_nil]; omega) hmode
  refine ⟨_, _, hexec.trans ?_, hget, habove, freqGet_tallied_encodeLoaded hx rest⟩
  rw [tallied_encodeLoaded hx]
  rfl

/-- Settles O43: the single-symbol frame's one task of bits writes the tag, the symbol and the count. -/
theorem encodeSingleFrame : Obligations.EncodeSingleFrame := by
  intro s sym c rest hs ht ha h8 hc
  have hlen : (List.replicate c sym).length = c := List.length_replicate
  have hx : (List.replicate c sym).length ≤ s.nMax.toNat := hlen.trans_le hc
  have hexec := exec_encode_of_single hs ht ha (h8.trans_eq hlen.symm) hx (List.replicate_dedup (by omega))
  obtain ⟨hget, habove⟩ := storeGet_storedFrom_zero (List.replicate c sym) s.buf
  rw [hlen] at hexec hget habove
  refine ⟨_, _, hexec, fun j hj => ?_, habove, fun a => ?_⟩
  · rw [hget j hj, List.getElem?_replicate_of_lt hj]
  · rw [freqGet_tallied_encodeLoaded hx, List.count_replicate]
    simp only [beq_iff_eq, eq_comm (a := a)]

/-- Settles O44: BUILD's and GENCODE's tasks make the tree and the codes of the tally, and the header, SERIALIZE and
EMIT write the frame. -/
theorem encodeHuffmanFrame : Obligations.EncodeHuffmanFrame := by
  intro s x rest hs ht ha h8 hx h2
  have hinput := inputOf_encodeLoaded hx rest
  have hdistinct := distinctCount_tallied_encodeLoaded hx rest
  obtain ⟨hget, habove⟩ := storeGet_storedFrom_zero x s.buf
  obtain ⟨m, tree, sh, hm, hrun, hbuilt, hshape, hpaths⟩ := coreRun_encodeMode_huffman (c := cmdEncode)
    (t := encodeLoaded x rest s) (h8.trans_eq (congrArg List.length hinput.symm)) (by rwa [hinput])
  rw [hinput] at hm hrun hpaths
  rw [← coreRun_encode_tallied ha hx, ← coreRun_add] at hrun
  have hbound : 2 ^ 60 + 64 * s.inp.length ≤ s.turn := ht
  have hmax := s.nMax.isLt
  have hexec := exec_encode_of_framing hs (by omega) hrun
  rw [treeShape_builtWith, setMode_freq, hdistinct] at hshape
  refine ⟨sh, _, _, tree, codesWritten sh.paths [], hexec.trans ?_, hshape, hbuilt, hpaths,
    codeGet_codesWritten_paths sh, hget, habove, freqGet_tallied_encodeLoaded hx rest⟩
  rw [encodeEmitted_eq, hinput]
  rfl

/-- Settles O45: LOAD's error takes ENCODE's error path, which appends Abort. -/
theorem encodeOverflows : Obligations.EncodeOverflows := by
  intro s x rest hs ht ha hx
  have hbound : 2 ^ 60 + 64 * s.inp.length ≤ s.turn := ht
  have hlen := length_le_inp ha
  obtain ⟨hget, habove⟩ := storeGet_storedFrom_zero (x.take s.nMax.toNat) s.buf
  rw [List.length_take_of_le hx.le] at hget habove
  have hexec := exec_of_fail (i := .encode) hs (m := x.length + 5) (by omega) rfl (coreRun_encode_overflows ha hx) rfl
  refine ⟨_, hexec.trans ?_, fun j hj => ?_, habove⟩
  · rw [framing_nil rfl rfl]
    rfl
  · rw [hget j hj, List.getElem?_take_of_lt hj]

end Sys2Proof.Machine

/-!
## StreamReads

The stream that WALK and DECODE read, as bytes and then End: what a read of bits leaves of it, where the genuine bits
are used up, and what Drain takes (41_bitio.md R204, R205, R208; 47_decoder.md R341, R342).
-/

namespace Sys2Proof.Machine

variable {c : Command} {b : Bool} {n : Nat} {bits more : List Bool} {ks : List Task} {r : ReadResult} {s t u w : State}

/-! ### The stream -/

/-- A stream: at most `size` bytes that IN has still to deliver, the byte that is the last one held, and what stands
behind the End. -/
structure Source where
  size : Nat
  last : Byte
  rest : List InTok

/-- The End of the stream is not taken yet. -/
structure Source.Open (σ : Source) (s : State) : Prop where
  eos : s.rd.eos = false
  tokens : ∃ y, y.length ≤ σ.size ∧ ahead s = inBytes y ++ .eos :: σ.rest ∧ y.getLast?.getD s.rd.acc = σ.last

/-- A read has been answered NA: the End is taken and no bit is held, or the limit's peek has found the End
(41_bitio.md R204; 47_decoder.md R341). -/
def Source.Spent (σ : Source) (s : State) : Prop :=
  (s.rd = { acc := σ.last, fill := 0, eos := true } ∧ s.la = none ∧ s.inp = σ.rest) ∨
    (s.unpk.limitEn = true ∧ σ.Open s ∧ s.la = some .eos)

theorem Source.Spent.atStreamEnd {σ : Source} (h : σ.Spent s) : AtStreamEnd s := by
  rcases h with ⟨hrd, -⟩ | ⟨-, -, hla⟩
  · exact .inl (by rw [hrd])
  · exact .inr hla

/-- The genuine bits of a state are those of a stream whose End is ahead. -/
theorem ahead_of_genuineTokens {k : UnpkCfgReg} {toks : List InTok} (h : genuineTokens k toks = some bits) :
    ∃ y rest, toks = inBytes y ++ .eos :: rest := by
  induction toks generalizing bits with
  | nil => cases h
  | cons tok toks ih =>
    cases tok with
    | eos => exact ⟨[], toks, rfl⟩
    | byte a =>
      rw [genuineTokens] at h
      split at h
      · cases h
      · next more hmore =>
        obtain ⟨y, rest, rfl⟩ := ih hmore
        exact ⟨a :: y, rest, rfl⟩

/-! ### readBit -/

variable {σ : Source}

/-- Delivering a bit held leaves the stream, but for the limit's peek. -/
theorem Source.Open.readHeld (h : σ.Open s) {o : Option Bool} (hr : readHeld s = some (o, t)) :
    σ.Open t ∧ (o = none → t.unpk.limitEn = true ∧ t.la = some .eos) := by
  obtain ⟨heos, y, hy, ha, hlast⟩ := h
  by_cases hlim : LimitReached s
  · obtain ⟨k, rest, hk⟩ : ∃ k rest, ahead s = k :: rest := by rw [ha]; cases y <;> exact ⟨_, _, rfl⟩
    have hpeek : σ.Open (peeked k rest s) := ⟨heos, y, hy, hk.symm.trans ha, hlast⟩
    rw [readHeld_of_limitReached hlim hk] at hr
    split at hr
    · next hend =>
      cases hr
      exact ⟨hpeek, fun _ => ⟨hlim.1, congrArg some hend⟩⟩
    · cases hr
      exact ⟨⟨hpeek.eos, hpeek.tokens⟩, nofun⟩
  · rw [readHeld_of_not_limitReached hlim] at hr
    cases hr
    exact ⟨⟨heos, y, hy, ha, hlast⟩, nofun⟩

/-- A bit delivered leaves the stream open; NA is its end. -/
theorem Source.Open.readBit (h : σ.Open s) {o : Option Bool} (hr : readBit s = some (o, t)) :
    if o = none then σ.Spent t else σ.Open t := by
  have held {u : State} (hu : σ.Open u) (hr : Machine.readHeld u = some (o, t)) :
      if o = none then σ.Spent t else σ.Open t := by
    obtain ⟨hopen, hend⟩ := hu.readHeld hr
    split
    · next ho =>
      obtain ⟨hl, hla⟩ := hend ho
      exact .inr ⟨hl, hopen, hla⟩
    · exact hopen
  by_cases h0 : s.rd.fill = 0
  · obtain ⟨heos, y, hy, ha, hlast⟩ := h
    cases y with
    | nil =>
      rw [readBit_of_inRead h0 heos ha] at hr
      cases hr
      refine .inl ⟨?_, rfl, rfl⟩
      have hacc : s.rd.acc = σ.last := hlast
      rw [← hacc, ← h0]
      rfl
    | cons a y =>
      rw [readBit_of_inRead h0 heos ha] at hr
      refine held ⟨rfl, y, by rw [List.length_cons] at hy; omega, rfl, ?_⟩ hr
      rw [← hlast, List.getLast?_cons]
      rfl
  · rw [Machine.readBit, if_neg h0] at hr
    exact held h hr

/-! ### readBits -/

theorem readBitsFrom_frame {k : Nat} {v : Word} (h : readBitsFrom n k v s = some (r, t)) : StreamFrame s t := by
  induction n generalizing k v s with
  | zero => cases h; rfl
  | succ n ih =>
    rw [readBitsFrom] at h
    split at h
    · cases h
    · next u hu => cases h; exact readBit_frame hu
    · next b u hu => exact StreamFrame.trans (readBit_frame hu) (ih h)

/-- A field that is there leaves the stream open; one that is not is answered NA at the stream's end. -/
theorem Source.Open.readBitsFrom (h : σ.Open s) {k : Nat} {v : Word} (hr : readBitsFrom n k v s = some (r, t)) :
    (∀ x, r = .ok x → σ.Open t) ∧ ∀ x j, r = .na x j → σ.Spent t := by
  induction n generalizing k v s with
  | zero => cases hr; exact ⟨fun _ _ => h, nofun⟩
  | succ n ih =>
    rw [Machine.readBitsFrom] at hr
    split at hr
    · cases hr
    · next u hu => cases hr; exact ⟨nofun, fun _ _ _ => h.readBit hu⟩
    · next b u hu => exact ih (h.readBit hu) hr

/-- The tasks left make no difference to a read. -/
theorem readBitsFrom_taskNext {k : Nat} {v : Word} (x : Task) (hw : w.seq = .run ks)
    (hr : readBitsFrom n k v w = some (r, t)) : readBitsFrom n k v (taskNext x w) = some (r, taskNext x t) := by
  have ht : t = { w with rd := t.rd, la := t.la, inp := t.inp } := readBitsFrom_frame hr
  have hopened : opened ks (taskNext x w) = opened ks w := by rw [taskNext_eq x hw]; rfl
  have h1 := readBitsFrom_opened n k v ks (taskNext x w)
  rw [hopened, readBitsFrom_opened, hr] at h1
  obtain ⟨⟨r', t'⟩, h2, h3⟩ := Option.map_eq_some_iff.1 h1.symm
  have ht' : t' = { taskNext x w with rd := t'.rd, la := t'.la, inp := t'.inp } := readBitsFrom_frame h2
  rw [Prod.mk.injEq] at h3
  obtain ⟨rfl, h4⟩ := h3
  have hrd : t'.rd = t.rd := congrArg (fun u => u.rd) h4
  have hla : t'.la = t.la := congrArg (fun u => u.la) h4
  have hinp : t'.inp = t.inp := congrArg (fun u => u.inp) h4
  rw [h2, ht', hrd, hla, hinp, taskNext_eq x hw, taskNext_eq x (by rw [ht]; exact hw), ht]

/-! ### Fields on the sequencer -/

/-- `w` is `base` but for what reads change. -/
abbrev ReadsFrame (base w : State) : Prop := w = { base with got := w.got, rd := w.rd, la := w.la, inp := w.inp }

/-- `w` is `base` in the midst of the stream σ, whose genuine bits to come are `bits`. -/
structure Midstream (base : State) (σ : Source) (bits : List Bool) (w : State) : Prop where
  frame : ReadsFrame base w
  fill : w.rd.fill.toNat ≤ 8
  isOpen : σ.Open w
  genuine : genuineBits w = some bits

/-- `w` is `base` at the end of the stream σ. -/
structure StreamOver (base : State) (σ : Source) (w : State) : Prop where
  frame : ReadsFrame base w
  spent : σ.Spent w

variable {base : State} {x : Task}

theorem Midstream.seq (h : Midstream base σ bits w) (hb : base.seq = .run ks) : w.seq = .run ks := by
  rw [h.frame]
  exact hb

theorem StreamOver.seq (h : StreamOver base σ w) (hb : base.seq = .run ks) : w.seq = .run ks := by
  rw [h.frame]
  exact hb

theorem Midstream.here (h : Midstream base σ bits w) : Midstream w σ bits w := ⟨rfl, h.fill, h.isOpen, h.genuine⟩

/-- Where RD_EOS = 0 and the genuine bits are there, the state stands in the midst of their stream. -/
theorem midstream_of_genuine (he : s.rd.eos = false) (hf : s.rd.fill.toNat ≤ 8) (hg : genuineBits s = some bits) :
    ∃ σ : Source, σ.size ≤ s.inp.length ∧ Midstream s σ bits s := by
  have hopen := hg
  rw [genuineBits_open he] at hopen
  obtain ⟨more, hmore, -⟩ := Option.map_eq_some_iff.1 hopen
  obtain ⟨y, rest, ha⟩ := ahead_of_genuineTokens hmore
  exact ⟨⟨y.length, y.getLast?.getD s.rd.acc, rest⟩, length_le_inp ha, rfl, hf, ⟨he, y, le_rfl, ha, rfl⟩, hg⟩

/-- A readBits on the sequencer, by what it comes to. -/
theorem coreRun_field (x : Task) (hw : w.seq = .run ks) (hr : readBitsFrom n 0 0 w = some (r, t)) :
    ∃ m, m ≤ 2 * n + 1 ∧ coreRun m c (fieldNext n x w) = taskNext x { t with got := r } := by
  have hframe : t = { w with rd := t.rd, la := t.la, inp := t.inp } := readBitsFrom_frame hr
  have hseq : t.seq = .run ks := by rw [hframe]; exact hw
  have hnext := readBitsFrom_taskNext x hw hr
  obtain ⟨m, hm, hrun⟩ := coreRun_fieldNext (c := c) hw hnext (readBitsFrom_frame hnext)
  refine ⟨m, hm, hrun.trans ?_⟩
  rw [taskNext_eq x hseq, hframe]

/-- A field that is there is read. -/
theorem Midstream.field (h : Midstream base σ (bits ++ more) w) (hb : base.seq = .run ks) (x : Task) :
    ∃ m w', m ≤ 2 * bits.length + 1 ∧ coreRun m c (fieldNext bits.length x w) = taskNext x w' ∧
      Midstream base σ more w' ∧ Answered (.ok (valueOfBits 32 bits)) bits.length w w' := by
  obtain ⟨t, hr, hframe, hmore, hread⟩ := readBitsFrom_genuine (k := 0) (v := 0) h.fill h.genuine (by simp)
  rw [BitVec.shiftLeft_zero, BitVec.ofNat_eq_ofNat, BitVec.zero_or] at hr
  obtain ⟨hopen, -⟩ := h.isOpen.readBitsFrom hr
  obtain ⟨heos, htokens⟩ := hopen _ rfl
  obtain ⟨m, hm, hrun⟩ := coreRun_field (c := c) x (h.seq hb) hr
  have hanswered : ({ t with got := .ok (valueOfBits 32 bits) } : State) =
      { w with got := .ok (valueOfBits 32 bits), rd := t.rd, la := t.la, inp := t.inp } :=
    congrArg (fun u : State => { u with got := .ok (valueOfBits 32 bits) }) hframe
  refine ⟨m, _, hm, hrun, ⟨?_, hread.fill, ⟨heos, htokens⟩, hmore⟩, hanswered, hread.unpk, hread.fill, hread.held⟩
  exact hanswered.trans (congrArg (fun u : State => { u with
    got := .ok (valueOfBits 32 bits), rd := t.rd, la := t.la, inp := t.inp }) h.frame)

/-- A field that the stream's end cuts short is answered NA. -/
theorem Midstream.field_cut (h : Midstream base σ bits w) (hb : base.seq = .run ks) (hn : bits.length < n) (x : Task) :
    ∃ m w' v j, m ≤ 2 * n + 1 ∧ coreRun m c (fieldNext n x w) = taskNext x w' ∧ StreamOver base σ w' ∧
      Answered (.na v j) bits.length w w' := by
  obtain ⟨v, j, t, hr, hframe, -, hread⟩ := readBitsFrom_cut (k := 0) (v := 0) h.fill h.genuine hn
  obtain ⟨-, hspent⟩ := h.isOpen.readBitsFrom hr
  obtain ⟨m, hm, hrun⟩ := coreRun_field (c := c) x (h.seq hb) hr
  have hanswered : ({ t with got := .na v j } : State) =
      { w with got := .na v j, rd := t.rd, la := t.la, inp := t.inp } :=
    congrArg (fun u : State => { u with got := .na v j }) hframe
  refine ⟨m, _, v, j, hm, hrun, ⟨?_, ?_⟩, hanswered, hread.unpk, hread.fill, hread.held⟩
  · exact hanswered.trans (congrArg (fun u : State => { u with
      got := .na v j, rd := t.rd, la := t.la, inp := t.inp }) h.frame)
  · exact (hspent v j rfl).imp id fun ⟨hl, ⟨heos, htokens⟩, hla⟩ => ⟨hl, ⟨heos, htokens⟩, hla⟩

/-! ### The genuine bits, counted -/

@[simp] theorem limitedBits_nil (mb : Nat) : limitedBits mb [] = [] := by simp [limitedBits, byteBits]

/-- The meaningful bits are all but those of the last byte above the limit. -/
theorem limitedBits_eq_take {mb : Nat} (hmb : mb ≤ 8) (x : List Byte) :
    limitedBits mb x = (byteBits x).take (8 * x.length + mb - 8) := by
  rcases List.eq_nil_or_concat' x with rfl | ⟨y, a, rfl⟩
  · rw [limitedBits_nil, byteBits, List.flatMap_nil, List.take_nil]
  · have hlen := byteBits_length y
    have happend : byteBits (y ++ [a]) = byteBits y ++ byteBits [a] := List.flatMap_append
    have hcount : 8 * (y ++ [a]).length + mb - 8 = (byteBits y).length + mb := by
      rw [List.length_append, List.length_singleton, hlen]
      omega
    rw [limitedBits, List.dropLast_concat, List.getLast?_concat, happend, hcount, List.take_length_add_append]
    rfl

/-- With the limit the genuine bits of bytes before End are those of the bytes, the last cut short (R341). -/
theorem genuineTokens_limited {k : UnpkCfgReg} {rest : List InTok} (hl : k.limitEn = true) (y : List Byte) :
    genuineTokens k (inBytes y ++ .eos :: rest) = some (limitedBits k.limitMb.toNat y) := by
  induction y with
  | nil =>
    rw [limitedBits_nil]
    rfl
  | cons a y ih =>
    have htokens : inBytes (a :: y) ++ .eos :: rest = .byte a :: (inBytes y ++ .eos :: rest) := rfl
    rw [htokens, genuineTokens, ih]
    cases y with
    | nil => simp [hl, limitedBits, byteBits]
    | cons a' y => simp [limitedBits, byteBits]

/-- The bits held, in a byte that the limit does not cut. -/
theorem heldBits_unlimited (hl : s.unpk.limitEn = false) (final : Bool) :
    heldBits final s = (bitsOf 8 s.rd.acc).drop (8 - s.rd.fill.toNat) := by
  simp [heldBits, hl]

/-- Without a limit the genuine bits are those held and those of the bytes ahead. -/
theorem Midstream.unlimited (h : Midstream base σ bits w) (hl : w.unpk.limitEn = false) :
    ∃ y, y.length ≤ σ.size ∧ ahead w = inBytes y ++ .eos :: σ.rest ∧
      bits = (bitsOf 8 w.rd.acc).drop (8 - w.rd.fill.toNat) ++ byteBits y ∧
      bits.length = w.rd.fill.toNat + 8 * y.length := by
  obtain ⟨y, hy, ha, -⟩ := h.isOpen.tokens
  have hg := h.genuine
  rw [genuineBits_open h.isOpen.eos, ha, genuineTokens_inBytes hl, heldBits_unlimited hl] at hg
  obtain rfl := Option.some.inj hg
  have hfill := h.fill
  refine ⟨y, hy, ha, rfl, ?_⟩
  rw [List.length_append, List.length_drop, bitsOf_length, byteBits_length]
  omega

theorem Midstream.length_le (h : Midstream base σ bits w) : bits.length ≤ 8 * σ.size + 8 := by
  obtain ⟨y, hy, ha, -⟩ := h.isOpen.tokens
  have hg := h.genuine
  rw [genuineBits_open h.isOpen.eos, ha] at hg
  obtain ⟨more, hmore, rfl⟩ := Option.map_eq_some_iff.1 hg
  have hheld : (heldBits (endIsNext w) w).length ≤ 8 := by
    unfold heldBits
    dsimp only
    split <;> simp only [List.length_drop, List.length_take, bitsOf_length] <;> omega
  have hbytes : more.length ≤ 8 * y.length := by
    cases hl : w.unpk.limitEn
    · rw [genuineTokens_inBytes hl] at hmore
      rw [← Option.some.inj hmore, byteBits_length]
    · rw [genuineTokens_limited hl] at hmore
      rw [← Option.some.inj hmore, limitedBits, List.length_append, List.length_take, byteBits_length, byteBits_length,
        List.length_dropLast]
      cases y with
      | nil => simp
      | cons a y => simp [List.getLast?_cons]; omega
  rw [List.length_append]
  omega

/-- The limit set to mb bits of the last byte (R341, R345). -/
def limitSet (mb : BitVec 4) (s : State) : State := { s with unpk := { limitEn := true, limitMb := mb } }

theorem heldBits_limitSet (mb : BitVec 4) (final : Bool) (s : State) :
    heldBits final (limitSet mb s) =
      (if final then (bitsOf 8 s.rd.acc).take mb.toNat else bitsOf 8 s.rd.acc).drop (8 - s.rd.fill.toNat) := by
  cases final <;> simp [heldBits, limitSet]

/-- Setting the limit takes the bits of the last byte above it from the genuine ones (R341). -/
theorem Midstream.limitSet (h : Midstream base σ bits w) (hl : base.unpk.limitEn = false) {mb : BitVec 4}
    (hmb : mb.toNat ≤ 8) :
    Midstream (limitSet mb base) σ (bits.take (bits.length + mb.toNat - 8)) (limitSet mb w) := by
  have hl' : w.unpk.limitEn = false := by rw [h.frame]; exact hl
  obtain ⟨y, hy, ha, hbits, hlen⟩ := h.unlimited hl'
  obtain ⟨heos, htokens⟩ := h.isOpen
  refine ⟨congrArg (Machine.limitSet mb) h.frame, h.fill, ⟨heos, htokens⟩, ?_⟩
  have hfill := h.fill
  have hahead : ahead (Machine.limitSet mb w) = inBytes y ++ .eos :: σ.rest := ha
  have heos' : (Machine.limitSet mb w).rd.eos = false := heos
  have htokens' : genuineTokens (Machine.limitSet mb w).unpk (inBytes y ++ .eos :: σ.rest) =
      some ((byteBits y).take (8 * y.length + mb.toNat - 8)) := by
    rw [genuineTokens_limited rfl, ← limitedBits_eq_take hmb]
    rfl
  rw [genuineBits_open heos', hahead, htokens', Option.map_some, hlen, hbits, endIsNext, hahead, heldBits_limitSet]
  refine congrArg some ?_
  cases y with
  | nil =>
    have hcount : 8 * ([] : List Byte).length = 0 := rfl
    have hnone : byteBits [] = [] := rfl
    have hend : decide ((inBytes [] ++ .eos :: σ.rest).head? = some InTok.eos) = true := decide_eq_true rfl
    rw [hend, if_pos rfl, List.drop_take, hnone, List.take_nil, List.append_nil, List.append_nil, hcount]
    congr 1
    omega
  | cons a y =>
    have hdrop : ((bitsOf 8 w.rd.acc).drop (8 - w.rd.fill.toNat)).length = w.rd.fill.toNat := by
      rw [List.length_drop, bitsOf_length]
      omega
    have hcount : w.rd.fill.toNat + 8 * (a :: y).length + mb.toNat - 8 =
        ((bitsOf 8 w.rd.acc).drop (8 - w.rd.fill.toNat)).length + (8 * (a :: y).length + mb.toNat - 8) := by
      rw [List.length_cons, hdrop]
      omega
    rw [decide_eq_false (by nofun), if_neg nofun, hcount, List.take_length_add_append]

/-! ### Drain -/

/-- Drain comes to the End of the stream: it is ahead, or it is taken already. -/
def Source.Drains (σ : Source) (s : State) : Prop :=
  σ.Open s ∨ (s.rd.eos = true ∧ s.la = none ∧ s.inp = σ.rest)

theorem Source.Spent.drains (h : σ.Spent s) : σ.Drains s := by
  rcases h with ⟨hrd, hla, hinp⟩ | ⟨-, hopen, -⟩
  · exact .inr ⟨by rw [hrd], hla, hinp⟩
  · exact .inl hopen

/-- Drain takes the tokens through the End (41_bitio.md R208). -/
theorem coreRun_drain_open {rest : List InTok} (y : List Byte) (hs : s.seq = .run (.drain :: ks))
    (he : s.rd.eos = false) (ha : ahead s = inBytes y ++ .eos :: rest) :
    coreRun (y.length + 1) c s = { endTaken rest s with seq := .run ks } := by
  induction y generalizing s with
  | nil =>
    refine coreRun_some 0 ?_
    rw [coreStep_task hs, runTask, taskDrain, if_neg (by rw [he]; nofun),
      inRead_of_ahead (s := { s with seq := .run ks }) ha]
    rfl
  | cons a y ih =>
    have hstep : coreStep c s = some { s with la := none, inp := inBytes y ++ .eos :: rest } := by
      rw [coreStep_task hs, runTask, taskDrain, if_neg (by rw [he]; nofun),
        inRead_of_ahead (s := { s with seq := .run ks }) ha]
      cases s
      cases hs
      rfl
    exact (coreRun_some _ hstep).trans (ih hs he rfl)

theorem coreRun_drain (hs : s.seq = .run (.drain :: ks)) (h : σ.Drains s) :
    ∃ m, m ≤ σ.size + 1 ∧ coreRun m c s = { endTaken σ.rest s with seq := .run ks } := by
  rcases h with ⟨heos, y, hy, ha, -⟩ | ⟨heos, hla, hinp⟩
  · exact ⟨y.length + 1, Nat.succ_le_succ hy, coreRun_drain_open y hs heos ha⟩
  · refine ⟨1, Nat.le_add_left 1 _, coreRun_some 0 ?_⟩
    rw [coreStep_task hs, runTask, taskDrain, if_pos (by exact heos), endTaken, ← heos, ← hla, ← hinp]

end Sys2Proof.Machine

/-!
## WalkRuns

WALK's task on the sequencer: its cursor goes down the tree by the genuine bits, emits the symbol of each leaf it comes
to, and stops where the bits do (47_decoder.md R343, R344).
-/

namespace Sys2Proof.Machine

variable {c : Command} {b : Bool} {cnt m n : Nat} {bits more path q r : List Bool} {ks : List Task} {sh sub : Shape}
  {sym : Byte} {x : NodeIdx} {σ : Source} {base s w w' : State}

/-! ### One round -/

/-- While RD_EOS = 0, WALK's readBit is a readBits of one bit. -/
theorem coreRun_askBit (hw : w.seq = .run ks) (he : w.rd.eos = false) (hw' : w'.seq = .run ks)
    (hrun : coreRun m c (fieldNext 1 (.walkBit x cnt) w) = taskNext (.walkBit x cnt) w') :
    coreRun m c (askBit x cnt w) = taskNext (.walkBit x cnt) w' := by
  have hask : askBit x cnt w = { w with seq := .run (.askBit :: .walkBit x cnt :: ks) } := pushTasks_run w _ ks hw
  have hfield : fieldNext 1 (.walkBit x cnt) w = { w with seq := .run (.get 1 0 0 :: .walkBit x cnt :: ks) } :=
    pushTasks_run w _ ks hw
  have hstep := coreStep_askBit_open (c := c) (s := askBit x cnt w) (.walkBit x cnt :: ks) (by rw [hask])
    (by rw [hask]; exact he)
  have hsame : ({ askBit x cnt w with seq := .run (.get 1 0 0 :: .walkBit x cnt :: ks) } : State) =
      fieldNext 1 (.walkBit x cnt) w := by rw [hask, hfield]
  rw [hsame] at hstep
  rcases coreRun_of_coreStep_eq hstep m with h | ⟨-, h⟩
  · exact h.trans hrun
  · have hseq := congrArg State.seq (h.symm.trans hrun)
    rw [hfield, taskNext_eq _ hw'] at hseq
    cases hseq

/-- OUT with the bytes given behind it. -/
def emitted (ys : List Byte) (s : State) : State := { s with out := s.out ++ outBytes ys }

theorem emitted_nil (s : State) : emitted [] s = s := by simp [emitted]

theorem emitted_emitted (ys zs : List Byte) (s : State) : emitted zs (emitted ys s) = emitted (ys ++ zs) s := by
  simp [emitted]

/-- A byte emitted in the midst of a stream. -/
theorem Midstream.outWrite {ys : List Byte} (h : Midstream (emitted ys base) σ bits w) (y : Byte) :
    Midstream (emitted (ys ++ [y]) base) σ bits (outWrite (.byte y) w) := by
  rw [← emitted_emitted]
  exact ⟨congrArg (Machine.outWrite (.byte y)) h.frame, h.fill, ⟨h.isOpen.eos, h.isOpen.tokens⟩, h.genuine⟩

/-- Where WALK goes on once its cursor has come to entry y: from the root if that is a leaf, whose symbol is emitted. -/
def walkedTo (y : NodeIdx) (cnt : Nat) (w : State) : State :=
  match nodeAt w y.toNat with
  | .leaf sym _ => askBit w.treeInfo.root (cnt + 1) (outWrite (.byte sym) w)
  | .internal _ _ _ => askBit y cnt w

theorem taskWalkBit_ok {l r : NodeIdx} {k : Weight} (hx : nodeAt w x.toNat = .internal l r k)
    (hb : w.got = .ok (valueOfBits 32 [b])) :
    runTask (.walkBit x cnt) w = .ok (walkedTo (if b then r else l) cnt w) := by
  have hbit : (valueOfBits 32 [b]).getLsbD 0 = b := valueOfBits_getLsbD 32 [b] 0
  simp only [runTask, taskWalkBit, hb, hx, hbit, walkedTo]
  generalize nodeAt w (if b then r else l).toNat = e
  cases e <;> rfl

/-- A bit read at an internal node moves the cursor to a child. -/
theorem Midstream.coreRun_walk_bit {l r : NodeIdx} {k : Weight} (h : Midstream base σ (b :: more) w)
    (hb : base.seq = .run ks) (hx : nodeAt w x.toNat = .internal l r k) (cnt : Nat) :
    ∃ m w', m ≤ 4 ∧ coreRun m c (askBit x cnt w) = walkedTo (if b then r else l) cnt w' ∧ Midstream base σ more w' := by
  obtain ⟨m, w', hm, hrun, h', hansw⟩ := h.field (c := c) (bits := [b]) hb (.walkBit x cnt)
  have hask := coreRun_askBit (h.seq hb) h.isOpen.eos (h'.seq hb) hrun
  have hx' : nodeAt w' x.toNat = .internal l r k := by rw [hansw.frame]; exact hx
  have hstep := coreStep_taskNext_ok (c := c) (h'.seq hb) (taskWalkBit_ok (cnt := cnt) hx' (by rw [hansw.frame]))
  exact ⟨m + 1, w', Nat.succ_le_succ hm, by rw [coreRun_add, hask, coreRun_some 0 hstep, coreRun_zero], h'⟩

/-! ### Down a path -/

/-- Entry x is the root of a tree `sh`. -/
def Stands (w : State) (x : NodeIdx) (sh : Shape) : Prop := ∃ n, shapeOf n w.tree x.toNat = some sh

theorem Stands.leaf (h : Stands w x (.leaf sym)) : ∃ k, nodeAt w x.toNat = .leaf sym k := by
  obtain ⟨n, h⟩ := h
  obtain ⟨k, hx⟩ := storeGet_of_shapeOf_leaf h
  exact ⟨k, nodeAt_of_storeGet hx⟩

theorem Stands.node {a d : Shape} (h : Stands w x (.node a d)) :
    ∃ l r k, nodeAt w x.toNat = .internal l r k ∧ Stands w l a ∧ Stands w r d := by
  obtain ⟨n, h⟩ := h
  obtain ⟨l, r, k, j, hx, hl, hr⟩ := storeGet_of_shapeOf_node h
  exact ⟨l, r, k, nodeAt_of_storeGet hx, ⟨j, hl⟩, ⟨j, hr⟩⟩

theorem Stands.unique {sh' : Shape} (h : Stands w x sh) (h' : Stands w x sh') : sh = sh' := by
  obtain ⟨n, h⟩ := h
  obtain ⟨n', h'⟩ := h'
  have hmax := shapeOf_le (Nat.le_max_left n n') h
  rw [shapeOf_le (Nat.le_max_right n n') h'] at hmax
  exact (Option.some.inj hmax).symm

theorem Midstream.tree_eq (h : Midstream base σ bits w) : w.tree = base.tree := by rw [h.frame]

theorem Midstream.treeInfo_eq (h : Midstream base σ bits w) : w.treeInfo = base.treeInfo := by rw [h.frame]

theorem Midstream.stands (h : Midstream base σ bits w) : Stands w x sh ↔ Stands base x sh := by
  rw [Stands, Stands, h.tree_eq]

theorem Stands.walkedTo_leaf (h : Stands w x (.leaf sym)) (cnt : Nat) :
    walkedTo x cnt w = askBit w.treeInfo.root (cnt + 1) (outWrite (.byte sym) w) := by
  obtain ⟨k, hx⟩ := h.leaf
  rw [walkedTo, hx]

theorem Stands.walkedTo_node {a d : Shape} (h : Stands w x (.node a d)) (cnt : Nat) :
    walkedTo x cnt w = askBit x cnt w := by
  obtain ⟨l, r, k, hx, -⟩ := h.node
  rw [walkedTo, hx]

/-- The tree below a branch of a tree's root. -/
theorem Shape.mem_paths_cons (h : (sym, b :: path) ∈ sh.paths) :
    ∃ l r, sh = .node l r ∧ (sym, path) ∈ (if b then r else l).paths := by
  cases sh with
  | leaf a => cases Shape.mem_paths_leaf.1 h
  | node l r =>
    refine ⟨l, r, rfl, ?_⟩
    obtain ⟨p, hp, he⟩ | ⟨p, hp, he⟩ := Shape.mem_paths_node.1 h <;> cases he <;> exact hp

theorem Shape.eq_leaf_of_mem_paths (h : (sym, []) ∈ sh.paths) : sh = .leaf sym := by
  cases sh with
  | leaf a => cases Shape.mem_paths_leaf.1 h; rfl
  | node l r => obtain ⟨p, -, he⟩ | ⟨p, -, he⟩ := Shape.mem_paths_node.1 h <;> cases he

/-- The first bit of a leaf's path takes the cursor to the child on that path. -/
theorem Midstream.coreRun_walk_branch (h : Midstream base σ (b :: more) w) (hb : base.seq = .run ks)
    (hx : Stands base x sh) (hp : (sym, b :: path) ∈ sh.paths) (cnt : Nat) :
    ∃ m w' y sub, m ≤ 4 ∧ coreRun m c (askBit x cnt w) = walkedTo y cnt w' ∧ Midstream base σ more w' ∧
      Stands base y sub ∧ (sym, path) ∈ sub.paths ∧ sub.nodes < sh.nodes := by
  obtain ⟨lsh, rsh, rfl, hbelow⟩ := Shape.mem_paths_cons hp
  obtain ⟨l, r, k, hnode, hl, hr⟩ := (h.stands.2 hx).node
  obtain ⟨m, w', hm, hrun, h'⟩ := h.coreRun_walk_bit (c := c) hb hnode cnt
  refine ⟨m, w', _, _, hm, hrun, h', ?_, hbelow, ?_⟩
  · cases b
    · exact h.stands.1 hl
    · exact h.stands.1 hr
  · rw [Shape.nodes]
    split <;> omega

/-- Bits that begin a leaf's path, and do not end it, take the cursor to an internal node. -/
theorem Midstream.coreRun_walk_down (h : Midstream base σ (q ++ more) w) (hb : base.seq = .run ks)
    (hx : Stands base x sh) (hp : (sym, q ++ r) ∈ sh.paths) (hr : r ≠ []) (cnt : Nat) :
    ∃ m w' y sub, m ≤ 4 * q.length ∧ coreRun m c (askBit x cnt w) = askBit y cnt w' ∧ Midstream base σ more w' ∧
      Stands base y sub ∧ (sym, r) ∈ sub.paths ∧ sub.nodes + q.length ≤ sh.nodes := by
  induction q generalizing w x sh with
  | nil => exact ⟨0, w, x, sh, le_rfl, rfl, h, hx, hp, le_rfl⟩
  | cons b q ih =>
    obtain ⟨m, w1, y, sub, hm, hrun, h1, hy, hp1, hlt⟩ := h.coreRun_walk_branch (c := c) hb hx hp cnt
    cases sub with
    | leaf a => exact absurd (congrArg Prod.snd (Shape.mem_paths_leaf.1 hp1)) (by simp [hr])
    | node a d =>
      rw [(h1.stands.2 hy).walkedTo_node] at hrun
      obtain ⟨m2, w2, z, sub2, hm2, hrun2, h2, hz, hp2, hle⟩ := ih h1 hy hp1
      refine ⟨m + m2, w2, z, sub2, ?_, by rw [coreRun_add, hrun, hrun2], h2, hz, hp2, ?_⟩ <;> rw [List.length_cons] <;>
        omega

/-- The whole path of a leaf: its symbol is emitted, and the cursor is at the root again. -/
theorem Midstream.coreRun_walk_leaf {ys : List Byte} (h : Midstream (emitted ys base) σ (path ++ more) w)
    (hb : base.seq = .run ks) (hx : Stands base base.treeInfo.root sh) (hp : (sym, path) ∈ sh.paths)
    (hs : path ≠ []) (cnt : Nat) :
    ∃ m w', m ≤ 4 * path.length ∧
      coreRun m c (askBit base.treeInfo.root cnt w) = askBit base.treeInfo.root (cnt + 1) w' ∧
      Midstream (emitted (ys ++ [sym]) base) σ more w' := by
  obtain ⟨q, b, rfl⟩ := (List.eq_nil_or_concat' path).resolve_left hs
  rw [List.append_assoc] at h
  obtain ⟨m, w1, y, sub, hm, hrun, h1, hy, hp1, -⟩ :=
    h.coreRun_walk_down (c := c) (base := emitted ys base) hb hx hp (by nofun) cnt
  obtain ⟨m2, w2, z, sub2, hm2, hrun2, h2, hz, hp2, -⟩ := h1.coreRun_walk_branch (c := c) hb hy hp1 cnt
  obtain rfl := Shape.eq_leaf_of_mem_paths hp2
  rw [(h2.stands.2 hz).walkedTo_leaf, h2.treeInfo_eq] at hrun2
  refine ⟨m + m2, _, ?_, by rw [coreRun_add, hrun, hrun2]; rfl, h2.outWrite sym⟩
  rw [List.length_append, List.length_singleton]
  omega

/-- Paths of leaves, one after the other. -/
theorem Midstream.coreRun_walk_leaves {ys : List Byte} (zs : List (Byte × List Bool))
    (h : Midstream (emitted ys base) σ (zs.flatMap Prod.snd ++ more) w) (hb : base.seq = .run ks)
    (hx : Stands base base.treeInfo.root sh) (hs : sh.single = false) (hz : ∀ z ∈ zs, z ∈ sh.paths) (cnt : Nat) :
    ∃ m w', m ≤ 4 * (zs.flatMap Prod.snd).length ∧
      coreRun m c (askBit base.treeInfo.root cnt w) = askBit base.treeInfo.root (cnt + zs.length) w' ∧
      Midstream (emitted (ys ++ zs.map Prod.fst) base) σ more w' := by
  induction zs generalizing ys w cnt with
  | nil => exact ⟨0, w, Nat.zero_le _, rfl, by simpa using h⟩
  | cons z zs ih =>
    have hmem := hz z List.mem_cons_self
    have hpos := Shape.path_length_pos hs hmem
    rw [List.flatMap_cons, List.append_assoc] at h
    obtain ⟨m, w1, hm, hrun, h1⟩ := h.coreRun_walk_leaf (c := c) hb hx hmem (List.length_pos_iff.1 hpos) cnt
    obtain ⟨m2, w2, hm2, hrun2, h2⟩ := ih h1 (fun y hy => hz y (List.mem_cons_of_mem z hy)) (cnt + 1)
    refine ⟨m + m2, w2, ?_, ?_, ?_⟩
    · rw [List.flatMap_cons, List.length_append]
      omega
    · rw [coreRun_add, hrun, hrun2, List.length_cons, Nat.add_assoc, Nat.add_comm 1]
    · simpa using h2

/-! ### The end of the bits -/

/-- With no genuine bit left the cursor stays, and the answer is NA. -/
theorem Midstream.coreRun_walk_end (h : Midstream base σ [] w) (hb : base.seq = .run ks) (x : NodeIdx) (cnt : Nat) :
    ∃ m w', m ≤ 3 ∧ coreRun m c (askBit x cnt w) = taskNext (.walkBit x cnt) w' ∧ StreamOver base σ w' ∧
      runTask (.walkBit x cnt) w' =
        if x = base.treeInfo.root then .ok (setRet cnt w') else .err .truncated w' := by
  obtain ⟨m, w', v, j, hm, hrun, h', hansw⟩ := h.field_cut (c := c) (n := 1) hb Nat.zero_lt_one (.walkBit x cnt)
  have hroot : w'.treeInfo = base.treeInfo := by rw [h'.frame]
  refine ⟨m, w', hm, coreRun_askBit (h.seq hb) h.isOpen.eos (h'.seq hb) hrun, h', ?_⟩
  rw [runTask, taskWalkBit, hansw.frame, ← hroot, hansw.frame]

/-- WALK begins at a root that is no leaf. -/
theorem coreStep_walk (hb : base.seq = .run ks) (hx : treeShape base = some sh) (hs : sh.single = false) :
    coreStep c (taskNext .walk base) = some (askBit base.treeInfo.root 0 (setPhase .walk base)) :=
  coreStep_taskNext_ok hb ((if_neg (by rw [isLeaf_root_of_treeShape hx hs]; nofun)))

/-- WALK's task over paths of leaves. -/
theorem Midstream.coreRun_walk (ys : List (Byte × List Bool)) (h : Midstream base σ (ys.flatMap Prod.snd ++ more) base)
    (hb : base.seq = .run ks) (hx : treeShape base = some sh) (hs : sh.single = false) (hy : ∀ y ∈ ys, y ∈ sh.paths) :
    ∃ m w, m ≤ 4 * (ys.flatMap Prod.snd).length + 1 ∧
      coreRun m c (taskNext .walk base) = askBit base.treeInfo.root ys.length w ∧
      Midstream (emitted (ys.map Prod.fst) (setPhase .walk base)) σ more w := by
  have h0 : Midstream (emitted [] (setPhase .walk base)) σ (ys.flatMap Prod.snd ++ more) (setPhase .walk base) := by
    rw [emitted_nil]
    exact ⟨rfl, h.fill, ⟨h.isOpen.eos, h.isOpen.tokens⟩, h.genuine⟩
  obtain ⟨m, w, hm, hrun, hw⟩ := h0.coreRun_walk_leaves (c := c) ys hb ⟨_, hx⟩ hs hy 0
  rw [Nat.zero_add] at hrun
  exact ⟨m + 1, w, Nat.succ_le_succ hm, (coreRun_some _ (coreStep_walk hb hx hs)).trans hrun, hw⟩

/-- WALK whose genuine bits are paths of leaves returns their number. -/
theorem Midstream.coreRun_walk_done (ys : List (Byte × List Bool)) (h : Midstream base σ (ys.flatMap Prod.snd) base)
    (hb : base.seq = .run ks) (hx : treeShape base = some sh) (hs : sh.single = false) (hy : ∀ y ∈ ys, y ∈ sh.paths) :
    ∃ m w, m ≤ 4 * (ys.flatMap Prod.snd).length + 5 ∧ coreRun m c (taskNext .walk base) = setRet ys.length w ∧
      StreamOver (emitted (ys.map Prod.fst) (setPhase .walk base)) σ w := by
  rw [← List.append_nil (ys.flatMap Prod.snd)] at h
  obtain ⟨m, w1, hm, hrun, h1⟩ := h.coreRun_walk (c := c) ys hb hx hs hy
  obtain ⟨m2, w2, hm2, hrun2, h2, hend⟩ := h1.coreRun_walk_end (c := c) hb base.treeInfo.root ys.length
  have hstep := coreStep_taskNext_ok (c := c) (h2.seq hb) (hend.trans (if_pos rfl))
  refine ⟨m + (m2 + 1), w2, by omega, ?_, h2⟩
  rw [coreRun_add, hrun, coreRun_add, hrun2, coreRun_some 0 hstep, coreRun_zero]

/-- WALK whose genuine bits stop inside a path comes to an answer NA away from the root, which is TRUNCATED. -/
theorem Midstream.coreRun_walk_cut (ys : List (Byte × List Bool)) (h : Midstream base σ (ys.flatMap Prod.snd ++ q) base)
    (hb : base.seq = .run ks) (hx : treeShape base = some sh) (hs : sh.single = false) (hy : ∀ y ∈ ys, y ∈ sh.paths)
    {p : Byte × List Bool} (hp : p ∈ sh.paths) (hq : q <+: p.2) (hne : q ≠ p.2) (hnil : q ≠ []) :
    ∃ m w k, m ≤ 4 * (ys.flatMap Prod.snd ++ q).length + 5 ∧ coreRun m c (taskNext .walk base) = taskNext k w ∧
      runTask k w = .err .truncated w ∧ StreamOver (emitted (ys.map Prod.fst) (setPhase .walk base)) σ w := by
  obtain ⟨sym, path⟩ := p
  obtain ⟨r, rfl⟩ := hq
  have hr : r ≠ [] := fun h => hne (by simp [h])
  obtain ⟨m, w1, hm, hrun, h1⟩ := h.coreRun_walk (c := c) ys hb hx hs hy
  rw [← List.append_nil q] at h1
  have hroot : Stands (emitted (ys.map Prod.fst) (setPhase .walk base)) base.treeInfo.root sh := ⟨_, hx⟩
  obtain ⟨m2, w2, y, sub, hm2, hrun2, h2, hsub, -, hle⟩ := h1.coreRun_walk_down (c := c) hb hroot hp hr ys.length
  obtain ⟨m3, w3, hm3, hrun3, h3, hend⟩ := h2.coreRun_walk_end (c := c) hb y ys.length
  have haway : y ≠ base.treeInfo.root := fun he => by
    rw [he] at hsub
    rw [hsub.unique hroot] at hle
    have := List.length_pos_iff.2 hnil
    omega
  refine ⟨m + (m2 + m3), w3, _, ?_, by rw [coreRun_add, hrun, coreRun_add, hrun2, hrun3], hend.trans (if_neg haway), h3⟩
  rw [List.length_append]
  omega

end Sys2Proof.Machine

/-!
## WalkCommand

WALK as a whole command: on paths of leaves, on bits that stop inside one, and once the stream has ended (47_decoder.md
R343, R344; 20_memory.md R88).
-/

namespace Sys2Proof.Machine

variable {m : Nat} {bits : List Bool} {sh : Shape} {σ : Source} {s w : State}

/-- The state in which WALK begins stands in the stream that the command finds. -/
theorem midstream_opened (he : s.rd.eos = false) (hf : s.rd.fill.toNat ≤ 8) (hg : genuineBits s = some bits) :
    ∃ σ : Source, σ.size ≤ s.inp.length ∧ Midstream (opened [] s) σ bits (opened [] s) :=
  midstream_of_genuine (s := opened [] s) he hf hg

/-- A full turn has the core steps of a walk over a stream whose tokens are there. -/
theorem walk_steps_le (ht : FullTurn s) (hσ : σ.size ≤ s.inp.length) (h : Midstream (opened [] s) σ bits w)
    (hm : m ≤ 4 * bits.length + 5) : m + 3 ≤ s.turn := by
  have hbound : 2 ^ 60 + 64 * s.inp.length ≤ s.turn := ht
  have hlen := h.length_le
  omega

/-- Settles O40: each path takes the cursor from the root to its leaf and back, and NA at the root ends the walk; with
RD_EOS = 1 the first answer is NA. -/
theorem walkEmitsTheSymbols : Obligations.WalkEmitsTheSymbols := by
  intro s sh hs ht hv hx hsingle hn
  have hcheck : (commandOf .walk).check s = none := checkFlag_true hv
  refine ⟨fun ys hy he hf hg => ?_, fun he => ?_⟩
  · obtain ⟨σ, hσ, h⟩ := midstream_opened he hf hg
    obtain ⟨m, w, hm, hrun, hw⟩ := h.coreRun_walk_done (c := commandOf .walk) ys rfl hx hsingle hy
    have hturn := walk_steps_le ht hσ h hm
    have hexec := exec_of_returns (i := .walk) hs (by omega) hcheck hrun (hw.seq rfl)
    refine ⟨_, hexec, ?_, hw.spent.atStreamEnd⟩
    exact congrArg (fun u => succeeded (counted ys.length) (setRet ys.length u)) hw.frame
  · have hstart := coreStep_walk (c := commandOf .walk) (base := opened [] s) rfl hx hsingle
    have hask := coreStep_askBit_eos (c := commandOf .walk)
      (s := askBit s.treeInfo.root 0 (setPhase .walk (opened [] s))) [.walkBit s.treeInfo.root 0] rfl he
    have hbit := coreStep_taskNext_ok (c := commandOf .walk) (x := .walkBit s.treeInfo.root 0)
      (w := { setPhase .walk (opened [] s) with got := .na 0 0 }) rfl (if_pos rfl)
    have hrun := (coreRun_some 2 hstart).trans ((coreRun_some 1 hask).trans (coreRun_some 0 hbit))
    exact exec_of_returns (i := .walk) (m := 3) hs (ht.le (by omega)) hcheck hrun rfl

/-- Settles O41: the bits that stop inside a path leave the cursor away from the root, where NA is TRUNCATED. -/
theorem walkTruncates : Obligations.WalkTruncates := by
  intro s sh ys p q hs ht hv hx hsingle hn hy hp hq hne hnil he hf hg
  have hcheck : (commandOf .walk).check s = none := checkFlag_true hv
  obtain ⟨σ, hσ, h⟩ := midstream_opened he hf hg
  obtain ⟨m, w, k, hm, hrun, hk, hw⟩ :=
    h.coreRun_walk_cut (c := commandOf .walk) ys rfl hx hsingle hy hp hq hne hnil
  have hstep := coreStep_taskNext_err (c := commandOf .walk) (hw.seq rfl) hk
  have hturn := walk_steps_le ht hσ h hm
  have hexec := exec_of_fail (i := .walk) (m := m + 1) (u := raiseError (commandOf .walk) .truncated w) hs (by omega)
    hcheck ((coreRun_add m 1 _ _).trans ((congrArg _ hrun).trans (coreRun_some 0 hstep))) rfl
  exact ⟨_, hexec, congrArg (fun u => failed .truncated (raiseError (commandOf .walk) .truncated u)) hw.frame⟩

end Sys2Proof.Machine

/-!
## DeserializeInStream

DESERIALIZE's task in the midst of a stream, with tasks of DECODE behind it: the nodes that are there are linked and the
stream goes on behind them, and where the bits stop, or the arena is full, the next task raises the error
(45_tree_serializer.md R301; 47_decoder.md R345).
-/

namespace Sys2Proof.Machine

variable {c : Command} {b : Bool} {k m n : Nat} {p : Partial} {sh : Shape} {ns : List (Option Byte)}
  {tag : Option Byte} {bits cut more : List Bool} {ks : List Task} {σ : Source} {s w : State}

/-! ### A tree begun in the midst of a stream -/

/-- `w` is what DESERIALIZE, begun in `s`, has made once k nodes are allocated, `p` being the tree begun, and the
genuine bits of the stream σ still to come are `bits`. -/
structure Making (s : State) (σ : Source) (bits : List Bool) (k : Nat) (p : Partial) (w : State) : Prop where
  begun : ∃ n, Begun s n k p w
  stream : Midstream w σ bits w

theorem Making.seq (h : Making s σ bits k p w) (hs : s.seq = .run ks) : w.seq = .run ks := by
  obtain ⟨n, hb⟩ := h.begun
  exact hb.seq.trans hs

/-- DESERIALIZE's state where its loop begins, whatever tasks stand behind it. -/
def treeCleared (s : State) : State :=
  { setTreeValid false (setPhase .deserialize s) with treeInfo := { root := 0, nodes := 0, rootLeaf := false } }

theorem coreStep_deserialize_task (hs : s.seq = .run ks) :
    coreStep c (taskNext .deserialize s) = some (askTag [] (treeCleared s)) := coreStep_taskNext_ok hs rfl

theorem making_treeCleared (h : Midstream s σ bits s) : Making s σ bits 0 .gap (treeCleared s) := by
  obtain ⟨hunpk, hfill, hheld⟩ := readOn_zero h.fill
  exact ⟨⟨0, rfl, ⟨trivial, fun _ _ hi => absurd hi (Nat.not_lt_zero _), fun _ _ => rfl⟩, rfl, hunpk, hfill, hheld⟩,
    rfl, h.fill, ⟨h.isOpen.eos, h.isOpen.tokens⟩, h.genuine⟩

/-- Linking a node leaves the stream. -/
theorem Midstream.nodeLinked (h : Midstream w σ bits w) (tag : Option Byte) (p : Partial) :
    Midstream (nodeLinked tag p w) σ bits (nodeLinked tag p w) := by
  rw [Machine.nodeLinked, linkChild_frame]
  exact ⟨rfl, h.fill, ⟨h.isOpen.eos, h.isOpen.tokens⟩, h.genuine⟩

theorem Making.linked (h : Making s σ bits (p.nodes + 1) p w) (hw : p.whole = false) (hk : p.nodes < 511)
    (tag : Option Byte) :
    Making s σ bits (p.nodes + 1) (Partial.fill (newNode tag) p) (nodeLinked tag p w) := by
  obtain ⟨⟨n, hb⟩, hm⟩ := h
  obtain ⟨hlinked, -⟩ := hb.nodeLinked hw hk tag
  exact ⟨⟨n, hlinked⟩, hm.nodeLinked tag p⟩

/-- A field of a node that is there. -/
theorem Making.field (h : Making s σ (bits ++ more) k p w) (hs : s.seq = .run ks) (x : Task) :
    ∃ m w', m ≤ 2 * bits.length + 1 ∧ coreRun m c (fieldNext bits.length x w) = taskNext x w' ∧
      Making s σ more k p w' ∧ w'.got = .ok (valueOfBits 32 bits) := by
  have hw := h.seq hs
  obtain ⟨⟨n, hb⟩, hm⟩ := h
  obtain ⟨m, w', hle, hrun, h', hansw⟩ := hm.field (c := c) hw x
  exact ⟨m, w', hle, hrun, ⟨⟨_, hb.answered hansw⟩, h'.here⟩, by rw [hansw.frame]⟩

/-- A field of a node that the stream's end cuts short. -/
theorem Making.field_cut (h : Making s σ bits k p w) (hs : s.seq = .run ks) (hn : bits.length < n) (x : Task) :
    ∃ m w' v j, m ≤ 2 * n + 1 ∧ coreRun m c (fieldNext n x w) = taskNext x w' ∧ w'.got = .na v j ∧
      (∃ n, Begun s n k p w') ∧ σ.Spent w' := by
  have hw := h.seq hs
  obtain ⟨⟨i, hb⟩, hm⟩ := h
  obtain ⟨m, w', v, j, hle, hrun, h', hansw⟩ := hm.field_cut (c := c) hw hn x
  exact ⟨m, w', v, j, hle, hrun, by rw [hansw.frame], ⟨_, hb.answered hansw⟩, h'.spent⟩

/-! ### The loop -/

/-- A round up to its tag bit, where the arena has room. -/
theorem Making.coreRun_tag (h : Making s σ (b :: more) p.nodes p w) (hs : s.seq = .run ks) (hw : p.whole = false)
    (hk : p.nodes < 511) :
    ∃ m w', m ≤ 4 ∧
      coreRun m c (askTag (p.pending 0) w) =
        (if b then roundEnd (Partial.fill (newNode none) p) (nodeLinked none p w')
          else fieldNext 8 (.deserSymbol (p.pending 0) p.nodes) w') ∧
      Making s σ more (p.nodes + 1) p w' := by
  obtain ⟨m, w', hm, hrun, h', hgot⟩ := h.field (c := c) (bits := [b]) hs (.deserTag (p.pending 0))
  have hseq := h'.seq hs
  obtain ⟨⟨n, hb⟩, hstream⟩ := h'
  have hstep := coreStep_taskNext_ok (c := c) hseq (taskDeserTag_ok hb hw hk hgot)
  refine ⟨m + 1, nodeCounted w', Nat.succ_le_succ hm, ?_, ⟨n, hb.nodeCounted⟩,
    rfl, hstream.fill, ⟨hstream.isOpen.eos, hstream.isOpen.tokens⟩, hstream.genuine⟩
  rw [coreRun_add, askTag]
  exact (congrArg _ hrun).trans (coreRun_some 0 hstep)

/-- One node that is there comes into the first gap. -/
theorem Making.coreRun_node (h : Making s σ (tagBits tag ++ more) p.nodes p w) (hs : s.seq = .run ks)
    (hw : p.whole = false) (hk : p.nodes < 511) :
    ∃ m w', m ≤ 22 ∧ coreRun m c (askTag (p.pending 0) w) = roundEnd (Partial.fill (newNode tag) p) w' ∧
      Making s σ more (p.nodes + 1) (Partial.fill (newNode tag) p) w' := by
  cases tag with
  | none =>
    obtain ⟨m, w1, hm, hrun, h1⟩ := h.coreRun_tag (c := c) (b := true) hs hw hk
    exact ⟨m, _, by omega, hrun, h1.linked hw hk none⟩
  | some sym =>
    obtain ⟨m, w1, hm, hrun, h1⟩ := h.coreRun_tag (c := c) (b := false) hs hw hk
    obtain ⟨m2, w2, hm2, hrun2, h2, hgot⟩ := h1.field (c := c) (bits := bitsOf 8 sym) hs
      (.deserSymbol (p.pending 0) p.nodes)
    obtain ⟨n, hb⟩ := h2.begun
    have hstep := coreStep_taskNext_ok (c := c) (h2.seq hs) (taskDeserSymbol_ok hb hw hk hgot)
    rw [bitsOf_length] at hm2 hrun2
    refine ⟨m + (m2 + 1), _, by omega, ?_, h2.linked hw hk (some sym)⟩
    rw [coreRun_add, hrun, if_neg nofun, coreRun_add, hrun2, coreRun_some 0 hstep, coreRun_zero]

/-- Nodes that are there and do not complete the tree. -/
theorem Making.coreRun_nodes (ns : List (Option Byte)) (h : Making s σ (nodesBits ns ++ more) p.nodes p w)
    (hs : s.seq = .run ks) (hun : unfinished p.gaps ns = true) (hk : p.nodes + ns.length ≤ 511) :
    ∃ m w' p', m ≤ 22 * ns.length ∧ coreRun m c (askTag (p.pending 0) w) = askTag (p'.pending 0) w' ∧
      Making s σ more p'.nodes p' w' ∧ p'.whole = false ∧ p'.nodes = p.nodes + ns.length ∧ p' = p.fillAll ns := by
  have hw := Partial.gaps_ne_zero.1 (unfinished_ne_zero hun)
  induction ns generalizing p w with
  | nil => exact ⟨0, w, p, Nat.zero_le _, rfl, h, hw, rfl, rfl⟩
  | cons tag ns ih =>
    rw [nodesBits_cons, List.append_assoc] at h
    rw [List.length_cons] at hk
    obtain ⟨m, w1, hm, hrun, h1⟩ := h.coreRun_node (c := c) hs hw (by omega)
    have hun1 := unfinished_fill hw hun
    have hw1 := Partial.gaps_ne_zero.1 (unfinished_ne_zero hun1)
    have hnodes : (Partial.fill (newNode tag) p).nodes = p.nodes + 1 := by
      rw [Partial.nodes_fill _ _ hw]
      cases tag <;> rfl
    rw [← hnodes] at h1
    rw [roundEnd, hw1, if_neg nofun] at hrun
    obtain ⟨m2, w2, p2, hm2, hrun2, h2, hw2, hn2, rfl⟩ := ih h1 hun1 (by omega) hw1
    refine ⟨m + m2, w2, _, ?_, by rw [coreRun_add, hrun, hrun2], h2, hw2, ?_, (Partial.fillAll_cons _ _ _).symm⟩ <;>
      rw [List.length_cons] <;> omega

/-! ### The whole task -/

theorem Midstream.coreRun_deserialize (ns : List (Option Byte)) (h : Midstream s σ (nodesBits ns ++ more) s)
    (hs : s.seq = .run ks) (hun : unfinished 1 ns = true) (hn : ns.length ≤ 511) :
    ∃ m w p, m ≤ 22 * ns.length + 1 ∧ coreRun m c (taskNext .deserialize s) = askTag (p.pending 0) w ∧
      Making s σ more p.nodes p w ∧ p.whole = false ∧ p.nodes = ns.length ∧ p = Partial.fillAll ns .gap := by
  obtain ⟨m, w, p, hm, hrun, h', hw, hnodes, hp⟩ := Making.coreRun_nodes (c := c) (p := .gap) ns
    (making_treeCleared h) hs hun ((Nat.zero_add _).trans_le hn)
  exact ⟨m + 1, w, p, Nat.succ_le_succ hm, (coreRun_some m (coreStep_deserialize_task hs)).trans hrun, h', hw,
    hnodes.trans (Nat.zero_add _), hp⟩

/-- The bits of a tree: DESERIALIZE has made it, and the stream goes on behind them. -/
theorem Midstream.coreRun_deserialize_shape (h : Midstream s σ (sh.bits ++ more) s) (hs : s.seq = .run ks)
    (hn : sh.nodes ≤ 511) :
    ∃ m w, m ≤ 22 * 512 ∧ coreRun m c (taskNext .deserialize s) = roundEnd sh.begun w ∧
      Making s σ more sh.nodes sh.begun w := by
  obtain ⟨ns, sym, htags, hun⟩ := sh.tags_eq_concat
  have hlen : ns.length + 1 = sh.nodes := by rw [← sh.tags_length, htags, List.length_append, List.length_singleton]
  have hbits : sh.bits ++ more = nodesBits ns ++ (tagBits (some sym) ++ more) := by
    rw [← sh.nodesBits_tags, htags, nodesBits_append, nodesBits_cons, List.append_assoc]
    rfl
  rw [hbits] at h
  obtain ⟨m, w, p, hm, hrun, h1, hw, hnodes, hp⟩ := h.coreRun_deserialize (c := c) ns hs (hun 0) (by omega)
  obtain ⟨m2, w2, hm2, hrun2, h2⟩ := h1.coreRun_node (c := c) hs hw (by omega)
  have hfill : Partial.fill (newNode (some sym)) p = sh.begun := by
    have hall := sh.fillAll_tags (p := .gap) rfl
    rw [htags, Partial.fillAll_append, ← hp] at hall
    exact hall
  rw [hfill, hnodes, hlen] at h2
  rw [hfill] at hrun2
  exact ⟨m + m2, w2, by omega, by rw [coreRun_add, hrun, hrun2], h2⟩

/-- The bits stop before a node's tag, or inside a leaf's symbol: the next task raises TRUNCATED. -/
theorem Making.coreRun_cut (h : Making s σ cut p.nodes p w) (hs : s.seq = .run ks) (hw : p.whole = false)
    (hcut : cut = [] ∨ cut.head? = some false ∧ cut.length < 9 ∧ p.nodes < 511) :
    ∃ m w' x, m ≤ 22 ∧ coreRun m c (askTag (p.pending 0) w) = taskNext x w' ∧ runTask x w' = .err .truncated w' ∧
      (∃ n, Begun s n (p.nodes + if cut = [] then 0 else 1) p w') ∧ σ.Spent w' := by
  rcases hcut with rfl | ⟨hhead, hlen, hk⟩
  · obtain ⟨m, w', v, j, hm, hrun, hgot, hb, hspent⟩ :=
      h.field_cut (c := c) (n := 1) hs Nat.zero_lt_one (.deserTag (p.pending 0))
    exact ⟨m, w', _, by omega, hrun, taskDeserTag_na _ hgot, hb, hspent⟩
  · obtain ⟨bits, rfl⟩ := List.head?_eq_some_iff.1 hhead
    obtain ⟨m, w1, hm, hrun, h1⟩ := h.coreRun_tag (c := c) hs hw hk
    obtain ⟨m2, w2, v, j, hm2, hrun2, hgot, hb, hspent⟩ := h1.field_cut (c := c) (n := 8) hs
      (Nat.lt_of_succ_lt_succ hlen) (.deserSymbol (p.pending 0) p.nodes)
    exact ⟨m + m2, w2, _, by omega, by rw [coreRun_add, hrun, if_neg nofun, hrun2], taskDeserSymbol_na _ _ hgot, hb,
      hspent⟩

/-- A tag bit follows, but the arena is full: the next task raises TREE_OVERFLOW. -/
theorem Making.coreRun_full (h : Making s σ (b :: more) 511 p w) (hs : s.seq = .run ks) :
    ∃ m w' x, m ≤ 3 ∧ coreRun m c (askTag (p.pending 0) w) = taskNext x w' ∧
      runTask x w' = .err .treeOverflow w' ∧ Making s σ more 511 p w' := by
  obtain ⟨m, w', hm, hrun, h', hgot⟩ := h.field (c := c) (bits := [b]) hs (.deserTag (p.pending 0))
  obtain ⟨n, hb⟩ := h'.begun
  refine ⟨m, w', _, hm, hrun, ?_, h'⟩
  rw [runTask, taskDeserTag, hgot]
  exact if_pos (hb.nodes_toNat le_rfl)

end Sys2Proof.Machine

/-!
## DecodeFrames

DECODE on the sequencer: its header read, the raw and the single-symbol body, and its two ends: `finish:` and the error
path, which both drain the stream (47_decoder.md R345, R346, R348).
-/

namespace Sys2Proof.Machine

variable {c : Command} {e : ErrCode} {m n cnt : Nat} {tag : BitVec 2} {bits more : List Bool} {ks : List Task}
  {k : Task} {sym : Byte} {x ys : List Byte} {rest : List InTok} {tok : OutTok} {σ : Source} {base s t u w : State}

/-! ### The ends -/

/-- The stream's End taken, and the token written that ends DECODE's own (R345 `finish:`, R348). -/
def streamsEnded (tok : OutTok) (rest : List InTok) (w : State) : State := outWrite tok (endTaken rest w)

/-- The state with the tasks `ks` left. -/
def queued (ks : List Task) (w : State) : State := { w with seq := .run ks }

theorem coreStep_queued (h : runTask k (queued ks w) = .ok u) : coreStep c (queued (k :: ks) w) = some u := by
  have hk : runTask k { queued (k :: ks) w with seq := .run ks } = .ok u := h
  rw [coreStep_task rfl, hk]

theorem coreStep_enter (p : Phase) : coreStep c (queued (.enter p :: ks) w) = some (queued ks (setPhase p w)) :=
  coreStep_queued rfl

theorem Source.Drains.of_reads (h : σ.Drains s) (hrd : t.rd = s.rd) (hla : t.la = s.la) (hinp : t.inp = s.inp) :
    σ.Drains t := by
  refine h.imp (fun ⟨heos, htokens⟩ => ⟨by rwa [hrd], ?_⟩) fun hend => by rwa [hrd, hla, hinp]
  rwa [ahead, hrd, hla, hinp]

/-- The tasks of `finish:`, and those of the error path, drain the stream and write the token. -/
theorem coreRun_closing (h : σ.Drains w) :
    ∃ m, m ≤ σ.size + 4 ∧
      coreRun m c (queued [.enter .drain, .drain, .enter .finish, .out tok, k] w) =
        queued [k] (setPhase .finish (streamsEnded tok σ.rest w)) := by
  obtain ⟨m, hm, hrun⟩ := coreRun_drain (c := c) (s := queued [.drain, .enter .finish, .out tok, k] (setPhase .drain w))
    rfl (h.of_reads rfl rfl rfl)
  refine ⟨m + 2 + 1, by omega, (coreRun_some _ (coreStep_enter .drain)).trans ?_⟩
  rw [coreRun_add, hrun]
  rfl

/-- DECODE whose run comes to `finish:` with count `cnt`. -/
theorem exec_decode_of_finish (hs : Started s) (ht : m + σ.size + 8 ≤ s.turn)
    (hrun : coreRun m cmdDecode (opened [.decodeInit] s) = taskNext (.decodeFinish cnt) w) (hw : w.seq = .run [])
    (h : σ.Drains w) : exec .decode s = .next (succeeded (counted cnt) (streamsEnded .eos σ.rest w)) := by
  obtain ⟨m2, hm2, hclose⟩ := coreRun_closing (c := cmdDecode) (tok := .eos) (k := .setRet cnt) h
  have hfinish := coreStep_taskNext_ok (c := cmdDecode) (x := .decodeFinish cnt) hw
    (congrArg TaskResult.ok (pushTasks_run w _ [] hw))
  have hret : coreStep cmdDecode (queued [.setRet cnt] (setPhase .finish (streamsEnded .eos σ.rest w))) =
      some (queued [] (setRet cnt (setPhase .finish (streamsEnded .eos σ.rest w)))) := coreStep_queued rfl
  refine exec_of_returns (i := .decode) (m := m + (m2 + 1 + 1))
    (t := queued [] (setRet cnt (setPhase .finish (streamsEnded .eos σ.rest w)))) hs (by omega) rfl ?_ rfl
  refine (coreRun_add m _ _ _).trans ((congrArg _ hrun).trans ((coreRun_some _ hfinish).trans ?_))
  exact (coreRun_add m2 1 _ _).trans ((congrArg _ hclose).trans (coreRun_some 0 hret))

/-- DECODE whose run comes to a task that raises an error. -/
theorem exec_decode_of_error (hs : Started s) (ht : m + σ.size + 7 ≤ s.turn)
    (hrun : coreRun m cmdDecode (opened [.decodeInit] s) = taskNext k w) (hw : w.seq = .run ks)
    (hk : runTask k w = .err e u) (h : σ.Drains u) :
    exec .decode s = .next (failed e (streamsEnded .abort σ.rest u)) := by
  obtain ⟨m2, hm2, hclose⟩ := coreRun_closing (c := cmdDecode) (tok := .abort) (k := .fail e) h
  have hraise := coreStep_taskNext_err (c := cmdDecode) hw hk
  refine exec_of_fail (i := .decode) (m := m + (m2 + 1))
    (u := queued [.fail e] (setPhase .finish (streamsEnded .abort σ.rest u))) hs (by omega) rfl ?_ rfl
  exact (coreRun_add m _ _ _).trans ((congrArg _ hrun).trans ((coreRun_some m2 hraise).trans hclose))

/-! ### The header -/

/-- DECODE's first lines are done: the unpacker is restarted and MODE is cleared. -/
def decodeBegun (s : State) : State :=
  { opened [] s with
    rd := { acc := 0, fill := 0, eos := false }, unpk := { limitEn := false, limitMb := 8 }
    mode := { tag := 0, valid := false, mb := 0 }, status := { s.status with phase := .header } }

theorem coreStep_decodeInit :
    coreStep c (opened [.decodeInit] s) = some (fieldNext 2 .decodeTag (decodeBegun s)) := by
  rw [coreStep_task rfl]
  rfl

/-- The stream of bytes `x` and End, read from its start. -/
def streamOf (x : List Byte) (rest : List InTok) : Source := ⟨x.length, x.getLast?.getD 0, rest⟩

theorem midstream_decodeBegun (ha : ahead s = inBytes x ++ .eos :: rest) :
    Midstream (decodeBegun s) (streamOf x rest) (byteBits x) (decodeBegun s) := by
  have hahead : ahead (decodeBegun s) = inBytes x ++ .eos :: rest := ha
  refine ⟨rfl, Nat.zero_le _, ⟨rfl, x, le_rfl, hahead, rfl⟩, ?_⟩
  rw [genuineBits_open rfl, hahead, genuineTokens_inBytes rfl, heldBits_of_fill_zero _ rfl]
  rfl

/-- A field of n bits that is there, and the task that takes it. -/
theorem Midstream.field_then {f : State → State} (h : Midstream base σ (bits ++ more) w) (hb : base.seq = .run ks)
    (hn : bits.length = n) (hk : ∀ u, u.got = .ok (valueOfBits 32 bits) → u.seq = .run ks → runTask k u = .ok (f u)) :
    ∃ m u, m ≤ 2 * n + 2 ∧ coreRun m c (fieldNext n k w) = f u ∧ Midstream base σ more u := by
  obtain ⟨m, u, hm, hrun, hu, hansw⟩ := h.field (c := c) hb k
  have hseq := hu.seq hb
  have hstep := coreStep_taskNext_ok (c := c) hseq (hk u (by rw [hansw.frame]) hseq)
  rw [hn] at hm hrun
  exact ⟨m + 1, u, Nat.succ_le_succ hm, by rw [coreRun_add, hrun, coreRun_some 0 hstep, coreRun_zero], hu⟩

theorem setWidth_valueOfBits_bitsOf {n : Nat} (hn : n ≤ 32) (v : BitVec n) :
    (valueOfBits 32 (bitsOf n v)).setWidth n = v := by
  rw [valueOfBits_bitsOf n v (BitVec.ushiftRight_eq_zero le_rfl)]
  simp [BitVec.setWidth_setWidth_of_le, hn]

/-- DECODE has read the tag of its stream and is in phase `p`. -/
def decoding (tag : BitVec 2) (p : Phase) (s : State) : State :=
  { decodeBegun s with mode := { tag := tag, valid := true, mb := 0 }, status := { s.status with phase := p } }

/-- MODE.TAG is set in the midst of a stream. -/
theorem Midstream.setMode (h : Midstream (decodeBegun s) σ bits w) (tag : BitVec 2) :
    Midstream (decoding tag .header s) σ bits (setMode tag w) :=
  ⟨congrArg (Machine.setMode tag) h.frame, h.fill, ⟨h.isOpen.eos, h.isOpen.tokens⟩, h.genuine⟩

/-- A stream whose first two bits are a tag: the tag is read. -/
theorem coreRun_decodeTag (ha : ahead s = inBytes x ++ .eos :: rest) (tag : BitVec 2)
    (hx : byteBits x = bitsOf 2 tag ++ bits) :
    ∃ m w, m ≤ 6 ∧ coreRun m c (opened [.decodeInit] s) = taskNext .decodeTag w ∧ w.seq = .run [] ∧
      w.got = .ok (valueOfBits 32 (bitsOf 2 tag)) ∧
      Midstream (decoding tag .header s) (streamOf x rest) bits (setMode tag w) := by
  have h := midstream_decodeBegun ha
  rw [hx] at h
  obtain ⟨m, w, hm, hrun, hw, hansw⟩ := h.field (c := c) (ks := []) rfl .decodeTag
  exact ⟨m + 1, w, Nat.succ_le_succ hm, (coreRun_some m coreStep_decodeInit).trans hrun, hw.seq rfl,
    by rw [hansw.frame], hw.setMode tag⟩

/-- What DECODE does with a tag. -/
def tagTaken (tag : BitVec 2) (w : State) : TaskResult :=
  match tag with
  | 0 => .ok (askRaw 0 (setPhase .rawBody (setMode 0 w)))
  | 1 => .ok (fieldNext 8 .decodeSymbol (setMode 1 w))
  | 2 => .ok (fieldNext 3 .decodeMb (setMode 2 w))
  | 3 => .err .badMode (setMode 3 w)

theorem taskDecodeTag_ok (hw : w.got = .ok (valueOfBits 32 (bitsOf 2 tag))) :
    runTask .decodeTag w = tagTaken tag w := by
  have htag := setWidth_valueOfBits_bitsOf (by decide) tag
  rw [runTask, taskDecodeTag, hw]
  simp only [htag]
  match tag with
  | 0 | 1 | 2 | 3 => rfl

/-- The tag is read, and its task is done. -/
theorem coreRun_decodeTag_then {f : State → State} (ha : ahead s = inBytes x ++ .eos :: rest) (tag : BitVec 2)
    (hx : byteBits x = bitsOf 2 tag ++ bits) (hf : ∀ w, tagTaken tag w = .ok (f (setMode tag w))) :
    ∃ m w, m ≤ 7 ∧ coreRun m c (opened [.decodeInit] s) = f w ∧
      Midstream (decoding tag .header s) (streamOf x rest) bits w := by
  obtain ⟨m, w, hm, hrun, hseq, hgot, hw⟩ := coreRun_decodeTag (c := c) ha tag hx
  have hstep := coreStep_taskNext_ok (c := c) hseq ((taskDecodeTag_ok hgot).trans (hf w))
  exact ⟨m + 1, _, Nat.succ_le_succ hm, by rw [coreRun_add, hrun, coreRun_some 0 hstep, coreRun_zero], hw⟩

/-! ### The raw body -/

theorem setWidth_valueOfBits_byte (bits : List Bool) : (valueOfBits 32 bits).setWidth 8 = valueOfBits 8 bits := by
  apply BitVec.eq_of_getLsbD_eq
  intro i hi
  rw [BitVec.getLsbD_setWidth, valueOfBits_getLsbD, valueOfBits_getLsbD]
  simp [hi, Nat.lt_trans hi (by decide : 8 < 32)]

/-- One round of the raw loop. -/
theorem Midstream.coreRun_rawByte (h : Midstream (emitted ys base) σ (bits ++ more) w) (hb : base.seq = .run ks)
    (hn : bits.length = 8) :
    ∃ m u, m ≤ 18 ∧ coreRun m c (askRaw cnt w) = askRaw (cnt + 1) u ∧
      Midstream (emitted (ys ++ [valueOfBits 8 bits]) base) σ more u := by
  obtain ⟨m, u, hm, hrun, hu⟩ := h.field_then (c := c) (k := .decodeRaw cnt)
    (f := fun u => askRaw (cnt + 1) (Machine.outWrite (.byte (valueOfBits 8 bits)) u)) hb hn fun u hu _ => by
      rw [runTask, taskDecodeRaw, hu, ← setWidth_valueOfBits_byte]
  exact ⟨m, _, hm, hrun, hu.outWrite _⟩

/-- The raw loop writes the whole bytes of the bits to come, and then comes to `finish:`. -/
theorem Midstream.coreRun_raw (h : Midstream (emitted ys base) σ bits w) (hb : base.seq = .run ks) :
    ∃ m u, m ≤ 18 * (wholeBytes bits).length + 18 ∧
      coreRun m c (askRaw cnt w) = taskNext (.decodeFinish (cnt + (wholeBytes bits).length)) u ∧
      StreamOver (emitted (ys ++ wholeBytes bits) base) σ u := by
  induction bits using wholeBytes.induct generalizing ys cnt w with
  | case1 b0 b1 b2 b3 b4 b5 b6 b7 rest ih =>
    obtain ⟨m, u, hm, hrun, hu⟩ := Midstream.coreRun_rawByte (c := c) (cnt := cnt)
      (bits := [b0, b1, b2, b3, b4, b5, b6, b7]) h hb rfl
    obtain ⟨m2, u2, hm2, hrun2, hu2⟩ := ih (cnt := cnt + 1) hu
    rw [List.append_assoc] at hu2
    rw [Nat.add_assoc, Nat.add_comm 1] at hrun2
    rw [wholeBytes, List.length_cons]
    exact ⟨m + m2, u2, by omega, by rw [coreRun_add, hrun, hrun2], hu2⟩
  | case2 bits hshort =>
    have hnil : wholeBytes bits = [] := by rw [wholeBytes]; exact hshort
    have hlen := wholeBytes_length bits
    rw [hnil, List.length_nil] at hlen
    obtain ⟨m, u, v, j, hm, hrun, hu, hansw⟩ := h.field_cut (c := c) (n := 8) hb (by omega) (.decodeRaw cnt)
    have hstep := coreStep_taskNext_ok (c := c) (x := .decodeRaw cnt) (hu.seq hb)
      (u := taskNext (.decodeFinish cnt) u) (by rw [runTask, taskDecodeRaw, hansw.frame]; rfl)
    rw [hnil, List.append_nil]
    exact ⟨m + 1, u, by omega, (coreRun_add m 1 _ _).trans ((congrArg _ hrun).trans (coreRun_some 0 hstep)), hu⟩

/-! ### The single-symbol body -/

theorem coreRun_outRepeat (n : Nat) :
    coreRun (n + 1) c (queued (.outRepeat sym n :: ks) w) = queued ks (emitted (List.replicate n sym) w) := by
  induction n generalizing w with
  | zero =>
    rw [coreRun_some 0 (coreStep_queued rfl), List.replicate_zero, emitted_nil]
    rfl
  | succ n ih =>
    have hstep : coreStep c (queued (.outRepeat sym (n + 1) :: ks) w) =
        some (queued (.outRepeat sym n :: ks) (emitted [sym] w)) := coreStep_queued rfl
    rw [coreRun_some _ hstep, ih, emitted_emitted]
    rfl

/-- The symbol of a single-symbol frame is read. -/
theorem Midstream.coreRun_decodeSymbol (h : Midstream base σ (bits ++ more) w) (hb : base.seq = .run ks)
    (hn : bits.length = 8) :
    ∃ m u, m ≤ 18 ∧
      coreRun m c (fieldNext 8 .decodeSymbol w) = fieldNext 32 (.decodeCount (valueOfBits 8 bits)) u ∧
      Midstream base σ more u := by
  refine h.field_then hb hn fun u hu _ => ?_
  rw [runTask, taskDecodeSymbol, hu, ← setWidth_valueOfBits_byte]
  rfl

/-- The count of a single-symbol frame is read, and the symbol is written that many times. -/
theorem Midstream.coreRun_decodeCount {count : Word} (h : Midstream base σ (bitsOf 32 count ++ more) w)
    (hb : base.seq = .run []) :
    ∃ m u, m ≤ 68 + count.toNat ∧
      coreRun m c (fieldNext 32 (.decodeCount sym) w) =
        taskNext (.decodeFinish count.toNat) (emitted (List.replicate count.toNat sym) (setPhase .singleBody u)) ∧
      Midstream base σ more u := by
  obtain ⟨m, u, hm, hrun, hu⟩ := h.field_then (c := c) (n := 32) (k := .decodeCount sym)
    (f := queued [.enter .singleBody, .outRepeat sym count.toNat, .decodeFinish count.toNat]) hb
    (bitsOf_length 32 count) fun u hu hseq => by
      have hcount := setWidth_valueOfBits_bitsOf le_rfl count
      rw [BitVec.setWidth_eq] at hcount
      rw [runTask, taskDecodeCount, hu, hcount]
      exact congrArg TaskResult.ok (pushTasks_run u _ [] hseq)
  refine ⟨m + (count.toNat + 1 + 1), u, by omega, ?_, hu⟩
  rw [coreRun_add, hrun, coreRun_some _ (coreStep_enter .singleBody), coreRun_outRepeat]
  exact (taskNext_eq (w := emitted _ (setPhase .singleBody u)) _ (hu.seq hb)).symm

end Sys2Proof.Machine

/-!
## DecodeRawAndSingle

DECODE as a whole command on raw and single-symbol streams, and on streams that have no body: the empty one and those of
tag 3 (47_decoder.md R345, R346, R348).
-/

namespace Sys2Proof.Machine

variable {tag : BitVec 2} {bits more : List Bool} {x : List Byte} {rest : List InTok} {σ : Source} {base s w : State}

/-- DECODE goes on in another phase, and writes bytes. -/
theorem Midstream.emitted_setPhase {p : Phase} (h : Midstream (decoding tag p s) σ bits w) (q : Phase)
    (ys : List Byte) : Midstream (emitted ys (decoding tag q s)) σ bits (emitted ys (setPhase q w)) :=
  ⟨congrArg (fun u => emitted ys (setPhase q u)) h.frame, h.fill, ⟨h.isOpen.eos, h.isOpen.tokens⟩, h.genuine⟩

theorem Midstream.drains (h : Midstream base σ bits w) : σ.Drains w := .inl h.isOpen

/-- Where no limit is set, NA means that End is taken and no bit is held. -/
theorem StreamOver.ended (h : StreamOver base σ w) (hl : base.unpk.limitEn = false) :
    w.rd = { acc := σ.last, fill := 0, eos := true } := by
  rcases h.spent with ⟨hrd, -⟩ | ⟨hlim, -⟩
  · exact hrd
  · rw [h.frame, hl] at hlim
    cases hlim

/-- DECODE's end in a stream under a tag, with no tree read. -/
def streamDecoded (tok : OutTok) (rest : List InTok) (tag : BitVec 2) (rd : Unpacker) (ys : List Byte)
    (s : State) : State :=
  { s with
    rd := rd, unpk := { limitEn := false, limitMb := 8 }, mode := { tag := tag, valid := true, mb := 0 }, la := none
    inp := rest, out := s.out ++ outBytes ys ++ [tok] }

theorem streamsEnded_decoding {p : Phase} {ys : List Byte} (h : ReadsFrame (emitted ys (decoding tag p s)) w)
    (tok : OutTok) (rest : List InTok) :
    streamsEnded tok rest w =
      { opened [] (streamDecoded tok rest tag { w.rd with eos := true } ys s) with
        status := { s.status with phase := p }, got := w.got } := (congrArg (streamsEnded tok rest) h).trans rfl

theorem succeeded_decoding {p : Phase} {ys : List Byte} (h : ReadsFrame (emitted ys (decoding tag p s)) w)
    (r : Option Word) (rest : List InTok) :
    succeeded r (streamsEnded .eos rest w) =
      succeeded r (streamDecoded .eos rest tag { w.rd with eos := true } ys s) := by
  rw [streamsEnded_decoding h]
  rfl

theorem failed_decoding {p : Phase} (h : ReadsFrame (decoding tag p s) w) (e : ErrCode) (rest : List InTok) :
    failed e (streamsEnded .abort rest w) =
      failed e (streamDecoded .abort rest tag { w.rd with eos := true } [] s) := by
  rw [← emitted_nil (decoding tag p s)] at h
  rw [streamsEnded_decoding h]
  rfl

/-- A full turn has the core steps of DECODE on a stream whose tokens are there. -/
theorem decode_steps_le {m : Nat} (ht : FullTurn s) (ha : ahead s = inBytes x ++ .eos :: rest)
    (hm : m ≤ 2 ^ 40 + 32 * x.length) : m + (streamOf x rest).size + 8 ≤ s.turn := by
  have hbound : 2 ^ 60 + 64 * s.inp.length ≤ s.turn := ht
  have hinp := length_le_inp ha
  have hsize : (streamOf x rest).size = x.length := rfl
  omega

/-- Settles O46: the raw loop takes a byte while eight bits are there, and what is left is answered NA. -/
theorem decodeRawFrame : Obligations.DecodeRawFrame := by
  intro s x rest bits last hs ht ha hx hlast
  obtain ⟨m, w, hm, hrun, hw⟩ := coreRun_decodeTag_then (c := cmdDecode) (tag := 0) ha hx
    (f := fun w => askRaw 0 (setPhase .rawBody w)) fun _ => rfl
  have hbody := hw.emitted_setPhase .rawBody []
  rw [emitted_nil (setPhase .rawBody w)] at hbody
  obtain ⟨m2, u, hm2, hrun2, hu⟩ := hbody.coreRun_raw (c := cmdDecode) (cnt := 0) rfl
  rw [Nat.zero_add] at hrun2
  have hcount := congrArg List.length hx
  rw [byteBits_length, List.length_append, List.length_cons, List.length_singleton] at hcount
  have hwhole := wholeBytes_length bits
  have hexec := exec_decode_of_finish (m := m + m2) hs (decode_steps_le ht ha (by omega))
    (by rw [coreRun_add, hrun, hrun2]) (hu.seq rfl) hu.spent.drains
  have hrd := hu.ended rfl
  rw [streamOf, hlast, Option.getD_some] at hrd
  rw [succeeded_decoding hu.frame, hrd] at hexec
  exact hexec

/-- Settles O47: the symbol and the count are read, the symbol is written, and the drain keeps the bits held. -/
theorem decodeSingleFrame : Obligations.DecodeSingleFrame := by
  intro s x rest sym count more hs ht ha hx
  have hcount := congrArg List.length hx
  simp only [byteBits_length, List.length_append, bitsOf_length, List.length_cons, List.length_nil] at hcount
  rw [List.append_assoc, List.append_assoc] at hx
  obtain ⟨m, w, hm, hrun, hw⟩ := coreRun_decodeTag_then (c := cmdDecode) (tag := 1) ha hx
    (f := fieldNext 8 .decodeSymbol) fun _ => rfl
  obtain ⟨m2, w2, hm2, hrun2, hw2⟩ := hw.coreRun_decodeSymbol (c := cmdDecode) rfl (bitsOf_length 8 sym)
  obtain ⟨m3, w3, hm3, hrun3, hw3⟩ := hw2.coreRun_decodeCount (c := cmdDecode)
    (sym := valueOfBits 8 (bitsOf 8 sym)) rfl
  have hend := hw3.emitted_setPhase .singleBody (List.replicate count.toNat sym)
  have hsym : valueOfBits 8 (bitsOf 8 sym) = sym :=
    (valueOfBits_bitsOf 8 sym (BitVec.ushiftRight_eq_zero le_rfl)).trans (BitVec.setWidth_eq sym)
  rw [← hrun2, ← hrun, ← coreRun_add, ← coreRun_add, hsym] at hrun3
  have hmax := count.isLt
  have hexec := exec_decode_of_finish hs (decode_steps_le ht ha (by omega)) hrun3 (hend.seq rfl) hend.drains
  obtain ⟨y, -, -, -, hlen⟩ := hw3.unlimited (by rw [hw3.frame]; rfl)
  have hfill : w3.rd.fill = 6 := by
    have := hw3.fill
    exact BitVec.eq_of_toNat_eq (by simp; omega)
  have hout : outBytes (List.replicate count.toNat sym) = List.replicate count.toNat (.byte sym) := List.map_replicate
  rw [succeeded_decoding hend.frame] at hexec
  refine ⟨w3.rd.acc, ?_⟩
  rw [hexec, counted, BitVec.ofNat_toNat, BitVec.setWidth_eq, streamDecoded, hout, ← hfill]
  rfl

/-! ### Streams without a body -/

/-- With no bit in the stream, the tag's answer is NA with no bit of it read: DECODE comes to `finish:`. -/
theorem exec_decode_nil (hs : Started s) (ht : FullTurn s) (ha : ahead s = inBytes [] ++ .eos :: rest) :
    exec .decode s =
      .next (succeeded (counted 0)
        { s with
          rd := { acc := 0, fill := 0, eos := true }, unpk := { limitEn := false, limitMb := 8 }
          mode := { tag := 0, valid := false, mb := 0 }, la := none, inp := rest, out := s.out ++ [.eos] }) := by
  have hread : readBitsFrom 2 0 0 (decodeBegun s) = some (.na 0 0, endTaken rest (decodeBegun s)) := by
    rw [readBitsFrom, readBit_of_inRead (s := decodeBegun s) rfl rfl ha]
  obtain ⟨m, hm, hrun⟩ := coreRun_field (c := cmdDecode) (ks := []) .decodeTag rfl hread
  have htag := coreStep_taskNext_ok (c := cmdDecode) (x := .decodeTag) (ks := [])
    (w := { endTaken rest (decodeBegun s) with got := .na 0 0 }) rfl rfl
  have hall := (coreRun_some (m + 1) (coreStep_decodeInit (c := cmdDecode) (s := s))).trans
    ((coreRun_add m 1 _ _).trans ((congrArg _ hrun).trans (coreRun_some 0 htag)))
  exact exec_decode_of_finish hs (decode_steps_le ht ha (by omega)) hall rfl
    (Or.inr ⟨rfl, rfl, rfl⟩ : (streamOf [] rest).Drains _)

theorem exec_decode_badMode (hs : Started s) (ht : FullTurn s) (ha : ahead s = inBytes x ++ .eos :: rest)
    (hx : byteBits x = [true, true] ++ bits) :
    ∃ rd : Unpacker, exec .decode s = .next (failed .badMode (streamDecoded .abort rest 3 rd [] s)) := by
  obtain ⟨m, w, hm, hrun, hseq, hgot, hw⟩ := coreRun_decodeTag (c := cmdDecode) ha 3 hx
  have hexec := exec_decode_of_error hs (Nat.le_of_succ_le (decode_steps_le ht ha (by omega))) hrun hseq
    (taskDecodeTag_ok hgot) hw.drains
  exact ⟨_, hexec.trans (congrArg _ (failed_decoding hw.frame _ _))⟩

/-- A field of a header that is cut short, whose task answers NA with TRUNCATED. -/
theorem exec_decode_cut {k : Task} {m n : Nat} (hs : Started s) (ht : FullTurn s)
    (ha : ahead s = inBytes x ++ .eos :: rest)
    (hrun : coreRun m cmdDecode (opened [.decodeInit] s) = fieldNext n k w) (hm : m + 2 * n ≤ 2 ^ 10)
    (hw : Midstream (decoding tag .header s) (streamOf x rest) bits w) (hn : bits.length < n)
    (hk : ∀ u v j, u.got = .na v j → runTask k u = .err .truncated u) :
    ∃ rd : Unpacker, exec .decode s = .next (failed .truncated (streamDecoded .abort rest tag rd [] s)) := by
  obtain ⟨m2, u, v, j, hm2, hrun2, hu, hansw⟩ := hw.field_cut (c := cmdDecode) (ks := []) rfl hn k
  rw [← hrun, ← coreRun_add] at hrun2
  have hexec := exec_decode_of_error hs (Nat.le_of_succ_le (decode_steps_le ht ha (by omega))) hrun2 (hu.seq rfl)
    (hk u v j (by rw [hansw.frame])) hu.spent.drains
  exact ⟨_, hexec.trans (congrArg _ (failed_decoding hu.frame _ _))⟩

/-- A single-symbol frame that stops in its symbol or in its count. -/
theorem exec_decode_single_cut (hs : Started s) (ht : FullTurn s) (ha : ahead s = inBytes x ++ .eos :: rest)
    (hx : byteBits x = [true, false] ++ bits) (hn : bits.length < 40) :
    ∃ rd : Unpacker, exec .decode s = .next (failed .truncated (streamDecoded .abort rest 1 rd [] s)) := by
  obtain ⟨m, w, hm, hrun, hw⟩ := coreRun_decodeTag_then (c := cmdDecode) (tag := 1) ha hx
    (f := fieldNext 8 .decodeSymbol) fun _ => rfl
  by_cases h8 : bits.length < 8
  · exact exec_decode_cut hs ht ha hrun (by omega) hw h8 fun u v j hu => by rw [runTask, taskDecodeSymbol, hu]
  · rw [← List.take_append_drop 8 bits] at hw
    obtain ⟨m2, w2, hm2, hrun2, hw2⟩ := hw.coreRun_decodeSymbol (c := cmdDecode) rfl
      (List.length_take_of_le (Nat.le_of_not_lt h8))
    rw [← hrun, ← coreRun_add] at hrun2
    exact exec_decode_cut hs ht ha hrun2 (by omega) hw2 (by rw [List.length_drop]; omega) fun u v j hu => by
      rw [runTask, taskDecodeCount, hu]

end Sys2Proof.Machine

/-!
## DecodeHuffman

DECODE as a whole command on Huffman streams: the meaningful-bit field and the limit, the tree, and the walk up to the
last genuine bit; and where each of them ends in an error (47_decoder.md R341, R345, R346).
-/

namespace Sys2Proof.Machine

variable {c : Command} {e : ErrCode} {k n : Nat} {f : BitVec 3} {p : Partial} {sh : Shape} {sym : Byte}
  {ns : List (Option Byte)} {bits cut more q : List Bool} {x : List Byte} {rest : List InTok} {r : Option Word}
  {σ : Source} {base s u w : State}

/-! ### The header -/

theorem mbOfField_eq (f : BitVec 3) : mbOfField f = BitVec.ofNat 4 (f.toNat + 1) := by
  rw [mbOfField, BitVec.ofNat_add, BitVec.ofNat_toNat]
  rfl

theorem mbOfField_toNat (f : BitVec 3) : (mbOfField f).toNat = f.toNat + 1 := by
  rw [mbOfField_eq, BitVec.toNat_ofNat, Nat.mod_eq_of_lt]
  omega

/-- DECODE of a Huffman stream where its tree begins: MODE.MB and the limit are set, and the walk stands behind it. -/
def huffmanBegun (f : BitVec 3) (s : State) : State :=
  { decoding 2 .header s with
    mode := { tag := 2, valid := true, mb := BitVec.ofNat 4 (f.toNat + 1) }
    unpk := { limitEn := true, limitMb := BitVec.ofNat 4 (f.toNat + 1) }
    seq := .run [.walk, .decodeWalked] }

/-- The meaningful-bit field is taken. -/
def fieldTaken (f : BitVec 3) (w : State) : State :=
  queued [.walk, .decodeWalked] { limitSet (mbOfField f) w with mode := { w.mode with mb := mbOfField f } }

theorem taskDecodeMb_ok (hw : w.got = .ok (valueOfBits 32 (bitsOf 3 f))) (hs : w.seq = .run []) :
    runTask .decodeMb w = .ok (taskNext .deserialize (fieldTaken f w)) := by
  rw [runTask, taskDecodeMb, hw]
  simp only [setWidth_valueOfBits_bitsOf (by decide : 3 ≤ 32) f]
  rw [← hw]
  exact congrArg TaskResult.ok (pushTasks_run
    { limitSet (mbOfField f) w with mode := { w.mode with mb := mbOfField f } }
    [.deserialize, .walk, .decodeWalked] [] hs)

theorem Midstream.fieldTaken (h : Midstream (decoding 2 .header s) σ bits w) (f : BitVec 3) :
    Midstream (huffmanBegun f s) σ (bits.take (bits.length + (f.toNat + 1) - 8)) (fieldTaken f w) := by
  obtain ⟨hframe, hfill, ⟨heos, htokens⟩, hgenuine⟩ := h.limitSet rfl (mb := mbOfField f) (by
    rw [mbOfField_toNat]
    omega)
  rw [mbOfField_toNat] at hgenuine
  refine ⟨?_, hfill, ⟨heos, htokens⟩, hgenuine⟩
  rw [Machine.fieldTaken, mbOfField_eq]
  exact congrArg (fun u : State => { Machine.limitSet (BitVec.ofNat 4 (f.toNat + 1)) u with
    mode := { u.mode with mb := BitVec.ofNat 4 (f.toNat + 1) }, seq := .run [.walk, .decodeWalked] }) h.frame

/-- DECODE of a Huffman stream comes to its tree with the genuine bits behind the header to come. -/
theorem coreRun_huffmanHeader (ha : ahead s = inBytes x ++ .eos :: rest)
    (hx : (byteBits x).take 5 = [false, true] ++ bitsOf 3 f) :
    ∃ m w, m ≤ 15 ∧ coreRun m c (opened [.decodeInit] s) = taskNext .deserialize w ∧
      Midstream (huffmanBegun f s) (streamOf x rest) ((limitedBits (f.toNat + 1) x).drop 5) w := by
  have hbits : byteBits x = [false, true] ++ (bitsOf 3 f ++ (byteBits x).drop 5) := by
    rw [← List.append_assoc, ← hx, List.take_append_drop]
  obtain ⟨m, w, hm, hrun, hw⟩ := coreRun_decodeTag_then (c := c) (tag := 2) ha hbits (f := fieldNext 3 .decodeMb)
    fun _ => rfl
  obtain ⟨m2, u, hm2, hrun2, hu⟩ := hw.field_then (c := c) (ks := []) rfl (bitsOf_length 3 f)
    fun u hgot hseq => taskDecodeMb_ok hgot hseq
  have hlen := congrArg List.length hbits
  have hgenuine : (limitedBits (f.toNat + 1) x).drop 5 =
      ((byteBits x).drop 5).take (((byteBits x).drop 5).length + (f.toNat + 1) - 8) := by
    rw [limitedBits_eq_take (by omega), List.drop_take, List.length_drop, byteBits_length]
    rw [List.length_append, byteBits_length, List.length_append, bitsOf_length] at hlen
    congr 1
    simp only [List.length_cons, List.length_nil] at hlen
    omega
  rw [hgenuine]
  exact ⟨m + m2, _, by omega, by rw [coreRun_add, hrun, hrun2], hu.fieldTaken f⟩

/-! ### The state that DECODE leaves -/

/-- DECODE's end in a Huffman stream. -/
def huffmanDecoded (tok : OutTok) (rest : List InTok) (f : BitVec 3) (rd : Unpacker) (tr : Store Node)
    (info : TreeInfoReg) (valid : Bool) (ys : List Byte) (s : State) : State :=
  { s with
    rd := rd, unpk := { limitEn := true, limitMb := BitVec.ofNat 4 (f.toNat + 1) }
    mode := { tag := 2, valid := true, mb := BitVec.ofNat 4 (f.toNat + 1) }, la := none, inp := rest
    tree := tr, treeInfo := info, out := s.out ++ outBytes ys ++ [tok]
    status := { s.status with treeValid := valid } }

/-- DECODE's state in a Huffman stream past the header, with the reads of `w` done and the tasks `ks` left. -/
def huffmanAt (f : BitVec 3) (tr : Store Node) (info : TreeInfoReg) (valid : Bool) (ph : Phase) (ks : List Task)
    (ret : Option Word) (w s : State) : State :=
  { huffmanBegun f s with
    got := w.got, rd := w.rd, la := w.la, inp := w.inp, seq := .run ks, ret := ret, tree := tr, treeInfo := info
    status := { s.status with phase := ph, treeValid := valid } }

section
variable {info : TreeInfoReg} {valid : Bool} {ys : List Byte} {ph : Phase} {ks : List Task} {tr : Store Node}

theorem streamsEnded_huffmanAt (h : u = emitted ys (huffmanAt f tr info valid ph ks r w s)) (tok : OutTok)
    (rest : List InTok) :
    streamsEnded tok rest u =
      { opened ks (huffmanDecoded tok rest f { w.rd with eos := true } tr info valid ys s) with
        got := w.got, ret := r, status := { s.status with phase := ph, treeValid := valid } } := by
  rw [h]
  rfl

theorem succeeded_huffmanAt (h : u = emitted ys (huffmanAt f tr info valid ph ks r w s)) (n : Option Word)
    (rest : List InTok) :
    succeeded n (streamsEnded .eos rest u) =
      succeeded n (huffmanDecoded .eos rest f { w.rd with eos := true } tr info valid ys s) := by
  rw [streamsEnded_huffmanAt h]
  rfl

theorem failed_huffmanAt (h : u = emitted ys (huffmanAt f tr info valid ph ks r w s)) (e : ErrCode)
    (rest : List InTok) :
    failed e (streamsEnded .abort rest u) =
      failed e (huffmanDecoded .abort rest f { w.rd with eos := true } tr info valid ys s) := by
  rw [streamsEnded_huffmanAt h]
  rfl

end

/-- What DESERIALIZE has made in the midst of DECODE. -/
theorem Begun.huffmanAt (h : Begun w n k p u) (hw : ReadsFrame (huffmanBegun f s) w) :
    u = huffmanAt f u.tree { root := 0, nodes := BitVec.ofNat 10 k, rootLeaf := p.single } false .deserialize
      [.walk, .decodeWalked] none u s :=
  h.frame.trans (congrArg (fun v : State => { v with
    got := u.got, rd := u.rd, la := u.la, inp := u.inp, tree := u.tree
    treeInfo := { root := 0, nodes := BitVec.ofNat 10 k, rootLeaf := p.single }
    status := { v.status with phase := .deserialize, treeValid := false } }) hw)

/-! ### The tree -/

/-- DECODE has read the tree of its stream and is about to walk it. -/
structure TreeRead (f : BitVec 3) (sh : Shape) (s w : State) : Prop where
  frame : w =
    huffmanAt f w.tree { root := 0, nodes := BitVec.ofNat 10 sh.nodes, rootLeaf := sh.single } true .deserialize
      [.decodeWalked] w.ret w s
  shape : shapeOf Config.nodeMax w.tree 0 = some sh
  weights : ∀ i e, i < sh.nodes → storeGet w.tree i = some e → nodeWeight e = 0

theorem TreeRead.seq (h : TreeRead f sh s w) : w.seq = .run [.decodeWalked] := by
  rw [h.frame]
  rfl

theorem TreeRead.treeShape (h : TreeRead f sh s w) : treeShape w = some sh := by
  have hroot : w.treeInfo.root = 0 := by
    rw [h.frame]
    rfl
  rw [Machine.treeShape, hroot]
  exact h.shape

/-- The tree is complete, and the walk is next. -/
def treeCompleted (sh : Shape) (u : State) : State :=
  queued [.decodeWalked] { u with ret := counted sh.nodes, status := { u.status with treeValid := true } }

theorem roundEnd_treeCompleted (hu : u.seq = .run [.walk, .decodeWalked]) :
    roundEnd sh.begun u = taskNext .walk (treeCompleted sh u) := by
  have hqueued : u = queued [.walk, .decodeWalked] u := by rw [queued, ← hu]
  rw [roundEnd, sh.whole_begun, if_pos rfl, sh.nodes_begun]
  exact congrArg (fun v : State => { v with
    ret := counted sh.nodes, status := { v.status with treeValid := true } }) hqueued

/-- DECODE on a Huffman stream whose tree is there comes to the walk. -/
theorem coreRun_huffmanTree (ha : ahead s = inBytes x ++ .eos :: rest)
    (hx : (byteBits x).take 5 = [false, true] ++ bitsOf 3 f)
    (hbits : (limitedBits (f.toNat + 1) x).drop 5 = sh.bits ++ more) (hn : sh.nodes ≤ 511) :
    ∃ m w, m ≤ 15 + 22 * 512 ∧ coreRun m c (opened [.decodeInit] s) = taskNext .walk w ∧
      Midstream w (streamOf x rest) more w ∧ TreeRead f sh s w := by
  obtain ⟨m, w, hm, hrun, hw⟩ := coreRun_huffmanHeader (c := c) ha hx
  rw [hbits] at hw
  obtain ⟨m2, u, hm2, hrun2, ⟨n, hu⟩, hstream⟩ :=
    hw.here.coreRun_deserialize_shape (c := c) (hw.seq rfl) hn
  have hframe := hu.huffmanAt hw.frame
  obtain ⟨hlaid, hweights, -⟩ := hu.arena
  rw [sh.nodes_begun] at hweights
  rw [sh.single_begun] at hframe
  rw [roundEnd_treeCompleted (hu.seq.trans (hw.seq rfl))] at hrun2
  exact ⟨m + m2, treeCompleted sh u, by omega, by rw [coreRun_add, hrun, hrun2],
    ⟨rfl, hstream.fill, ⟨hstream.isOpen.eos, hstream.isOpen.tokens⟩, hstream.genuine⟩,
    ⟨congrArg (treeCompleted sh) hframe, shapeOf_le hn (shapeOf_begun hlaid), fun i e hi he => hweights i e hi he⟩⟩

/-! ### The walk -/

theorem TreeRead.walked {ys : List Byte} (h : TreeRead f sh s base)
    (hw : ReadsFrame (emitted ys (setPhase .walk base)) w) :
    w = emitted ys (huffmanAt f base.tree { root := 0, nodes := BitVec.ofNat 10 sh.nodes, rootLeaf := sh.single } true
      .walk [.decodeWalked] base.ret w s) :=
  hw.trans (congrArg (fun v : State =>
    { emitted ys (setPhase .walk v) with got := w.got, rd := w.rd, la := w.la, inp := w.inp }) h.frame)

theorem TreeRead.walkCounted {ys : List Byte} (h : TreeRead f sh s base)
    (hw : ReadsFrame (emitted ys (setPhase .walk base)) w) (n : Nat) :
    queued [] (setRet n w) = emitted ys (huffmanAt f base.tree
      { root := 0, nodes := BitVec.ofNat 10 sh.nodes, rootLeaf := sh.single } true .walk [] (counted n) w s) :=
  congrArg (fun v => queued [] (setRet n v)) (h.walked hw)

/-- WALK's count goes to `finish:`. -/
theorem coreStep_decodeWalked (hw : w.seq = .run [.decodeWalked]) (n : Nat) :
    coreStep c (setRet n w) = some (taskNext (.decodeFinish (BitVec.ofNat 32 n).toNat) (queued [] (setRet n w))) := by
  rw [coreStep_task (s := setRet n w) hw]
  rfl

/-- Settles O48: the header sets the limit, DESERIALIZE makes the tree, and WALK's count at the last genuine bit is the
result. -/
theorem decodeHuffmanFrame : Obligations.DecodeHuffmanFrame := by
  intro s x rest f sh ys hs ht ha hx hbits hsingle hn hy
  obtain ⟨m, base, hm, hrun, hbase, htree⟩ := coreRun_huffmanTree (c := cmdDecode) ha hx hbits hn
  obtain ⟨m2, w, hm2, hrun2, hw⟩ := hbase.coreRun_walk_done (c := cmdDecode) ys htree.seq htree.treeShape hsingle hy
  have hlen := hbase.length_le
  have hsize : (streamOf x rest).size = x.length := rfl
  have hstep := coreStep_decodeWalked (c := cmdDecode) (hw.seq htree.seq) ys.length
  have hall := (coreRun_add m (m2 + 1) _ _).trans ((congrArg _ hrun).trans ((coreRun_add m2 1 _ _).trans
    ((congrArg _ hrun2).trans (coreRun_some 0 hstep))))
  have hexec := exec_decode_of_finish hs (decode_steps_le ht ha (by omega)) hall rfl
    (hw.spent.drains.of_reads rfl rfl rfl)
  rw [succeeded_huffmanAt (htree.walkCounted hw.frame _), counted,
    BitVec.ofNat_toNat, BitVec.setWidth_eq, hsingle] at hexec
  exact ⟨_, _, hexec, rfl, htree.shape⟩

/-! ### Where it ends in an error -/

/-- A tree of one leaf is no tree to walk. -/
theorem exec_decode_degenerate (hs : Started s) (ht : FullTurn s) (ha : ahead s = inBytes x ++ .eos :: rest)
    (hx : (byteBits x).take 5 = [false, true] ++ bitsOf 3 f)
    (hbits : (limitedBits (f.toNat + 1) x).drop 5 = false :: bitsOf 8 sym ++ more) :
    ∃ (rd : Unpacker) (tr : Store Node),
      exec .decode s =
        .next (failed .degenerate
          (huffmanDecoded .abort rest f rd tr { root := 0, nodes := 1, rootLeaf := true } true [] s)) ∧
      storeGet tr 0 = some (.leaf sym 0) ∧ rd.eos = true := by
  obtain ⟨m, base, hm, hrun, hbase, htree⟩ := coreRun_huffmanTree (c := cmdDecode) (sh := .leaf sym) ha hx hbits
    (Nat.le_add_left 1 510)
  obtain ⟨k, hleaf⟩ := storeGet_of_shapeOf_leaf htree.shape
  obtain rfl : k = 0 := htree.weights 0 _ Nat.zero_lt_one hleaf
  have hroot : isLeaf (nodeAt base base.treeInfo.root.toNat) = true := by
    rw [htree.frame]
    exact congrArg isLeaf (nodeAt_of_storeGet hleaf)
  have hexec := exec_decode_of_error hs (Nat.le_of_succ_le (decode_steps_le ht ha (by omega))) hrun htree.seq
    (taskWalk_of_leaf hroot) (hbase.drains.of_reads rfl rfl rfl)
  have hend := htree.walked (ys := []) (w := setPhase .walk base) (emitted_nil (setPhase .walk base)).symm
  rw [failed_huffmanAt hend] at hexec
  exact ⟨_, _, hexec, hleaf, rfl⟩

/-- What DECODE leaves where the tree it has begun is not complete. -/
theorem failed_begun (hw : Midstream (huffmanBegun f s) σ bits w) (hu : Begun w n k p u) (hp : p.whole = false)
    (e : ErrCode) :
    failed e (streamsEnded .abort rest u) =
      failed e (huffmanDecoded .abort rest f { u.rd with eos := true } u.tree
        { root := 0, nodes := BitVec.ofNat 10 k, rootLeaf := false } false [] s) := by
  have hsingle : p.single = false := by
    cases p with
    | leaf sym => cases hp
    | gap | node => rfl
  have hframe := hu.huffmanAt hw.frame
  rw [hsingle, ← emitted_nil (huffmanAt ..)] at hframe
  exact failed_huffmanAt hframe e rest

/-- The genuine bits stop inside the tree. -/
theorem exec_decode_tree_cut (hs : Started s) (ht : FullTurn s) (ha : ahead s = inBytes x ++ .eos :: rest)
    (hx : (byteBits x).take 5 = [false, true] ++ bitsOf 3 f) (hun : unfinished 1 ns = true)
    (hbits : (limitedBits (f.toNat + 1) x).drop 5 = nodesBits ns ++ cut)
    (hcut : (cut = [] ∧ ns.length ≤ 511) ∨ (cut.head? = some false ∧ cut.length < 9 ∧ ns.length ≤ 510)) :
    ∃ (rd : Unpacker) (tr : Store Node),
      exec .decode s =
        .next (failed .truncated
          (huffmanDecoded .abort rest f rd tr
            { root := 0, nodes := BitVec.ofNat 10 (ns.length + if cut = [] then 0 else 1), rootLeaf := false }
            false [] s)) ∧
      rd.eos = true := by
  obtain ⟨m, w, hm, hrun, hw⟩ := coreRun_huffmanHeader (c := cmdDecode) ha hx
  rw [hbits] at hw
  obtain ⟨m2, u, p, hm2, hrun2, hu, hp, hnodes, -⟩ :=
    hw.here.coreRun_deserialize (c := cmdDecode) ns (hw.seq rfl) hun (by omega)
  obtain ⟨m3, v, k, hm3, hrun3, hk, ⟨j, hv⟩, hspent⟩ := hu.coreRun_cut (c := cmdDecode) (hw.seq rfl) hp
    (hcut.imp And.left fun ⟨hhead, hlen, hle⟩ => ⟨hhead, hlen, by omega⟩)
  rw [← hrun2, ← hrun, ← coreRun_add, ← coreRun_add] at hrun3
  have hexec := exec_decode_of_error hs (Nat.le_of_succ_le (decode_steps_le ht ha (by omega))) hrun3
    (hv.seq.trans (hw.seq rfl)) hk hspent.drains
  rw [failed_begun hw hv hp, hnodes] at hexec
  exact ⟨_, _, hexec, rfl⟩

/-- The genuine bits go on behind the 511th node of a tree that is not complete. -/
theorem exec_decode_tree_full {tag : Bool} (hs : Started s) (ht : FullTurn s) (ha : ahead s = inBytes x ++ .eos :: rest)
    (hx : (byteBits x).take 5 = [false, true] ++ bitsOf 3 f) (hun : unfinished 1 ns = true) (hn : ns.length = 511)
    (hbits : (limitedBits (f.toNat + 1) x).drop 5 = nodesBits ns ++ tag :: more) :
    ∃ (rd : Unpacker) (tr : Store Node),
      exec .decode s =
        .next (failed .treeOverflow
          (huffmanDecoded .abort rest f rd tr { root := 0, nodes := 511, rootLeaf := false } false [] s)) ∧
      rd.eos = true := by
  obtain ⟨m, w, hm, hrun, hw⟩ := coreRun_huffmanHeader (c := cmdDecode) ha hx
  rw [hbits] at hw
  obtain ⟨m2, u, p, hm2, hrun2, hu, hp, hnodes, -⟩ :=
    hw.here.coreRun_deserialize (c := cmdDecode) ns (hw.seq rfl) hun hn.le
  rw [hnodes, hn] at hu
  obtain ⟨m3, v, k, hm3, hrun3, hk, ⟨j, hv⟩, hstream⟩ := hu.coreRun_full (c := cmdDecode) (hw.seq rfl)
  rw [← hrun2, ← hrun, ← coreRun_add, ← coreRun_add] at hrun3
  have hexec := exec_decode_of_error hs (Nat.le_of_succ_le (decode_steps_le ht ha (by omega))) hrun3
    (hv.seq.trans (hw.seq rfl)) hk hstream.drains
  rw [failed_begun hw hv hp] at hexec
  exact ⟨_, _, hexec, rfl⟩

/-- The genuine bits stop inside a code. -/
theorem exec_decode_walk_cut {ys : List (Byte × List Bool)} {p : Byte × List Bool} (hs : Started s) (ht : FullTurn s)
    (ha : ahead s = inBytes x ++ .eos :: rest) (hx : (byteBits x).take 5 = [false, true] ++ bitsOf 3 f)
    (hsingle : sh.single = false) (hn : sh.nodes ≤ 511) (hy : ∀ y ∈ ys, y ∈ sh.paths) (hp : p ∈ sh.paths)
    (hq : q <+: p.2) (hne : q ≠ p.2) (hnil : q ≠ [])
    (hbits : (limitedBits (f.toNat + 1) x).drop 5 = sh.bits ++ ys.flatMap Prod.snd ++ q) :
    ∃ (rd : Unpacker) (tr : Store Node),
      exec .decode s =
        .next (failed .truncated
          (huffmanDecoded .abort rest f rd tr
            { root := 0, nodes := BitVec.ofNat 10 sh.nodes, rootLeaf := false } true (ys.map Prod.fst) s)) ∧
      shapeOf Config.nodeMax tr 0 = some sh ∧ rd.eos = true := by
  rw [List.append_assoc] at hbits
  obtain ⟨m, base, hm, hrun, hbase, htree⟩ := coreRun_huffmanTree (c := cmdDecode) ha hx hbits hn
  obtain ⟨m2, w, k, hm2, hrun2, hk, hw⟩ :=
    hbase.coreRun_walk_cut (c := cmdDecode) ys htree.seq htree.treeShape hsingle hy hp hq hne hnil
  have hlen := hbase.length_le
  have hsize : (streamOf x rest).size = x.length := rfl
  rw [← hrun, ← coreRun_add] at hrun2
  have hexec := exec_decode_of_error hs (Nat.le_of_succ_le (decode_steps_le ht ha (by omega))) hrun2
    (hw.seq htree.seq) hk hw.spent.drains
  rw [failed_huffmanAt (htree.walked hw.frame), hsingle] at hexec
  exact ⟨_, _, hexec, htree.shape, rfl⟩

/-- Settles O49: the empty stream's first answer is NA, and each malformed stream comes to the task that raises its
error, after which the error path drains it. -/
theorem decodeEmptyAndMalformed : Obligations.DecodeEmptyAndMalformed := by
  intro s x rest hs ht ha
  refine ⟨?_, fun bits hx => ?_, fun bits hx hn => ?_, fun f hx => ⟨fun sym more hbits => ?_,
    fun ns cut hun hbits hcut => ?_, fun ns tag more hun hn hbits => ?_,
    fun sh ys p q hsingle hn hy hp hq hne hnil hbits => ?_⟩⟩
  · rintro rfl
    exact exec_decode_nil hs ht ha
  · obtain ⟨rd, hexec⟩ := exec_decode_badMode hs ht ha hx
    exact ⟨rd, hexec.trans (by rw [streamDecoded, outBytes, List.map_nil, List.append_nil])⟩
  · obtain ⟨rd, hexec⟩ := exec_decode_single_cut hs ht ha hx hn
    exact ⟨rd, hexec.trans (by rw [streamDecoded, outBytes, List.map_nil, List.append_nil])⟩
  · exact exec_decode_degenerate hs ht ha hx hbits
  · exact exec_decode_tree_cut hs ht ha hx hun hbits hcut
  · exact exec_decode_tree_full hs ht ha hx hun hn hbits
  · exact exec_decode_walk_cut hs ht ha hx hsingle hn hy hp hq hne hnil hbits

end Sys2Proof.Machine

/-!
## FrameRoundTrip

DECODE of the frames that ENCODE writes: the bytes of each framing mode give its input back (30_encoding.md R141 to
R147; 47_decoder.md R349).
-/

namespace Sys2Proof.Machine

variable {bits pad : List Bool} {sh : Shape} {n : Nat} {x : List Byte}

/-! ### The bytes of a frame -/

theorem wholeBytes_byteBits_append (x : List Byte) (hp : pad.length < 8) : wholeBytes (byteBits x ++ pad) = x := by
  induction x with
  | nil => exact (wholeBytes_of_lt hp).1
  | cons a x ih =>
    have hbyte : valueOfBits 8 (bitsOf 8 a) = a :=
      (valueOfBits_bitsOf 8 a (BitVec.ushiftRight_eq_zero le_rfl)).trans (BitVec.setWidth_eq a)
    obtain ⟨hcut, -⟩ := wholeBytes_append_of_byte (bitsOf_length 8 a) (byteBits x ++ pad)
    rw [ih, hbyte] at hcut
    rw [byteBits, List.flatMap_cons, List.append_assoc]
    exact hcut

theorem frameBytes_length (bits : List Bool) :
    8 * (frameBytes bits).length = bits.length + (8 - bits.length % 8) % 8 := by
  rw [frameBytes, wholeBytes_length, List.length_append, List.length_replicate]
  omega

/-- A frame's bytes are its bits and fewer than eight bits of padding. -/
theorem byteBits_frameBytes (bits : List Bool) : ∃ pad, byteBits (frameBytes bits) = bits ++ pad ∧ pad.length < 8 := by
  obtain ⟨pad, hpad⟩ := byteBits_flushedBytes bits
  rw [← frameBytes_eq_flushedBytes] at hpad
  have hlen := congrArg List.length hpad
  rw [byteBits_length, frameBytes_length, List.length_append] at hlen
  exact ⟨pad, hpad, by omega⟩

/-- The meaningful bits of a frame's bytes are the frame (30_encoding.md R144, R147). -/
theorem limitedBits_frameBytes (hb : bits ≠ []) : limitedBits ((bits.length - 1) % 8 + 1) (frameBytes bits) = bits := by
  obtain ⟨pad, hpad, -⟩ := byteBits_frameBytes bits
  have hpos := List.length_pos_iff.2 hb
  rw [limitedBits_eq_take (by omega), hpad, frameBytes_length]
  exact List.take_left' (by omega)

/-! ### What DECODE makes of it -/

/-- DECODE of the stream `y` gives `x`, in any state and whatever stands behind the stream. -/
def DecodesTo (y x : List Byte) : Prop :=
  ∀ (u : State) (more : List InTok), Started u → FullTurn u → ahead u = inBytes y ++ .eos :: more →
    ∃ v : State,
      exec .decode u = .next v ∧ busy v = false ∧ v.status.error = false ∧
      v.out = u.out ++ outBytes x ++ [.eos] ∧ v.result = BitVec.ofNat 32 x.length

theorem decodesTo_rawFrame (x : List Byte) : DecodesTo (frameBytes (rawFrame x)) x := by
  intro u more hs ht ha
  obtain ⟨pad, hpad, hlen⟩ := byteBits_frameBytes (rawFrame x)
  have hne : frameBytes (rawFrame x) ≠ [] := fun hnil => by
    rw [hnil] at hpad
    cases hpad
  rw [rawFrame, List.append_assoc] at hpad
  have hexec := decodeRawFrame u _ more _ _ hs ht ha hpad (List.getLast?_eq_some_getLast hne)
  rw [wholeBytes_byteBits_append x hlen] at hexec
  exact ⟨_, hexec, rfl, rfl, rfl, rfl⟩

theorem decodesTo_singleFrame (sym : Byte) (hn : n < 2 ^ 32) :
    DecodesTo (frameBytes (singleFrame sym n)) (List.replicate n sym) := by
  intro u more hs ht ha
  obtain ⟨pad, hpad, -⟩ := byteBits_frameBytes (singleFrame sym n)
  obtain ⟨acc, hexec⟩ := decodeSingleFrame u _ more sym _ pad hs ht ha hpad
  rw [BitVec.toNat_ofNat, Nat.mod_eq_of_lt hn] at hexec
  refine ⟨_, hexec, rfl, rfl, ?_, ?_⟩
  · rw [outBytes, List.map_replicate]
    rfl
  · rw [List.length_replicate]
    rfl

theorem huffmanFrame_length (sh : Shape) (x : List Byte) : (huffmanFrame sh x).length = frameTotal sh x := by
  simp only [huffmanFrame, frameTotal, List.length_append, bitsOf_length, List.length_cons, List.length_nil]

/-- The leaves that an input takes the walk to. -/
def codedLeaves (sh : Shape) (x : List Byte) : List (Byte × List Bool) := x.map (fun b => (b, (sh.lastPath b).getD []))

theorem codedLeaves_bits (sh : Shape) (x : List Byte) : (codedLeaves sh x).flatMap Prod.snd = codedBits sh x :=
  List.flatMap_map ..

theorem codedLeaves_symbols (sh : Shape) (x : List Byte) : (codedLeaves sh x).map Prod.fst = x := by
  simp [codedLeaves, Function.comp_def]

theorem codedLeaves_mem (hx : ∀ b ∈ x, b ∈ sh.paths.map Prod.fst) : ∀ y ∈ codedLeaves sh x, y ∈ sh.paths := by
  intro y hy
  obtain ⟨b, hb, rfl⟩ := List.mem_map.1 hy
  obtain ⟨p, hp, rfl⟩ := List.mem_map.1 (hx b hb)
  obtain ⟨path, hpath⟩ := Shape.exists_lastPath hp
  rw [hpath]
  exact Shape.mem_paths_of_lastPath hpath

theorem decodesTo_huffmanFrame (hs : sh.single = false) (hn : sh.nodes ≤ 511)
    (hx : ∀ b ∈ x, b ∈ sh.paths.map Prod.fst) : DecodesTo (frameBytes (huffmanFrame sh x)) x := by
  intro u more hu ht ha
  have hfield : (BitVec.ofNat 3 ((frameTotal sh x - 1) % 8)).toNat = (frameTotal sh x - 1) % 8 :=
    Nat.mod_eq_of_lt (Nat.mod_lt _ (by decide))
  obtain ⟨pad, hpad, -⟩ := byteBits_frameBytes (huffmanFrame sh x)
  have hheader : (byteBits (frameBytes (huffmanFrame sh x))).take 5 =
      [false, true] ++ bitsOf 3 (BitVec.ofNat 3 ((frameTotal sh x - 1) % 8)) := by
    rw [hpad, huffmanFrame, List.append_assoc, List.append_assoc]
    exact List.take_left' rfl
  have hlimited := limitedBits_frameBytes (bits := huffmanFrame sh x) (List.cons_ne_nil _ _)
  rw [huffmanFrame_length, ← hfield] at hlimited
  have hbits := congrArg (List.drop 5) hlimited
  obtain ⟨tr, rd, hexec, -⟩ := decodeHuffmanFrame u _ more _ sh (codedLeaves sh x) hu ht ha hheader
    (hbits.trans (by rw [codedLeaves_bits]; rfl)) hs hn (codedLeaves_mem hx)
  rw [codedLeaves_symbols, codedLeaves, List.length_map] at hexec
  exact ⟨_, hexec, rfl, rfl, rfl, rfl⟩

/-! ### ENCODE's frames -/

theorem Shape.length_paths (sh : Shape) : sh.paths.length = sh.leaves := by
  induction sh with
  | leaf sym => rfl
  | node l r ihl ihr => simp [Shape.paths, Shape.leaves, ihl, ihr]

theorem distinctBytes_le (x : List Byte) : distinctBytes x ≤ 256 := by
  have hcard := (List.nodup_dedup x).length_le_card
  rwa [← FinEnum.card_eq_fintypeCard, FinEnum.card_bitVec] at hcard

/-- The tree of at least two symbols, with one leaf for each, is one that DECODE can read. -/
theorem frameTree_fits (h2 : 2 ≤ distinctBytes x) (hp : (sh.paths.map Prod.fst).Perm x.dedup) :
    sh.single = false ∧ sh.nodes ≤ 511 ∧ ∀ b ∈ x, b ∈ sh.paths.map Prod.fst := by
  have hleaves := hp.length_eq
  rw [List.length_map, sh.length_paths] at hleaves
  have hnodes := sh.two_mul_leaves
  have hmax := distinctBytes_le x
  rw [distinctBytes] at h2 hmax
  refine ⟨?_, by omega, fun b hb => hp.mem_iff.2 (List.mem_dedup.2 hb)⟩
  rw [Bool.eq_false_iff, Ne, sh.single_iff]
  omega

/-- Bytes that are not of two symbols are one byte repeated. -/
theorem eq_replicate_of_distinctBytes (hx : x ≠ []) (h2 : distinctBytes x < 2) :
    ∃ sym, x = List.replicate x.length sym := by
  cases x with
  | nil => exact absurd rfl hx
  | cons a x =>
    have hmem : a ∈ (a :: x).dedup := List.mem_dedup.2 List.mem_cons_self
    refine ⟨a, List.eq_replicate_iff.2 ⟨rfl, fun b hb => ?_⟩⟩
    obtain ⟨c, hc⟩ := List.length_eq_one_iff.1 (Nat.le_antisymm (Nat.le_of_lt_succ h2) (List.length_pos_of_mem hmem))
    rw [hc, List.mem_singleton] at hmem
    have hb' := List.mem_dedup.2 hb
    rw [hc, List.mem_singleton] at hb'
    rw [hb', hmem]

/-- Settles O51: each framing mode's bytes decode to the bytes framed. -/
theorem roundTrip : Obligations.RoundTrip := by
  intro s x rest hs ht ha hx
  by_cases h8 : x.length < 8
  · obtain ⟨m, f, hexec, -⟩ := encodeRawFrame s x rest hs ht ha h8 hx
    exact ⟨_, _, hexec, rfl, rfl, rfl, decodesTo_rawFrame x⟩
  by_cases h2 : distinctBytes x < 2
  · obtain ⟨sym, hrep⟩ := eq_replicate_of_distinctBytes (fun hnil => h8 (by rw [hnil]; decide)) h2
    rw [hrep] at ha
    obtain ⟨m, f, hexec, -⟩ := encodeSingleFrame s sym x.length rest hs ht ha (Nat.le_of_not_lt h8) hx
    have hdecode := decodesTo_singleFrame sym (lt_of_le_of_lt hx s.nMax.isLt)
    rw [← hrep] at hdecode
    exact ⟨_, _, hexec, rfl, rfl, rfl, hdecode⟩
  · obtain ⟨sh, m, f, tr, cd, hexec, -, -, hperm, -⟩ :=
      encodeHuffmanFrame s x rest hs ht ha (Nat.le_of_not_lt h8) hx (Nat.le_of_not_lt h2)
    obtain ⟨hsingle, hn, hmem⟩ := frameTree_fits (Nat.le_of_not_lt h2) hperm
    exact ⟨_, _, hexec, rfl, rfl, rfl, decodesTo_huffmanFrame hsingle hn hmem⟩

end Sys2Proof.Machine

/-!
## DecodeStreams

Every stream of whole bytes is one of those that DECODE's other statements speak of: what its bits are as nodes of a
tree and as paths of leaves, so that DECODE's outcome is one of theirs (47_decoder.md R342).
-/

namespace Sys2Proof.Machine

variable {gaps room : Nat} {bits more : List Bool} {f : BitVec 3} {sh : Shape} {x : List Byte}
  {rest : List InTok} {s : State}

/-! ### Bits as the nodes of a tree -/

/-- What bits are to DESERIALIZE with `gaps` subtrees still to come and room for `room` nodes: they stop before or
inside a node, they go on behind the last node that there is room for, or they begin with the subtrees. -/
inductive TreeParse (gaps room : Nat) (bits : List Bool) : Prop
  | cut (ns : List (Option Byte)) (cut : List Bool) (hun : unfinished gaps ns = true)
      (hbits : bits = nodesBits ns ++ cut)
      (hcut : (cut = [] ∧ ns.length ≤ room) ∨ (cut.head? = some false ∧ cut.length < 9 ∧ ns.length < room))
  | full (ns : List (Option Byte)) (tag : Bool) (more : List Bool) (hun : unfinished gaps ns = true)
      (hlen : ns.length = room) (hbits : bits = nodesBits ns ++ tag :: more)
  | whole (shs : List Shape) (more : List Bool) (hlen : shs.length = gaps) (hroom : (shs.map Shape.nodes).sum ≤ room)
      (hbits : bits = shs.flatMap Shape.bits ++ more)

/-- A node is read in front of nodes that leave `gaps'` subtrees to come. -/
theorem TreeParse.cons {gaps' : Nat} (tag : Option Byte) (h : TreeParse gaps' room bits)
    (hun : ∀ ns, unfinished gaps' ns = true → unfinished gaps (tag :: ns) = true)
    (hwhole : ∀ shs : List Shape, shs.length = gaps' → ∃ shs' : List Shape, shs'.length = gaps ∧
      (shs'.map Shape.nodes).sum = (shs.map Shape.nodes).sum + 1 ∧
      shs'.flatMap Shape.bits = tagBits tag ++ shs.flatMap Shape.bits) :
    TreeParse gaps (room + 1) (tagBits tag ++ bits) := by
  cases h with
  | cut ns cut hns hbits hcut =>
    refine .cut (tag :: ns) cut (hun ns hns) (by rw [hbits, nodesBits_cons, List.append_assoc]) ?_
    exact hcut.imp (fun ⟨hnil, hle⟩ => ⟨hnil, Nat.succ_le_succ hle⟩)
      fun ⟨hhead, hlen, hlt⟩ => ⟨hhead, hlen, Nat.succ_lt_succ hlt⟩
  | full ns next more hns hlen hbits =>
    exact .full (tag :: ns) next more (hun ns hns) (congrArg _ hlen) (by rw [hbits, nodesBits_cons, List.append_assoc])
  | whole shs more hlen hroom hbits =>
    obtain ⟨shs', hlen', hsum, hbits'⟩ := hwhole shs hlen
    exact .whole shs' more hlen' (by omega) (by rw [hbits, hbits', List.append_assoc])

/-- A leaf is read, and one subtree less is to come. -/
theorem TreeParse.leaf (h : TreeParse gaps room bits) (sym : Byte) :
    TreeParse (gaps + 1) (room + 1) (tagBits (some sym) ++ bits) := by
  refine h.cons (some sym) (fun ns hns => by simpa [unfinished] using hns) fun shs hlen => ?_
  exact ⟨.leaf sym :: shs, congrArg _ hlen, Nat.add_comm 1 _, rfl⟩

/-- An internal node is read, and its two subtrees are to come. -/
theorem TreeParse.node (h : TreeParse (gaps + 2) room bits) :
    TreeParse (gaps + 1) (room + 1) (tagBits none ++ bits) := by
  refine h.cons none (fun ns hns => by simpa [unfinished] using hns) fun shs hlen => ?_
  match shs, hlen with
  | l :: r :: shs, hlen =>
    exact ⟨.node l r :: shs, Nat.succ.inj hlen, by simp [Shape.nodes]; omega, by simp [Shape.bits, tagBits]⟩

theorem exists_bitsOf_append {n : Nat} (h : n ≤ bits.length) :
    ∃ (v : BitVec n) (more : List Bool), bits = bitsOf n v ++ more := by
  have hlen := List.length_take_of_le h
  refine ⟨valueOfBits n (bits.take n), bits.drop n, ?_⟩
  have hbits := bitsOf_valueOfBits (m := n) hlen.le
  rw [hlen] at hbits
  rw [hbits, List.take_append_drop]

theorem treeParse (gaps room : Nat) (bits : List Bool) : TreeParse gaps room bits := by
  induction room generalizing gaps bits with
  | zero =>
    match gaps, bits with
    | 0, bits => exact .whole [] bits rfl le_rfl rfl
    | gaps + 1, [] => exact .cut [] [] rfl rfl (.inl ⟨rfl, le_rfl⟩)
    | gaps + 1, tag :: more => exact .full [] tag more rfl rfl rfl
  | succ room ih =>
    match gaps, bits with
    | 0, bits => exact .whole [] bits rfl (Nat.zero_le _) rfl
    | gaps + 1, [] => exact .cut [] [] rfl rfl (.inl ⟨rfl, Nat.zero_le _⟩)
    | gaps + 1, true :: bits => exact (ih (gaps + 2) bits).node
    | gaps + 1, false :: bits =>
      by_cases h8 : 8 ≤ bits.length
      · obtain ⟨sym, more, rfl⟩ := exists_bitsOf_append h8
        exact (ih gaps more).leaf sym
      · exact .cut [] (false :: bits) rfl rfl
          (.inr ⟨rfl, Nat.succ_lt_succ (Nat.lt_of_not_le h8), Nat.succ_pos _⟩)

/-! ### Bits as paths of leaves -/

theorem Shape.paths_ne_nil (sh : Shape) : sh.paths ≠ [] := by
  rw [← List.length_pos_iff, sh.length_paths]
  have := sh.two_mul_leaves
  omega

/-- Bits begin with a leaf's path, or stop inside one. -/
theorem Shape.path_or_cut (sh : Shape) (bits : List Bool) :
    (∃ p ∈ sh.paths, p.2 <+: bits) ∨ ∃ p ∈ sh.paths, bits <+: p.2 ∧ bits ≠ p.2 := by
  induction sh generalizing bits with
  | leaf sym => exact .inl ⟨_, List.mem_singleton_self _, List.nil_prefix⟩
  | node l r ihl ihr =>
    cases bits with
    | nil =>
      obtain ⟨p, hp⟩ := List.exists_mem_of_ne_nil _ (Shape.paths_ne_nil (.node l r))
      have hpos := Shape.path_length_pos rfl hp
      exact .inr ⟨p, hp, List.nil_prefix, fun hnil => by rw [← hnil] at hpos; cases hpos⟩
    | cons b bits =>
      have hpaths : ∀ p ∈ (if b then r else l).paths, (p.1, b :: p.2) ∈ (Shape.node l r).paths := fun p hp => by
        cases b
        · exact Shape.mem_paths_node.2 (.inl ⟨p, hp, rfl⟩)
        · exact Shape.mem_paths_node.2 (.inr ⟨p, hp, rfl⟩)
      have hchild : (∃ p ∈ (if b then r else l).paths, p.2 <+: bits) ∨
          ∃ p ∈ (if b then r else l).paths, bits <+: p.2 ∧ bits ≠ p.2 := by
        cases b
        · exact ihl bits
        · exact ihr bits
      refine hchild.imp (fun ⟨p, hp, hpre⟩ => ⟨_, hpaths p hp, ?_⟩) fun ⟨p, hp, hpre, hne⟩ => ⟨_, hpaths p hp, ?_, ?_⟩
      · exact List.cons_prefix_cons.2 ⟨rfl, hpre⟩
      · exact List.cons_prefix_cons.2 ⟨rfl, hpre⟩
      · simpa using hne

/-- Bits are paths of leaves, and what is left stops inside one. -/
theorem Shape.paths_and_cut (hs : sh.single = false) (bits : List Bool) :
    ∃ (ys : List (Byte × List Bool)) (q : List Bool), (∀ y ∈ ys, y ∈ sh.paths) ∧
      bits = ys.flatMap Prod.snd ++ q ∧ ∃ p ∈ sh.paths, q <+: p.2 ∧ q ≠ p.2 := by
  induction hn : bits.length using Nat.strong_induction_on generalizing bits with
  | _ n ih =>
    obtain ⟨p, hp, more, rfl⟩ | hcut := sh.path_or_cut bits
    · have hpos := Shape.path_length_pos hs hp
      rw [List.length_append] at hn
      obtain ⟨ys, q, hys, hmore, hq⟩ := ih more.length (by omega) more rfl
      refine ⟨p :: ys, q, List.forall_mem_cons.2 ⟨hp, hys⟩, ?_, hq⟩
      rw [List.flatMap_cons, List.append_assoc, ← hmore]
    · exact ⟨[], bits, List.forall_mem_nil _, rfl, hcut⟩

/-! ### Every stream -/

/-- DECODE completes, and its stream is taken through its End and no further. -/
def Consumes (rest : List InTok) (s : State) : Prop :=
  ∃ t : State, exec .decode s = .next t ∧ busy t = false ∧ t.status.done = true ∧ t.la = none ∧ t.inp = rest

theorem consumes_single (hs : Started s) (ht : FullTurn s) (ha : ahead s = inBytes x ++ .eos :: rest)
    (hx : byteBits x = [true, false] ++ bits) : Consumes rest s := by
  by_cases h40 : bits.length < 40
  · obtain ⟨rd, hexec⟩ := exec_decode_single_cut hs ht ha hx h40
    exact ⟨_, hexec, rfl, rfl, rfl, rfl⟩
  · obtain ⟨sym, more, rfl⟩ := exists_bitsOf_append (n := 8) (bits := bits) (by omega)
    rw [List.length_append, bitsOf_length] at h40
    obtain ⟨count, more, rfl⟩ := exists_bitsOf_append (n := 32) (bits := more) (by omega)
    rw [← List.append_assoc, ← List.append_assoc] at hx
    obtain ⟨acc, hexec⟩ := decodeSingleFrame s x rest sym count more hs ht ha hx
    exact ⟨_, hexec, rfl, rfl, rfl, rfl⟩

theorem consumes_walk (hs : Started s) (ht : FullTurn s) (ha : ahead s = inBytes x ++ .eos :: rest)
    (hx : (byteBits x).take 5 = [false, true] ++ bitsOf 3 f)
    (hbits : (limitedBits (f.toNat + 1) x).drop 5 = sh.bits ++ more) (hsingle : sh.single = false)
    (hn : sh.nodes ≤ 511) : Consumes rest s := by
  obtain ⟨ys, q, hys, rfl, p, hp, hq, hne⟩ := Shape.paths_and_cut hsingle more
  rcases eq_or_ne q [] with rfl | hnil
  · rw [List.append_nil] at hbits
    obtain ⟨tr, rd, hexec, -⟩ := decodeHuffmanFrame s x rest f sh ys hs ht ha hx hbits hsingle hn hys
    exact ⟨_, hexec, rfl, rfl, rfl, rfl⟩
  · rw [← List.append_assoc] at hbits
    obtain ⟨rd, tr, hexec, -⟩ := exec_decode_walk_cut hs ht ha hx hsingle hn hys hp hq hne hnil hbits
    exact ⟨_, hexec, rfl, rfl, rfl, rfl⟩

theorem consumes_huffman (hs : Started s) (ht : FullTurn s) (ha : ahead s = inBytes x ++ .eos :: rest)
    (hx : (byteBits x).take 5 = [false, true] ++ bitsOf 3 f) : Consumes rest s := by
  cases treeParse 1 511 ((limitedBits (f.toNat + 1) x).drop 5) with
  | cut ns cut hun hbits hcut =>
    obtain ⟨rd, tr, hexec, -⟩ := exec_decode_tree_cut hs ht ha hx hun hbits
      (hcut.imp id fun ⟨hhead, hlen, hlt⟩ => ⟨hhead, hlen, Nat.le_of_lt_succ hlt⟩)
    exact ⟨_, hexec, rfl, rfl, rfl, rfl⟩
  | full ns tag more hun hlen hbits =>
    obtain ⟨rd, tr, hexec, -⟩ := exec_decode_tree_full hs ht ha hx hun hlen hbits
    exact ⟨_, hexec, rfl, rfl, rfl, rfl⟩
  | whole shs more hlen hroom hbits =>
    obtain ⟨sh, rfl⟩ := List.length_eq_one_iff.1 hlen
    rw [List.flatMap_singleton] at hbits
    cases sh with
    | leaf sym =>
      obtain ⟨rd, tr, hexec, -⟩ := exec_decode_degenerate hs ht ha hx hbits
      exact ⟨_, hexec, rfl, rfl, rfl, rfl⟩
    | node l r => exact consumes_walk hs ht ha hx hbits rfl hroom

/-- Settles O50: a stream of whole bytes is empty or begins with a tag, and its bits are, node by node and path by path,
those of a statement that says what DECODE leaves. -/
theorem decodeConsumesItsStream : Obligations.DecodeConsumesItsStream := by
  intro s x rest hs ht ha
  rcases eq_or_ne x [] with rfl | hne
  · exact ⟨_, exec_decode_nil hs ht ha, rfl, rfl, rfl, rfl⟩
  have hlen : 8 ≤ (byteBits x).length := by
    have := List.length_pos_iff.2 hne
    rw [byteBits_length]
    omega
  obtain ⟨tag, bits, hx⟩ := exists_bitsOf_append (n := 2) (bits := byteBits x) (by omega)
  match tag with
  | 0 => exact ⟨_, decodeRawFrame s x rest bits _ hs ht ha hx (List.getLast?_eq_some_getLast hne), rfl, rfl, rfl, rfl⟩
  | 1 => exact consumes_single hs ht ha hx
  | 2 =>
    rw [hx, List.length_append, bitsOf_length] at hlen
    obtain ⟨f, more, rfl⟩ := exists_bitsOf_append (n := 3) (bits := bits) (by omega)
    refine consumes_huffman (f := f) hs ht ha ?_
    rw [hx]
    rfl
  | 3 =>
    obtain ⟨rd, hexec⟩ := exec_decode_badMode hs ht ha hx
    exact ⟨_, hexec, rfl, rfl, rfl, rfl⟩

end Sys2Proof.Machine

/-!
## EndTokens

ENCODE and DECODE append one End or Abort, last (60_exceptions.md R373). A task that stands before the end token puts
only such tasks on the list; one that stands for the rest of the body (`carriesEnd`) is the last of its list and puts
on it what ends once; and no task but the one that appends it puts anything but bytes on OUT. The section ends with the
two resets, which need no lemma of their own (70_reset_and_hazards.md R400, R401).
-/

namespace Sys2Proof.Machine

variable {i : Instr} {s t u : State} {c : Command} {k x : Task} {rest ts : List Task}

/-! ### Lists that append one end token -/

/-- A task that may stand before the end token: it is no part of what appends it, and no error's completion. -/
def beforeEnd (k : Task) : Bool := !carriesEnd k && !isFail k

/-- A task that appends End or Abort itself. -/
def appendsEnd : Task → Bool
  | .out .eos | .out .abort => true
  | _ => false

theorem beforeEnd_iff : beforeEnd k = true ↔ carriesEnd k = false ∧ isFail k = false := by simp [beforeEnd]

theorem appendsEnd_iff : appendsEnd k = true ↔ k = .out .eos ∨ k = .out .abort := by
  unfold appendsEnd
  split <;> simp_all

theorem carriesEnd_of_appendsEnd (hk : appendsEnd k = true) : carriesEnd k = true := by
  obtain rfl | rfl := appendsEnd_iff.1 hk <;> rfl

theorem endsOnce_cons_of_beforeEnd (hk : beforeEnd k = true) : endsOnce (k :: rest) = endsOnce rest := by
  obtain ⟨hc, hf⟩ := beforeEnd_iff.1 hk
  simp [endsOnce, hc, hf]

/-- Tasks before the end token change nothing about the tasks behind them. -/
theorem endsOnce_append (hts : ts.all beforeEnd = true) : endsOnce (ts ++ rest) = endsOnce rest := by
  induction ts with
  | nil => rfl
  | cons k ts ih =>
    obtain ⟨hk, hts⟩ : beforeEnd k = true ∧ ts.all beforeEnd = true := by simpa using hts
    rw [List.cons_append, endsOnce_cons_of_beforeEnd hk, ih hts]

/-- Behind End there is the result to set, behind Abort the error's completion. -/
theorem afterEnd_of_appendsEnd (hk : appendsEnd k = true) (h : afterEnd k rest = true) :
    (k = .out .eos ∧ ∃ n, rest = [.setRet n]) ∨ (k = .out .abort ∧ ∃ e, rest = [.fail e]) := by
  obtain rfl | rfl := appendsEnd_iff.1 hk <;> unfold afterEnd at h <;> split at h <;> simp_all

theorem afterEnd_of_not_appendsEnd (hk : appendsEnd k = false) : afterEnd k rest = rest.isEmpty := by
  cases k
  case out tok =>
    cases tok with
    | byte b => rfl
    | eos | abort => cases hk
  all_goals rfl

/-- The first task of a list that ends once: one before the end token, one that stands for all that is left, or the end
token's own. -/
theorem endsOnce_cons (h : endsOnce (k :: rest) = true) :
    (beforeEnd k = true ∧ endsOnce rest = true) ∨ (carriesEnd k = true ∧ appendsEnd k = false ∧ rest = []) ∨
      (k = .out .eos ∧ ∃ n, rest = [.setRet n]) ∨ (k = .out .abort ∧ ∃ e, rest = [.fail e]) := by
  rw [endsOnce] at h
  cases hc : carriesEnd k <;> simp only [hc, Bool.false_eq_true, if_false, if_true] at h
  · obtain ⟨hf, hrest⟩ : isFail k = false ∧ endsOnce rest = true := by simpa using h
    exact .inl ⟨beforeEnd_iff.2 ⟨hc, hf⟩, hrest⟩
  · cases ha : appendsEnd k
    · rw [afterEnd_of_not_appendsEnd ha] at h
      exact .inr (.inl ⟨rfl, rfl, List.isEmpty_iff.1 h⟩)
    · exact .inr (.inr (afterEnd_of_appendsEnd ha h))

/-- What is left once the end token is appended. -/
theorem ended_iff : ended ts = true ↔ ts = [] ∨ (∃ n, ts = [.setRet n]) ∨ ∃ e, ts = [.fail e] := by
  unfold ended
  split <;> simp_all

/-! ### What a task puts on the list -/

/-- The tasks put before `rest` are as `P` says. -/
def Pushes (P : List Task → Bool) (rest : List Task) : TaskResult → Prop
  | .ok t => ∃ ts, P ts = true ∧ t.seq = .run (ts ++ rest)
  | .hold | .err _ _ => True

section
variable {P : List Task → Bool}

theorem pushes_ok (hs : s.seq = .run rest) (hP : P [] = true := by rfl) (ht : t.seq = s.seq := by rfl) :
    Pushes P rest (.ok t) := ⟨[], hP, ht.trans hs⟩

theorem pushes_push (hs : s.seq = .run rest) (hP : P ts = true := by rfl) (ht : t.seq = s.seq := by rfl) :
    Pushes P rest (.ok (pushTasks ts t)) := ⟨ts, hP, pushTasks_seq_run t ts rest (ht.trans hs)⟩

end

/-- The end token's tasks are ENCODE's and DECODE's. -/
theorem ownTask_of_carriesEnd (hx : carriesEnd x = true) (h : ownTask i x = true) : i = .encode ∨ i = .decode := by
  cases x
  case out | encodeMode | encodeHeader | encodeFinish | decodeInit | decodeTag | decodeRaw | decodeSymbol |
      decodeCount | decodeMb | decodeWalked | decodeFinish =>
    cases i
    case encode => exact .inl rfl
    case decode => exact .inr rfl
    all_goals cases h
  all_goals cases hx

/-- A task of another command that makes no tree puts no task of the end token on the list, and no completion. -/
theorem runTask_pushes_of_ownTask (j : Instr) (hs : s.seq = .run rest) (he : j ≠ .encode := by nofun)
    (hd : j ≠ .decode := by nofun) (hj : ownTask j k = true := by rfl) (hk : isFail k = false := by rfl)
    (hw : .tree ∉ k.writes := by simp [Task.writes]) : Pushes (·.all beforeEnd) rest (runTask k s) := by
  have hdoes := runTask_does k hs hk
  cases hr : runTask k s with
  | hold | err e t => trivial
  | ok t =>
    rw [hr] at hdoes
    obtain ⟨-, ts, hts, hseq⟩ := hdoes
    refine ⟨ts, List.all_eq_true.2 fun x hx => beforeEnd_iff.2 ⟨?_, ?_⟩, hseq⟩
    · by_contra hc
      exact (ownTask_of_carriesEnd (by simpa using hc) (ownTask_of_mayFollow hts hj hx)).elim he hd
    · have hdata := carriesData_of_mayFollow hts hw hx
      cases x
      case fail => cases hdata
      all_goals rfl

theorem deserNext_pushes (ps : List Pending) (hs : s.seq = .run rest) :
    Pushes (·.all beforeEnd) rest (deserNext ps s) := by
  rw [deserNext]
  split
  · exact pushes_ok hs
  · exact pushes_push hs

/-- The tasks that make TREE put no completion on the list either: they raise their errors. -/
theorem runTask_pushes_of_writesTree (hw : .tree ∈ k.writes) (hs : s.seq = .run rest) :
    Pushes (·.all beforeEnd) rest (runTask k s) := by
  cases k
  case build =>
    simp only [runTask, taskBuild]
    split
    · trivial
    · rw [writeNodes_frame]
      exact pushes_push hs
  case buildMerge q n =>
    rw [runTask, taskBuildMerge]
    split
    · trivial
    · split
      · exact pushes_ok hs
      · exact pushes_push hs
  case deserialize => exact pushes_push hs
  case deserTag ps =>
    simp only [runTask, taskDeserTag]
    split
    · trivial
    · split
      · trivial
      · split
        · exact deserNext_pushes _ ((linkChild_seq ..).trans hs)
        · exact pushes_push hs
  case deserSymbol ps n =>
    simp only [runTask, taskDeserSymbol]
    split
    · trivial
    · refine deserNext_pushes _ ((linkChild_seq ..).trans ?_)
      split <;> exact hs
  all_goals simp [Task.writes] at hw

/-- A task before the end token puts only such tasks on the list. -/
theorem runTask_pushes_beforeEnd (hk : beforeEnd k = true) (hs : s.seq = .run rest) :
    Pushes (·.all beforeEnd) rest (runTask k s) := by
  cases k
  case enter | out | setRet | encodeInit => exact pushes_ok hs
  case outRepeat b n =>
    cases n with
    | zero => exact pushes_ok hs
    | succ n => exact pushes_push hs
  case drain =>
    rw [runTask, taskDrain]
    split
    · exact pushes_ok hs
    · split
      · trivial
      · next u hu =>
        rw [(inRead_some hu).2]
        exact pushes_ok hs
      · next b u hu =>
        rw [(inRead_some hu).2]
        exact pushes_push hs
  case build | buildMerge | deserialize | deserTag | deserSymbol =>
    exact runTask_pushes_of_writesTree (by simp [Task.writes]) hs
  case put | retPushed => exact runTask_pushes_of_ownTask .packBit hs
  case flush => exact runTask_pushes_of_ownTask .flush hs
  case get | askBit | retBit => exact runTask_pushes_of_ownTask .unpackBit hs
  case askByte | retByte => exact runTask_pushes_of_ownTask .unpackByte hs
  case unpackReset => exact runTask_pushes_of_ownTask .unpackReset hs
  case load | loadLoop | loadDiscard => exact runTask_pushes_of_ownTask .load hs
  case count => exact runTask_pushes_of_ownTask .count hs
  case gencode | gencodeWalk => exact runTask_pushes_of_ownTask .gencode hs
  case emit | emitLoop => exact runTask_pushes_of_ownTask .emit hs
  case serialize | serializeWalk => exact runTask_pushes_of_ownTask .serialize hs
  case walk | walkBit => exact runTask_pushes_of_ownTask .walk hs
  all_goals cases hk

/-- A task that stands for the rest of the body puts what appends one end token. -/
theorem runTask_pushes_endsOnce (hk : carriesEnd k = true) (ha : appendsEnd k = false) (hs : s.seq = .run []) :
    Pushes endsOnce [] (runTask k s) := by
  cases k
  case out tok => cases tok <;> contradiction
  case encodeMode =>
    simp only [runTask, taskEncodeMode]
    split
    · exact pushes_push hs
    · split <;> exact pushes_push hs
  case encodeHeader | encodeFinish | decodeInit | decodeWalked | decodeFinish => exact pushes_push hs
  case decodeTag =>
    simp only [runTask, taskDecodeTag]
    split
    · split
      · exact pushes_push hs
      · trivial
    · split
      · trivial
      · split
        · exact pushes_push hs
        · split <;> exact pushes_push hs
  case decodeRaw n =>
    rw [runTask, taskDecodeRaw]
    split <;> exact pushes_push hs
  case decodeSymbol | decodeCount | decodeMb =>
    simp only [runTask, taskDecodeSymbol, taskDecodeCount, taskDecodeMb]
    split
    · trivial
    · exact pushes_push hs
  all_goals cases hk

/-- A list that ends once still does after the step of its first task, unless that appends the end token. -/
theorem runTask_endsOnce (h : endsOnce (k :: rest) = true) (ha : appendsEnd k = false) (hs : s.seq = .run rest)
    (hr : runTask k s = .ok t) : ∃ ts, t.seq = .run ts ∧ endsOnce ts = true := by
  obtain ⟨hk, hrest⟩ | ⟨hk, -, rfl⟩ | ⟨rfl, -⟩ | ⟨rfl, -⟩ := endsOnce_cons h
  · have hp := runTask_pushes_beforeEnd hk hs
    rw [hr] at hp
    obtain ⟨ts, hts, hseq⟩ := hp
    exact ⟨_, hseq, (endsOnce_append hts).trans hrest⟩
  · have hp := runTask_pushes_endsOnce hk ha hs
    rw [hr] at hp
    obtain ⟨ts, hts, hseq⟩ := hp
    exact ⟨ts, hseq.trans (by rw [List.append_nil]), hts⟩
  · cases ha
  · cases ha

/-! ### What a task appends to OUT -/

/-- From `s` to `t` only Byte tokens are appended. -/
def AppendsBytes (s t : State) : Prop := ∃ bs : List Byte, t.out = s.out ++ outBytes bs

theorem appendsBytes_of_eq (h : t.out = s.out) : AppendsBytes s t := ⟨[], by rw [h]; exact (List.append_nil _).symm⟩

theorem appendsBytes_byte (b : Byte) (h : t.out = s.out ++ [.byte b]) : AppendsBytes s t := ⟨[b], h⟩

theorem AppendsBytes.trans (h : AppendsBytes s t) (h' : AppendsBytes t u) : AppendsBytes s u := by
  obtain ⟨bs, hbs⟩ := h
  obtain ⟨bs', hbs'⟩ := h'
  exact ⟨bs ++ bs', by rw [hbs', hbs, outBytes, outBytes, outBytes, List.map_append, List.append_assoc]⟩

/-- Every task that writes OUT but the end token's own. -/
theorem runTask_appendsBytes (hw : .output ∈ k.writes) (ha : appendsEnd k = false) (h : (runTask k s).leaves t) :
    AppendsBytes s t := by
  cases k
  case put bits =>
    cases bits with
    | nil => cases h; exact appendsBytes_of_eq rfl
    | cons b bs =>
      cases h
      rcases writeBit_cases b s with ⟨-, hb⟩ | ⟨-, hb⟩ <;> rw [hb]
      · exact appendsBytes_of_eq (pushTasks_out ..)
      · exact appendsBytes_byte _ (pushTasks_out ..)
  case flush =>
    cases h
    rcases flushPacker_cases s with ⟨-, hb⟩ | ⟨-, hb⟩ <;> rw [hb]
    · exact appendsBytes_of_eq rfl
    · exact appendsBytes_byte _ rfl
  case out tok =>
    cases h
    cases tok with
    | byte b => exact appendsBytes_byte b rfl
    | eos | abort => cases ha
  case outRepeat b n =>
    cases n with
    | zero => cases h; exact appendsBytes_of_eq rfl
    | succ n => cases h; exact appendsBytes_byte b (pushTasks_out ..)
  case walkBit x n =>
    simp only [runTask, taskWalkBit] at h
    split at h
    · split at h <;> cases h <;> exact appendsBytes_of_eq rfl
    · split at h
      · cases h; exact appendsBytes_of_eq rfl
      · split at h <;> cases h
        · exact appendsBytes_byte _ (pushTasks_out ..)
        · exact appendsBytes_of_eq (pushTasks_out ..)
  case decodeRaw n =>
    rw [runTask, taskDecodeRaw] at h
    split at h <;> cases h
    · exact appendsBytes_of_eq (pushTasks_out ..)
    · exact appendsBytes_byte _ (pushTasks_out ..)
  all_goals simp [Task.writes] at hw

/-- A core step appends bytes only, unless its task is the end token's own. -/
theorem coreStep_appendsBytes (h : coreStep c s = some t)
    (ha : ∀ k ks, s.seq = .run (k :: ks) → appendsEnd k = false) : AppendsBytes s t := by
  have task {k : Task} {ks : List Task} {v : State} (hs : s.seq = .run (k :: ks)) (hkeep : KeepsBut k.writes s v)
      (hv : (runTask k { s with seq := .run ks }).leaves v) : AppendsBytes s v := by
    by_cases hw : .output ∈ k.writes
    · exact runTask_appendsBytes (s := { s with seq := .run ks }) hw (ha k ks hs) hv
    · exact appendsBytes_of_eq (hkeep .output hw)
  rcases coreStep_does h with ⟨-, rfl⟩ | ⟨-, rfl⟩ | ⟨e, ks, -, rfl⟩ | ⟨k, ks, ts, hs, -, hr, hkeep, -⟩ |
    ⟨k, ks, e, v, hs, -, hr, hkeep, -, -, rfl⟩
  · exact appendsBytes_of_eq (beginCommand_keeps c s .output (by simp))
  · exact appendsBytes_of_eq rfl
  · exact appendsBytes_of_eq rfl
  · exact task hs hkeep (by rw [hr]; rfl)
  · exact task (v := v) hs hkeep (by rw [hr]; rfl)

/-! ### Turns -/

/-- The end token that a turn from before it to `t` has appended, if any. -/
def endToken (t : State) : List OutTok :=
  if endToCome t then [] else [if endsInError t = true then .abort else .eos]

/-- `t` follows `s` in ENCODE or DECODE: bytes are appended and then the end token, or nothing any more. -/
structure EndFollows (s t : State) : Prop where
  oneEnd : OneEnd t
  before : endToCome s = true → ∃ bs : List Byte, t.out = s.out ++ outBytes bs ++ endToken t
  after : endToCome s = false → t.out = s.out ∧ endToCome t = false ∧ endsInError t = endsInError s

theorem endFollows_refl (h : OneEnd s) : EndFollows s s where
  oneEnd := h
  before hs := ⟨[], by simp [endToken, hs]⟩
  after hs := ⟨rfl, hs, rfl⟩

theorem EndFollows.trans (h : EndFollows s t) (h' : EndFollows t u) : EndFollows s u where
  oneEnd := h'.oneEnd
  before hs := by
    obtain ⟨bs, hbs⟩ := h.before hs
    cases ht : endToCome t
    · obtain ⟨hout, hu, herr⟩ := h'.after ht
      exact ⟨bs, by rw [hout, hbs, endToken, endToken, ht, hu, herr]⟩
    · obtain ⟨bs', hbs'⟩ := h'.before ht
      exact ⟨bs ++ bs', by simp [hbs', hbs, endToken, ht]⟩
  after hs := by
    obtain ⟨hout, ht, herr⟩ := h.after hs
    obtain ⟨hout', hu, herr'⟩ := h'.after ht
    exact ⟨hout'.trans hout, hu, herr'.trans herr⟩

/-- A step to a point before the end token. -/
theorem endFollows_before (hs : endToCome s = true) (hout : AppendsBytes s t) (ht : t.seq = .run ts)
    (hts : endsOnce ts = true) : EndFollows s t where
  oneEnd := by simp [OneEnd, ht, hts]
  before _ := by
    obtain ⟨bs, hbs⟩ := hout
    exact ⟨bs, by simp [hbs, endToken, endToCome, ht, hts]⟩
  after hs' := by rw [hs] at hs'; cases hs'

/-- A step of a command whose end token is appended: nothing follows it but the completion. -/
theorem coreStep_ended (hs : s.seq = .run ts) (hts : ended ts = true) (h : coreStep c s = some t) :
    EndFollows s t := by
  have hnone : endToCome s = false := by simp [endToCome, hs, endsOnce_of_ended hts]
  have before : endToCome s = true → ∃ bs : List Byte, t.out = s.out ++ outBytes bs ++ endToken t := by simp [hnone]
  obtain rfl | ⟨n, rfl⟩ | ⟨e, rfl⟩ := ended_iff.1 hts
  · cases (coreStep_nil hs).symm.trans h
    exact ⟨trivial, before, fun _ => ⟨rfl, rfl, by simp [endsInError, hs]⟩⟩
  · cases (coreStep_task hs).symm.trans h
    exact ⟨.inr rfl, before, fun _ => ⟨rfl, rfl, by simp [endsInError, hs, isFail]⟩⟩
  · cases (coreStep_task hs).symm.trans h
    exact ⟨trivial, before, fun _ => ⟨rfl, rfl, by simp [endsInError, hs, isFail]⟩⟩

/-- ENCODE and DECODE check nothing, and their body and their error path append one end token. -/
theorem commandOf_endsOnce (hi : i = .encode ∨ i = .decode) (s : State) :
    (commandOf i).check s = none ∧ endsOnce ((commandOf i).body s) = true ∧
      ∀ e, endsOnce ((commandOf i).onError ++ [.fail e]) = true := by
  obtain rfl | rfl := hi <;> exact ⟨rfl, rfl, fun _ => rfl⟩

/-- The step that appends the end token. -/
theorem coreStep_appendsEnd (hk : appendsEnd k = true) (hs : s.seq = .run (k :: rest))
    (hends : endsOnce (k :: rest) = true) (h : coreStep c s = some t) : EndFollows s t := by
  have hcome : endToCome s = true := by simp [endToCome, hs, hends]
  have after : endToCome s = false → t.out = s.out ∧ endToCome t = false ∧ endsInError t = endsInError s := by
    simp [hcome]
  rw [endsOnce, if_pos (carriesEnd_of_appendsEnd hk)] at hends
  obtain ⟨rfl, n, rfl⟩ | ⟨rfl, e, rfl⟩ := afterEnd_of_appendsEnd hk hends <;>
    cases (coreStep_task hs).symm.trans h <;>
    exact ⟨.inr rfl, fun _ => ⟨[], by rw [outBytes, List.map_nil, List.append_nil]; rfl⟩, after⟩

/-- The start of ENCODE and DECODE. -/
theorem beginCommand_endFollows (hi : i = .encode ∨ i = .decode) (hs : s.seq = .start) :
    EndFollows s (beginCommand (commandOf i) s) := by
  obtain ⟨hcheck, hbody, -⟩ := commandOf_endsOnce hi s
  have hbegin : beginCommand (commandOf i) s = { clearWorking s with seq := .run ((commandOf i).body s) } := by
    rw [beginCommand, hcheck]
  rw [hbegin]
  exact endFollows_before (by simp [endToCome, hs]) (appendsBytes_of_eq rfl) rfl hbody

/-- A core step of ENCODE or DECODE from any point of it. -/
theorem coreStep_endFollows (hi : i = .encode ∨ i = .decode) (hone : OneEnd s)
    (h : coreStep (commandOf i) s = some t) : EndFollows s t := by
  rcases hs : s.seq with _ | _ | ts
  · cases (coreStep_idle hs).symm.trans h
  · cases (coreStep_start hs).symm.trans h
    exact beginCommand_endFollows hi hs
  simp only [OneEnd, hs] at hone
  obtain hended | hends := hone.symm
  · exact coreStep_ended hs hended h
  obtain _ | ⟨k, ks⟩ := ts
  · cases hends
  obtain ha | ha := Bool.eq_false_or_eq_true (appendsEnd k)
  · exact coreStep_appendsEnd ha hs hends h
  have hcome : endToCome s = true := by simp [endToCome, hs, hends]
  have hout : AppendsBytes s t := coreStep_appendsBytes h fun k' ks' hs' => by
    cases hs.symm.trans hs'
    exact ha
  obtain ⟨hstart, -⟩ | ⟨hnil, -⟩ | ⟨k', ks', hs', hr⟩ | ⟨k', ks', e, u, -, -, rfl⟩ := coreStep_cases h
  · cases hs.symm.trans hstart
  · cases hs.symm.trans hnil
  · cases hs.symm.trans hs'
    obtain ⟨ts, ht, hts⟩ := runTask_endsOnce hends ha (s := { s with seq := .run ks }) rfl hr
    exact endFollows_before hcome hout ht hts
  · obtain ⟨-, -, herror⟩ := commandOf_endsOnce hi s
    exact endFollows_before hcome hout (raiseError_seq ..) (herror e)

theorem wake_of_busy (h : busy s = true) : wake s = s := by
  rcases hs : s.seq with _ | _ | ts
  · simp [busy, hs] at h
  · exact wake_started hs
  · exact wake_of_run hs

theorem seq_of_not_busy (h : busy s = false) : s.seq = .idle := by
  rcases hs : s.seq with _ | _ | ts
  · rfl
  · simp [busy, hs] at h
  · simp [busy, hs] at h

/-- A turn of ENCODE or DECODE from any point of it. -/
theorem exec_endFollows (hi : i = .encode ∨ i = .decode) (hb : busy s = true) (hone : OneEnd s)
    (h : exec i s = .next t) : EndFollows s t := by
  rw [exec_next, wake_of_busy hb] at h
  cases h
  obtain ⟨hend, hbefore, hafter⟩ := coreRun_keeps (EndFollows s)
    (fun u v hu hv => hu.trans (coreStep_endFollows hi hu.oneEnd hv)) s.turn (endFollows_refl hone)
  exact ⟨hend, hbefore, hafter⟩

/-- A turn of another command appends bytes only. -/
theorem exec_appendsBytes (he : i ≠ .encode) (hd : i ≠ .decode) (hr : Runs i s) (h : exec i s = .next t) :
    AppendsBytes s t := by
  have step (u v : State) (hu : Runs i u ∧ AppendsBytes s u) (hv : coreStep (commandOf i) u = some v) :
      Runs i v ∧ AppendsBytes s v := by
    obtain ⟨hruns, hout⟩ := hu
    refine ⟨coreStep_runs hruns hv, hout.trans (coreStep_appendsBytes hv fun k ks hs => ?_)⟩
    by_contra ha
    have hc := carriesEnd_of_appendsEnd (by simpa using ha)
    exact (ownTask_of_carriesEnd hc ((runs_iff hs).1 hruns k List.mem_cons_self)).elim he hd
  rw [exec_next] at h
  cases h
  obtain ⟨-, hout⟩ := coreRun_keeps (fun u => Runs i u ∧ AppendsBytes s u) step s.turn
    ⟨wake_runs hr, appendsBytes_of_eq (wake_keeps s .output (by simp))⟩
  exact hout

/-! ### The statements -/

/-- Settles O55: the points of ENCODE and DECODE at which one end token is to come, or has come, follow each other. -/
theorem endAndAbortTokens : Obligations.EndAndAbortTokens := by
  refine ⟨fun i s t hi hb _ hone h => ?_, fun s hs => ?_, fun s hb => ?_, fun i s t he hd hr h =>
    exec_appendsBytes he hd hr h⟩
  · obtain ⟨hend, hbefore, hafter⟩ := exec_endFollows hi hb hone h
    refine ⟨hend, ?_, hafter⟩
    cases hs : endToCome s
    · obtain ⟨hout, -⟩ := hafter hs
      exact ⟨[], by simp [hout]⟩
    · obtain ⟨bs, hbs⟩ := hbefore hs
      refine ⟨bs, ?_⟩
      rw [hbs, endToken]
      cases endToCome t <;> rfl
  · simp [OneEnd, endToCome, hs]
  · simp [endToCome, endsInError, seq_of_not_busy hb]

/-- Settles O10: both resets are the model's one reset, the ports kept or emptied; CTRL is written at any time. -/
theorem resets : Obligations.Resets := by
  intro s v
  refine ⟨fun hv => ?_, rfl⟩
  rw [busWrite_ctrl, writeCtrl, if_pos hv]
  rfl

end Sys2Proof.Machine
